-- ==== Sys2Proof/Word.lean ====
section
/-!
DEFINITION. The word types of the module (01 R2, R3; 02 R22): bytes, 32-bit words and 64-bit double words.
-/
namespace Sys2Proof

/-- A byte. -/
abbrev Byte := BitVec 8

/-- A 32-bit word: an instruction word, a scalar register, one lane of a vector register. -/
abbrev Word := BitVec 32

/-- A 64-bit double word: a 64-bit token element, an address held in a register pair. -/
abbrev DWord := BitVec 64

/-- A lane mask: bit l stands for lane l (07 R134). -/
abbrev Mask := BitVec 32

end Sys2Proof
end

