-- ==== Sys2Proof/Syntax.lean ====
section
/-!
DEFINITION. The syntax of the machine: the one inductive Instr, a constructor for each row of the opcode table.
Rows 0 to 172 are the instructions of the block instruction set (02 R45); their fields are already split out, so no machine
definition sees an encoded field.
Rows 173 to 280 are the commands of the management function (14 R328) and the indivisible events of the module's other
agents (95); what the outside world or the module's scheduling supplies to an event is its operand.
-/
namespace Sys2Proof

/-- Guard modes (R39); the pattern 0b11 is reserved and has no constructor. -/
inductive Guard where
  | always | onTrue | onFalse
deriving DecidableEq, Repr

/-- What a result is delivered to (R36). The exit slot is not among them: only exit and exitv name it, and always. -/
inductive Target where
  | opA (i : BitVec 6) | opB (i : BitVec 6) | opC (i : BitVec 6) | guard (i : BitVec 6) | write (w : BitVec 5) | none
deriving DecidableEq, Repr

/-- Class A (R44): a 32-bit or 64-bit integer, wrapping, or a 32-bit one that saturates. -/
inductive ClsA where
  | i32 | i64 | i32sat | n32sat
deriving DecidableEq, Repr

/-- Class S (R44): signed or unsigned, 32 or 64 bits. -/
inductive ClsS where
  | i32 | i64 | n32 | n64
deriving DecidableEq, Repr

/-- Class B (R44): 32 or 64 bits. -/
inductive ClsB where
  | b32 | b64
deriving DecidableEq, Repr

/-- Class L (R44): a shift count of 0 to 7. -/
inductive ClsL where
  | s0 | s1 | s2 | s3 | s4 | s5 | s6 | s7
deriving DecidableEq, Repr

/-- Class W (R44): the signedness of the 32-bit operand of addw. -/
inductive ClsW where
  | i32 | n32
deriving DecidableEq, Repr

/-- Class E (R44): the source of sext. -/
inductive ClsE where
  | i8 | i16 | i32 | n32
deriving DecidableEq, Repr

/-- Class CMP (R44): integer compares. -/
inductive ClsCmp where
  | eq | ne | lt | le | gt | ge | ltn | len
deriving DecidableEq, Repr

/-- Class SH (R44): forms of lxch. -/
inductive ClsSh where
  | from | back | fwd | flip
deriving DecidableEq, Repr

/-- Class V (R44): forms of vote. -/
inductive ClsV where
  | any | all | ballot | count
deriving DecidableEq, Repr

/-- Class RO (R44): reductions of redux and scan. -/
inductive ClsRo where
  | addI32 | minI32 | maxI32 | minN32 | maxN32 | and | or | xor
deriving DecidableEq, Repr

/-- Class LM (R44): forms of lmask. -/
inductive ClsLm where
  | self | below | upto | above | onward
deriving DecidableEq, Repr

/-- Class FR (R44): rounding modes. Class FR gives sub values 4 to 7 no meaning. -/
inductive Round where
  | rne | rz | ru | rd
deriving DecidableEq, Repr

/-- Class FC (R44): float compares. -/
inductive ClsFc where
  | eq | ne | lt | le | gt | ge | num | nan
deriving DecidableEq, Repr

/-- Class SC (R44): sine or cosine. -/
inductive ClsSc where
  | sin | cos
deriving DecidableEq, Repr

/-- Class PK (R44): packed element types. -/
inductive ClsPk where
  | f16 | bf16 | e4m3 | e5m2 | e2m1 | i8 | i4
deriving DecidableEq, Repr

/-- Class DI (R44): signedness of the two sides of an integer dot product (i signed, n unsigned). -/
inductive ClsDi where
  | ii | iu | ui | uu
deriving DecidableEq, Repr

/-- Class DF (R44): formats of the two sides of dot4.f8. -/
inductive ClsDf where
  | e4e4 | e4e5 | e5e4 | e5e5
deriving DecidableEq, Repr

/-- Class MM (R44): element type and shape of a matrix operation. -/
inductive ClsMm where
  | bf16m16 | bf16m32 | f16m16 | f16m32 | e4m3m32 | e5m2m32 | e2m1m32 | i8m32
deriving DecidableEq, Repr

/-- Class LD (R44): element width and transposition of ldm and stm. -/
inductive ClsLd where
  | b16 | b16t | b8 | b8t | b4 | b32
deriving DecidableEq, Repr

/-- Class P (R44): where prf brings a line. -/
inductive ClsP where
  | l1 | l2
deriving DecidableEq, Repr

/-- Class CW (R44): the counter that waitc waits on. -/
inductive ClsCw where
  | d | x | k
deriving DecidableEq, Repr

/-- Class CR (R44): reductions of cp.red. -/
inductive ClsCr where
  | addI32 | addF32 | addBf16 | minI32 | maxI32 | minF32 | maxF32
deriving DecidableEq, Repr

/-- Type codes of cvt (R43). -/
inductive NumTy where
  | i8 | i16 | i32 | i64 | n8 | n16 | n32 | n64 | f16 | bf16 | f32 | f64 | e4m3 | e5m2 | e2m1
deriving DecidableEq, Repr

/-- Operations of atomics (R42). -/
inductive AtomOp where
  | add | minS | maxS | minU | maxU | and | or | xor | exch | inc | dec | addF32
deriving DecidableEq, Repr

/-- Order of an atomic (R41). -/
inductive Order where
  | relaxed | acquire | release | acqRel
deriving DecidableEq, Repr

/-- The two 16-bit float formats of class H (R44, bit 2 of sub). -/
inductive HFmt where
  | f16 | bf16
deriving DecidableEq, Repr

/-- Compares of hcmp2 (R44, class H). -/
inductive HCmp where
  | eq | ne | lt | le
deriving DecidableEq, Repr

/-- Class H of hadd2, hmul2 and hfma2 (R44): a format and a rounding mode. -/
structure ClsH where
  fmt : HFmt
  rnd : Round
deriving DecidableEq, Repr

/-- Class H of hcmp2 (R44): a format and a compare. -/
structure ClsHc where
  fmt : HFmt
  cmp : HCmp
deriving DecidableEq, Repr

/-- Scopes of R25, widest last. The code 0b000 (no scope) is a header value only. -/
inductive Scope where
  | warp | group | die | device | system
deriving DecidableEq, Repr

/-- Kinds of region (10 R203). -/
inductive RKind where
  | plain | stepped | prio
deriving DecidableEq, Repr

/-- Collision rules of a stepped region (10 R207). -/
inductive RRule where
  | fault | prioHigh | prioLow | addI32 | addsI32 | addF32 | minI32 | minN32 | minF32 | maxI32 | maxN32 | maxF32 | or | and
deriving DecidableEq, Repr

/-- The two register windows of the host (14 R323). -/
inductive Bar where
  | bar0 | bar2
deriving DecidableEq, Repr

/-- A P-256 public key, by its affine coordinates (21 R472). -/
structure PubKey where
  x : BitVec 256
  y : BitVec 256
deriving DecidableEq, Repr

/-- An ECDSA P-256 signature. -/
structure Signature where
  r : BitVec 256
  s : BitVec 256
deriving DecidableEq, Repr

/-- A firmware image (21 R472): its bytes, its security version, the SHA-256 digest it carries, the key that signed it and the signature over
the digest. -/
structure FwImage where
  body    : List Byte
  version : Word
  digest  : BitVec 256
  key     : PubKey
  sig     : Signature
deriving DecidableEq, Repr

/-- SPDM requests of the DOE mailbox (21 R474); `other` is any request the responder does not support. -/
inductive SpdmReq where
  | getVersion | getCapabilities | negotiateAlgorithms | getDigests | getCertificate | challenge | getMeasurements
  | keyExchange | other
deriving DecidableEq, Repr

/-- What the module's sensors show at a telemetry sample (21 R476): powers in mW, temperatures in 0.1 degrees, and whether the
module withholds issue cycles. -/
structure Sensors where
  power    : Word
  dies     : List Word
  hottest  : Word
  inlet    : Word
  outlet   : Word
  withheld : Word
  withholding : Bool
deriving DecidableEq, Repr

/-- States of a peer port (14 R332). -/
inductive PortState where
  | disabled | training | up | down
deriving DecidableEq, Repr

/-- One access of the host or a peer through the HDM decoder (14 R321, R332), at a host offset. -/
inductive BusOp where
  | read   (off len : Nat)
  | write  (off : Nat) (data : List Byte)
  | atomic (op : AtomOp) (off : Nat) (wide : Bool) (b : DWord)
deriving DecidableEq, Repr

/-- A host-window line whose ownership the host takes (14 R322), and the bytes it stores into it from an offset on (09 R188). -/
structure HostTake where
  line : Nat
  off  : Nat
  data : List Byte
deriving DecidableEq, Repr

/-- Where an ECC error lies (18 R439). -/
inductive EccPlace where
  | dram (pa : Nat) | dieL2 (die : BitVec 2) (pa : Nat) | hubCache (pa : Nat) | coreCache (core : BitVec 8) (pa : Nat)
  | scalarCache (core : BitVec 8) (ctx : BitVec 8) (pa : Nat)
  | vreg (w : Nat) (reg : BitVec 8) (lane : BitVec 5) | sreg (w : Nat) (reg : BitVec 9)
  | spad (gid : Nat) (addr : Nat) | tile (p : Nat) (addr : Nat) | frame (w : Nat) | image (core : BitVec 8) (ctx : BitVec 8) (pa : Nat)
  | tables (ctx : BitVec 8) (pa : Nat) | fabric (p : Nat) | linkBuf (d : BitVec 2)
deriving DecidableEq, Repr

/-- An ECC error (18 R439, R441): where it lies and whether it was corrected. -/
structure EccError where
  place     : EccPlace
  corrected : Bool
deriving DecidableEq, Repr

/-- One constructor per row of the opcode table. `g` is the guard, `s` the sub field, `ta` to `td` and `t` the targets. -/
inductive Instr where
  /-- ADD (R339). -/
  | add (g : Guard) (s : ClsA) (ta tb : Target)
  /-- SUB (R339). -/
  | sub (g : Guard) (s : ClsA) (ta tb : Target)
  /-- MUL (R339). -/
  | mul (g : Guard) (s : ClsA) (ta tb : Target)
  /-- MULHI (R340). -/
  | mulhi (g : Guard) (s : ClsS) (ta tb : Target)
  /-- MAD (R339). -/
  | mad (g : Guard) (s : ClsA) (ta tb : Target)
  /-- DIV (R341). -/
  | div (g : Guard) (s : ClsS) (ta tb : Target)
  /-- REM (R341). -/
  | rem (g : Guard) (s : ClsS) (ta tb : Target)
  /-- NEG (R339). -/
  | neg (g : Guard) (s : ClsA) (ta tb : Target)
  /-- ABS (R339). -/
  | abs (g : Guard) (s : ClsA) (ta tb : Target)
  /-- MIN (R340). -/
  | min (g : Guard) (s : ClsS) (ta tb : Target)
  /-- MAX (R340). -/
  | max (g : Guard) (s : ClsS) (ta tb : Target)
  /-- AND (R343). -/
  | and (g : Guard) (s : ClsB) (ta tb : Target)
  /-- OR (R343). -/
  | or (g : Guard) (s : ClsB) (ta tb : Target)
  /-- XOR (R343). -/
  | xor (g : Guard) (s : ClsB) (ta tb : Target)
  /-- NOT (R343). -/
  | not (g : Guard) (s : ClsB) (ta tb : Target)
  /-- ANDN (R343). -/
  | andn (g : Guard) (s : ClsB) (ta tb : Target)
  /-- SHL (R344). -/
  | shl (g : Guard) (s : ClsB) (ta tb : Target)
  /-- SHR (R344). -/
  | shr (g : Guard) (s : ClsB) (ta tb : Target)
  /-- SAR (R344). -/
  | sar (g : Guard) (s : ClsB) (ta tb : Target)
  /-- ROTL (R344). -/
  | rotl (g : Guard) (s : ClsB) (ta tb : Target)
  /-- CLZ (R345). -/
  | clz (g : Guard) (s : ClsB) (ta tb : Target)
  /-- POPC (R345). -/
  | popc (g : Guard) (s : ClsB) (ta tb : Target)
  /-- BREV (R345). -/
  | brev (g : Guard) (s : ClsB) (ta tb : Target)
  /-- BFE (R346). -/
  | bfe (g : Guard) (s : ClsS) (ta tb : Target)
  /-- BFI (R347). -/
  | bfi (g : Guard) (s : ClsB) (ta tb : Target)
  /-- LEA (R349). -/
  | lea (g : Guard) (s : ClsL) (ta tb : Target)
  /-- ADDW (R350). -/
  | addw (g : Guard) (s : ClsW) (ta tb : Target)
  /-- SEXT (R351). -/
  | sext (g : Guard) (s : ClsE) (ta tb : Target)
  /-- BSEL (R348). -/
  | bsel (g : Guard) (ta tb : Target)
  /-- MOV (R352). -/
  | mov (g : Guard) (s : ClsB) (ta tb : Target)
  /-- NULL (R354). -/
  | null (g : Guard) (ta tb : Target)
  /-- ADDI (R342). -/
  | addi (g : Guard) (imm : BitVec 12) (t : Target)
  /-- ANDI (R342). -/
  | andi (g : Guard) (imm : BitVec 12) (t : Target)
  /-- ORI (R342). -/
  | ori (g : Guard) (imm : BitVec 12) (t : Target)
  /-- XORI (R342). -/
  | xori (g : Guard) (imm : BitVec 12) (t : Target)
  /-- SHLI (R342). -/
  | shli (g : Guard) (imm : BitVec 12) (t : Target)
  /-- SHRI (R342). -/
  | shri (g : Guard) (imm : BitVec 12) (t : Target)
  /-- SARI (R342). -/
  | sari (g : Guard) (imm : BitVec 12) (t : Target)
  /-- MULI (R342). -/
  | muli (g : Guard) (imm : BitVec 12) (t : Target)
  /-- CMP (R356). -/
  | cmp (g : Guard) (s : ClsCmp) (ta tb : Target)
  /-- CMP64 (R356). -/
  | cmp64 (g : Guard) (s : ClsCmp) (ta tb : Target)
  /-- CMPI_EQ (R357). -/
  | cmpiEq (g : Guard) (imm : BitVec 12) (t : Target)
  /-- CMPI_NE (R357). -/
  | cmpiNe (g : Guard) (imm : BitVec 12) (t : Target)
  /-- CMPI_LT (R357). -/
  | cmpiLt (g : Guard) (imm : BitVec 12) (t : Target)
  /-- CMPI_LE (R357). -/
  | cmpiLe (g : Guard) (imm : BitVec 12) (t : Target)
  /-- CMPI_GT (R357). -/
  | cmpiGt (g : Guard) (imm : BitVec 12) (t : Target)
  /-- CMPI_GE (R357). -/
  | cmpiGe (g : Guard) (imm : BitVec 12) (t : Target)
  /-- SEL (R359). -/
  | sel (g : Guard) (s : ClsB) (ta tb : Target)
  /-- PAND (R358). -/
  | pand (g : Guard) (ta tb : Target)
  /-- POR (R358). -/
  | por (g : Guard) (ta tb : Target)
  /-- PXOR (R358). -/
  | pxor (g : Guard) (ta tb : Target)
  /-- PNOT (R358). -/
  | pnot (g : Guard) (ta tb : Target)
  /-- RFL (R361). -/
  | rfl (g : Guard) (s : ClsB) (ta tb : Target)
  /-- RDLN (R362). -/
  | rdln (g : Guard) (s : ClsB) (ta tb : Target)
  /-- WRLN (R363). -/
  | wrln (g : Guard) (s : ClsB) (ta tb : Target)
  /-- LXCH (R364). -/
  | lxch (g : Guard) (s : ClsSh) (ta tb : Target)
  /-- VOTE (R365). -/
  | vote (g : Guard) (s : ClsV) (ta tb : Target)
  /-- MATCH (R124). -/
  | matchKeys (g : Guard) (s : ClsB) (ta tb : Target)
  /-- REDUX (R366). -/
  | redux (g : Guard) (s : ClsRo) (ta tb : Target)
  /-- SCAN (R367). -/
  | scan (g : Guard) (s : ClsRo) (ta tb : Target)
  /-- LMASK (R368). -/
  | lmask (g : Guard) (s : ClsLm) (ta tb : Target)
  /-- BCAST (R369). -/
  | bcast (g : Guard) (s : ClsB) (ta tb : Target)
  /-- MSKZ (R370). -/
  | mskz (g : Guard) (ta tb : Target)
  /-- EXIT (R147). -/
  | exit (g : Guard) (imm : BitVec 12)
  /-- EXITV (R148). -/
  | exitv (g : Guard)
  /-- FADD (R382). -/
  | fadd (g : Guard) (s : Round) (ta tb : Target)
  /-- FSUB (R382). -/
  | fsub (g : Guard) (s : Round) (ta tb : Target)
  /-- FMUL (R382). -/
  | fmul (g : Guard) (s : Round) (ta tb : Target)
  /-- FFMA (R382). -/
  | ffma (g : Guard) (s : Round) (ta tb : Target)
  /-- FMIN (R384). -/
  | fmin (g : Guard) (ta tb : Target)
  /-- FMAX (R384). -/
  | fmax (g : Guard) (ta tb : Target)
  /-- FABS (R384). -/
  | fabs (g : Guard) (ta tb : Target)
  /-- FNEG (R384). -/
  | fneg (g : Guard) (ta tb : Target)
  /-- FCMP (R385). -/
  | fcmp (g : Guard) (s : ClsFc) (ta tb : Target)
  /-- FDIV (R382). -/
  | fdiv (g : Guard) (s : Round) (ta tb : Target)
  /-- FSQRT (R382). -/
  | fsqrt (g : Guard) (s : Round) (ta tb : Target)
  /-- FRCP (R386). -/
  | frcp (g : Guard) (ta tb : Target)
  /-- FRSQ (R386). -/
  | frsq (g : Guard) (ta tb : Target)
  /-- FEX2 (R387). -/
  | fex2 (g : Guard) (ta tb : Target)
  /-- FLG2 (R387). -/
  | flg2 (g : Guard) (ta tb : Target)
  /-- FSIN (R387). -/
  | fsin (g : Guard) (s : ClsSc) (ta tb : Target)
  /-- FCLASS (R388). -/
  | fclass (g : Guard) (ta tb : Target)
  /-- FRND (R389). -/
  | frnd (g : Guard) (s : Round) (ta tb : Target)
  /-- FSCALE (R390). -/
  | fscale (g : Guard) (s : Round) (ta tb : Target)
  /-- DADD (R391). -/
  | dadd (g : Guard) (s : Round) (ta tb : Target)
  /-- DSUB (R391). -/
  | dsub (g : Guard) (s : Round) (ta tb : Target)
  /-- DMUL (R391). -/
  | dmul (g : Guard) (s : Round) (ta tb : Target)
  /-- DFMA (R391). -/
  | dfma (g : Guard) (s : Round) (ta tb : Target)
  /-- DMIN (R391). -/
  | dmin (g : Guard) (ta tb : Target)
  /-- DMAX (R391). -/
  | dmax (g : Guard) (ta tb : Target)
  /-- DCMP (R391). -/
  | dcmp (g : Guard) (s : ClsFc) (ta tb : Target)
  /-- DDIV (R391). -/
  | ddiv (g : Guard) (s : Round) (ta tb : Target)
  /-- DSQRT (R391). -/
  | dsqrt (g : Guard) (s : Round) (ta tb : Target)
  /-- HADD2 (R392). -/
  | hadd2 (g : Guard) (s : ClsH) (ta tb : Target)
  /-- HMUL2 (R392). -/
  | hmul2 (g : Guard) (s : ClsH) (ta tb : Target)
  /-- HFMA2 (R392). -/
  | hfma2 (g : Guard) (s : ClsH) (ta tb : Target)
  /-- HMIN2 (R392). -/
  | hmin2 (g : Guard) (s : HFmt) (ta tb : Target)
  /-- HMAX2 (R392). -/
  | hmax2 (g : Guard) (s : HFmt) (ta tb : Target)
  /-- HCMP2 (R393). -/
  | hcmp2 (g : Guard) (s : ClsHc) (ta tb : Target)
  /-- CVT (R395). -/
  | cvt (g : Guard) (ta tb : Target) (src dst : NumTy) (rnd : Round) (sat : Bool)
  /-- PACK (R396). -/
  | pack (g : Guard) (s : ClsPk) (ta tb : Target)
  /-- UNPK (R397). -/
  | unpk (g : Guard) (s : ClsPk) (ta tb : Target)
  /-- DOT4_I8 (R398). -/
  | dot4I8 (g : Guard) (s : ClsDi) (ta tb : Target)
  /-- DOT8_I4 (R398). -/
  | dot8I4 (g : Guard) (s : ClsDi) (ta tb : Target)
  /-- DOT4_F8 (R399). -/
  | dot4F8 (g : Guard) (s : ClsDf) (ta tb : Target)
  /-- DOT8_F4 (R399). -/
  | dot8F4 (g : Guard) (ta tb : Target)
  /-- DOT2_BF (R399). -/
  | dot2Bf (g : Guard) (ta tb : Target)
  /-- LD_G (R421). -/
  | ldG (g : Guard) (slot : BitVec 5) (imm : BitVec 7) (t : Target)
  /-- ST_G (R423). -/
  | stG (g : Guard) (slot : BitVec 5) (imm : BitVec 7)
  /-- LD_K (R422). -/
  | ldK (g : Guard) (slot : BitVec 5) (imm : BitVec 7) (t : Target)
  /-- LD_S (R421). -/
  | ldS (g : Guard) (slot : BitVec 5) (imm : BitVec 7) (t : Target)
  /-- ST_S (R423). -/
  | stS (g : Guard) (slot : BitVec 5) (imm : BitVec 7)
  /-- ST_STEP (R219). -/
  | stStep (g : Guard) (slot : BitVec 5) (imm : BitVec 7)
  /-- STP (R219). -/
  | stp (g : Guard) (slot : BitVec 5) (imm : BitVec 7)
  /-- ATOM (R426). -/
  | atom (g : Guard) (ta tb : Target) (op : AtomOp) (ord : Order) (sc : Scope) (slot : BitVec 5)
  /-- RED (R428). -/
  | red (g : Guard) (op : AtomOp) (ord : Order) (sc : Scope) (slot : BitVec 5)
  /-- CAS (R426). -/
  | cas (g : Guard) (ta tb : Target) (ord : Order) (sc : Scope) (slot : BitVec 5)
  /-- ATOM_S (R426). -/
  | atomS (g : Guard) (ta tb : Target) (op : AtomOp) (ord : Order) (sc : Scope) (slot : BitVec 5)
  /-- PRF (R429). -/
  | prf (g : Guard) (s : ClsP)
  /-- CWB (R430). -/
  | cwb (g : Guard)
  /-- CINV (R430). -/
  | cinv (g : Guard)
  /-- PFENCE (R184). -/
  | pfence (g : Guard) (imm : BitVec 12)
  /-- WAITC (R249). -/
  | waitc (g : Guard) (s : ClsCw)
  /-- RGN_DEF (R216). -/
  | rgnDef (g : Guard) (rule : RRule) (kind : RKind) (num : BitVec 3)
  /-- RGN_FREE (R217). -/
  | rgnFree (g : Guard)
  /-- RGN_STAT (R218). -/
  | rgnStat (g : Guard) (ta tb : Target)
  /-- STEP (R220). -/
  | step (g : Guard)
  /-- STEP_Q (R220). -/
  | stepQ (g : Guard) (ta tb : Target)
  /-- BAR_INIT (R241). -/
  | barInit (g : Guard) (sc : Scope)
  /-- BAR_ARV (R242). -/
  | barArv (g : Guard)
  /-- BAR_EXP (R242). -/
  | barExp (g : Guard)
  /-- BAR_WAIT (R243). -/
  | barWait (g : Guard)
  /-- BAR_TEST (R244). -/
  | barTest (g : Guard) (ta tb : Target)
  /-- BAR_STAT (R245). -/
  | barStat (g : Guard) (ta tb : Target)
  /-- BAR_INV (R246). -/
  | barInv (g : Guard)
  /-- CP_G2S (R247). -/
  | cpG2s (g : Guard)
  /-- CP_S2G (R247). -/
  | cpS2g (g : Guard)
  /-- CP_G2G (R247). -/
  | cpG2g (g : Guard)
  /-- CP_GTH (R247). -/
  | cpGth (g : Guard)
  /-- CP_SCT (R247). -/
  | cpSct (g : Guard)
  /-- CP_WIN (R247). -/
  | cpWin (g : Guard)
  /-- CP_RED (R248). -/
  | cpRed (g : Guard) (s : ClsCr)
  /-- MMA (R405). -/
  | mma (g : Guard) (s : ClsMm)
  /-- MMA_CHK (R407). -/
  | mmaChk (g : Guard) (s : ClsMm)
  /-- MMA_GRP (R409). -/
  | mmaGrp (g : Guard) (s : ClsMm) (ta tb : Target)
  /-- MMA_SC (R406). -/
  | mmaSc (g : Guard) (s : ClsMm)
  /-- LDM (R411). -/
  | ldm (g : Guard) (s : ClsLd)
  /-- STM (R412). -/
  | stm (g : Guard) (s : ClsLd)
  /-- GLOAD (R304). -/
  | gload (g : Guard)
  /-- GRUN (R306). -/
  | grun (g : Guard)
  /-- GARG (R305). -/
  | garg (g : Guard)
  /-- GDRAIN (R307). -/
  | gdrain (g : Guard)
  /-- GREL (R308). -/
  | grel (g : Guard)
  /-- GSTAT (R309). -/
  | gstat (g : Guard) (ta tb : Target)
  /-- GALLOC (R302). -/
  | galloc (g : Guard)
  /-- GFREE (R303). -/
  | gfree (g : Guard)
  /-- MOV4 (R353). -/
  | mov4 (g : Guard) (s : ClsB) (ta tb tc td : Target)
  /-- LAUNCH (R87). -/
  | launch (g : Guard)
  /-- QSIG (R89). -/
  | qsig (g : Guard)
  /-- SVC (R372). -/
  | svc (g : Guard) (imm : BitVec 12)
  /-- BRK (R373). -/
  | brk (g : Guard) (imm : BitVec 12)
  /-- RDSR (R374). -/
  | rdsr (g : Guard) (imm : BitVec 12) (t : Target)
  /-- WRSR (R375). -/
  | wrsr (g : Guard) (imm : BitVec 12)
  /-- YIELD (R127). -/
  | yield (g : Guard)
  /-- GSTOP (R126). -/
  | gstop (g : Guard)
  /-- SPUSH (R155). -/
  | spush (g : Guard)
  /-- SPOP (R155). -/
  | spop (g : Guard) (ta tb : Target)
  /-- CLK (R376). -/
  | clk (g : Guard) (ta tb : Target)
  /-- TRAPRET (R377). -/
  | trapret (g : Guard)
  /-- GBAR (R125). -/
  | gbar (g : Guard)
  /-- NOP (R378). -/
  | nop (g : Guard)
  /-- GENK (R355). -/
  | genk (imm : BitVec 16) (t : Target)
  /-- APPK (R355). -/
  | appk (imm : BitVec 16) (t : Target)
  /-- CREATE (R61). -/
  | create (tag : Word) (ctx : BitVec 8) (desc : DWord)
  /-- COMMIT (R57). -/
  | commit (tag : Word) (ctx : BitVec 8)
  /-- SUSPEND (R66). -/
  | suspend (tag : Word) (ctx : BitVec 8)
  /-- RESUME (R71). -/
  | resume (tag : Word) (ctx : BitVec 8)
  /-- DESTROY (R72). -/
  | destroy (tag : Word) (ctx : BitVec 8)
  /-- FPNSET (R119). -/
  | fpnset (tag : Word) (ctx : BitVec 8) (v : Word)
  /-- SEGSET (R100). -/
  | segset (tag : Word) (ctx : BitVec 8) (k : Word)
  /-- KILL (R93). -/
  | kill (tag : Word) (ctx : BitVec 8) (kid : Word)
  /-- CTXACCT (R455). -/
  | ctxacct (tag : Word) (ctx : BitVec 8) (buf : DWord)
  /-- TLBINV (R268). -/
  | tlbinv (tag : Word) (ctx : BitVec 8) (base len : DWord) (all : Word)
  /-- FLTDONE (R264). -/
  | fltdone (tag : Word) (ctx : BitVec 8) (k action : Word)
  /-- MEMWB (R269). -/
  | memwb (tag : Word) (ctx : BitVec 8) (base len : DWord)
  /-- MEMSPLIT (R253). -/
  | memsplit (tag : Word) (ctx : BitVec 8) (m : Word)
  /-- LINKSTAT (R319). -/
  | linkstat (tag : Word) (ctx : BitVec 8) (which : Word)
  /-- PEERSET (R333). -/
  | peerset (tag : Word) (ctx : BitVec 8) (ap en : Word) (base size : DWord)
  /-- DBGSET (R442). -/
  | dbgset (tag : Word) (ctx : BitVec 8) (v : Word)
  /-- DBGBP (R444). -/
  | dbgbp (tag : Word) (ctx : BitVec 8) (entry handle : Word)
  /-- DBGSTOP (R444). -/
  | dbgstop (tag : Word) (ctx : BitVec 8) (kid grank flags : Word)
  /-- DBGRESUME (R444). -/
  | dbgresume (tag : Word) (ctx : BitVec 8) (kid grank wrank : Word) (mode : Word)
  /-- DBGWARP (R444). -/
  | dbgwarp (tag : Word) (ctx : BitVec 8) (kid grank wrank : Word) (buf : DWord) (wr : Word)
  /-- DBGKILL (R152). -/
  | dbgkill (tag : Word) (ctx : BitVec 8) (kid grank wrank : Word) (lanes : Word)
  /-- DBGTOK (R445). -/
  | dbgtok (tag : Word) (ctx : BitVec 8) (kid grank wrank : Word) (idx : Word) (buf : DWord)
  /-- DBGNODE (R444). -/
  | dbgnode (tag : Word) (ctx : BitVec 8) (part pos slot : Word) (buf : DWord)
  /-- SMPSET (R453). -/
  | smpset (tag : Word) (ctx : BitVec 8) (base : DWord) (entries interval scope e0 e1 e2 : Word)
  /-- EWSET (R456). -/
  | ewset (tag : Word) (ctx : BitVec 8) (buf : DWord)
  /-- EWGET (R456). -/
  | ewget (tag : Word) (ctx : BitVec 8) (buf : DWord)
  /-- PWRLIM (R475). -/
  | pwrlim (tag : Word) (ctx : BitVec 8) (watts : Word)
  /-- PWRSTAT (R329). -/
  | pwrstat (tag : Word) (ctx : BitVec 8) (buf : DWord)
  /-- START_REQUEST (R468). -/
  | startRequest (warm clear : Bool)
  /-- DOORBELL (R77). -/
  | doorbell (ctx : BitVec 8) (q : BitVec 6) (v : Word)
  /-- HEAD_TEST (R85). -/
  | headTest (ctx : BitVec 8) (q : BitVec 6)
  /-- BLOCKED_RETEST (R84). -/
  | blockedRetest (ctx : BitVec 8) (q : BitVec 6)
  /-- LAUNCH_COMMAND (R87). -/
  | launchCommand (id : Nat)
  /-- LAUNCH_COPY_DONE (R76). -/
  | launchCopyDone (id : Nat)
  /-- ENTRY_CHECK (R92). -/
  | entryCheck (kid : Nat)
  /-- PRIORITY_AGING (R86). -/
  | priorityAging (kid : Nat)
  /-- BLOCK_FETCH (R97). -/
  | blockFetch (w : Nat)
  /-- BLOCK_MAP (R117). -/
  | blockMap (w : Nat)
  /-- LOAD_RETURN (R421). -/
  | loadReturn (w : Nat) (i : Nat)
  /-- WALK_COMPLETE (R260). -/
  | walkComplete (ctx : BitVec 8) (page : Nat)
  /-- ATOMIC_ISSUE (R142). -/
  | atomicIssue (w : Nat)
  /-- ATOMIC_RETURN (R426). -/
  | atomicReturn (w : Nat)
  /-- DIVISION_COMPLETE (R341). -/
  | divisionComplete (w : Nat) (i : Nat)
  /-- FLOAT_DIVIDE_COMPLETE (R383). -/
  | floatDivideComplete (w : Nat) (i : Nat)
  /-- MATRIX_COMPLETE (R401). -/
  | matrixComplete (w : Nat) (i : Nat)
  /-- BLOCK_COMMIT (R146). -/
  | blockCommit (w : Nat)
  /-- GBAR_ARRIVAL (R125). -/
  | gbarArrival (id : Nat)
  /-- BAR_ARRIVAL (R242). -/
  | barArrival (w : Nat)
  /-- STEP_ARRIVAL (R220). -/
  | stepArrival (id : Nat)
  /-- STEPPED_STORE_APPLY (R211). -/
  | steppedStoreApply (id : Nat)
  /-- REGION_STEP_COMPLETE (R212). -/
  | regionStepComplete (gid : Nat) (r : BitVec 3)
  /-- YIELD_EXPIRY (R127). -/
  | yieldExpiry (w : Nat)
  /-- FORWARD_PROGRESS_SWAP (R120). -/
  | forwardProgressSwap (core : BitVec 8)
  /-- SWAP_COMPLETE (R121). -/
  | swapComplete (gid : Nat)
  /-- SAVE_COMPLETE (R66). -/
  | saveComplete (ctx : BitVec 8)
  /-- TEARDOWN_COMPLETE (R72). -/
  | teardownComplete (ctx : BitVec 8)
  /-- GROUP_HALT_COMPLETE (R93). -/
  | groupHaltComplete (gid : Nat)
  /-- GROUP_RETIREMENT (R115). -/
  | groupRetirement (gid : Nat)
  /-- KERNEL_COMPLETION (R95). -/
  | kernelCompletion (kid : Nat)
  /-- DUMP_WRITE (R450). -/
  | dumpWrite (gid : Nat)
  /-- PFENCE_COMPLETE (R184). -/
  | pfenceComplete (id : Nat)
  /-- CACHE_MAINT_COMPLETE (R430). -/
  | cacheMaintComplete (id : Nat)
  /-- EVICTION_WRITEBACK (R186). -/
  | evictionWriteback (die : BitVec 2) (line : Nat)
  /-- COPY_SECTOR_COMPLETE (R234). -/
  | copySectorComplete (id : Nat)
  /-- COPY_COMPLETION (R238). -/
  | copyCompletion (id : Nat)
  /-- GRAPH_COMMAND_APPLY (R301). -/
  | graphCommandApply (id : Nat)
  /-- GLOAD_COMPLETE (R304). -/
  | gloadComplete (p : Nat)
  /-- FABRIC_ROUND_BOUNDARY (R287). -/
  | fabricRoundBoundary (p : Nat) (r : BitVec 2)
  /-- PHASE_END (R306). -/
  | phaseEnd (p : Nat)
  /-- HOST_ACCESS (R321). -/
  | hostAccess (op : BusOp)
  /-- FABRIC_BEAT (R285). -/
  | fabricBeat (p : Nat) (r : BitVec 2)
  /-- QUEUE_ENABLE (R83). -/
  | queueEnable (ctx : BitVec 8) (q : BitVec 6) (ctl : Word)
  /-- CMDWR_WRITE (R325). -/
  | cmdwrWrite (v : Word)
  /-- CMDCTL_WRITE (R324). -/
  | cmdctlWrite (v : Word)
  /-- CPLRD_WRITE (R326). -/
  | cplrdWrite (v : Word)
  /-- EVCTL_WRITE (R330). -/
  | evctlWrite (v : Word)
  /-- EVRD_WRITE (R330). -/
  | evrdWrite (v : Word)
  /-- MERR_CLEAR (R324). -/
  | merrClear (v : Word)
  /-- SMPRD_WRITE (R453). -/
  | smprdWrite (v : Word)
  /-- REGISTER_WRITE (R324). -/
  | registerWrite (bar : Bar) (off : BitVec 24) (v : DWord)
  /-- TRAINING_DONE (R469). -/
  | trainingDone (hbmStacks : BitVec 16) (sub0 sub1 sub2 sub3 : BitVec 4) (hostUp : Bool)
  /-- CLEARING_DONE (R468). -/
  | clearingDone (ok : Bool)
  /-- FIRMWARE_UPDATE (R472). -/
  | firmwareUpdate (image : FwImage)
  /-- SPDM_REQUEST (R474). -/
  | spdmRequest (req : SpdmReq)
  /-- TELEMETRY_SAMPLE (R476). -/
  | telemetrySample (t : Sensors)
  /-- QUEUE_DISABLE (R83). -/
  | queueDisable (ctx : BitVec 8) (q : BitVec 6) (ctl : Word)
  /-- QUEUE_SUSPEND (R83). -/
  | queueSuspend (ctx : BitVec 8) (q : BitVec 6)
  /-- QUEUE_RESUME (R83). -/
  | queueResume (ctx : BitVec 8) (q : BitVec 6)
  /-- QUEUE_RESET (R83). -/
  | queueReset (ctx : BitVec 8) (q : BitVec 6)
  /-- QUEUE_RETRY (R83). -/
  | queueRetry (ctx : BitVec 8) (q : BitVec 6)
  /-- QCMD_IGNORED (R74). -/
  | qcmdIgnored (ctx : BitVec 8) (q : BitVec 6) (v : Word)
  /-- QDROP_CLEAR (R74). -/
  | qdropClear (ctx : BitVec 8) (q : BitVec 6)
  /-- RETRAINING_TRIGGER (R314). -/
  | retrainingTrigger (d : BitVec 2)
  /-- RETRAINING_ENDS (R314). -/
  | retrainingEnds (d : BitVec 2) (good : BitVec 4)
  /-- RETRAINING_FAILS (R314). -/
  | retrainingFails (d : BitVec 2) (good : BitVec 4)
  /-- PEER_PORT_CHANGE (R332). -/
  | peerPortChange (p : BitVec 3) (st : PortState)
  /-- PEER_ACCESS (R332). -/
  | peerAccess (p : BitVec 3) (op : BusOp)
  /-- HOST_SNOOP (R322). -/
  | hostSnoop (line : HostTake)
  /-- SOFT_ERROR (R439). -/
  | softError (e : EccError)
  /-- HOST_LINK_TRAINED (R320). -/
  | hostLinkTrained (width rate : BitVec 8)
  /-- COMMAND_COMPLETION (R326). -/
  | commandCompletion
  /-- EVLOST_CLEAR (R324). -/
  | evlostClear
  /-- POWER_ON (R468). -/
  | powerOn
  /-- VERIFICATION_DONE (R472). -/
  | verificationDone
  /-- PLACEMENT (R112). -/
  | placement
  /-- HOST_LINK_LOSS (R320). -/
  | hostLinkLoss
  /-- SAMPLER_INTERVAL (R453). -/
  | samplerInterval
  /-- BUDGET_WINDOW_REFRESH (R58). -/
  | budgetWindowRefresh
deriving DecidableEq, Repr

end Sys2Proof
end

