-- ==== Sys2Proof/Config.lean ====
section
/-!
DEFINITION. What the spec leaves open and does not let the model choose: free values and free choices. Each is an opaque
constant, so no proof can see its value, and a statement about it holds for every value. `n` is the state's tick counter
(State.tick), which every step advances, and the further arguments say which value of the step is meant.
The inputs that stand on the module's wires are arguments of events (Syntax.lean), not constants here.
-/
namespace Sys2Proof.Config

/-- Which of the moves due next is made when the agenda is empty (06 R118 and the concurrency of the agents; log 6). -/
opaque choice : Nat → Nat

/-- How many cycles pass during a step (timing is not modelled; log 7). -/
opaque cycles : Nat → Nat

/-- Whether a cache still holds a line it was filled with, by tick and line: evictions are the hardware's (09 R182, R183;
log 8). -/
opaque holds : Nat → Nat → Bool

/-- Bytes the spec calls undefined or gives no value: device memory after memsplit (12 R253), storage freed by rgn.free (10 R217),
the parts of save-area records whose contents are not laid out (03 R64). By epoch or tick, and address. -/
opaque freeByte : Nat → Nat → Byte

/-- The order in which the lanes of an atomic, or the elements of a copy, take effect where it is not defined (17 R426, R428,
10 R208, 11 R248): the next one taken, by tick and the number already taken. -/
opaque order : Nat → Nat → Nat

/-- Which of the two bracketing values a transcendental delivers (16 R387): true for the upper, by the operation's number and the
operand's bits. It depends on the operand alone, so equal operands give equal results. -/
opaque upper : Nat → Word → Bool

/-- The energy weights of Gwemir's calibration, loaded by a cold start (18 R456), by entry. -/
opaque calibration : Nat → Word

/-- The physical address of a scratchpad byte and of a memory-tile byte, which 18 R441 asks for and 12 R252 does not place: by core, or by die,
row and column of the tile pair, and the byte within it. -/
opaque spadPhys : Nat → Nat → DWord
opaque tilePhys : Nat → Nat → Nat → Nat → DWord

/-- The private identity key of the module (21 R473), which nothing reads, and its certificates below the Gwemir root, and that root's. -/
opaque identityKey : Nat
opaque certificates : List (List Byte)
opaque gwemirRoot : List Byte

/-- What an SPDM message holds that 21 R474 does not fix: capability flags, hashes of the messages signed, nonces and keys, by tick and which
of them. -/
opaque spdmWord : Nat → Nat → BitVec 256

end Sys2Proof.Config
end

