-- ==== Sys2Proof/WellFormed.lean ====
section
/-!
DEFINITION. Well-formed instructions: the checks of R50 that concern one instruction alone and that the typed syntax does not
already make. The checks that need the whole image are Machine/Validate.lean's.
-/
namespace Sys2Proof

/-- The reasons of an ILLEGAL record, in the order of R50; `Reason.code` gives the numbers 1 to 11. -/
inductive Reason where
  | signature | header | declaration | opcode | sub | target | slot | operand | boundary | sysreg | padding
deriving DecidableEq, Repr

def Reason.code : Reason → Nat
  | .signature => 1 | .header => 2 | .declaration => 3 | .opcode => 4 | .sub => 5 | .target => 6 | .slot => 7 | .operand => 8
  | .boundary => 9 | .sysreg => 10 | .padding => 11

/-- A shift by an immediate takes 0 to 31 (15 R342). -/
def shiftImmOk (i : BitVec 12) : Bool := decide (i.toNat ≤ 31)

/-- The rule fits the kind (10 R207, R216): a plain region has rule 0, the two PRIO rules belong to stepped-priority regions, and
those take no other rule. -/
def RRule.fits (r : RRule) (k : RKind) : Bool :=
  match k with
  | .plain => decide (r = .fault)
  | .prio => decide (r = .prioHigh ∨ r = .prioLow)
  | .stepped => decide (r ≠ .prioHigh ∧ r ≠ .prioLow)

/-- An integer type of cvt (R43). -/
def NumTy.isInt : NumTy → Bool
  | .i8 | .i16 | .i32 | .i64 | .n8 | .n16 | .n32 | .n64 => true
  | .f16 | .bf16 | .f32 | .f64 | .e4m3 | .e5m2 | .e2m1 => false

/-- Reserved values of an extension word (reason SUB): a rounding where both types of cvt are integers (16 R394), exchange or an order
with acquire in red (R42), a scope beyond group in atom.s (R42), a rule that does not fit its kind in rgn.def (10 R216), the scope warp in
bar.init (11 R241). -/
def Instr.extOk : Instr → Bool
  | .cvt _ _ _ src dst rnd _ => decide (rnd = .rne) || !(src.isInt && dst.isInt)
  | .red _ op ord _ _ => decide (op ≠ .exch) && decide (ord = .relaxed ∨ ord = .release)
  | .atomS _ _ _ _ _ sc _ => decide (sc = .warp ∨ sc = .group)
  | .rgnDef _ r k _ => r.fits k
  | .barInit _ sc => decide (sc ≠ .warp)
  | _ => true

/-- The reason an instruction is ill-formed on its own, if it is: a reserved extension value (SUB); an immediate out of its
stated range (OPERAND: the shifts of R342, svc of R372, brk of R373, pfence of R431); a reserved system register (SYSREG, R48);
a telemetry sample that does not name five dies (R329). -/
def Instr.illFormed (i : Instr) : Option Reason :=
  if !i.extOk then some .sub
  else
    match i with
    | .shli _ imm _ | .shri _ imm _ | .sari _ imm _ => if shiftImmOk imm then none else some .operand
    | .svc _ imm | .brk _ imm => if imm.getLsbD 11 then some .operand else none
    | .pfence _ imm => if imm.extractLsb' 5 7 = 0 then none else some .operand
    | .rdsr _ imm _ | .wrsr _ imm => if imm.toNat ≤ 8 then none else some .sysreg
    | .telemetrySample t => if t.dies.length = 5 then none else some .operand
    | _ => none

/-- An instruction is well-formed. -/
def Instr.wellFormed (i : Instr) : Bool := i.illFormed.isNone

/-- The instruction belongs to the block instruction set: it has words (opcode table rows 0 to 172). -/
def Instr.isIsa : Instr → Bool
  | .create .. => false
  | .commit .. => false
  | .suspend .. => false
  | .resume .. => false
  | .destroy .. => false
  | .fpnset .. => false
  | .segset .. => false
  | .kill .. => false
  | .ctxacct .. => false
  | .tlbinv .. => false
  | .fltdone .. => false
  | .memwb .. => false
  | .memsplit .. => false
  | .linkstat .. => false
  | .peerset .. => false
  | .dbgset .. => false
  | .dbgbp .. => false
  | .dbgstop .. => false
  | .dbgresume .. => false
  | .dbgwarp .. => false
  | .dbgkill .. => false
  | .dbgtok .. => false
  | .dbgnode .. => false
  | .smpset .. => false
  | .ewset .. => false
  | .ewget .. => false
  | .pwrlim .. => false
  | .pwrstat .. => false
  | .commandCompletion => false
  | .cmdwrWrite .. => false
  | .cmdctlWrite .. => false
  | .cplrdWrite .. => false
  | .evctlWrite .. => false
  | .evrdWrite .. => false
  | .evlostClear => false
  | .merrClear .. => false
  | .smprdWrite .. => false
  | .registerWrite .. => false
  | .startRequest .. => false
  | .powerOn => false
  | .verificationDone => false
  | .trainingDone .. => false
  | .clearingDone .. => false
  | .firmwareUpdate .. => false
  | .spdmRequest .. => false
  | .telemetrySample .. => false
  | .doorbell .. => false
  | .queueEnable .. => false
  | .queueDisable .. => false
  | .queueSuspend .. => false
  | .queueResume .. => false
  | .queueReset .. => false
  | .queueRetry .. => false
  | .qcmdIgnored .. => false
  | .qdropClear .. => false
  | .headTest .. => false
  | .blockedRetest .. => false
  | .launchCommand .. => false
  | .launchCopyDone .. => false
  | .entryCheck .. => false
  | .placement => false
  | .priorityAging .. => false
  | .blockFetch .. => false
  | .blockMap .. => false
  | .loadReturn .. => false
  | .walkComplete .. => false
  | .atomicIssue .. => false
  | .atomicReturn .. => false
  | .divisionComplete .. => false
  | .floatDivideComplete .. => false
  | .matrixComplete .. => false
  | .blockCommit .. => false
  | .gbarArrival .. => false
  | .barArrival .. => false
  | .stepArrival .. => false
  | .steppedStoreApply .. => false
  | .regionStepComplete .. => false
  | .yieldExpiry .. => false
  | .forwardProgressSwap .. => false
  | .swapComplete .. => false
  | .saveComplete .. => false
  | .teardownComplete .. => false
  | .groupHaltComplete .. => false
  | .groupRetirement .. => false
  | .kernelCompletion .. => false
  | .dumpWrite .. => false
  | .pfenceComplete .. => false
  | .cacheMaintComplete .. => false
  | .evictionWriteback .. => false
  | .copySectorComplete .. => false
  | .copyCompletion .. => false
  | .graphCommandApply .. => false
  | .gloadComplete .. => false
  | .fabricRoundBoundary .. => false
  | .phaseEnd .. => false
  | .retrainingTrigger .. => false
  | .retrainingEnds .. => false
  | .retrainingFails .. => false
  | .hostLinkLoss => false
  | .peerPortChange .. => false
  | .hostAccess .. => false
  | .peerAccess .. => false
  | .hostSnoop .. => false
  | .softError .. => false
  | .samplerInterval => false
  | .budgetWindowRefresh => false
  | .fabricBeat .. => false
  | .hostLinkTrained .. => false
  | _ => true

end Sys2Proof
end

