-- ==== Sys2Proof/Decode.lean ====
section
/-!
DEFINITION. Decoding of instruction words (02 R36, R39, R41 to R45) and of management command entries (14 R325, R328), and
after them the encoders, written from the same tables.
Decoding is total and refuses by the reason names of R50; where one word breaks several rules the reason listed first there is
given, and a breach in an extension word is charged to that word.
-/
namespace Sys2Proof

/-- A refused instruction: whether the breach lies in the extension word, and the reason of R50. -/
structure Reject where
  inExt : Bool
  why   : Reason
deriving DecidableEq, Repr

/-! ### Fields of a word (R39, R41) -/

def Word.opcode (w : Word) : BitVec 9 := w.extractLsb' 23 9
def Word.kBits (w : Word) : BitVec 7 := w.extractLsb' 25 7
def Word.guardBits (w : Word) : BitVec 2 := w.extractLsb' 21 2
def Word.sub (w : Word) : BitVec 3 := w.extractLsb' 18 3
def Word.tgtA (w : Word) : BitVec 9 := w.extractLsb' 9 9
def Word.tgtB (w : Word) : BitVec 9 := w.extractLsb' 0 9
def Word.imm12 (w : Word) : BitVec 12 := w.extractLsb' 9 12
def Word.slot (w : Word) : BitVec 5 := w.extractLsb' 16 5
def Word.imm7 (w : Word) : BitVec 7 := w.extractLsb' 9 7
def Word.imm16 (w : Word) : BitVec 16 := w.extractLsb' 9 16

/-- Guard modes of R39; 0b11 is reserved. -/
def Guard.ofBits (b : BitVec 2) : Option Guard :=
  match b.toNat with
  | 0 => some .always | 1 => some .onTrue | 2 => some .onFalse | _ => none

def Guard.toBits : Guard → BitVec 2
  | .always => 0 | .onTrue => 1 | .onFalse => 2

/-- Target patterns of R36. The exit slot (0x1C0) is none of these: only exit and exitv may name it (R37). -/
def Target.ofBits (b : BitVec 9) : Option Target :=
  match (b.extractLsb' 6 3).toNat with
  | 0 => some (.opA (b.extractLsb' 0 6))
  | 2 => some (.opB (b.extractLsb' 0 6))
  | 4 => some (.opC (b.extractLsb' 0 6))
  | 5 => some (.guard (b.extractLsb' 0 6))
  | 6 => if b.extractLsb' 5 1 = 0 then some (.write (b.extractLsb' 0 5)) else Option.none
  | 7 => if b.extractLsb' 0 6 = 0x3F then some .none else Option.none
  | _ => Option.none

def Target.toBits : Target → BitVec 9
  | .opA i => (0 : BitVec 3) ++ i
  | .opB i => (2 : BitVec 3) ++ i
  | .opC i => (4 : BitVec 3) ++ i
  | .guard i => (5 : BitVec 3) ++ i
  | .write w => (12 : BitVec 4) ++ w
  | .none => 0x1FF

/-! ### Sub-field classes (R44), type codes (R43), operations and orders (R42, R41) -/

def ClsA.ofBits (b : BitVec 3) : Option ClsA :=
  match b.toNat with
  | 0 => some .i32 | 1 => some .i64 | 2 => some .i32sat | 3 => some .n32sat | _ => none

def ClsA.toBits : ClsA → BitVec 3
  | .i32 => 0 | .i64 => 1 | .i32sat => 2 | .n32sat => 3

def ClsS.ofBits (b : BitVec 3) : Option ClsS :=
  match b.toNat with
  | 0 => some .i32 | 1 => some .i64 | 2 => some .n32 | 3 => some .n64 | _ => none

def ClsS.toBits : ClsS → BitVec 3
  | .i32 => 0 | .i64 => 1 | .n32 => 2 | .n64 => 3

def ClsB.ofBits (b : BitVec 3) : Option ClsB :=
  match b.toNat with
  | 0 => some .b32 | 1 => some .b64 | _ => none

def ClsB.toBits : ClsB → BitVec 3
  | .b32 => 0 | .b64 => 1

def ClsL.ofBits (b : BitVec 3) : Option ClsL :=
  match b.toNat with
  | 0 => some .s0 | 1 => some .s1 | 2 => some .s2 | 3 => some .s3 | 4 => some .s4 | 5 => some .s5 | 6 => some .s6 | 7 => some .s7 | _ => none

def ClsL.toBits : ClsL → BitVec 3
  | .s0 => 0 | .s1 => 1 | .s2 => 2 | .s3 => 3 | .s4 => 4 | .s5 => 5 | .s6 => 6 | .s7 => 7

def ClsW.ofBits (b : BitVec 3) : Option ClsW :=
  match b.toNat with
  | 0 => some .i32 | 1 => some .n32 | _ => none

def ClsW.toBits : ClsW → BitVec 3
  | .i32 => 0 | .n32 => 1

def ClsE.ofBits (b : BitVec 3) : Option ClsE :=
  match b.toNat with
  | 0 => some .i8 | 1 => some .i16 | 2 => some .i32 | 3 => some .n32 | _ => none

def ClsE.toBits : ClsE → BitVec 3
  | .i8 => 0 | .i16 => 1 | .i32 => 2 | .n32 => 3

def ClsCmp.ofBits (b : BitVec 3) : Option ClsCmp :=
  match b.toNat with
  | 0 => some .eq | 1 => some .ne | 2 => some .lt | 3 => some .le | 4 => some .gt | 5 => some .ge | 6 => some .ltn | 7 => some .len | _ => none

def ClsCmp.toBits : ClsCmp → BitVec 3
  | .eq => 0 | .ne => 1 | .lt => 2 | .le => 3 | .gt => 4 | .ge => 5 | .ltn => 6 | .len => 7

def ClsSh.ofBits (b : BitVec 3) : Option ClsSh :=
  match b.toNat with
  | 0 => some .from | 1 => some .back | 2 => some .fwd | 3 => some .flip | _ => none

def ClsSh.toBits : ClsSh → BitVec 3
  | .from => 0 | .back => 1 | .fwd => 2 | .flip => 3

def ClsV.ofBits (b : BitVec 3) : Option ClsV :=
  match b.toNat with
  | 0 => some .any | 1 => some .all | 2 => some .ballot | 3 => some .count | _ => none

def ClsV.toBits : ClsV → BitVec 3
  | .any => 0 | .all => 1 | .ballot => 2 | .count => 3

def ClsRo.ofBits (b : BitVec 3) : Option ClsRo :=
  match b.toNat with
  | 0 => some .addI32 | 1 => some .minI32 | 2 => some .maxI32 | 3 => some .minN32 | 4 => some .maxN32 | 5 => some .and | 6 => some .or | 7 => some .xor | _ => none

def ClsRo.toBits : ClsRo → BitVec 3
  | .addI32 => 0 | .minI32 => 1 | .maxI32 => 2 | .minN32 => 3 | .maxN32 => 4 | .and => 5 | .or => 6 | .xor => 7

def ClsLm.ofBits (b : BitVec 3) : Option ClsLm :=
  match b.toNat with
  | 0 => some .self | 1 => some .below | 2 => some .upto | 3 => some .above | 4 => some .onward | _ => none

def ClsLm.toBits : ClsLm → BitVec 3
  | .self => 0 | .below => 1 | .upto => 2 | .above => 3 | .onward => 4

def Round.ofBits (b : BitVec 3) : Option Round :=
  match b.toNat with
  | 0 => some .rne | 1 => some .rz | 2 => some .ru | 3 => some .rd | _ => none

def Round.toBits : Round → BitVec 3
  | .rne => 0 | .rz => 1 | .ru => 2 | .rd => 3

def ClsFc.ofBits (b : BitVec 3) : Option ClsFc :=
  match b.toNat with
  | 0 => some .eq | 1 => some .ne | 2 => some .lt | 3 => some .le | 4 => some .gt | 5 => some .ge | 6 => some .num | 7 => some .nan | _ => none

def ClsFc.toBits : ClsFc → BitVec 3
  | .eq => 0 | .ne => 1 | .lt => 2 | .le => 3 | .gt => 4 | .ge => 5 | .num => 6 | .nan => 7

def ClsSc.ofBits (b : BitVec 3) : Option ClsSc :=
  match b.toNat with
  | 0 => some .sin | 1 => some .cos | _ => none

def ClsSc.toBits : ClsSc → BitVec 3
  | .sin => 0 | .cos => 1

def ClsPk.ofBits (b : BitVec 3) : Option ClsPk :=
  match b.toNat with
  | 0 => some .f16 | 1 => some .bf16 | 2 => some .e4m3 | 3 => some .e5m2 | 4 => some .e2m1 | 5 => some .i8 | 6 => some .i4 | _ => none

def ClsPk.toBits : ClsPk → BitVec 3
  | .f16 => 0 | .bf16 => 1 | .e4m3 => 2 | .e5m2 => 3 | .e2m1 => 4 | .i8 => 5 | .i4 => 6

def ClsDi.ofBits (b : BitVec 3) : Option ClsDi :=
  match b.toNat with
  | 0 => some .ii | 1 => some .iu | 2 => some .ui | 3 => some .uu | _ => none

def ClsDi.toBits : ClsDi → BitVec 3
  | .ii => 0 | .iu => 1 | .ui => 2 | .uu => 3

def ClsDf.ofBits (b : BitVec 3) : Option ClsDf :=
  match b.toNat with
  | 0 => some .e4e4 | 1 => some .e4e5 | 2 => some .e5e4 | 3 => some .e5e5 | _ => none

def ClsDf.toBits : ClsDf → BitVec 3
  | .e4e4 => 0 | .e4e5 => 1 | .e5e4 => 2 | .e5e5 => 3

def ClsMm.ofBits (b : BitVec 3) : Option ClsMm :=
  match b.toNat with
  | 0 => some .bf16m16 | 1 => some .bf16m32 | 2 => some .f16m16 | 3 => some .f16m32 | 4 => some .e4m3m32 | 5 => some .e5m2m32 | 6 => some .e2m1m32 | 7 => some .i8m32 | _ => none

def ClsMm.toBits : ClsMm → BitVec 3
  | .bf16m16 => 0 | .bf16m32 => 1 | .f16m16 => 2 | .f16m32 => 3 | .e4m3m32 => 4 | .e5m2m32 => 5 | .e2m1m32 => 6 | .i8m32 => 7

def ClsLd.ofBits (b : BitVec 3) : Option ClsLd :=
  match b.toNat with
  | 0 => some .b16 | 1 => some .b16t | 2 => some .b8 | 3 => some .b8t | 4 => some .b4 | 5 => some .b32 | _ => none

def ClsLd.toBits : ClsLd → BitVec 3
  | .b16 => 0 | .b16t => 1 | .b8 => 2 | .b8t => 3 | .b4 => 4 | .b32 => 5

def ClsP.ofBits (b : BitVec 3) : Option ClsP :=
  match b.toNat with
  | 0 => some .l1 | 1 => some .l2 | _ => none

def ClsP.toBits : ClsP → BitVec 3
  | .l1 => 0 | .l2 => 1

def ClsCw.ofBits (b : BitVec 3) : Option ClsCw :=
  match b.toNat with
  | 0 => some .d | 1 => some .x | 2 => some .k | _ => none

def ClsCw.toBits : ClsCw → BitVec 3
  | .d => 0 | .x => 1 | .k => 2

def ClsCr.ofBits (b : BitVec 3) : Option ClsCr :=
  match b.toNat with
  | 0 => some .addI32 | 1 => some .addF32 | 2 => some .addBf16 | 3 => some .minI32 | 4 => some .maxI32 | 5 => some .minF32 | 6 => some .maxF32 | _ => none

def ClsCr.toBits : ClsCr → BitVec 3
  | .addI32 => 0 | .addF32 => 1 | .addBf16 => 2 | .minI32 => 3 | .maxI32 => 4 | .minF32 => 5 | .maxF32 => 6

def NumTy.ofBits (b : BitVec 5) : Option NumTy :=
  match b.toNat with
  | 0 => some .i8 | 1 => some .i16 | 2 => some .i32 | 3 => some .i64 | 4 => some .n8 | 5 => some .n16 | 6 => some .n32 | 7 => some .n64 | 8 => some .f16 | 9 => some .bf16 | 10 => some .f32 | 11 => some .f64 | 12 => some .e4m3 | 13 => some .e5m2 | 14 => some .e2m1 | _ => none

def NumTy.toBits : NumTy → BitVec 5
  | .i8 => 0 | .i16 => 1 | .i32 => 2 | .i64 => 3 | .n8 => 4 | .n16 => 5 | .n32 => 6 | .n64 => 7 | .f16 => 8 | .bf16 => 9 | .f32 => 10 | .f64 => 11 | .e4m3 => 12 | .e5m2 => 13 | .e2m1 => 14

def AtomOp.ofBits (b : BitVec 4) : Option AtomOp :=
  match b.toNat with
  | 0 => some .add | 1 => some .minS | 2 => some .maxS | 3 => some .minU | 4 => some .maxU | 5 => some .and | 6 => some .or | 7 => some .xor | 8 => some .exch | 9 => some .inc | 10 => some .dec | 11 => some .addF32 | _ => none

def AtomOp.toBits : AtomOp → BitVec 4
  | .add => 0 | .minS => 1 | .maxS => 2 | .minU => 3 | .maxU => 4 | .and => 5 | .or => 6 | .xor => 7 | .exch => 8 | .inc => 9 | .dec => 10 | .addF32 => 11

def Order.ofBits (b : BitVec 2) : Option Order :=
  match b.toNat with
  | 0 => some .relaxed | 1 => some .acquire | 2 => some .release | 3 => some .acqRel | _ => none

def Order.toBits : Order → BitVec 2
  | .relaxed => 0 | .acquire => 1 | .release => 2 | .acqRel => 3

/-- Class Z (R44): only sub 0b000. -/
def zeroSub (b : BitVec 3) : Option Unit := if b = 0 then some () else none

/-- Class H with a rounding mode (R44). -/
def ClsH.ofBits (b : BitVec 3) : Option ClsH :=
  (Round.ofBits (b &&& 3)).map fun r => ⟨if b.getLsbD 2 then .bf16 else .f16, r⟩

def HFmt.bit : HFmt → BitVec 3
  | .f16 => 0 | .bf16 => 4

def ClsH.toBits (c : ClsH) : BitVec 3 := c.fmt.bit ||| c.rnd.toBits

/-- Class H with a compare (R44). -/
def ClsHc.ofBits (b : BitVec 3) : Option ClsHc :=
  some ⟨if b.getLsbD 2 then .bf16 else .f16,
    match (b &&& 3).toNat with
    | 0 => .eq | 1 => .ne | 2 => .lt | _ => .le⟩

def ClsHc.toBits (c : ClsHc) : BitVec 3 :=
  c.fmt.bit ||| (match c.cmp with | .eq => 0 | .ne => 1 | .lt => 2 | .le => 3)

/-- Class H of hmin2 and hmax2 (R44): bits [1:0] must be zero. -/
def HFmt.ofBits (b : BitVec 3) : Option HFmt :=
  match b.toNat with
  | 0 => some .f16 | 4 => some .bf16 | _ => none

def HFmt.toBits (f : HFmt) : BitVec 3 := f.bit

/-- Scope codes of R25. -/
def Scope.ofBits (b : BitVec 3) : Option Scope :=
  match b.toNat with
  | 1 => some .warp | 2 => some .group | 3 => some .die | 4 => some .device | 5 => some .system | _ => none

def Scope.toBits : Scope → BitVec 3
  | .warp => 1 | .group => 2 | .die => 3 | .device => 4 | .system => 5

/-- Region kinds (10 R203). -/
def RKind.ofBits (b : BitVec 2) : Option RKind :=
  match b.toNat with
  | 0 => some .plain | 1 => some .stepped | 2 => some .prio | _ => none

def RKind.toBits : RKind → BitVec 2
  | .plain => 0 | .stepped => 1 | .prio => 2

/-- Collision rules (10 R207). -/
def RRule.ofBits (b : BitVec 4) : Option RRule :=
  match b.toNat with
  | 0 => some .fault | 1 => some .prioHigh | 2 => some .prioLow | 3 => some .addI32 | 4 => some .addsI32 | 5 => some .addF32
  | 6 => some .minI32 | 7 => some .minN32 | 8 => some .minF32 | 9 => some .maxI32 | 10 => some .maxN32 | 11 => some .maxF32
  | 12 => some .or | 13 => some .and | _ => none

def RRule.toBits : RRule → BitVec 4
  | .fault => 0 | .prioHigh => 1 | .prioLow => 2 | .addI32 => 3 | .addsI32 => 4 | .addF32 => 5 | .minI32 => 6 | .minN32 => 7
  | .minF32 => 8 | .maxI32 => 9 | .maxN32 => 10 | .maxF32 => 11 | .or => 12 | .and => 13

/-! ### The formats (R39) -/

abbrev Decoded := Except Reject (Instr × List Word)

def refuse (why : Reason) : Decoded := .error ⟨false, why⟩
def refuseExt (why : Reason) : Decoded := .error ⟨true, why⟩

/-- T format with a result: sub, then two targets. -/
def formT {α : Type} (cls : BitVec 3 → Option α) (mk : α → Target → Target → Instr) (w : Word) (rest : List Word) : Decoded :=
  match cls w.sub with
  | none => refuse .sub
  | some s =>
    match Target.ofBits w.tgtA, Target.ofBits w.tgtB with
    | some a, some b => .ok (mk s a b, rest)
    | _, _ => refuse .target

/-- T format without a result: both targets must be no target (R37). -/
def formN {α : Type} (cls : BitVec 3 → Option α) (mk : α → Instr) (w : Word) (rest : List Word) : Decoded :=
  match cls w.sub with
  | none => refuse .sub
  | some s => if w.extractLsb' 0 18 = 0x3FFFF then .ok (mk s, rest) else refuse .target

/-- I format with a result. -/
def formI (mk : BitVec 12 → Target → Instr) (w : Word) (rest : List Word) : Decoded :=
  match Target.ofBits w.tgtB with
  | some t => .ok (mk w.imm12 t, rest)
  | none => refuse .target

/-- I format whose target field must hold `only`: no target, or the exit slot of exit (R37). -/
def formIN (only : BitVec 9) (mk : BitVec 12 → Instr) (w : Word) (rest : List Word) : Decoded :=
  if w.tgtB = only then .ok (mk w.imm12, rest) else refuse .target

/-- M format of a load. -/
def formLd (mk : BitVec 5 → BitVec 7 → Target → Instr) (w : Word) (rest : List Word) : Decoded :=
  match Target.ofBits w.tgtB with
  | some t => .ok (mk w.slot w.imm7 t, rest)
  | none => refuse .target

/-- M format of a store: no target. -/
def formSt (mk : BitVec 5 → BitVec 7 → Instr) (w : Word) (rest : List Word) : Decoded :=
  if w.tgtB = 0x1FF then .ok (mk w.slot w.imm7, rest) else refuse .target

/-- K format. -/
def formK (mk : BitVec 16 → Target → Instr) (w : Word) (rest : List Word) : Decoded :=
  match Target.ofBits w.tgtB with
  | some t => .ok (mk w.imm16 t, rest)
  | none => refuse .target

/-- X format: the first word's sub (and targets, which `mk` has read), then the extension word; PADDING where there is none
(R50). `mk` refuses a reserved extension field (R41). -/
def formX (mk : Word → Except Reason Instr) (rest : List Word) : Decoded :=
  match rest with
  | [] => refuse .padding
  | e :: rest' =>
    match mk e with
    | .ok i => if i.extOk then .ok (i, rest') else refuseExt .sub
    | .error r => refuseExt r

/-- X format with a result and sub 0b000. -/
def formXT {α : Type} (cls : BitVec 3 → Option α) (mk : α → Target → Target → Word → Except Reason Instr) (w : Word)
    (rest : List Word) : Decoded :=
  match cls w.sub with
  | none => refuse .sub
  | some s =>
    match Target.ofBits w.tgtA, Target.ofBits w.tgtB with
    | some a, some b => formX (mk s a b) rest
    | _, _ => refuse .target

/-- X format without a result. -/
def formXN (mk : Word → Except Reason Instr) (w : Word) (rest : List Word) : Decoded :=
  if w.sub = 0 then
    if w.extractLsb' 0 18 = 0x3FFFF then formX mk rest else refuse .target
  else refuse .sub

/-! ### Extension words (R41, R42, R43, 10 R216, 11 R241) -/

def extCvt (g : Guard) (ta tb : Target) (e : Word) : Except Reason Instr :=
  match NumTy.ofBits (e.extractLsb' 27 5), NumTy.ofBits (e.extractLsb' 22 5), Round.ofBits (e.extractLsb' 20 2 |>.setWidth 3) with
  | some s, some d, some r =>
    if e.extractLsb' 0 19 = 0 then .ok (.cvt g ta tb s d r (e.getLsbD 19)) else .error .sub
  | _, _, _ => .error .sub

/-- The fields shared by the atomics (R41): op, order, scope and slot, with the zero fields checked. -/
def extAtomic (e : Word) : Option (AtomOp × Order × Scope × BitVec 5) :=
  match AtomOp.ofBits (e.extractLsb' 28 4), Order.ofBits (e.extractLsb' 26 2), Scope.ofBits (e.extractLsb' 23 3) with
  | some op, some o, some s =>
    if e.extractLsb' 21 2 = 0 ∧ e.extractLsb' 0 16 = 0 then some (op, o, s, e.extractLsb' 16 5) else none
  | _, _, _ => none

def extAtom (g : Guard) (ta tb : Target) (e : Word) : Except Reason Instr :=
  match extAtomic e with
  | some (op, o, s, k) => .ok (.atom g ta tb op o s k)
  | none => .error .sub

def extAtomS (g : Guard) (ta tb : Target) (e : Word) : Except Reason Instr :=
  match extAtomic e with
  | some (op, o, s, k) => .ok (.atomS g ta tb op o s k)
  | none => .error .sub

def extRed (g : Guard) (e : Word) : Except Reason Instr :=
  match extAtomic e with
  | some (op, o, s, k) => .ok (.red g op o s k)
  | none => .error .sub

/-- For cas, op must be 0b0000 (R42). -/
def extCas (g : Guard) (ta tb : Target) (e : Word) : Except Reason Instr :=
  match extAtomic e with
  | some (.add, o, s, k) => .ok (.cas g ta tb o s k)
  | _ => .error .sub

def extRgn (g : Guard) (e : Word) : Except Reason Instr :=
  match RRule.ofBits (e.extractLsb' 28 4), RKind.ofBits (e.extractLsb' 26 2) with
  | some r, some k => if e.extractLsb' 0 23 = 0 then .ok (.rgnDef g r k (e.extractLsb' 23 3)) else .error .sub
  | _, _ => .error .sub

def extBar (g : Guard) (e : Word) : Except Reason Instr :=
  match Scope.ofBits (e.extractLsb' 29 3) with
  | some s => if e.extractLsb' 0 29 = 0 then .ok (.barInit g s) else .error .sub
  | none => .error .sub

def extMov4 (g : Guard) (s : ClsB) (ta tb : Target) (e : Word) : Except Reason Instr :=
  if e.extractLsb' 18 14 = 0 then
    match Target.ofBits e.tgtA, Target.ofBits e.tgtB with
    | some tc, some td => .ok (.mov4 g s ta tb tc td)
    | _, _ => .error .target
  else .error .sub

/-! ### The opcode map (R45) -/

/-- Opcodes 0x000 to 0x01F. -/
def map00 (n : Nat) (g : Guard) (w : Word) (r : List Word) : Decoded :=
  match n with
  | 0x00 => formT ClsA.ofBits (.add g) w r
  | 0x01 => formT ClsA.ofBits (.sub g) w r
  | 0x02 => formT ClsA.ofBits (.mul g) w r
  | 0x03 => formT ClsS.ofBits (.mulhi g) w r
  | 0x04 => formT ClsA.ofBits (.mad g) w r
  | 0x05 => formT ClsS.ofBits (.div g) w r
  | 0x06 => formT ClsS.ofBits (.rem g) w r
  | 0x07 => formT ClsA.ofBits (.neg g) w r
  | 0x08 => formT ClsA.ofBits (.abs g) w r
  | 0x09 => formT ClsS.ofBits (.min g) w r
  | 0x0A => formT ClsS.ofBits (.max g) w r
  | 0x0B => formT ClsB.ofBits (.and g) w r
  | 0x0C => formT ClsB.ofBits (.or g) w r
  | 0x0D => formT ClsB.ofBits (.xor g) w r
  | 0x0E => formT ClsB.ofBits (.not g) w r
  | 0x0F => formT ClsB.ofBits (.andn g) w r
  | 0x10 => formT ClsB.ofBits (.shl g) w r
  | 0x11 => formT ClsB.ofBits (.shr g) w r
  | 0x12 => formT ClsB.ofBits (.sar g) w r
  | 0x13 => formT ClsB.ofBits (.rotl g) w r
  | 0x14 => formT ClsB.ofBits (.clz g) w r
  | 0x15 => formT ClsB.ofBits (.popc g) w r
  | 0x16 => formT ClsB.ofBits (.brev g) w r
  | 0x17 => formT ClsS.ofBits (.bfe g) w r
  | 0x18 => formT ClsB.ofBits (.bfi g) w r
  | 0x19 => formT ClsL.ofBits (.lea g) w r
  | 0x1A => formT ClsW.ofBits (.addw g) w r
  | 0x1B => formT ClsE.ofBits (.sext g) w r
  | 0x1D => formT zeroSub (fun _ => .bsel g) w r
  | 0x1E => formT ClsB.ofBits (.mov g) w r
  | 0x1F => formT zeroSub (fun _ => .null g) w r
  | _ => refuse .opcode

/-- Opcodes 0x020 to 0x03F. -/
def map01 (n : Nat) (g : Guard) (w : Word) (r : List Word) : Decoded :=
  match n with
  | 0x00 => formI (.addi g) w r
  | 0x01 => formI (.andi g) w r
  | 0x02 => formI (.ori g) w r
  | 0x03 => formI (.xori g) w r
  | 0x04 => formI (.shli g) w r
  | 0x05 => formI (.shri g) w r
  | 0x06 => formI (.sari g) w r
  | 0x07 => formI (.muli g) w r
  | _ => refuse .opcode

/-- Opcodes 0x040 to 0x05F. -/
def map02 (n : Nat) (g : Guard) (w : Word) (r : List Word) : Decoded :=
  match n with
  | 0x00 => formT ClsCmp.ofBits (.cmp g) w r
  | 0x01 => formT ClsCmp.ofBits (.cmp64 g) w r
  | 0x02 => formI (.cmpiEq g) w r
  | 0x03 => formI (.cmpiNe g) w r
  | 0x04 => formI (.cmpiLt g) w r
  | 0x05 => formI (.cmpiLe g) w r
  | 0x06 => formI (.cmpiGt g) w r
  | 0x07 => formI (.cmpiGe g) w r
  | 0x08 => formT ClsB.ofBits (.sel g) w r
  | 0x09 => formT zeroSub (fun _ => .pand g) w r
  | 0x0A => formT zeroSub (fun _ => .por g) w r
  | 0x0B => formT zeroSub (fun _ => .pxor g) w r
  | 0x0C => formT zeroSub (fun _ => .pnot g) w r
  | 0x10 => formT ClsB.ofBits (.rfl g) w r
  | 0x11 => formT ClsB.ofBits (.rdln g) w r
  | 0x12 => formT ClsB.ofBits (.wrln g) w r
  | 0x13 => formT ClsSh.ofBits (.lxch g) w r
  | 0x14 => formT ClsV.ofBits (.vote g) w r
  | 0x15 => formT ClsB.ofBits (.matchKeys g) w r
  | 0x16 => formT ClsRo.ofBits (.redux g) w r
  | 0x17 => formT ClsRo.ofBits (.scan g) w r
  | 0x18 => formT ClsLm.ofBits (.lmask g) w r
  | 0x19 => formT ClsB.ofBits (.bcast g) w r
  | 0x1A => formT zeroSub (fun _ => .mskz g) w r
  | _ => refuse .opcode

/-- Opcodes 0x060 to 0x07F. -/
def map03 (n : Nat) (g : Guard) (w : Word) (r : List Word) : Decoded :=
  match n with
  | 0x00 => formIN 0x1C0 (.exit g) w r
  | 0x01 => if w.sub = 0 then (if w.extractLsb' 0 18 = 0x381FF then .ok (.exitv g, r) else refuse .target) else refuse .sub
  | _ => refuse .opcode

/-- Opcodes 0x080 to 0x09F. -/
def map04 (n : Nat) (g : Guard) (w : Word) (r : List Word) : Decoded :=
  match n with
  | 0x00 => formT Round.ofBits (.fadd g) w r
  | 0x01 => formT Round.ofBits (.fsub g) w r
  | 0x02 => formT Round.ofBits (.fmul g) w r
  | 0x03 => formT Round.ofBits (.ffma g) w r
  | 0x04 => formT zeroSub (fun _ => .fmin g) w r
  | 0x05 => formT zeroSub (fun _ => .fmax g) w r
  | 0x06 => formT zeroSub (fun _ => .fabs g) w r
  | 0x07 => formT zeroSub (fun _ => .fneg g) w r
  | 0x08 => formT ClsFc.ofBits (.fcmp g) w r
  | 0x09 => formT Round.ofBits (.fdiv g) w r
  | 0x0A => formT Round.ofBits (.fsqrt g) w r
  | 0x0B => formT zeroSub (fun _ => .frcp g) w r
  | 0x0C => formT zeroSub (fun _ => .frsq g) w r
  | 0x0D => formT zeroSub (fun _ => .fex2 g) w r
  | 0x0E => formT zeroSub (fun _ => .flg2 g) w r
  | 0x0F => formT ClsSc.ofBits (.fsin g) w r
  | 0x10 => formT zeroSub (fun _ => .fclass g) w r
  | 0x11 => formT Round.ofBits (.frnd g) w r
  | 0x13 => formT Round.ofBits (.fscale g) w r
  | _ => refuse .opcode

/-- Opcodes 0x0A0 to 0x0BF. -/
def map05 (n : Nat) (g : Guard) (w : Word) (r : List Word) : Decoded :=
  match n with
  | 0x00 => formT Round.ofBits (.dadd g) w r
  | 0x01 => formT Round.ofBits (.dsub g) w r
  | 0x02 => formT Round.ofBits (.dmul g) w r
  | 0x03 => formT Round.ofBits (.dfma g) w r
  | 0x04 => formT zeroSub (fun _ => .dmin g) w r
  | 0x05 => formT zeroSub (fun _ => .dmax g) w r
  | 0x06 => formT ClsFc.ofBits (.dcmp g) w r
  | 0x07 => formT Round.ofBits (.ddiv g) w r
  | 0x08 => formT Round.ofBits (.dsqrt g) w r
  | 0x10 => formT ClsH.ofBits (.hadd2 g) w r
  | 0x11 => formT ClsH.ofBits (.hmul2 g) w r
  | 0x12 => formT ClsH.ofBits (.hfma2 g) w r
  | 0x13 => formT HFmt.ofBits (.hmin2 g) w r
  | 0x14 => formT HFmt.ofBits (.hmax2 g) w r
  | 0x15 => formT ClsHc.ofBits (.hcmp2 g) w r
  | _ => refuse .opcode

/-- Opcodes 0x0C0 to 0x0DF. -/
def map06 (n : Nat) (g : Guard) (w : Word) (r : List Word) : Decoded :=
  match n with
  | 0x00 => formXT zeroSub (fun _ => extCvt g) w r
  | 0x01 => formT ClsPk.ofBits (.pack g) w r
  | 0x02 => formT ClsPk.ofBits (.unpk g) w r
  | 0x08 => formT ClsDi.ofBits (.dot4I8 g) w r
  | 0x09 => formT ClsDi.ofBits (.dot8I4 g) w r
  | 0x0A => formT ClsDf.ofBits (.dot4F8 g) w r
  | 0x0B => formT zeroSub (fun _ => .dot8F4 g) w r
  | 0x0C => formT zeroSub (fun _ => .dot2Bf g) w r
  | _ => refuse .opcode

/-- Opcodes 0x100 to 0x11F. -/
def map08 (n : Nat) (g : Guard) (w : Word) (r : List Word) : Decoded :=
  match n with
  | 0x00 => formLd (.ldG g) w r
  | 0x01 => formSt (.stG g) w r
  | 0x02 => formLd (.ldK g) w r
  | 0x03 => formLd (.ldS g) w r
  | 0x04 => formSt (.stS g) w r
  | 0x05 => formSt (.stStep g) w r
  | 0x06 => formSt (.stp g) w r
  | 0x08 => formXT zeroSub (fun _ => extAtom g) w r
  | 0x09 => formXN (extRed g) w r
  | 0x0A => formXT zeroSub (fun _ => extCas g) w r
  | 0x0B => formXT zeroSub (fun _ => extAtomS g) w r
  | 0x10 => formN ClsP.ofBits (.prf g) w r
  | 0x11 => formN zeroSub (fun _ => .cwb g) w r
  | 0x12 => formN zeroSub (fun _ => .cinv g) w r
  | 0x13 => formIN 0x1FF (.pfence g) w r
  | 0x15 => formN ClsCw.ofBits (.waitc g) w r
  | _ => refuse .opcode

/-- Opcodes 0x140 to 0x15F. -/
def map0A (n : Nat) (g : Guard) (w : Word) (r : List Word) : Decoded :=
  match n with
  | 0x00 => formXN (extRgn g) w r
  | 0x01 => formN zeroSub (fun _ => .rgnFree g) w r
  | 0x02 => formT zeroSub (fun _ => .rgnStat g) w r
  | 0x03 => formN zeroSub (fun _ => .step g) w r
  | 0x04 => formT zeroSub (fun _ => .stepQ g) w r
  | 0x08 => formXN (extBar g) w r
  | 0x09 => formN zeroSub (fun _ => .barArv g) w r
  | 0x0A => formN zeroSub (fun _ => .barExp g) w r
  | 0x0B => formN zeroSub (fun _ => .barWait g) w r
  | 0x0C => formT zeroSub (fun _ => .barTest g) w r
  | 0x0D => formT zeroSub (fun _ => .barStat g) w r
  | 0x0E => formN zeroSub (fun _ => .barInv g) w r
  | 0x10 => formN zeroSub (fun _ => .cpG2s g) w r
  | 0x11 => formN zeroSub (fun _ => .cpS2g g) w r
  | 0x12 => formN zeroSub (fun _ => .cpG2g g) w r
  | 0x13 => formN zeroSub (fun _ => .cpGth g) w r
  | 0x14 => formN zeroSub (fun _ => .cpSct g) w r
  | 0x15 => formN zeroSub (fun _ => .cpWin g) w r
  | 0x17 => formN ClsCr.ofBits (.cpRed g) w r
  | _ => refuse .opcode

/-- Opcodes 0x180 to 0x19F. -/
def map0C (n : Nat) (g : Guard) (w : Word) (r : List Word) : Decoded :=
  match n with
  | 0x00 => formN ClsMm.ofBits (.mma g) w r
  | 0x01 => formN ClsMm.ofBits (.mmaChk g) w r
  | 0x02 => formT ClsMm.ofBits (.mmaGrp g) w r
  | 0x03 => formN ClsMm.ofBits (.mmaSc g) w r
  | 0x04 => formN ClsLd.ofBits (.ldm g) w r
  | 0x05 => formN ClsLd.ofBits (.stm g) w r
  | 0x10 => formN zeroSub (fun _ => .gload g) w r
  | 0x11 => formN zeroSub (fun _ => .grun g) w r
  | 0x12 => formN zeroSub (fun _ => .garg g) w r
  | 0x13 => formN zeroSub (fun _ => .gdrain g) w r
  | 0x14 => formN zeroSub (fun _ => .grel g) w r
  | 0x15 => formT zeroSub (fun _ => .gstat g) w r
  | 0x16 => formN zeroSub (fun _ => .galloc g) w r
  | 0x17 => formN zeroSub (fun _ => .gfree g) w r
  | _ => refuse .opcode

/-- Opcodes 0x1A0 to 0x1BF. -/
def map0D (n : Nat) (g : Guard) (w : Word) (r : List Word) : Decoded :=
  match n with
  | 0x00 => formXT ClsB.ofBits (extMov4 g) w r
  | _ => refuse .opcode

/-- Opcodes 0x1C0 to 0x1DF. -/
def map0E (n : Nat) (g : Guard) (w : Word) (r : List Word) : Decoded :=
  match n with
  | 0x00 => formN zeroSub (fun _ => .launch g) w r
  | 0x01 => formN zeroSub (fun _ => .qsig g) w r
  | 0x02 => formIN 0x1FF (.svc g) w r
  | 0x03 => formIN 0x1FF (.brk g) w r
  | 0x04 => formI (.rdsr g) w r
  | 0x05 => formIN 0x1FF (.wrsr g) w r
  | 0x06 => formN zeroSub (fun _ => .yield g) w r
  | 0x07 => formN zeroSub (fun _ => .gstop g) w r
  | 0x09 => formN zeroSub (fun _ => .spush g) w r
  | 0x0A => formT zeroSub (fun _ => .spop g) w r
  | 0x0B => formT zeroSub (fun _ => .clk g) w r
  | 0x0C => formN zeroSub (fun _ => .trapret g) w r
  | 0x0E => formN zeroSub (fun _ => .gbar g) w r
  | 0x0F => formN zeroSub (fun _ => .nop g) w r
  | _ => refuse .opcode

/-- The opcode map of R45: by opcode bits [8:5], then [4:0]. Every opcode not listed is reserved. -/
def byOpcode (op : BitVec 9) (g : Guard) (w : Word) (r : List Word) : Decoded :=
  match (op.extractLsb' 5 4).toNat with
  | 0x0 => map00 (op.extractLsb' 0 5).toNat g w r
  | 0x1 => map01 (op.extractLsb' 0 5).toNat g w r
  | 0x2 => map02 (op.extractLsb' 0 5).toNat g w r
  | 0x3 => map03 (op.extractLsb' 0 5).toNat g w r
  | 0x4 => map04 (op.extractLsb' 0 5).toNat g w r
  | 0x5 => map05 (op.extractLsb' 0 5).toNat g w r
  | 0x6 => map06 (op.extractLsb' 0 5).toNat g w r
  | 0x8 => map08 (op.extractLsb' 0 5).toNat g w r
  | 0xA => map0A (op.extractLsb' 0 5).toNat g w r
  | 0xC => map0C (op.extractLsb' 0 5).toNat g w r
  | 0xD => map0D (op.extractLsb' 0 5).toNat g w r
  | 0xE => map0E (op.extractLsb' 0 5).toNat g w r
  | _ => refuse .opcode

/-- Decode the instruction at the head of a list of words; the words after it are returned. -/
def decode : List Word → Decoded
  | [] => refuse .padding
  | w :: r =>
    if w.kBits = 0x7E then formK .genk w r
    else if w.kBits = 0x7F then formK .appk w r
    else
      match Guard.ofBits w.guardBits with
      | none => refuse .opcode
      | some g => byOpcode w.opcode g w r

/-! ### The encoder -/

/-- A word from its fields, each given with the place of its lowest bit. -/
def place (fields : List (Nat × Nat)) : Word :=
  BitVec.ofNat 32 (fields.foldl (fun n f => n + 2 ^ f.2 * f.1) 0)

def wordT (op : BitVec 9) (g : Guard) (s : BitVec 3) (a b : BitVec 9) : Word :=
  place [(op.toNat, 23), (g.toBits.toNat, 21), (s.toNat, 18), (a.toNat, 9), (b.toNat, 0)]
def wordN (op : BitVec 9) (g : Guard) (s : BitVec 3) : Word := wordT op g s 0x1FF 0x1FF
def wordI (op : BitVec 9) (g : Guard) (i : BitVec 12) (t : BitVec 9) : Word :=
  place [(op.toNat, 23), (g.toBits.toNat, 21), (i.toNat, 9), (t.toNat, 0)]
def wordM (op : BitVec 9) (g : Guard) (k : BitVec 5) (i : BitVec 7) (t : BitVec 9) : Word :=
  place [(op.toNat, 23), (g.toBits.toNat, 21), (k.toNat, 16), (i.toNat, 9), (t.toNat, 0)]
def wordK (op : BitVec 7) (i : BitVec 16) (t : BitVec 9) : Word := place [(op.toNat, 25), (i.toNat, 9), (t.toNat, 0)]
def wordAtomic (op : BitVec 4) (o : Order) (s : Scope) (k : BitVec 5) : Word :=
  place [(op.toNat, 28), (o.toBits.toNat, 26), (s.toBits.toNat, 23), (k.toNat, 16)]
def wordCvt (s d : NumTy) (r : Round) (sat : Bool) : Word :=
  place [(s.toBits.toNat, 27), (d.toBits.toNat, 22), (r.toBits.toNat, 20), (sat.toNat, 19)]

/-- The words of an instruction of the block instruction set (R39, R41, R45); a management command or an event has none. -/
def encode : Instr → List Word
  | .add g s ta tb => [wordT 0x000 g s.toBits ta.toBits tb.toBits]
  | .sub g s ta tb => [wordT 0x001 g s.toBits ta.toBits tb.toBits]
  | .mul g s ta tb => [wordT 0x002 g s.toBits ta.toBits tb.toBits]
  | .mulhi g s ta tb => [wordT 0x003 g s.toBits ta.toBits tb.toBits]
  | .mad g s ta tb => [wordT 0x004 g s.toBits ta.toBits tb.toBits]
  | .div g s ta tb => [wordT 0x005 g s.toBits ta.toBits tb.toBits]
  | .rem g s ta tb => [wordT 0x006 g s.toBits ta.toBits tb.toBits]
  | .neg g s ta tb => [wordT 0x007 g s.toBits ta.toBits tb.toBits]
  | .abs g s ta tb => [wordT 0x008 g s.toBits ta.toBits tb.toBits]
  | .min g s ta tb => [wordT 0x009 g s.toBits ta.toBits tb.toBits]
  | .max g s ta tb => [wordT 0x00A g s.toBits ta.toBits tb.toBits]
  | .and g s ta tb => [wordT 0x00B g s.toBits ta.toBits tb.toBits]
  | .or g s ta tb => [wordT 0x00C g s.toBits ta.toBits tb.toBits]
  | .xor g s ta tb => [wordT 0x00D g s.toBits ta.toBits tb.toBits]
  | .not g s ta tb => [wordT 0x00E g s.toBits ta.toBits tb.toBits]
  | .andn g s ta tb => [wordT 0x00F g s.toBits ta.toBits tb.toBits]
  | .shl g s ta tb => [wordT 0x010 g s.toBits ta.toBits tb.toBits]
  | .shr g s ta tb => [wordT 0x011 g s.toBits ta.toBits tb.toBits]
  | .sar g s ta tb => [wordT 0x012 g s.toBits ta.toBits tb.toBits]
  | .rotl g s ta tb => [wordT 0x013 g s.toBits ta.toBits tb.toBits]
  | .clz g s ta tb => [wordT 0x014 g s.toBits ta.toBits tb.toBits]
  | .popc g s ta tb => [wordT 0x015 g s.toBits ta.toBits tb.toBits]
  | .brev g s ta tb => [wordT 0x016 g s.toBits ta.toBits tb.toBits]
  | .bfe g s ta tb => [wordT 0x017 g s.toBits ta.toBits tb.toBits]
  | .bfi g s ta tb => [wordT 0x018 g s.toBits ta.toBits tb.toBits]
  | .lea g s ta tb => [wordT 0x019 g s.toBits ta.toBits tb.toBits]
  | .addw g s ta tb => [wordT 0x01A g s.toBits ta.toBits tb.toBits]
  | .sext g s ta tb => [wordT 0x01B g s.toBits ta.toBits tb.toBits]
  | .bsel g ta tb => [wordT 0x01D g 0 ta.toBits tb.toBits]
  | .mov g s ta tb => [wordT 0x01E g s.toBits ta.toBits tb.toBits]
  | .null g ta tb => [wordT 0x01F g 0 ta.toBits tb.toBits]
  | .addi g imm t => [wordI 0x020 g imm t.toBits]
  | .andi g imm t => [wordI 0x021 g imm t.toBits]
  | .ori g imm t => [wordI 0x022 g imm t.toBits]
  | .xori g imm t => [wordI 0x023 g imm t.toBits]
  | .shli g imm t => [wordI 0x024 g imm t.toBits]
  | .shri g imm t => [wordI 0x025 g imm t.toBits]
  | .sari g imm t => [wordI 0x026 g imm t.toBits]
  | .muli g imm t => [wordI 0x027 g imm t.toBits]
  | .cmp g s ta tb => [wordT 0x040 g s.toBits ta.toBits tb.toBits]
  | .cmp64 g s ta tb => [wordT 0x041 g s.toBits ta.toBits tb.toBits]
  | .cmpiEq g imm t => [wordI 0x042 g imm t.toBits]
  | .cmpiNe g imm t => [wordI 0x043 g imm t.toBits]
  | .cmpiLt g imm t => [wordI 0x044 g imm t.toBits]
  | .cmpiLe g imm t => [wordI 0x045 g imm t.toBits]
  | .cmpiGt g imm t => [wordI 0x046 g imm t.toBits]
  | .cmpiGe g imm t => [wordI 0x047 g imm t.toBits]
  | .sel g s ta tb => [wordT 0x048 g s.toBits ta.toBits tb.toBits]
  | .pand g ta tb => [wordT 0x049 g 0 ta.toBits tb.toBits]
  | .por g ta tb => [wordT 0x04A g 0 ta.toBits tb.toBits]
  | .pxor g ta tb => [wordT 0x04B g 0 ta.toBits tb.toBits]
  | .pnot g ta tb => [wordT 0x04C g 0 ta.toBits tb.toBits]
  | .rfl g s ta tb => [wordT 0x050 g s.toBits ta.toBits tb.toBits]
  | .rdln g s ta tb => [wordT 0x051 g s.toBits ta.toBits tb.toBits]
  | .wrln g s ta tb => [wordT 0x052 g s.toBits ta.toBits tb.toBits]
  | .lxch g s ta tb => [wordT 0x053 g s.toBits ta.toBits tb.toBits]
  | .vote g s ta tb => [wordT 0x054 g s.toBits ta.toBits tb.toBits]
  | .matchKeys g s ta tb => [wordT 0x055 g s.toBits ta.toBits tb.toBits]
  | .redux g s ta tb => [wordT 0x056 g s.toBits ta.toBits tb.toBits]
  | .scan g s ta tb => [wordT 0x057 g s.toBits ta.toBits tb.toBits]
  | .lmask g s ta tb => [wordT 0x058 g s.toBits ta.toBits tb.toBits]
  | .bcast g s ta tb => [wordT 0x059 g s.toBits ta.toBits tb.toBits]
  | .mskz g ta tb => [wordT 0x05A g 0 ta.toBits tb.toBits]
  | .exit g imm => [wordI 0x060 g imm 0x1C0]
  | .exitv g => [wordT 0x061 g 0 0x1C0 0x1FF]
  | .fadd g s ta tb => [wordT 0x080 g s.toBits ta.toBits tb.toBits]
  | .fsub g s ta tb => [wordT 0x081 g s.toBits ta.toBits tb.toBits]
  | .fmul g s ta tb => [wordT 0x082 g s.toBits ta.toBits tb.toBits]
  | .ffma g s ta tb => [wordT 0x083 g s.toBits ta.toBits tb.toBits]
  | .fmin g ta tb => [wordT 0x084 g 0 ta.toBits tb.toBits]
  | .fmax g ta tb => [wordT 0x085 g 0 ta.toBits tb.toBits]
  | .fabs g ta tb => [wordT 0x086 g 0 ta.toBits tb.toBits]
  | .fneg g ta tb => [wordT 0x087 g 0 ta.toBits tb.toBits]
  | .fcmp g s ta tb => [wordT 0x088 g s.toBits ta.toBits tb.toBits]
  | .fdiv g s ta tb => [wordT 0x089 g s.toBits ta.toBits tb.toBits]
  | .fsqrt g s ta tb => [wordT 0x08A g s.toBits ta.toBits tb.toBits]
  | .frcp g ta tb => [wordT 0x08B g 0 ta.toBits tb.toBits]
  | .frsq g ta tb => [wordT 0x08C g 0 ta.toBits tb.toBits]
  | .fex2 g ta tb => [wordT 0x08D g 0 ta.toBits tb.toBits]
  | .flg2 g ta tb => [wordT 0x08E g 0 ta.toBits tb.toBits]
  | .fsin g s ta tb => [wordT 0x08F g s.toBits ta.toBits tb.toBits]
  | .fclass g ta tb => [wordT 0x090 g 0 ta.toBits tb.toBits]
  | .frnd g s ta tb => [wordT 0x091 g s.toBits ta.toBits tb.toBits]
  | .fscale g s ta tb => [wordT 0x093 g s.toBits ta.toBits tb.toBits]
  | .dadd g s ta tb => [wordT 0x0A0 g s.toBits ta.toBits tb.toBits]
  | .dsub g s ta tb => [wordT 0x0A1 g s.toBits ta.toBits tb.toBits]
  | .dmul g s ta tb => [wordT 0x0A2 g s.toBits ta.toBits tb.toBits]
  | .dfma g s ta tb => [wordT 0x0A3 g s.toBits ta.toBits tb.toBits]
  | .dmin g ta tb => [wordT 0x0A4 g 0 ta.toBits tb.toBits]
  | .dmax g ta tb => [wordT 0x0A5 g 0 ta.toBits tb.toBits]
  | .dcmp g s ta tb => [wordT 0x0A6 g s.toBits ta.toBits tb.toBits]
  | .ddiv g s ta tb => [wordT 0x0A7 g s.toBits ta.toBits tb.toBits]
  | .dsqrt g s ta tb => [wordT 0x0A8 g s.toBits ta.toBits tb.toBits]
  | .hadd2 g s ta tb => [wordT 0x0B0 g s.toBits ta.toBits tb.toBits]
  | .hmul2 g s ta tb => [wordT 0x0B1 g s.toBits ta.toBits tb.toBits]
  | .hfma2 g s ta tb => [wordT 0x0B2 g s.toBits ta.toBits tb.toBits]
  | .hmin2 g s ta tb => [wordT 0x0B3 g s.toBits ta.toBits tb.toBits]
  | .hmax2 g s ta tb => [wordT 0x0B4 g s.toBits ta.toBits tb.toBits]
  | .hcmp2 g s ta tb => [wordT 0x0B5 g s.toBits ta.toBits tb.toBits]
  | .cvt g ta tb src dst rnd sat => [wordT 0x0C0 g 0 ta.toBits tb.toBits, wordCvt src dst rnd sat]
  | .pack g s ta tb => [wordT 0x0C1 g s.toBits ta.toBits tb.toBits]
  | .unpk g s ta tb => [wordT 0x0C2 g s.toBits ta.toBits tb.toBits]
  | .dot4I8 g s ta tb => [wordT 0x0C8 g s.toBits ta.toBits tb.toBits]
  | .dot8I4 g s ta tb => [wordT 0x0C9 g s.toBits ta.toBits tb.toBits]
  | .dot4F8 g s ta tb => [wordT 0x0CA g s.toBits ta.toBits tb.toBits]
  | .dot8F4 g ta tb => [wordT 0x0CB g 0 ta.toBits tb.toBits]
  | .dot2Bf g ta tb => [wordT 0x0CC g 0 ta.toBits tb.toBits]
  | .ldG g slot imm t => [wordM 0x100 g slot imm t.toBits]
  | .stG g slot imm => [wordM 0x101 g slot imm 0x1FF]
  | .ldK g slot imm t => [wordM 0x102 g slot imm t.toBits]
  | .ldS g slot imm t => [wordM 0x103 g slot imm t.toBits]
  | .stS g slot imm => [wordM 0x104 g slot imm 0x1FF]
  | .stStep g slot imm => [wordM 0x105 g slot imm 0x1FF]
  | .stp g slot imm => [wordM 0x106 g slot imm 0x1FF]
  | .atom g ta tb op ord sc slot => [wordT 0x108 g 0 ta.toBits tb.toBits, wordAtomic op.toBits ord sc slot]
  | .red g op ord sc slot => [wordN 0x109 g 0, wordAtomic op.toBits ord sc slot]
  | .cas g ta tb ord sc slot => [wordT 0x10A g 0 ta.toBits tb.toBits, wordAtomic 0 ord sc slot]
  | .atomS g ta tb op ord sc slot => [wordT 0x10B g 0 ta.toBits tb.toBits, wordAtomic op.toBits ord sc slot]
  | .prf g s => [wordN 0x110 g s.toBits]
  | .cwb g => [wordN 0x111 g 0]
  | .cinv g => [wordN 0x112 g 0]
  | .pfence g imm => [wordI 0x113 g imm 0x1FF]
  | .waitc g s => [wordN 0x115 g s.toBits]
  | .rgnDef g rule kind num => [wordN 0x140 g 0, place [(rule.toBits.toNat, 28), (kind.toBits.toNat, 26), (num.toNat, 23)]]
  | .rgnFree g => [wordN 0x141 g 0]
  | .rgnStat g ta tb => [wordT 0x142 g 0 ta.toBits tb.toBits]
  | .step g => [wordN 0x143 g 0]
  | .stepQ g ta tb => [wordT 0x144 g 0 ta.toBits tb.toBits]
  | .barInit g sc => [wordN 0x148 g 0, place [(sc.toBits.toNat, 29)]]
  | .barArv g => [wordN 0x149 g 0]
  | .barExp g => [wordN 0x14A g 0]
  | .barWait g => [wordN 0x14B g 0]
  | .barTest g ta tb => [wordT 0x14C g 0 ta.toBits tb.toBits]
  | .barStat g ta tb => [wordT 0x14D g 0 ta.toBits tb.toBits]
  | .barInv g => [wordN 0x14E g 0]
  | .cpG2s g => [wordN 0x150 g 0]
  | .cpS2g g => [wordN 0x151 g 0]
  | .cpG2g g => [wordN 0x152 g 0]
  | .cpGth g => [wordN 0x153 g 0]
  | .cpSct g => [wordN 0x154 g 0]
  | .cpWin g => [wordN 0x155 g 0]
  | .cpRed g s => [wordN 0x157 g s.toBits]
  | .mma g s => [wordN 0x180 g s.toBits]
  | .mmaChk g s => [wordN 0x181 g s.toBits]
  | .mmaGrp g s ta tb => [wordT 0x182 g s.toBits ta.toBits tb.toBits]
  | .mmaSc g s => [wordN 0x183 g s.toBits]
  | .ldm g s => [wordN 0x184 g s.toBits]
  | .stm g s => [wordN 0x185 g s.toBits]
  | .gload g => [wordN 0x190 g 0]
  | .grun g => [wordN 0x191 g 0]
  | .garg g => [wordN 0x192 g 0]
  | .gdrain g => [wordN 0x193 g 0]
  | .grel g => [wordN 0x194 g 0]
  | .gstat g ta tb => [wordT 0x195 g 0 ta.toBits tb.toBits]
  | .galloc g => [wordN 0x196 g 0]
  | .gfree g => [wordN 0x197 g 0]
  | .mov4 g s ta tb tc td => [wordT 0x1A0 g s.toBits ta.toBits tb.toBits, place [(tc.toBits.toNat, 9), (td.toBits.toNat, 0)]]
  | .launch g => [wordN 0x1C0 g 0]
  | .qsig g => [wordN 0x1C1 g 0]
  | .svc g imm => [wordI 0x1C2 g imm 0x1FF]
  | .brk g imm => [wordI 0x1C3 g imm 0x1FF]
  | .rdsr g imm t => [wordI 0x1C4 g imm t.toBits]
  | .wrsr g imm => [wordI 0x1C5 g imm 0x1FF]
  | .yield g => [wordN 0x1C6 g 0]
  | .gstop g => [wordN 0x1C7 g 0]
  | .spush g => [wordN 0x1C9 g 0]
  | .spop g ta tb => [wordT 0x1CA g 0 ta.toBits tb.toBits]
  | .clk g ta tb => [wordT 0x1CB g 0 ta.toBits tb.toBits]
  | .trapret g => [wordN 0x1CC g 0]
  | .gbar g => [wordN 0x1CE g 0]
  | .nop g => [wordN 0x1CF g 0]
  | .genk imm t => [wordK 0x7E imm t.toBits]
  | .appk imm t => [wordK 0x7F imm t.toBits]
  | .create _ _ _ => []
  | .commit _ _ => []
  | .suspend _ _ => []
  | .resume _ _ => []
  | .destroy _ _ => []
  | .fpnset _ _ _ => []
  | .segset _ _ _ => []
  | .kill _ _ _ => []
  | .ctxacct _ _ _ => []
  | .tlbinv _ _ _ _ _ => []
  | .fltdone _ _ _ _ => []
  | .memwb _ _ _ _ => []
  | .memsplit _ _ _ => []
  | .linkstat _ _ _ => []
  | .peerset _ _ _ _ _ _ => []
  | .dbgset _ _ _ => []
  | .dbgbp _ _ _ _ => []
  | .dbgstop _ _ _ _ _ => []
  | .dbgresume _ _ _ _ _ _ => []
  | .dbgwarp _ _ _ _ _ _ _ => []
  | .dbgkill _ _ _ _ _ _ => []
  | .dbgtok _ _ _ _ _ _ _ => []
  | .dbgnode _ _ _ _ _ _ => []
  | .smpset _ _ _ _ _ _ _ _ _ => []
  | .ewset _ _ _ => []
  | .ewget _ _ _ => []
  | .pwrlim _ _ _ => []
  | .pwrstat _ _ _ => []
  | .commandCompletion => []
  | .cmdwrWrite _ => []
  | .cmdctlWrite _ => []
  | .cplrdWrite _ => []
  | .evctlWrite _ => []
  | .evrdWrite _ => []
  | .evlostClear => []
  | .merrClear _ => []
  | .smprdWrite _ => []
  | .registerWrite _ _ _ => []
  | .startRequest _ _ => []
  | .powerOn => []
  | .verificationDone => []
  | .trainingDone _ _ _ _ _ _ => []
  | .clearingDone _ => []
  | .firmwareUpdate _ => []
  | .spdmRequest _ => []
  | .telemetrySample _ => []
  | .doorbell _ _ _ => []
  | .queueEnable _ _ _ => []
  | .queueDisable _ _ _ => []
  | .queueSuspend _ _ => []
  | .queueResume _ _ => []
  | .queueReset _ _ => []
  | .queueRetry _ _ => []
  | .qcmdIgnored _ _ _ => []
  | .qdropClear _ _ => []
  | .headTest _ _ => []
  | .blockedRetest _ _ => []
  | .launchCommand _ => []
  | .launchCopyDone _ => []
  | .entryCheck _ => []
  | .placement => []
  | .priorityAging _ => []
  | .blockFetch _ => []
  | .blockMap _ => []
  | .loadReturn _ _ => []
  | .walkComplete _ _ => []
  | .atomicIssue _ => []
  | .atomicReturn _ => []
  | .divisionComplete _ _ => []
  | .floatDivideComplete _ _ => []
  | .matrixComplete _ _ => []
  | .blockCommit _ => []
  | .gbarArrival _ => []
  | .barArrival _ => []
  | .stepArrival _ => []
  | .steppedStoreApply _ => []
  | .regionStepComplete _ _ => []
  | .yieldExpiry _ => []
  | .forwardProgressSwap _ => []
  | .swapComplete _ => []
  | .saveComplete _ => []
  | .teardownComplete _ => []
  | .groupHaltComplete _ => []
  | .groupRetirement _ => []
  | .kernelCompletion _ => []
  | .dumpWrite _ => []
  | .pfenceComplete _ => []
  | .cacheMaintComplete _ => []
  | .evictionWriteback _ _ => []
  | .copySectorComplete _ => []
  | .copyCompletion _ => []
  | .graphCommandApply _ => []
  | .gloadComplete _ => []
  | .fabricRoundBoundary _ _ => []
  | .phaseEnd _ => []
  | .retrainingTrigger _ => []
  | .retrainingEnds _ _ => []
  | .retrainingFails _ _ => []
  | .hostLinkLoss => []
  | .peerPortChange _ _ => []
  | .hostAccess _ => []
  | .peerAccess _ _ => []
  | .hostSnoop .. => []
  | .softError _ => []
  | .samplerInterval => []
  | .budgetWindowRefresh => []
  | .fabricBeat _ _ => []
  | .hostLinkTrained _ _ => []

/-! ### Management command entries (14 R325, R328) -/

/-- Word k of a command entry's argument words. -/
def argW (a : List Word) (k : Nat) : Word := a.getD k 0

/-- The 64-bit value of argument words k and k + 1, low word first (R325). -/
def argD (a : List Word) (k : Nat) : DWord := argW a (k + 1) ++ argW a k

/-- The command of a ring entry by its code (R328); none for an unassigned code. `c` is the context field, `t` the tag and `a`
the argument words a0 to a13. -/
def decodeCommand (code : Nat) (c : BitVec 8) (t : Word) (a : List Word) : Option Instr :=
  match code with
  | 0x0001 => some (.create t c (argD a 0))
  | 0x0002 => some (.commit t c)
  | 0x0003 => some (.suspend t c)
  | 0x0004 => some (.resume t c)
  | 0x0005 => some (.destroy t c)
  | 0x0006 => some (.fpnset t c (argW a 0))
  | 0x0007 => some (.segset t c (argW a 0))
  | 0x0008 => some (.kill t c (argW a 0))
  | 0x0009 => some (.ctxacct t c (argD a 0))
  | 0x0010 => some (.tlbinv t c (argD a 0) (argD a 2) (argW a 4))
  | 0x0011 => some (.fltdone t c (argW a 0) (argW a 1))
  | 0x0012 => some (.memwb t c (argD a 0) (argD a 2))
  | 0x0013 => some (.memsplit t c (argW a 0))
  | 0x0020 => some (.linkstat t c (argW a 0))
  | 0x0021 => some (.peerset t c (argW a 0) (argW a 1) (argD a 2) (argD a 4))
  | 0x0030 => some (.dbgset t c (argW a 0))
  | 0x0031 => some (.dbgbp t c (argW a 0) (argW a 1))
  | 0x0032 => some (.dbgstop t c (argW a 0) (argW a 1) (argW a 2))
  | 0x0033 => some (.dbgresume t c (argW a 0) (argW a 1) (argW a 2) (argW a 3))
  | 0x0034 => some (.dbgwarp t c (argW a 0) (argW a 1) (argW a 2) (argD a 3) (argW a 5))
  | 0x0035 => some (.dbgkill t c (argW a 0) (argW a 1) (argW a 2) (argW a 3))
  | 0x0036 => some (.dbgtok t c (argW a 0) (argW a 1) (argW a 2) (argW a 3) (argD a 4))
  | 0x0037 => some (.dbgnode t c (argW a 0) (argW a 1) (argW a 2) (argD a 3))
  | 0x0040 => some (.smpset t c (argD a 0) (argW a 2) (argW a 3) (argW a 4) (argW a 5) (argW a 6) (argW a 7))
  | 0x0041 => some (.ewset t c (argD a 0))
  | 0x0042 => some (.ewget t c (argD a 0))
  | 0x0050 => some (.pwrlim t c (argW a 0))
  | 0x0051 => some (.pwrstat t c (argD a 0))
  | _ => none

/-- The code of a management command (R328), 0 for any other constructor. -/
def commandCode : Instr → Nat
  | .create .. => 0x0001
  | .commit .. => 0x0002
  | .suspend .. => 0x0003
  | .resume .. => 0x0004
  | .destroy .. => 0x0005
  | .fpnset .. => 0x0006
  | .segset .. => 0x0007
  | .kill .. => 0x0008
  | .ctxacct .. => 0x0009
  | .tlbinv .. => 0x0010
  | .fltdone .. => 0x0011
  | .memwb .. => 0x0012
  | .memsplit .. => 0x0013
  | .linkstat .. => 0x0020
  | .peerset .. => 0x0021
  | .dbgset .. => 0x0030
  | .dbgbp .. => 0x0031
  | .dbgstop .. => 0x0032
  | .dbgresume .. => 0x0033
  | .dbgwarp .. => 0x0034
  | .dbgkill .. => 0x0035
  | .dbgtok .. => 0x0036
  | .dbgnode .. => 0x0037
  | .smpset .. => 0x0040
  | .ewset .. => 0x0041
  | .ewget .. => 0x0042
  | .pwrlim .. => 0x0050
  | .pwrstat .. => 0x0051
  | _ => 0

/-- Low and high word of a 64-bit argument. -/
def lo32 (d : DWord) : Word := d.extractLsb' 0 32
def hi32 (d : DWord) : Word := d.extractLsb' 32 32

/-- The ring entry of a management command: context, tag and argument words (R325, R328). -/
def encodeCommand : Instr → Option (BitVec 8 × Word × List Word)
  | .create tag ctx desc => some (ctx, tag, [lo32 desc, hi32 desc])
  | .commit tag ctx => some (ctx, tag, [])
  | .suspend tag ctx => some (ctx, tag, [])
  | .resume tag ctx => some (ctx, tag, [])
  | .destroy tag ctx => some (ctx, tag, [])
  | .fpnset tag ctx v => some (ctx, tag, [v])
  | .segset tag ctx k => some (ctx, tag, [k])
  | .kill tag ctx kid => some (ctx, tag, [kid])
  | .ctxacct tag ctx buf => some (ctx, tag, [lo32 buf, hi32 buf])
  | .tlbinv tag ctx base len all => some (ctx, tag, [lo32 base, hi32 base, lo32 len, hi32 len, all])
  | .fltdone tag ctx k action => some (ctx, tag, [k, action])
  | .memwb tag ctx base len => some (ctx, tag, [lo32 base, hi32 base, lo32 len, hi32 len])
  | .memsplit tag ctx m => some (ctx, tag, [m])
  | .linkstat tag ctx which => some (ctx, tag, [which])
  | .peerset tag ctx ap en base size => some (ctx, tag, [ap, en, lo32 base, hi32 base, lo32 size, hi32 size])
  | .dbgset tag ctx v => some (ctx, tag, [v])
  | .dbgbp tag ctx entry handle => some (ctx, tag, [entry, handle])
  | .dbgstop tag ctx kid grank flags => some (ctx, tag, [kid, grank, flags])
  | .dbgresume tag ctx kid grank wrank mode => some (ctx, tag, [kid, grank, wrank, mode])
  | .dbgwarp tag ctx kid grank wrank buf wr => some (ctx, tag, [kid, grank, wrank, lo32 buf, hi32 buf, wr])
  | .dbgkill tag ctx kid grank wrank lanes => some (ctx, tag, [kid, grank, wrank, lanes])
  | .dbgtok tag ctx kid grank wrank idx buf => some (ctx, tag, [kid, grank, wrank, idx, lo32 buf, hi32 buf])
  | .dbgnode tag ctx part pos slot buf => some (ctx, tag, [part, pos, slot, lo32 buf, hi32 buf])
  | .smpset tag ctx base entries interval scope e0 e1 e2 => some (ctx, tag, [lo32 base, hi32 base, entries, interval, scope, e0, e1, e2])
  | .ewset tag ctx buf => some (ctx, tag, [lo32 buf, hi32 buf])
  | .ewget tag ctx buf => some (ctx, tag, [lo32 buf, hi32 buf])
  | .pwrlim tag ctx watts => some (ctx, tag, [watts])
  | .pwrstat tag ctx buf => some (ctx, tag, [lo32 buf, hi32 buf])
  | _ => none

/-- The host's question about one opcode-table row: the instruction read from bits numbered as the table numbers them, the word
of bits 31 to 0 first and the word of bits 63 to 32 after it. -/
def decodeTableWord (_nbits w : Nat) : Option Instr :=
  match decode [BitVec.ofNat 32 w, BitVec.ofNat 32 (w / 2 ^ 32)] with
  | .ok (i, _) => some i
  | .error _ => none

end Sys2Proof
end

