-- ==== Sys2Proof/Machine/State.lean ====
section
/-!
DEFINITION. The state of the module as plain data: everything the spec gives the machine, and the few fields the model needs of
its own (cur, agenda, tick, uid, hostRead, mem.epoch, sramUsed, born; INVENTORY.md, State). A map with a default is a list of key and value pairs with rising
keys and no entry equal to the default; a table of entities is a list of number and entity pairs.
-/
namespace Sys2Proof.Machine

/-- A sparse map: keys rising, no entry equal to what an unlisted key reads as. -/
abbrev Smap (α : Type) := List (Nat × α)

/-- A table of entities by number; an unlisted number has none. -/
abbrev Table (α : Type) := List (Nat × α)

/-! ### Memory and caches (09, 12) -/

/-- Device and host memory by physical address (12 R252). `epoch` counts the memsplits that left it undefined (R253): an unlisted
byte reads 0 in epoch 0, as clearing leaves it (21 R468), and a free byte after. -/
structure Memory where
  cells : List Host.Cell
  epoch : Nat
deriving DecidableEq, Repr

/-- Coherence classes of a page (09 R185). -/
inductive PageClass where
  | C | S | U
deriving DecidableEq, Repr

/-- A line of an L1 data cache (128 bytes), a scalar cache (64) or a block cache (64): the core, the owning context (tagging the
last two, R182), the line's number (physical address over its size), its bytes, and the sectors of it (physical address over 32) whose
copy here is poisoned (18 R439). -/
structure CLine where
  core  : Nat
  ctx   : Nat
  line  : Nat
  bytes : List Byte
  pois  : List Nat
deriving DecidableEq, Repr

/-- Whose bytes lie dirty in an S-class line, not yet performed at device scope (09 R193): a warp's stores, a copy's writes, those of a group's
finished copies, a partition's. -/
inductive Debt where
  | warp (w : Nat) | copy (c : Nat) | group (g : Nat) | part (p : Nat)
deriving DecidableEq, Repr

/-- An S-class line of a die L2: 128 bytes and the dirty-byte mask (R185, R186), whose dirty bytes they are, and the context that wrote
last, to which the write-back is charged (03 R58), and its poisoned sectors. -/
structure SLine where
  die   : Nat
  line  : Nat
  bytes : List Byte
  dirty : BitVec 128
  debts : List Debt
  ctx   : Nat
  pois  : List Nat
deriving DecidableEq, Repr

/-- A die's hold of a C-class line under the directory (R185), and the poisoned sectors of its copy; the bytes are those of memory. -/
structure DirLine where
  die  : Nat
  line : Nat
  excl : Bool
  pois : List Nat
deriving DecidableEq, Repr

/-- A line of the hub cache (01 R8): written since it was filled or not, and the poisoned sectors of its copy; the bytes are those of
memory. -/
structure HubLine where
  line  : Nat
  dirty : Bool
  pois  : List Nat
deriving DecidableEq, Repr

/-- The caches: L1 data caches, S-class and C-class lines of the die L2s, scalar and block caches, the lines of the hub cache, and the
host-window lines whose ownership the hub holds (14 R322). -/
structure Caches where
  l1  : List CLine
  l2  : List SLine
  dir : List DirLine
  kc  : List CLine
  ic  : List CLine
  hub : List HubLine
  own : List Nat
deriving DecidableEq, Repr

/-- A write of the hub held behind a retraining link (14 R313, R315): address, bytes, poison. -/
structure HeldWrite where
  pa    : Nat
  bytes : List Byte
  bad   : Bool
deriving DecidableEq, Repr

/-- A cached leaf translation (12 R259): its holder (core, or die), the context, the virtual base and size of the page, and the
leaf entry (R255). -/
structure TlbEntry where
  holder : Nat
  ctx    : Nat
  base   : Nat
  size   : Nat
  entry  : DWord
deriving DecidableEq, Repr

/-- A merged miss: a walk outstanding for a 64 KiB virtual page of a context, the cores whose instructions and fetches wait on it, and the
dies whose copy engines and fabric do (R260). -/
structure WalkReq where
  ctx   : Nat
  page  : Nat
  cores : List Nat
  dies  : List Nat
deriving DecidableEq, Repr

structure Tlbs where
  core  : List TlbEntry
  die   : List TlbEntry
  /-- The hub's walk cache of level-0 and level-1 entries: context, level, virtual index so far, entry. A leaf is not kept there, so none
  can leave a stale refusal behind. -/
  walkc : List (Nat × Nat × Nat × DWord)
  walks : List WalkReq
deriving DecidableEq, Repr

/-! ### The module: start, identity, power, links, management (14, 18, 21) -/

/-- START states (21 R467). -/
inductive StartState where
  | off | verifying | training | clearing | ready | failed
deriving DecidableEq, Repr

structure Start where
  result  : Byte
  state   : StartState
  ignored : Byte
  clear   : Bool
  warm    : Bool
  /-- Stack positions that have trained and stay locked (R469). -/
  hbmStacks  : BitVec 16
deriving DecidableEq, Repr

/-- The firmware slots with their images, if any, which of them was last marked active, and the fuse block: the least security version accepted
and the hash of the public key (21 R472). -/
structure Firmware where
  slotA    : Option FwImage
  slotB    : Option FwImage
  activeB  : Bool
  minimum  : Word
  keyHash  : BitVec 256
deriving DecidableEq, Repr

/-- Identity (21 R473): whether the part is the GW-HN7-768, the serial number, and the security version and digest of the active firmware
image. Its identity key and certificates are fixed for the module (Config.lean). -/
structure Ident where
  is768   : Bool
  serial  : DWord
  version : Word
  digest  : BitVec 256
deriving DecidableEq, Repr

/-- What the responder answers an SPDM request with (21 R474). The hash of the messages that a signature is made over stands in the answer. -/
inductive SpdmAnswer where
  | busy
  | unsupported
  | version (v : BitVec 16)
  | capabilities (flags : Word)
  | algorithms (sign hash : Word)
  | digests (chain : BitVec 256)
  | certificate (chain : List (List Byte))
  | challengeAuth (messages : BitVec 256) (sig : Signature)
  | measurements (image fuses ident : BitVec 256)
  | keyExchange (messages : BitVec 256) (share : PubKey) (sig : Signature)
deriving DecidableEq, Repr

/-- The last SPDM request and its answer (21 R474), and the integrity and encryption keys of the host port that a key exchange set up. -/
structure Spdm where
  last     : Option (SpdmReq × SpdmAnswer)
  linkKeys : Option (BitVec 256 × BitVec 256)
deriving DecidableEq, Repr

/-- The telemetry sample pwrstat returns (14 R329): thirteen words from offset 0 and CLK at the sample. -/
structure Telemetry where
  power    : Word
  dies     : List Word
  hottest  : Word
  inlet    : Word
  outlet   : Word
  withheld : Word
  clk      : DWord
deriving DecidableEq, Repr

/-- Die-link states (14 R313). -/
inductive LinkState where
  | up | retraining | degraded | down
deriving DecidableEq, Repr

/-- A die link: state, good sublinks, the cycle counts at which it entered its recent retrainings (R314), writes and arrivals lost (R319),
kernels that failed with LINK_LOST, and whether it was locked at the start request (21 R469). -/
structure DieLink where
  state   : LinkState
  lanes   : Nat
  trained : List DWord
  lost    : Nat
  kernels : Nat
  locked  : Bool
deriving DecidableEq, Repr

/-- Host-port states (14 R319, R320). -/
inductive HostState where
  | up | training | degraded | down | disabled
deriving DecidableEq, Repr

structure HostLink where
  state : HostState
  lanes : Nat
  rate  : Nat
  lost  : Nat
  kernels : Nat
deriving DecidableEq, Repr

/-- A peer aperture (14 R333). -/
structure Aperture where
  enabled : Bool
  port    : Nat
  base    : Nat
  size    : Nat
deriving DecidableEq, Repr

/-- A tlbinv that completes later (12 R268): its tag, context and range; the dies that a retraining link keeps it from; and, of what was under
way through the entries it removed, the blocks past their irrevocable point (warp and map cycle), the write-backs in progress (jobs), and the
S-class lines those blocks store to, by die. -/
structure Shoot where
  tag   : Word
  ctx   : Nat
  base  : Nat
  len   : Nat
  dies  : List Nat
  users : List (Nat × DWord)
  jobs  : List Nat
  lines : List (Nat × Nat)
deriving DecidableEq, Repr

/-- The registers of the management function (14 R324). -/
structure Mgmt where
  cmdbase : DWord
  cmdsize : Word
  cmdctl  : Bool
  cmdwr   : Word
  cmdrd   : Word
  cplbase : DWord
  cplsize : Word
  cplwr   : Word
  cplrd   : Word
  evbase  : DWord
  evsize  : Word
  evctl   : Bool
  evwr    : Word
  evrd    : Word
  evlost  : Word
  smpwr   : Word
  smprd   : Word
  merr    : BitVec 2
  /-- Completions owed, in order: tag, command code, status, result (R326). -/
  cpl     : List (Word × Nat × Nat × DWord)
  /-- The tlbinv commands that have not completed. -/
  shoots  : List Shoot
  /-- Commands taken that wait for a retraining link (14 R315), in order, each with the context it names. -/
  pending : List (Option Nat × Instr)
  /-- How often each MSI-X vector was raised (R323). -/
  msix    : Smap Nat
deriving DecidableEq, Repr

/-- The sampler (18 R453). `scope` is the argument word a4 of smpset; `began` is CLK when the interval began, `lost` that rows were
skipped since the last one written. -/
structure Sampler where
  on       : Bool
  base     : Nat
  entries  : Nat
  interval : Nat
  scope    : Word
  events   : List Byte
  began    : DWord
  lost     : Bool
deriving DecidableEq, Repr

/-! ### Contexts and queues (03, 04, 12) -/

/-- Context states (03 R60). -/
inductive CtxState where
  | free | building | ready | resident | suspended | faulted | tornDown
deriving DecidableEq, Repr

/-- Fault policies (R56). -/
inductive Policy where
  | kill | dump | stop
deriving DecidableEq, Repr

/-- The hub's copy of a context descriptor (R56). -/
structure CtxDesc where
  ptroot   : Nat
  segtab   : Nat
  linktab  : DWord
  faultq   : Nat
  savebase : Nat
  savesize : Nat
  dumpbase : Nat
  corebud  : Nat
  bwbud    : Nat
  pwrbud   : Nat
  fpn      : Word
  pairlim  : Nat
  flags    : Word
deriving DecidableEq, Repr

/-- A segment-table entry as the hub holds it (05 R96). -/
structure Segment where
  valid : Bool
  base  : Nat
  size  : Nat
deriving DecidableEq, Repr

/-- A translation fault as its record tells it (12 R262): code, access bits, level, entry and address. -/
structure XFault where
  code   : Nat
  access : BitVec 4
  level  : Nat
  entry  : DWord
  va     : Nat
deriving DecidableEq, Repr

/-- Who waits on a fault record (12 R262); of a warp also the instruction that met the fault. -/
inductive Waiter where
  | warp (w idx : Nat) | copy (c : Nat) | region (p r : Nat)
deriving DecidableEq, Repr

/-- An open fault record (R261, R263): its index, what identifies it for merging, what its answer reports, its waiters. -/
structure OpenRec where
  index   : Word
  source  : Nat
  code    : Nat
  access  : BitVec 4
  vaddr   : Nat
  kid     : Word
  waiters : List Waiter
deriving DecidableEq, Repr

/-- Queue states (04 R82). -/
inductive QState where
  | disabled | idle | active | blocked | suspended | error
deriving DecidableEq, Repr

/-- A queue's registers (R74), its reservation index (R76), the slots a launch copy is still filling, the slots written but not
yet published, and the indices marked failed, with the fault of the write (R87). -/
structure Queue where
  base    : DWord
  size    : Word
  devctl  : Bool
  devfed  : Bool
  wr      : Word
  rd      : Word
  state   : QState
  dberr   : Bool
  errCode : Byte
  errIdx  : Word
  /-- CLK when its blocked head was last tested (R84). -/
  tested  : DWord
  drop    : Word
  res     : Word
  written : List Word
  failed  : List (Word × XFault)
deriving DecidableEq, Repr

/-- What a save, a context fault or a teardown in progress leads to (03 R66, R62, R72). -/
inductive Leaving where
  | suspend | fault | destroy
deriving DecidableEq, Repr

/-- The accumulators of ctxacct (18 R455). -/
structure Acct where
  coreCycles : Nat
  pairCycles : Nat
  bytes      : Nat
  blocks     : Nat
  kernels    : Nat
  energy     : Nat
deriving DecidableEq, Repr

structure Context where
  state    : CtxState
  descAddr : Nat
  desc     : CtxDesc
  leaving  : Option Leaving
  /-- The one command that waits behind a save or teardown (R61), and the tags to complete when it ends. -/
  waiting  : Option Instr
  endTag   : Option (Word × Nat)
  fpn      : Word
  dbgctl   : Word
  bps      : List Word
  segs     : List Segment
  fqWr     : Word
  openRecs : List OpenRec
  queues   : Table Queue
  acct     : Acct
  /-- Averages of the 64 µs window (R58) as last refreshed, and what has gathered since. -/
  bwAvg    : Nat
  pwrAvg   : Nat
  bwNow    : List Nat
  pwrNow   : List Nat
  bwAcc    : Nat
  pwrAcc   : Nat
  /-- Bytes of the swap reserve that hold the records of swapped groups (R63): group number and offset. -/
  swapped  : List (Nat × Nat × Nat)
  /-- The context has a dump in progress (18 R449). -/
  dumping  : Option Nat
  /-- The last status code of each partition number (13 R309). -/
  gstatus  : List Word
deriving DecidableEq, Repr

/-! ### Kernels and groups (05, 06, 10) -/

/-- Kernel states (05 R91). -/
inductive KState where
  | queued | waiting | dispatching | running | draining | complete | failed | failedPartial | killed
deriving DecidableEq, Repr

/-- The fields of a launch record (04 R78). -/
structure Launch where
  ctl         : Word
  entry       : Word
  groups      : Word
  shape       : Word
  args        : DWord
  framebase   : DWord
  framestride : Word
  tag         : Word
  complrec    : DWord
  donebar     : DWord
  waitlist    : DWord
deriving DecidableEq, Repr

structure Kernel where
  ctx       : Nat
  queue     : Nat
  launch : Launch
  state     : KState
  entryHeld : Bool
  qdep      : Bool
  code      : Nat
  failGroup : Word
  detail    : DWord
  retired   : Nat
  tstart    : DWord
  tend      : DWord
  nextRank  : Nat
  killed    : Bool
  /-- Since when its unplaced groups wait, and the full 2^22 cycles of that wait (04 R86). -/
  since     : DWord
  aged      : Nat
deriving DecidableEq, Repr

/-- Group states (06 R114). -/
inductive GState where
  | waiting | resident | swapping | halting | halted | retiring | retired
deriving DecidableEq, Repr

/-- Region states (10 R206). -/
inductive RState where
  | free | defined | stepping | freed
deriving DecidableEq, Repr

/-- A region of a group: the descriptor of R205, the tags of R203 (sel and written bits by word, false unlisted), the first two
writers of each word in the current step (R215), and how often the number has been defined (R211, R220). -/
structure Region where
  state    : RState
  kind     : RKind
  rule     : RRule
  base     : Nat
  size     : Nat
  parts    : Nat
  arrivals : Nat
  k        : Word
  coll     : Nat
  ccur     : Nat
  sel      : List Nat
  written  : List Nat
  hits     : List Nat
  writers  : Smap (List Nat)
  gen      : Nat
  /-- The last arrival of the step: its warp and its block's handle and instruction index, as a fault detail (R215). -/
  lastWarp : Nat
  lastAt   : DWord
deriving DecidableEq, Repr

/-- The dump of a halted group (18 R450): code, detail, CLK, where and handle at the fault, and the faults not dumped since it began. -/
structure DumpJob where
  code   : Nat
  detail : DWord
  clk    : DWord
  where_ : Word
  handle : Word
  lost   : Nat
deriving DecidableEq, Repr

structure Group where
  kid     : Nat
  ctx     : Nat
  rank    : Nat
  state   : GState
  cores   : List Nat
  C       : Nat
  W       : Nat
  S       : Nat
  gran    : Nat
  spad    : Smap Byte
  spois   : List Nat
  regions : List Region
  arrived : Nat
  stopped : Bool
  /-- Since when a swapped or saved group waits, and its full 2^22 cycles (04 R86). -/
  since   : DWord
  aged    : Nat
  lastCommit : DWord
  dump    : Option DumpJob
  /-- A halted group's fault, which its policy acts on when the halt is complete (18 R435). -/
  fatal   : Option (Nat × DWord)
  /-- What the fault record of a COLLISION names (10 R215): region, word address, warp ranks of its first two stores. -/
  collision : Option (Nat × Nat × List Nat)
  /-- Work of the group's drain was lost to a down link (14 R317). -/
  lost    : Bool
  /-- The cells named by the copies the group issued, in order of first issue (18 R451). -/
  copyCells : List DWord
  /-- Which free bytes its scratchpad holds where nothing was written: 0 for the zeros of a clearing (log 14). -/
  born    : Nat
  /-- Where its records lie while it is saved or swapped (03 R64, 06 R121). -/
  savedAt : Option Nat
deriving DecidableEq, Repr

/-! ### Tokens and frames (07) -/

/-- A token (07 R134): vector or scalar, 32- or 64-bit elements, whether it is the null of R354 (which has no width), the valid
lanes (all lanes or none for a scalar), the values (32, or one), and the poisoned lanes (18 R440). -/
structure Token where
  vec   : Bool
  wide  : Bool
  null  : Bool
  valid : Mask
  vals  : List DWord
  pois  : Mask
deriving DecidableEq, Repr

/-- A cause of flush (07 R133): its rank there, the instruction index, the order of the failing check within it, the lane, the
code and detail it would report, and the translation fault if it is one. -/
structure Cause where
  rank   : Nat
  idx    : Nat
  code   : Nat
  detail : DWord
  xlat   : Option XFault
deriving DecidableEq, Repr

/-- What occupies a memory-order slot (07 R139). -/
inductive SlotKind where
  | null | ldG | ldK | ldS | stG | stS | stStep | stp | atom | red | cas | atomS
deriving DecidableEq, Repr

/-- One fired lane's access: its address (virtual, or group scratchpad), its translation once known with the page's class, the
bytes a store writes, the two data operands of an atomic, the priority key of stp, poison of the data (of the second half of 128 bits,
`pois2`), the peer port of the aperture it was translated to (14 R333, R334), and the bytes of it (bit k for byte k) that have already
performed (17 R427). -/
structure LaneAcc where
  lane : Nat
  addr : Nat
  pa   : Option Nat
  cls  : PageClass
  data : DWord
  data2 : DWord
  key  : Word
  pois : Bool
  pois2 : Bool
  route : Option Nat
  gone : Nat
deriving DecidableEq, Repr

/-- A filled slot: the instruction, its access size in bytes and sign extension, the lanes' accesses, the operation, order and scope
of an atomic, where the result goes, whether the result is scalar, and whether the load or atomic has performed. `held` says that a
store whose data the block's atomic gives has its addresses only (07 R143); `result` holds an atomic's old values by lane with their
poison; `saw` the aligned words that a load took from memory (09 R195). -/
structure SlotEntry where
  idx    : Nat
  kind   : SlotKind
  size   : Nat
  sx     : Bool
  scalar : Bool
  accs   : List LaneAcc
  op     : AtomOp
  ord    : Order
  scope  : Scope
  tgts   : List Target
  fired  : Mask
  gens   : List Nat
  issued : Bool
  done   : Bool
  held   : Bool
  result : List (Nat × DWord × Bool)
  saw    : List (Nat × List Byte × Bool)
deriving DecidableEq, Repr

/-- A copy's kind (11 R235). -/
inductive CopyKind where
  | g2s | s2g | g2g | gth | sct | win | red (op : ClsCr)
deriving DecidableEq, Repr

/-- Graph commands (13 R301). -/
inductive GCmd where
  | gload (image : DWord) | grun | garg (n : Nat) (v : DWord) | gdrain | grel | galloc (shape : Word) | gfree
deriving DecidableEq, Repr

/-- Commands and other effects that wait for commit (07 R146): the asynchronous commands of step 3, the cache operations of step 2,
the writes of step 1, the boundary actions of step 4, and what acts at or after step 5. -/
inductive Cmd where
  | regs (ws : List (Nat × Word)) (poisoned : List Nat)
  | wrsr (n : Nat) (v : DWord)
  | cwb (segs : List (Nat × Nat)) | cinv (segs : List (Nat × Nat))
  | copy (kind : CopyKind) (desc : Nat) (snap : List Word) (bar : DWord)
  | graph (p : Nat) (c : GCmd) (bar : DWord)
  | launch (q : Word) (record cell : DWord)
  | qsig (q act : Word)
  | pfence (mask : BitVec 5)
  | barInit (cell : DWord) (n : Word) (sc : Scope)
  | barArv (cell : DWord) (n : Word)
  | barExp (cell : DWord) (n : Word)
  | barClear (cell : DWord) (word4 : Word)
  | barInv (cell : DWord)
  | chkStatus (cell : DWord) (code : Nat) (count : Word) (detail : DWord)
  | rgnDef (num : Nat) (kind : RKind) (rule : RRule) (base size parts : Word)
  | rgnFree (num gen : Nat)
  | stepQ (num gen : Nat)
  | gstop (v : Word)
  | spush (h m : Word)
  | spop
  | svc (n : BitVec 12)
  | brk (n : BitVec 12)
  | clipped (rows : Nat)
  | acquire (scope : Nat)
  | stm (bytes : List (Nat × Byte × Bool))
  | barWait (cell : DWord) (phase : BitVec 4)
  | step (num gen : Nat)
  | waitc (path : ClsCw) (threshold : Word)
  | yield (cycles : Word)
  | gbar
  | trapret
deriving DecidableEq, Repr

/-- What the firing of one instruction yields, to be applied to its frame: tokens for targets, exit votes by lane, a whole-block vote
of a lane-less block (18 R482), flags, commands for commit, causes of flush. -/
structure Effects where
  toks   : List (Target × Token)
  votes  : List (Nat × Nat)
  whole  : Option Nat
  flags  : Word
  cmds   : List Cmd
  causes : List Cause
deriving DecidableEq, Repr

/-- The units whose multi-cycle results arrive by an event of their own. -/
inductive Late where
  | div | fdiv | matrix
deriving DecidableEq, Repr

/-- A block in its frame (07 R130). -/
structure Frame where
  handle : Word
  words  : List Word
  entry  : Mask
  laneless : Bool
  toks   : Smap Token
  /-- Tokens gathered by write slots: slot, producing instruction (64 for a read declaration), token (R137). -/
  wtoks  : List (Nat × Nat × Token)
  fired  : List Nat
  votes  : List (Nat × Nat)
  whole  : Option Nat
  slots  : Table SlotEntry
  infl   : List (Nat × Late × Effects)
  cmds   : List (Nat × Cmd)
  flags  : Word
  causes : List Cause
  irrev  : Bool
  /-- How far a commit that performs in several moves has come (R146): 0 not begun, 1 step 2 begun, 2 its stores released but for the reds
  of release order. -/
  stage  : Nat
  fpn    : Word
  dbgctl : Word
  mapped : DWord
deriving DecidableEq, Repr

/-- Warp states (06 R116). -/
inductive WState where
  | ready | mapped | waiting | faultWait | stopped | ended
deriving DecidableEq, Repr

/-- What a warp waits for (03 R65). -/
inductive Wait where
  | none | bar (cell : DWord) (phase : BitVec 4) | step (num gen : Nat) (k : Word) | waitc (path : ClsCw) (threshold : Word)
  | gbar | yield (until_ : DWord)
deriving DecidableEq, Repr

/-- Traps (18 R436). -/
inductive TrapCode where
  | splitSpill | splitFill | svc | clipped
deriving DecidableEq, Repr

/-- The redo of commit step 5 that a split trap leaves due (07 R153): votes, targets, which exits end their lanes (R150), join handle,
and whether the spush of the block is still to be made. -/
structure Redo where
  votes   : List Mask
  targets : List Word
  ends    : List Bool
  join    : Word
  push    : Option (Word × Word)
deriving DecidableEq, Repr

/-- An active trap (18 R436): what was trapped, the resume handle and mask. -/
structure Trap where
  code   : TrapCode
  handle : Word
  mask   : Mask
  /-- A SPLIT_FILL raised by spop at map (R155). -/
  atMap  : Bool
deriving DecidableEq, Repr

/-- Debug stop reasons (18 R443). -/
inductive StopWhy where
  | brk | step | match_ | dstop
deriving DecidableEq, Repr

/-- How a warp runs after dbgresume (18 R444, R445). -/
inductive RunMode where
  | run | step | serial
deriving DecidableEq, Repr

/-- An operation on a barrier cell that a warp has issued and that has not yet taken effect (20 R461): what it is, and the cell. -/
structure BarOp where
  cell : DWord
  seq  : Nat
  op   : Cmd
  /-- Of a copy its number; of a status write how far it has come (Machine/Cell.lean). -/
  copy : Nat
  handle : Word
deriving DecidableEq, Repr

structure Warp where
  gid    : Nat
  kid    : Nat
  ctx    : Nat
  rank   : Nat
  core   : Nat
  slot   : Nat
  gran   : Nat
  kclass : Nat
  cls    : Nat
  state  : WState
  handle : Word
  mask   : Mask
  v      : Smap Word
  s      : Smap Word
  p      : Smap Mask
  vpois  : List Nat
  spois  : List Nat
  ssp    : Word
  splb   : DWord
  deadm  : Mask
  fpfl   : Word
  trapinf : DWord
  fij    : Word
  /-- In-flight counters (11 R240): the operations counted, in issue order, and whether each has completed; a counter's value is the
  length, since the completed ones at the front have been lowered. -/
  cntD   : List (Nat × Bool)
  cntX   : List (Nat × Bool)
  cntK   : List (Nat × Bool)
  wait   : Wait
  frame  : Option Frame
  /-- The fetched image, if the chosen block's chunks are in the block cache (state fetched of R130). -/
  image  : Option (List Word)
  /-- The handle of the block whose header prefetch has issued, for a replay of it (R132). -/
  prefetched : Option Word
  redo   : Option Redo
  trap   : Option Trap
  /-- Traps due at the boundary after the redo: each CLIPPED with its row count, then each SVC with its number (18 R438; more than one SVC only
  of ordinary blocks that a trap's handler enters, log 110). -/
  clipDue : List Nat
  svcDue  : List (BitVec 12)
  stopDue : Option (StopWhy × Word)
  mode    : RunMode
  /-- The arrival whose MATCH test a resume has already passed (R443). -/
  matched : Bool
  since   : DWord
  /-- The scope the next block's header acquire is widened to, as code (09 R199); 0 for none. -/
  acqDue  : Nat
  /-- The widest scope at which a bar.test of the warp has observed a flip: every later block's header acquire is widened to it, as code (11
  R244); 0 for none. -/
  acqHeld : Nat
  barq    : List BarOp
  killDue : Mask
  haltDue : Bool
  /-- An injected frame error of FIJ has been taken for this block (18 R458). -/
  fijTaken : Bool
  /-- Pending entries that a split pushed for a scalar handle with bit 31 set (02 R29, log 87): the handle without the bit, and the lanes. -/
  oddPend : List (Word × Mask)
deriving DecidableEq, Repr

/-! ### Asynchronous work (09, 10, 11, 13) -/

/-- A running copy (11 R232 to R238): issuer, kind, descriptor address and snapshot, barrier, granted regions, issue order, progress,
whether its issue has reached the cell and its footprint is checked, and its pause on a fault record. -/
structure Copy where
  warp    : Nat
  gid     : Nat
  ctx     : Nat
  kind    : CopyKind
  desc    : Nat
  snap    : List Word
  bar     : DWord
  rgnr    : Byte
  seq     : Nat
  /-- S of R234, the sectors moved so far (any order), and how many of them the cell has been lowered by. -/
  sectors : Nat
  done    : List Nat
  low     : Nat
  issued  : Bool
  checked : Bool
  paused  : Option Word
  /-- The address at which it paused (R237). -/
  pauseVa : Nat
  /-- Elements of the sector in progress that are still to move. -/
  todo    : List Nat
  /-- The index vector of cp.gth and cp.sct, read when the copy starts (R235). -/
  index   : List Int
  /-- The status it ends early with: code, count and detail (R237). -/
  ended   : Option (Nat × Word × DWord)
deriving DecidableEq, Repr

/-- Other asynchronous operations, by kind; `seq` is the issue order. -/
inductive Job where
  | pfence (mask : BitVec 5) (writeBacks : List Nat)
  | maint (inv : Bool) (lines : List Nat)
  | launch (q : Word) (record cell : DWord) (slot : Option Word)
  | qsig (q act : Word)
  | stepArrive (num gen : Nat) (at_ : DWord)
  | gbarArrive
  | store (acc : LaneAcc) (kind : SlotKind) (gen : Nat)
  | graph (p : Nat) (c : GCmd) (bar : DWord)
deriving DecidableEq, Repr

structure Async where
  warp : Nat
  gid  : Nat
  ctx  : Nat
  seq  : Nat
  job  : Job
deriving DecidableEq, Repr

/-! ### The fabric (13) -/

/-- Graph object states (13 R296). -/
inductive GObj where
  | empty | validated | resident | armed | streaming | draining | drained | faulted
deriving DecidableEq, Repr

/-- An element record of the resident phase: position, context slot, region and context word (R290, R279). -/
structure ElemRec where
  row : Nat
  col : Nat
  ey  : Nat
  ex  : Nat
  ctx : Nat
  region : Nat
  word : BitVec 128
deriving DecidableEq, Repr

/-- A generator block (R483): role, argument, and the (count, stride) of each level. -/
structure GenRec where
  role   : Nat
  arg    : Nat
  levels : List (Nat × Int)
deriving DecidableEq, Repr

structure TileRec where
  row : Nat
  col : Nat
  region : Nat
  mode : Nat
  buffers : Nat
  lines : Nat
  bits : Nat
  close : Nat
  ports : DWord
  gens : List GenRec
deriving DecidableEq, Repr

structure ConvRec where
  num  : Nat
  fmt  : Nat
  port : Nat
  lag  : Nat
  pair : Nat
  scale : Nat
deriving DecidableEq, Repr

structure XferRec where
  side : Nat
  row  : Nat
  mode : Nat
  esize : Nat
  base : Nat
  bound : Nat
  gen  : GenRec
deriving DecidableEq, Repr

structure RegionRec where
  num   : Nat
  init  : Nat
  succs : Nat
  drain : Nat
  slots : List Byte
deriving DecidableEq, Repr

structure Phase where
  regions : List RegionRec
  elems   : List ElemRec
  tiles   : List TileRec
  convs   : List ConvRec
  xfers   : List XferRec
  nodes   : List (Word × Word)
deriving DecidableEq, Repr

/-- A value of 8 lanes with its end-of-dimension mark (R280), and the shared exponent of the BFX16 vector that it is computed from, if it is
computed from one (08 R172). -/
structure Beat where
  lanes : List Int
  mark  : Nat
  exp   : Option Nat
deriving DecidableEq, Repr

/-- A region while its phase runs: the beat of its round and the beats made since the phase began, the active schedule, rounds
completed, drain rounds left, whether it has run them, a debug stop taken or due, gdrain met, the record it is frozen on, what its
condition element last gave and at which element, values in flight with the beat at which they arrive. -/
structure FRegion where
  beat    : Nat
  tick    : Nat
  sched   : Nat
  rounds  : Nat
  drains  : Option Nat
  done    : Bool
  halted  : Bool
  stop    : Bool
  noInput : Bool
  frozen  : Option Word
  /-- The address of the access on which it is frozen (R298). -/
  frozenVa : Nat
  cond    : Option (Nat × Bool)
  flight  : List (Nat × Nat × Beat)
deriving DecidableEq, Repr

/-- A memory tile while its phase runs: elements by position (0 unlisted), poisoned words, full lines or buffers (R282), elements moved
by each generator, the buffers being written and read, the lines a line buffer has taken (in an operand store the elements written
into the buffer), the 8-bit exponent slots paired with its lines (08 R172), and the elements of poisoned words written anew in the beat
(18 R440). -/
structure FTile where
  data   : Smap Int
  pois   : List Nat
  anew   : List Nat
  exps   : Smap Nat
  full   : List Nat
  genPos : List Nat
  wbuf   : Nat
  rbuf   : Nat
  wlines : Nat
deriving DecidableEq, Repr

/-- The stream of a transfer unit: elements moved to or from memory, values waiting (of input with their marks, of output with the fraction bits
of their producer; and with an exponent where a converter forms or takes them), and the exponents its input converter delivered, by round
(R277). -/
structure FStream where
  pos   : Nat
  queue : List (Int × Nat × Nat)
  exps  : List (Nat × Nat)
deriving DecidableEq, Repr

/-- A partition and its graph object (R274, R296, R297): place, origin, shape; the object's state, image, header fields, arguments with
the alignment their records ask, the grun barrier with its group; the gload in progress (a job); the current phase's records and all
that runs. `cycles` is keyed phase * 4 + count; `stamp` and `mile` are when the last milestone of R297 was and how many have passed;
`abort` is the status of an abort whose regions still run to their boundary (R298, R311): code, the count if a check gave one, detail;
`born` is the tick at which the phase's entries and rotating registers took their first contents. Keys of `entries` and `regs` are
formed in Machine/FabricRun.lean. `savedAt` is where its records lie while it is saved (03 R64). -/
structure Partition where
  ctx     : Nat
  num     : Nat
  die     : Nat
  j0      : Nat
  y0      : Nat
  w       : Nat
  h       : Nat
  state   : GObj
  image   : Nat
  finaris : Bool
  phases  : Nat
  phase   : Nat
  argmask : Word
  args    : Smap DWord
  bound   : Word
  align   : Smap Nat
  bar     : DWord
  barGid  : Nat
  loading : Option Nat
  cur     : Phase
  born    : Nat
  cycles  : Smap DWord
  stamp   : DWord
  mile    : Nat
  stalls  : Nat
  nonfin  : Nat
  regions : List FRegion
  entries : Table Beat
  regs    : Table Beat
  tiles   : List FTile
  streams : List FStream
  drainReq : Bool
  saved   : Bool
  savedAt : Nat
  abort   : Option (Nat × Option Nat × DWord)
deriving DecidableEq, Repr

/-! ### Moves -/

/-- A move of one of the module's agents: an instruction of a warp's frame fires, an event takes place, or the hub takes the command
at the head of the command ring. -/
inductive Action where
  | fire (w i : Nat)
  | event (e : Instr)
  | take
deriving DecidableEq, Repr

/-! ### Stops -/

/-- Faults: the machine stops. -/
inductive Fault where
  /-- Raised by a host or peer access at an offset past the installed capacity (14 R321), which no window of 12 R252 holds: the spec gives
  it no outcome. Safe: a true claim may become unprovable, no false one provable. -/
  | outsideEveryWindow (off : Nat)
deriving DecidableEq, Repr

/-- Refusals: the move has no meaning in this state. -/
inductive Refusal where
  /-- An arm of exec without a meaning yet. Safe. -/
  | notModelled (mnemonic : String)
  /-- The event, or the firing of the instruction, is not due in this state: the spec gives no such move here (its "Allowed in", its
  trigger, or the operand rule of 07 R135 does not hold). Raised by the meaning of that move. Safe: the module cannot make it. -/
  | notDue (mnemonic : String)
  /-- The word at the place that step was told to fire does not decode. Raised by step. Safe: a mapped block holds only words
  that validation passed (02 R49). -/
  | undecodable
deriving DecidableEq, Repr

/-! ### The state -/

structure State where
  start  : Start
  ident  : Ident
  fw     : Firmware
  spdm   : Spdm
  clk    : DWord
  split  : Nat
  pwrLimit : Word
  withholding : Bool
  warned : Bool
  telem  : Telemetry
  weights : List Word
  mem    : Memory
  poison : List Nat
  cache  : Caches
  held   : List HeldWrite
  tlb    : Tlbs
  mgmt   : Mgmt
  links  : List DieLink
  host   : HostLink
  peers  : List PortState
  /-- Kernels that failed with LINK_LOST while each peer port was down, and writes lost to each (14 R319). -/
  peerKernels : List Nat
  peerLost : List Nat
  apertures : List Aperture
  ctxs   : Table Context
  nextKid : Word
  kernels : Table Kernel
  groups : Table Group
  warps  : Table Warp
  copies : Table Copy
  jobs   : Table Async
  parts  : Table Partition
  /-- CLK when each core's progress counter was last zero (06 R120). -/
  progress : Smap Nat
  /-- Round-robin turn among contexts (04 R86). -/
  turn   : Nat
  samp   : Sampler
  /-- Counts of the events of 18 R454 in the interval so far, keyed (die * 256 + context) * 256 + event; the hub die is 4. -/
  counts : Smap Nat
  /-- Poisoned bytes handed to the host, and the data of its last read (log 10). -/
  hostRead : List Byte
  /-- Corrected errors of each unit not yet recorded, and CLK at the unit's last record (18 R441). -/
  ecc    : List (Nat × Option DWord)
  cur    : Nat × Nat
  agenda : List Action
  tick   : Nat
  uid    : Nat
  /-- CLK when the budget windows were last refreshed (03 R58). -/
  windowClk : DWord
  /-- A group has been placed since the SRAM was last cleared (log 14). -/
  sramUsed : Bool
deriving DecidableEq, Repr

/-! ### Reset: power applied (21 R468) -/

def DieLink.reset : DieLink := ⟨.retraining, 0, [], 0, 0, false⟩

def Mgmt.reset : Mgmt :=
  { cmdbase := 0, cmdsize := 0, cmdctl := false, cmdwr := 0, cmdrd := 0, cplbase := 0, cplsize := 0, cplwr := 0, cplrd := 0,
    evbase := 0, evsize := 0, evctl := false, evwr := 0, evrd := 0, evlost := 0, smpwr := 0, smprd := 0, merr := 0,
    cpl := [], shoots := [], pending := [], msix := [] }

/-- The image of both slots at power-on, of no bytes, with the key whose hash is fused (log 4). -/
def firstImage : FwImage :=
  { body := []
    version := 0
    digest := 0xdf3f619804a92fdb4057192dc43dd748ea778adc52bc498ce80524c014b81119
    key := ⟨0x74588741468ef70eef5fb05f3dc276bca2e1c20b830eef49e93e4e37ae4a0ea0,
      0x097c8d7e321b33ea73007ba1cb9e945507d87e9455b765f026e936fa431a53e1⟩
    sig := ⟨0x03b163f70c355463a1e7befbe3cce8bfc49d4b8e45da209515ebe300472c59f9,
      0x5400813a7fa8a07af5f212afdd7a5f6008fafc6306ee2cc3c86e45265fc92262⟩ }

/-- The module with power just applied (21 R468, state off): no context, kernel or warp; memory and caches with nothing listed;
CLK 0 and split 64 (R469). The values the spec does not state are named in logs 1 to 6, 10, 11, 13 and 14. -/
def State.reset : State :=
  { start := ⟨0, .off, 0, false, false, 0⟩
    ident := ⟨false, 0, 0, 0⟩
    fw := ⟨some firstImage, some firstImage, false, 0, 0x2fc0d4137578804d5fdd393d500f6677a9ccc8808c5af60e1b696fec1223fbb0⟩
    spdm := ⟨none, none⟩
    clk := 0
    split := 64
    pwrLimit := 2600
    withholding := false
    warned := false
    telem := ⟨0, [0, 0, 0, 0, 0], 0, 0, 0, 0, 0⟩
    weights := List.replicate 16 0
    mem := ⟨[], 0⟩
    poison := []
    cache := ⟨[], [], [], [], [], [], []⟩
    held := []
    tlb := ⟨[], [], [], []⟩
    mgmt := Mgmt.reset
    links := List.replicate 4 DieLink.reset
    host := ⟨.training, 0, 0, 0, 0⟩
    peers := List.replicate 8 .disabled
    peerKernels := List.replicate 8 0
    peerLost := List.replicate 8 0
    apertures := List.replicate 8 ⟨false, 0, 0, 0⟩
    ctxs := []
    nextKid := 0
    kernels := []
    groups := []
    warps := []
    copies := []
    jobs := []
    parts := []
    progress := []
    turn := 0
    samp := ⟨false, 0, 0, 0, 0, [], 0, false⟩
    counts := []
    hostRead := []
    ecc := List.replicate 10 (0, none)
    cur := (0, 0)
    agenda := []
    tick := 0
    uid := 1
    windowClk := 0
    sramUsed := false }

end Sys2Proof.Machine
end

