-- ==== Sys2Proof/Machine/Ops.lean ====
section
/-!
DEFINITION. The named operations the meanings share: sparse maps and tables, bit fields, the status codes (18 R434), the physical
map (12 R252, 09 R189), memory bytes and poison, entities of the state, event records (14 R330), flushes (07 R130), fatal group
faults (18 R435) and kernel failures (05 R92), and taking a trap and returning from it (18 R436, R438).
-/
namespace Sys2Proof.Machine

abbrev Out := Host.Outcome State Fault Refusal

/-- The move is not due in this state. -/
def notDue (m : String) : Out := .refused (.notDue m)

/-! ### Sparse maps and tables -/

/-- What key k holds, or the default. -/
def sget {α : Type} (d : α) : Smap α → Nat → α
  | [], _ => d
  | (k', a) :: r, k => if k = k' then a else if k < k' then d else sget d r k

/-- The map with k holding a; the entry is dropped where a is the default. -/
def sput {α : Type} [DecidableEq α] (d : α) : Smap α → Nat → α → Smap α
  | [], k, a => if a = d then [] else [(k, a)]
  | (k', b) :: r, k, a =>
    if k < k' then (if a = d then (k', b) :: r else (k, a) :: (k', b) :: r)
    else if k = k' then (if a = d then r else (k, a) :: r)
    else (k', b) :: sput d r k a

/-- The entity numbered k, if there is one. -/
def tget {α : Type} : Table α → Nat → Option α
  | [], _ => none
  | (k', a) :: r, k => if k = k' then some a else tget r k

/-- The table with entity k set. -/
def tput {α : Type} : Table α → Nat → α → Table α
  | [], k, a => [(k, a)]
  | (k', b) :: r, k, a =>
    if k < k' then (k, a) :: (k', b) :: r else if k = k' then (k, a) :: r else (k', b) :: tput r k a

/-- The table with a change made to entity k, if there is one. -/
def tmod {α : Type} (f : α → α) : Table α → Nat → Table α
  | [], _ => []
  | (k', b) :: r, k => if k = k' then (k', f b) :: r else (k', b) :: tmod f r k

/-- The table without entity k. -/
def tdel {α : Type} : Table α → Nat → Table α
  | [], _ => []
  | (k', b) :: r, k => if k = k' then r else (k', b) :: tdel r k

/-- A sorted set of numbers with one added. -/
def nins : List Nat → Nat → List Nat
  | [], k => [k]
  | x :: r, k => if k < x then k :: x :: r else if k = x then x :: r else x :: nins r k

/-- Keys rising and above `lo`, no entry equal to the default. -/
def swfFrom {α : Type} [DecidableEq α] (d : α) : Nat → Smap α → Bool
  | _, [] => true
  | lo, (k, a) :: r => decide (lo ≤ k) && decide (a ≠ d) && swfFrom d (k + 1) r

/-- The canonical form of a sparse map. -/
def swf {α : Type} [DecidableEq α] (d : α) (m : Smap α) : Bool := swfFrom d 0 m

/-- Replace element i of a list; a list too short is unchanged. -/
def setAt {α : Type} : List α → Nat → α → List α
  | [], _, _ => []
  | _ :: r, 0, a => a :: r
  | x :: r, n + 1, a => x :: setAt r n a

/-! ### Words and bytes -/

def ones32 : Mask := 0xFFFFFFFF

/-- Bits [hi:lo] of a number. -/
def bitsOf (n hi lo : Nat) : Nat := n / 2 ^ lo % 2 ^ (hi + 1 - lo)

/-- Bits [hi:lo] of a word, as a number. -/
def wbits (w : Word) (hi lo : Nat) : Nat := bitsOf w.toNat hi lo

/-- The signed value of the low n bits. -/
def sextN (x n : Nat) : Int := if bitsOf x (n - 1) (n - 1) = 1 then (x % 2 ^ n : Nat) - (2 ^ n : Nat) else (x % 2 ^ n : Nat)

/-- The number whose little-endian bytes these are. -/
def leNat : List Byte → Nat
  | [] => 0
  | b :: r => b.toNat + 256 * leNat r

/-- The n little-endian bytes of a number. -/
def leBytes (x : Nat) : Nat → List Byte
  | 0 => []
  | n + 1 => BitVec.ofNat 8 x :: leBytes (x / 256) n

def word4 (bs : List Byte) : Word := BitVec.ofNat 32 (leNat bs)

def wordsOf : List Byte → List Word
  | a :: b :: c :: d :: r => word4 [a, b, c, d] :: wordsOf r
  | _ => []

def bytesOfWords (ws : List Word) : List Byte := ws.flatMap fun w => leBytes w.toNat 4

def lanes32 : List Nat := List.range 32

/-- A mask from the lanes that satisfy a test. -/
def maskOf (f : Nat → Bool) : Mask := BitVec.ofNat 32 (lanes32.foldl (fun n l => if f l then n + 2 ^ l else n) 0)

def Mask.lanes (m : Mask) : List Nat := lanes32.filter fun l => m.getLsbD l

/-- The sum with a ceiling. -/
def satAdd (a b top : Nat) : Nat := min (a + b) top

/-! ### Status and fault codes (18 R434) -/

namespace Code
def illegal := 0x01
def poison := 0x02
def dumpFault := 0x03
def ctxDesc := 0x08
def ctxState := 0x09
def ctxPending := 0x0A
def swapRoom := 0x0B
def mgmtConf := 0x0C
def qfull := 0x40
def qperm := 0x41
def qrec := 0x42
def qfault := 0x43
def qdep := 0x44
def segInvalid := 0x50
def segBound := 0x51
def segDesc := 0x52
def killed := 0x53
def kstate := 0x54
def spadRange := 0x60
def gstop := 0x61
def exitConflict := 0x70
def exitRange := 0x71
def blockStall := 0x72
def writeConflict := 0x73
def splitSpill := 0x74
def splitFill := 0x75
def splitInTrap := 0x76
def atomicClass := 0x80
def misalign := 0x81
def addrForm := 0x82
def redOverlap := 0x83
def regionAccess := 0x90
def regionDef := 0x91
def collision := 0x92
def overrun := 0xA0
def barOperand := 0xA1
def barSat := 0xA2
def barDead := 0xA3
def copyDesc := 0xA4
def copyFault := 0xA5
def pageFault := 0xB0
def pagePerm := 0xB1
def instPerm := 0xB2
def pteFormat := 0xB3
def pageRange := 0xB4
def fltState := 0xB5
def shootRange := 0xB6
def graphImage := 0xC0
def latency := 0xC1
def width := 0xC2
def converter := 0xC3
def capacity := 0xC4
def addr := 0xC5
def graphState := 0xC6
def graphOperand := 0xC7
def graphAccess := 0xC8
def fabNoroom := 0xC9
def graphArg := 0xCA
def linkLost := 0xD0
def linkConf := 0xD1
def svc := 0xE0
def brk := 0xE1
def step := 0xE2
def match_ := 0xE3
def dstop := 0xE4
def cstop := 0xE5
def mmaOperand := 0xF0
def mmaNonfin := 0xF1
def clipped := 0xF2
end Code

/-! ### The physical map (12 R252, 01 R19, 09 R189) -/

/-- Populated stack positions, rising (01 R19). -/
def hbmStacks (is768 : Bool) : List Nat :=
  if is768 then [0, 1, 2, 4, 5, 6, 8, 9, 10, 12, 13, 14] else List.range 16

def stackCount (is768 : Bool) : Nat := if is768 then 12 else 16
def stacksPerDie (is768 : Bool) : Nat := if is768 then 3 else 4
def gib : Nat := 2 ^ 30

inductive Window where
  | spread | die (d : Nat) | host
deriving DecidableEq, Repr

def dieBase (d : Nat) : Nat := (d + 1) * 2 ^ 48

/-- The window a physical address lies in, if any (R252). -/
def windowOf (s : State) (pa : Nat) : Option Window :=
  if 2 ^ 51 ≤ pa then (if pa < 2 ^ 52 then some .host else none)
  else if pa < stackCount s.ident.is768 * s.split * gib then some .spread
  else
    let d := pa / 2 ^ 48
    if 1 ≤ d ∧ d ≤ 4 ∧ pa % 2 ^ 48 < stacksPerDie s.ident.is768 * (64 - s.split) * gib then some (.die (d - 1)) else none

/-- The first physical address past a window (R252). -/
def windowEnd (s : State) : Window → Nat
  | .spread => stackCount s.ident.is768 * s.split * gib
  | .die d => dieBase d + stacksPerDie s.ident.is768 * (64 - s.split) * gib
  | .host => 2 ^ 52

/-- n bytes from pa lie wholly within one window. -/
def inOneWindow (s : State) (pa n : Nat) : Bool :=
  match windowOf s pa with
  | some w => decide (pa + n ≤ windowEnd s w)
  | none => false

/-- The home die of an address of device memory (R189, R10); none in the host window. -/
def homeDie (s : State) (pa : Nat) : Option Nat :=
  match windowOf s pa with
  | some .spread => some ((hbmStacks s.ident.is768).getD (pa / 4096 % stackCount s.ident.is768) 0 / 4)
  | some (.die d) => some d
  | _ => none

/-! ### Links (14 R313, R316, R320, R333) -/

def linkDown (s : State) (d : Nat) : Bool :=
  match s.links[d]? with
  | some l => decide (l.state = .down)
  | none => false

/-- The link of die d is retraining: no flit crosses it, and what must cross is held (R313, R315). -/
def linkHeld (s : State) (d : Nat) : Bool :=
  match s.links[d]? with
  | some l => decide (l.state = .retraining)
  | none => false

/-- The enabled aperture that holds a host-window address (R333). -/
def apertureOf (s : State) (pa : Nat) : Option Aperture :=
  s.apertures.find? fun a => a.enabled && decide (a.base ≤ pa) && decide (pa < a.base + a.size)

/-- The peer port (none: the host port) that an address of the host window leads to. -/
def routeOf (s : State) (pa : Nat) : Option Nat := (apertureOf s pa).map (·.port)

/-- The port carries traffic. -/
def portUp (s : State) : Option Nat → Bool
  | some p => decide (s.peers[p]? = some .up)
  | none => decide (s.host.state = .up) || decide (s.host.state = .degraded)

/-- The host port, or the peer port of the aperture, carries traffic. -/
def hostReach (s : State) (pa : Nat) : Bool := portUp s (routeOf s pa)

/-- An access from core die `d` (none: the hub or the host) can reach the address (R316). -/
def reaches (s : State) (d : Option Nat) (pa : Nat) : Bool :=
  match windowOf s pa with
  | some .host => hostReach s pa && (match d with | some d => !linkDown s d | none => true)
  | some _ =>
    match homeDie s pa, d with
    | some h, some d => decide (h = d) || (!linkDown s h && !linkDown s d)
    | some h, none => !linkDown s h
    | none, _ => true
  | none => false

/-- An access between core die `d` (none: the hub) and the address crosses a retraining link, and is held (R313, R315). -/
def crossesHeld (s : State) (d : Option Nat) (pa : Nat) : Bool :=
  (match d with | some d => linkHeld s d && decide (homeDie s pa ≠ some d) | none => false) ||
    (match homeDie s pa with | some h => linkHeld s h && decide (d ≠ some h) | none => false)

/-! ### Memory bytes -/

/-- What an unlisted byte reads as: 0 as clearing leaves device memory, a free byte once memsplit has left it undefined (12 R253); host
memory reads 0 (log 5). -/
def Memory.rest (m : Memory) (a : Nat) : Byte := if m.epoch = 0 ∨ 2 ^ 51 ≤ a then 0 else Config.freeByte m.epoch a

def cellsGet : List Host.Cell → Nat → Option Byte
  | [], _ => none
  | (k, b) :: r, a => if a = k then some b else if a < k then none else cellsGet r a

/-- The byte at a physical address. -/
def Memory.byte (m : Memory) (a : Nat) : Byte := (cellsGet m.cells a).getD (m.rest a)

def cellsPut (d b : Byte) : List Host.Cell → Nat → List Host.Cell
  | [], a => if b = d then [] else [(a, b)]
  | (k, c) :: r, a =>
    if a < k then (if b = d then (k, c) :: r else (a, b) :: (k, c) :: r)
    else if a = k then (if b = d then r else (a, b) :: r)
    else (k, c) :: cellsPut d b r a

/-- Memory with one byte written, in canonical form. -/
def Memory.setByte (m : Memory) (a : Nat) (b : Byte) : Memory := { m with cells := cellsPut (m.rest a) b m.cells a }

def Memory.setBytes : Memory → Nat → List Byte → Memory
  | m, _, [] => m
  | m, a, b :: r => (m.setByte a b).setBytes (a + 1) r

def Memory.bytes (m : Memory) (a : Nat) : Nat → List Byte
  | 0 => []
  | n + 1 => m.byte a :: m.bytes (a + 1) n

def cellsWf (m : Memory) : Nat → List Host.Cell → Bool
  | _, [] => true
  | lo, (k, b) :: r => decide (lo ≤ k) && decide (b ≠ m.rest k) && cellsWf m (k + 1) r

/-- The canonical form of memory: addresses strictly rising, no listed byte equal to what an unlisted one reads as. -/
def Memory.wf (m : Memory) : Bool := cellsWf m 0 m.cells

/-! ### The hub's accesses (14 R324, 12 R258): physical, at system scope -/

/-- The lines of n bytes at pa, as 128-byte line numbers. -/
def linesOf (pa n : Nat) : List Nat :=
  if n = 0 then [] else (List.range ((pa + n - 1) / 128 + 1 - pa / 128)).map (· + pa / 128)

/-- The 32-byte sectors of n bytes at pa. -/
def secsOf (pa n : Nat) : List Nat := if n = 0 then [] else (List.range ((pa + n - 1) / 32 + 1 - pa / 32)).map (· + pa / 32)

/-- The marks of one copy after bytes are written into it, for the sectors it holds of them: a sector wholly covered by clean data is
cleared, and one touched by poisoned data is marked; any other keeps its mark (18 R440). -/
def markIn (p secs : List Nat) (pa n : Nat) (bad : Bool) : List Nat :=
  secs.foldl (fun p k =>
    if bad then nins p k
    else if pa ≤ 32 * k ∧ 32 * k + 32 ≤ pa + n then p.filter (· ≠ k) else p) p

/-- The marks of a line's copy after bytes are written, some of them in the line. -/
def markLine (p : List Nat) (line pa n : Nat) (bad : Bool) : List Nat := markIn p ((secsOf pa n).filter fun k => k / 4 = line) pa n bad

def hubHas (s : State) (line : Nat) : Bool := s.cache.hub.any fun h => decide (h.line = line)

/-- A sector is poisoned in the hub's copy: in the hub cache where it holds the line, else in the stack or host memory behind it (18 R439). -/
def hubMark (s : State) (k : Nat) : Bool :=
  match s.cache.hub.find? fun h => h.line = k / 4 with
  | some h => h.pois.contains k
  | none => s.poison.contains k

/-- Some of n bytes are poisoned as an access made at the hub finds them: it recalls a line that a die it reaches holds exclusively (09 R188),
and meets that copy's marks. -/
def poisonedAt (s : State) (pa n : Nat) : Bool :=
  (secsOf pa n).any fun k =>
    match s.cache.dir.find? fun d => decide (d.line = k / 4) && d.excl && !linkDown s d.die with
    | some d => d.pois.contains k
    | none => hubMark s k

/-- The marks of a line in the hub's copy. -/
def lineMarks (s : State) (line : Nat) : List Nat := ((List.range 4).map (· + 4 * line)).filter (hubMark s)

/-- The hub's copy of a line takes another copy's marks. -/
def setMarks (s : State) (line : Nat) (pois : List Nat) : State :=
  if hubHas s line then
    { s with cache := { s.cache with hub := s.cache.hub.map fun h => if h.line = line then ⟨line, true, pois⟩ else h } }
  else { s with poison := pois.foldl nins (s.poison.filter fun k => k / 4 ≠ line) }

/-- Bytes written at the hub, with the marks of its copy. -/
def memPut (s : State) (pa : Nat) (bs : List Byte) (bad : Bool) : State :=
  let n := bs.length
  { s with
    mem := s.mem.setBytes pa bs
    poison := markIn s.poison ((secsOf pa n).filter fun k => !hubHas s (k / 4)) pa n bad
    cache := { s.cache with
      hub := s.cache.hub.map fun h => if (linesOf pa n).contains h.line then ⟨h.line, true, markLine h.pois h.line pa n bad⟩ else h } }

/-- Every die's copy of the C-class lines a test selects ends, in its L2 and in the L1 caches of its cores (09 R185, R188); the marks of one
held exclusively come back to the hub with it. -/
def recallLines (s : State) (p : Nat → Bool) : State :=
  let gone := s.cache.dir.filter fun d => p d.line
  let s := (gone.filter (·.excl)).foldl (fun s d => setMarks s d.line d.pois) s
  { s with cache := { s.cache with
      dir := s.cache.dir.filter fun d => !p d.line
      l1 := s.cache.l1.filter fun l => !gone.any fun d => decide (d.line = l.line) && decide (d.die = l.core / 64) } }

/-- Write bytes at the hub: every die's copy of a C-class line of them ends first (09 R188, R201). -/
def hubWrite (s : State) (pa : Nat) (bs : List Byte) (bad : Bool := false) : State :=
  memPut (recallLines s fun l => (linesOf pa bs.length).contains l) pa bs bad

/-- The hub can make an access: its bytes lie in one window and their home is reachable. -/
def hubCan (s : State) (pa n : Nat) : Bool := inOneWindow s pa n && reaches s none pa && reaches s none (pa + n - 1)

/-- One write or arrival is lost at the link or port that its address leads to (14 R316, R319): a down die link, the host port while it
carries nothing, or the peer port of the aperture. -/
def countLoss (s : State) (pa : Nat) : State :=
  match homeDie s pa with
  | some d =>
    if linkDown s d then
      match s.links[d]? with
      | some l => { s with links := setAt s.links d { l with lost := satAdd l.lost 1 0xFFFFFFFF } }
      | none => s
    else s
  | none =>
    if windowOf s pa ≠ some .host ∨ hostReach s pa then s
    else
      match routeOf s pa with
      | some p => { s with peerLost := setAt s.peerLost p (satAdd (s.peerLost.getD p 0) 1 0xFFFFFFFF) }
      | none => { s with host := { s.host with lost := satAdd s.host.lost 1 0xFFFFFFFF } }

/-- The hub's access to n bytes crosses a retraining link, and is held (14 R313, R315). -/
def spanHeld (s : State) (pa n : Nat) : Bool := crossesHeld s none pa || crossesHeld s none (pa + n - 1)

/-- A write the hub owes: not performed where it cannot be made; one lost to a link or port is counted there (14 R316, R319, R320); one that
crosses a retraining link is held, in order, until the link has ended its retraining (R313). -/
def hubOwed (s : State) (pa : Nat) (bs : List Byte) (bad : Bool := false) : State :=
  if !hubCan s pa bs.length then countLoss s pa
  else if spanHeld s pa bs.length then { s with held := s.held ++ [⟨pa, bs, bad⟩] }
  else hubWrite s pa bs bad

/-- A link has left retraining: the writes held are made, those that another retraining link still holds once more held (R313). -/
def releaseHeld (s : State) : State := s.held.foldl (fun s h => hubOwed s h.pa h.bytes h.bad) { s with held := [] }

/-- Bytes as the hub's read finds them: writes held before it are made before it (R315). -/
def hubBytes (s : State) (pa n : Nat) : List Byte := (s.held.foldl (fun m h => m.setBytes h.pa h.bytes) s.mem).bytes pa n

def hubWord (s : State) (pa : Nat) : Word := word4 (hubBytes s pa 4)
def hubDWord (s : State) (pa : Nat) : DWord := BitVec.ofNat 64 (leNat (s.mem.bytes pa 8))

/-! ### Entities -/

def getCtx (s : State) (c : Nat) : Option Context := tget s.ctxs c
def setCtx (s : State) (c : Nat) (x : Context) : State := { s with ctxs := tput s.ctxs c x }
def getWarp (s : State) (w : Nat) : Option Warp := tget s.warps w
def setWarp (s : State) (w : Nat) (x : Warp) : State := { s with warps := tput s.warps w x }
def getGroup (s : State) (g : Nat) : Option Group := tget s.groups g
def setGroup (s : State) (g : Nat) (x : Group) : State := { s with groups := tput s.groups g x }
def getKernel (s : State) (k : Nat) : Option Kernel := tget s.kernels k
def setKernel (s : State) (k : Nat) (x : Kernel) : State := { s with kernels := tput s.kernels k x }

def modCtx (s : State) (c : Nat) (f : Context → Context) : State :=
  { s with ctxs := tmod f s.ctxs c }
def modWarp (s : State) (w : Nat) (f : Warp → Warp) : State :=
  match getWarp s w with | some x => setWarp s w (f x) | none => s
def modGroup (s : State) (g : Nat) (f : Group → Group) : State :=
  match getGroup s g with | some x => setGroup s g (f x) | none => s
def modKernel (s : State) (k : Nat) (f : Kernel → Kernel) : State :=
  match getKernel s k with | some x => setKernel s k (f x) | none => s

/-- Apply a change to every warp that a test selects. -/
def mapWarps (s : State) (p : Nat → Warp → Bool) (f : Warp → Warp) : State :=
  { s with warps := s.warps.map fun e => if p e.1 e.2 then (e.1, f e.2) else e }

def warpsOf (s : State) (g : Nat) : List (Nat × Warp) := s.warps.filter fun e => decide (e.2.gid = g)

/-- The warp's group is saved or swapped: the warp stands in its record and holds no register (03 R60, R67). -/
def warpSaved (s : State) (w : Warp) : Bool := match getGroup s w.gid with | some g => g.savedAt.isSome | none => false

def takeUid (s : State) : Nat × State := (s.uid, { s with uid := s.uid + 1 })

def CtxDesc.zero : CtxDesc := ⟨0, 0, 0, 0, 0, 0, 0, 0, 0, 0, 0, 0, 0⟩

/-- Fault policy of the descriptor's flags (03 R56). -/
def CtxDesc.policy (d : CtxDesc) : Policy :=
  match wbits d.flags 6 5 with
  | 1 => .dump | 2 => .stop | _ => .kill

def CtxDesc.debug (d : CtxDesc) : Bool := d.flags.getLsbD 7
def CtxDesc.trapSlot (d : CtxDesc) : Nat := wbits d.flags 4 0

/-- The state code of 14 R319. -/
def LinkState.code : LinkState → Nat
  | .up => 0 | .retraining => 1 | .degraded => 2 | .down => 3
def HostState.code : HostState → Nat
  | .up => 0 | .training => 1 | .degraded => 2 | .down => 3 | .disabled => 4
def portCode : PortState → Nat
  | .up => 0 | .training => 1 | .down => 3 | .disabled => 4
def StartState.code : StartState → Nat
  | .off => 0 | .verifying => 1 | .training => 2 | .clearing => 3 | .ready => 4 | .failed => 5

/-! ### Vectors and event records (14 R323, R330) -/

/-- Raise an MSI-X vector. -/
def raiseVec (s : State) (v : Nat) : State :=
  { s with mgmt := { s.mgmt with msix := sput 0 s.mgmt.msix v (sget 0 s.mgmt.msix v + 1) } }

/-- Write an event record of 32 bytes (eight words) and raise its vector, or count it lost (R330). -/
def postEvent (s : State) (ws : List Word) (vec : Nat) : State :=
  let m := s.mgmt
  if m.evctl ∧ (m.evwr - m.evrd).toNat + 1 ≤ 2 ^ m.evsize.toNat then
    let s := hubOwed s (m.evbase.toNat + 32 * (m.evwr.toNat % 2 ^ m.evsize.toNat)) (bytesOfWords ws)
    raiseVec { s with mgmt := { s.mgmt with evwr := m.evwr + 1 } } vec
  else { s with mgmt := { m with evlost := if m.evlost = 0xFFFFFFFF then m.evlost else m.evlost + 1 } }

/-- The record of a link state change (R319). -/
def postLink (s : State) (kind num new old lanes lost kernels : Nat) : State :=
  postEvent s
    [BitVec.ofNat 32 (kind * 4096 + num * 256 + new * 16 + old), BitVec.ofNat 32 lanes, lo32 s.clk, hi32 s.clk,
      BitVec.ofNat 32 lost, BitVec.ofNat 32 kernels, 0, 0] 256

/-- A record of kind 5 (R331). -/
def postStart (s : State) (action count : Nat) : State :=
  let res := if action = 2 ∨ action = 6 then s.start.result.toNat else 0
  postEvent s
    [BitVec.ofNat 32 (s.start.state.code * 2 ^ 20 + 5 * 4096 + action * 256 + res), BitVec.ofNat 32 count, lo32 s.clk, hi32 s.clk,
      0, 0, 0, 0] (if action ≤ 2 then 259 else 258)

/-- A machine-check record (18 R441). -/
def postMachineCheck (s : State) (ctx unit action count : Nat) (at_ : DWord) : State :=
  postEvent s
    [BitVec.ofNat 32 (ctx * 2 ^ 24 + unit * 2 ^ 16 + 3 * 4096 + action * 256), BitVec.ofNat 32 count, lo32 s.clk, hi32 s.clk,
      lo32 at_, hi32 at_, 0, 0] 256

/-! ### Performance counts (18 R454, R455) -/

/-- The hub die, beside the core dies 0 to 3, as the place of an event (R453, log 63). -/
def hubDie : Nat := 4

/-- Count n events of a number at a die for a context. -/
def countEvent (s : State) (die ctx ev n : Nat) : State :=
  let k := (die * 256 + ctx) * 256 + ev
  { s with counts := sput 0 s.counts k (sget 0 s.counts k + n) }

/-- The accumulators of a context run from commit to teardown, but not while it is suspended (R455). -/
def CtxState.accrues : CtxState → Bool
  | .ready | .resident | .faulted => true
  | _ => false

/-- A context is charged with energy, in units of 2^-8 pJ (R456, 03 R58). -/
def Context.spend (c : Context) (e : Nat) : Context :=
  if c.state.accrues then { c with pwrAcc := c.pwrAcc + e, acct := { c.acct with energy := c.acct.energy + e } } else c

/-- n events of an entry of the energy table at a die, charged to the context whose work caused them (R456). -/
def spend (s : State) (die ctx entry n : Nat) : State :=
  let e := n * (s.weights.getD entry 0).toNat
  modCtx (countEvent s die ctx 15 e) ctx (·.spend e)

/-- Charge bytes moved at a stack or the hub cache to a context (03 R58, 18 R455). -/
def chargeBytes (s : State) (ctx n : Nat) : State :=
  modCtx s ctx fun c =>
    { c with
      bwAcc := c.bwAcc + n
      acct := { c.acct with bytes := c.acct.bytes + (if c.state.accrues then n else 0) } }

/-- n bytes cross the link of a core die, in either direction (event 9, entry 11). -/
def linkBytes (s : State) (die ctx n : Nat) : State := spend (countEvent s die ctx 9 n) die ctx 11 n

/-- n bytes of a line are read or written at the stack it lies on, which its die's link joins to the hub (event 8, entry 10); host memory
lies on no stack. -/
def stackBytes (s : State) (ctx line n : Nat) : State :=
  match homeDie s (line * 128) with
  | some d => linkBytes (spend (countEvent (chargeBytes s ctx n) d ctx 8 n) d ctx 10 n) d ctx n
  | none => s

/-- Lines of the hub cache: 512 MiB of 128 bytes (01 R8). -/
def hubLines : Nat := 4194304

/-- The lines the hub cache gives up to hold this one: its own where it was dropped, and one more where the cache is full (log 89). -/
def hubOut (s : State) (line : Nat) : List HubLine :=
  match s.cache.hub.find? fun h => h.line = line with
  | some h => if Config.holds s.tick line then [] else [h]
  | none => if s.cache.hub.length < hubLines then [] else s.cache.hub.getLast?.toList

/-- The counts and the accounts of a context become those of t, in which it was charged. -/
def billed (s t : State) (ctx : Nat) : State :=
  modCtx { s with counts := t.counts } ctx fun c =>
    let d := (getCtx t ctx).getD c
    { c with acct := d.acct, bwAcc := d.bwAcc, pwrAcc := d.pwrAcc }

/-- The hub cache serves a line (entry 9), filling it from its stack where it misses (event 7); a written line that it gives up goes to its
stack, with its marks. -/
def hubTouch (s : State) (ctx line : Nat) : State :=
  let out := hubOut s line
  let miss := !hubHas s line || !out.isEmpty
  let back := out.filter (·.dirty)
  let t := spend (countEvent s hubDie ctx 7 miss.toNat) hubDie ctx 9 1
  let t := stackBytes t ctx line (128 * miss.toNat)
  let t := back.foldl (fun t h => stackBytes t ctx h.line 128) t
  let p := back.foldl (fun p h => h.pois.foldl nins (p.filter fun k => k / 4 ≠ h.line)) s.poison
  let rest := s.cache.hub.filter fun h => !out.any fun o => decide (o.line = h.line)
  { billed s t ctx with
    poison := p
    cache := { s.cache with
      hub := if miss then ⟨line, false, p.filter fun k => k / 4 = line⟩ :: rest else s.cache.hub } }

/-- Bytes are read or written at the hub for a context (R58), from a core die over its link. A U-class host page goes to the host uncached
(14 R322). -/
def hubMove (s : State) (die : Option Nat) (ctx : Nat) (cls : PageClass) (pa n : Nat) : State :=
  let s := match die with | some d => linkBytes s d ctx n | none => s
  if cls = .U ∧ windowOf s pa = some .host then s
  else chargeBytes ((linesOf pa n).foldl (fun s l => hubTouch s ctx l) s) ctx n

/-- The hub reads or writes bytes for a context itself. -/
def hubUse (s : State) (ctx pa n : Nat) : State := hubMove s none ctx .C pa n

/-- A write the hub owes for a context; one that is made is charged. -/
def hubOwedFor (s : State) (ctx pa : Nat) (bs : List Byte) (bad : Bool := false) : State :=
  hubOwed (if hubCan s pa bs.length then hubUse s ctx pa bs.length else s) pa bs bad

/-- Kernel id and group rank as words. -/
def kidWord (k : Nat) : Word := BitVec.ofNat 32 k
def rankWord (s : State) (g : Nat) : Word :=
  match getGroup s g with | some x => BitVec.ofNat 32 x.rank | none => 0xFFFFFFFF

/-! ### Flushes and halts (07 R130, 06 R122) -/

/-- A warp whose block is flushed: every token, buffered store and pending write is discarded, the frame freed (R130). -/
def Warp.flush (x : Warp) (st : WState) : Warp := { x with frame := none, state := st }

/-- The block can no longer be flushed: it has passed its irrevocable point, or its commit has begun (R142, R146, R156). -/
def Frame.stays (f : Frame) : Bool := f.irrev || decide (f.stage ≠ 0)

/-- Pre-empt one warp: a block not past its irrevocable point is flushed and the warp is ready at the same block; one past it stays to
commit (R122, R66). -/
def Warp.preempt (x : Warp) : Warp :=
  match x.frame with
  | some f => if f.stays then x else x.flush .ready
  | none => x

/-- A warp ends: its slot and granules are freed at once (06 R116); with its last warp the group enters retiring (R114). -/
def endWarp (s : State) (wid : Nat) : State :=
  match getWarp s wid with
  | none => s
  | some w =>
    let s := setWarp s wid { w with
      state := .ended, wait := .none, frame := none, image := none, redo := none, clipDue := [], svcDue := [], stopDue := none
      trap := none }
    match getGroup s w.gid with
    | some g =>
      if (g.state = .resident ∨ g.state = .swapping) ∧ (warpsOf s w.gid).all (fun e => decide (e.2.state = .ended)) then
        setGroup s w.gid { g with state := .retiring } else s
    | none => s

/-- gstop with code 0 has been taken for the warp's group: no block of it is mapped again (06 R126). -/
def groupStopped (s : State) (gid : Nat) : Bool :=
  match getGroup s gid with | some g => g.stopped | none => false

/-- A block of a warp is flushed (18 R454, event 1). -/
def countFlush (s : State) (w : Warp) : State := countEvent s (w.core / 64) w.ctx 1 1

/-- Pre-empt the warps a test selects, and change them further; the blocks flushed are counted (18 R454). A warp of a group that gstop has
ended is not replayed: it ends (06 R126). -/
def preemptWith (s : State) (p : Nat → Warp → Bool) (f : Warp → Warp) : State :=
  let hit (e : Nat × Warp) : Bool := p e.1 e.2 && (match e.2.frame with | some x => !x.stays | none => false)
  let hits := s.warps.filter hit
  let s := hits.foldl (fun s e => countFlush s e.2) s
  let clk := s.clk
  let s := mapWarps s p fun w => f (if w.frame.isSome ∧ w.preempt.frame.isNone then { w.preempt with since := clk } else w.preempt)
  hits.foldl (fun s e => if groupStopped s e.2.gid then endWarp s e.1 else s) s

/-- A group's warps are requested to halt (05 R93): their blocks are flushed or run to commit, and none maps again. -/
def haltGroup (s : State) (g : Nat) : State :=
  let s := preemptWith s (fun _ w => decide (w.gid = g)) fun w => { w with haltDue := true }
  modGroup s g fun x => { x with state := .halting }

/-- The group may still be halted (R114): it is placed, has not entered retiring, and no gstop with code 0 has reached the hub before (R123). -/
def Group.haltable (g : Group) : Bool := (decide (g.state = .resident) || decide (g.state = .swapping)) && !g.stopped

def KState.final : KState → Bool
  | .complete | .failed | .failedPartial | .killed => true
  | _ => false

/-- Halt every resident group of a kernel (R92). -/
def haltKernel (s : State) (k : Nat) : State :=
  s.groups.foldl (fun s e => if e.2.kid = k ∧ e.2.haltable then haltGroup s e.1 else s) s

/-- A failure of a kernel (R92): the first is recorded, the kernel enters draining and its resident groups are halted; a later one is
ignored. LINK_LOST failures are counted at the cut link (14 R319). -/
def failKernel (s : State) (k : Nat) (code : Nat) (grp : Word) (detail : DWord) : State :=
  match getKernel s k with
  | some x =>
    if x.state.final || decide (x.state = .draining) then s
    else
      let s := setKernel s k { x with state := .draining, code := code, failGroup := grp, detail := detail }
      let s := if code = Code.linkLost then
          { s with
            links := s.links.map fun l => if l.state = .down then { l with kernels := l.kernels + 1 } else l
            host := if s.host.state = .down then { s.host with kernels := s.host.kernels + 1 } else s.host
            peerKernels := (s.peerKernels.zip s.peers).map fun p => if p.2 = .down then p.1 + 1 else p.1 }
        else s
      haltKernel s k
  | none => s

/-- Begin a save or a context fault (03 R66 steps 1 and 2, R62). -/
def leaveCtx (s : State) (c : Nat) (l : Leaving) : State :=
  let s := preemptWith s (fun _ w => decide (w.ctx = c)) id
  modCtx s c fun x => { x with leaving := some l }

/-- A context fault (R62): allowed in ready and resident. -/
def contextFault (s : State) (c : Nat) : State :=
  match getCtx s c with
  | some x =>
    if (x.state = .ready ∨ x.state = .resident) then leaveCtx s c .fault else s
  | none => s

/-- The `where` word of fault records, stops and dumps (12 R262): core, warp slot and instruction index. -/
def whereWord (w : Warp) (idx : Nat) : Word := BitVec.ofNat 32 (w.core * 2 ^ 16 + w.slot * 2 ^ 8 + idx)

/-- A fault under DUMP that is not dumped (18 R449): the header's lost rises, in the dump in progress if there is one. -/
def countLost (s : State) (ctx : Nat) (c : Context) : State :=
  match c.dumping with
  | some gid => modGroup s gid fun g => { g with dump := g.dump.map fun d => { d with lost := satAdd d.lost 1 0xFFFFFFFF } }
  | none =>
    let at_ := c.desc.dumpbase + 8
    hubOwedFor s ctx at_ (leBytes (satAdd (hubWord s at_).toNat 1 0xFFFFFFFF) 4)

/-- A warp whose block is flushed for a fault: a later block of it that is past its irrevocable point runs to commit (06 R122). -/
def Warp.stop (x : Warp) : Warp :=
  if x.state ≠ .mapped then x
  else match x.frame with
    | some f => if f.stays then x else x.flush .ready
    | none => x.flush .ready

/-- The handle of the block in which a fault was detected (18 R448): of one that follows the block's commit (10 R215, R220) the detail holds it. -/
def faultHandle (w : Warp) (code : Nat) (detail : DWord) : Word :=
  if w.frame.isNone ∧ (code = Code.collision ∨ code = Code.regionDef) then lo32 detail else w.handle

/-- A start request has ended the contexts: no completion record, donebar arrival or dump is written for their kernels (21 R470). -/
def workLost (s : State) : Bool := decide (s.start.state = .verifying)

/-- A fatal group fault (18 R435): the group is halted and its fault held for the context's policy: KILL and DUMP fail the kernel (DUMP
after the dump, if the area is ready: R449), STOP faults the context. After a gstop with code 0 the warp is not replayed: it ends (06 R123,
R126). -/
def fatalGroup (s : State) (wid : Nat) (w : Warp) (code : Nat) (detail : DWord) (idx : Nat) : State :=
  let gid := w.gid
  match getGroup s gid, getCtx s w.ctx with
  | some g, some c =>
    if g.state = .halting ∨ g.state = .halted ∨ g.state = .retiring ∨ g.state = .retired then
      -- a halt is already under way: the warp just stops
      modWarp s wid fun x => { x.stop with haltDue := true }
    else if g.stopped then endWarp (if w.frame.isSome then countFlush s w else s) wid
    else
      let s := if w.frame.isSome ∧ w.stop.frame.isNone then countFlush s w else s
      let s := modWarp s wid Warp.stop
      let s := haltGroup s gid
      let grp := BitVec.ofNat 32 g.rank
      match c.desc.policy with
      | .kill => failKernel s w.kid code grp detail
      | .stop => contextFault s w.ctx
      | .dump =>
        let base := c.desc.dumpbase
        let head := hubWord s base
        if workLost s then s
        else if hubCan s base 64 ∧ head.getLsbD 29 ∧ c.dumping = none then
          let s := modCtx s w.ctx fun c => { c with dumping := some gid }
          modGroup s gid fun g =>
            { g with dump := some ⟨code, detail, s.clk, whereWord w idx, faultHandle w code detail, 0⟩, fatal := some (code, detail) }
        else
          -- not rearmed, or a dump is running: counted lost and handled as under KILL (R449)
          failKernel (countLost s w.ctx c) w.kid code grp detail
  | _, _ => s

/-! ### Registers (01 R11, 02 R31, R32) -/

def vreg (w : Warp) (r l : Nat) : Word := sget 0 w.v (r * 32 + l)
def sreg (w : Warp) (r : Nat) : Word := sget 0 w.s r
def preg (w : Warp) (r : Nat) : Mask := if r = 0 then ones32 else sget 0 w.p r

def setV (w : Warp) (r l : Nat) (x : Word) : Warp := { w with v := sput 0 w.v (r * 32 + l) x }
def setS (w : Warp) (r : Nat) (x : Word) : Warp := { w with s := sput 0 w.s r x }
/-- A write to p0 has no effect (02 R34). -/
def setP (w : Warp) (r : Nat) (x : Mask) : Warp := if r = 0 then w else { w with p := sput 0 w.p r x }

def setPair (w : Warp) (r : Nat) (x : DWord) : Warp := setS (setS w r (lo32 x)) (r + 1) (hi32 x)
def pair (w : Warp) (r : Nat) : DWord := sreg w (r + 1) ++ sreg w r

/-! ### Taking a trap and returning from it (18 R436 to R438, 07 R153 to R155) -/

/-- TRAPINF of a trap (R437): code, argument and resume handle. -/
def trapInfo (code arg : Nat) (resume : Word) : DWord :=
  BitVec.ofNat 64 (code * 2 ^ 56 + arg % 4096 * 2 ^ 44 + resume.toNat % 2 ^ 31)

def TrapCode.num : TrapCode → Nat
  | .splitSpill => Code.splitSpill | .splitFill => Code.splitFill | .svc => Code.svc | .clipped => Code.clipped

/-- Take a trap (R436): the warp enters class 0, records its resume handle and mask, TRAPINF names the trap, and the warp next maps
offset 0 of the trap-handler segment, with the resume mask less DEADM. -/
def Warp.takeTrap (w : Warp) (slot : Nat) (code : TrapCode) (arg : Nat) (handle : Word) (mask : Mask) (atMap : Bool) : Warp :=
  { w with
    cls := 0
    trap := some ⟨code, handle, mask, atMap⟩
    trapinf := trapInfo code.num arg handle
    handle := BitVec.ofNat 32 (slot * 2 ^ 26)
    mask := mask &&& ~~~w.deadm
    image := none
    matched := false
    state := .ready }

/-- Return from a trap (R438): the class returns to the kernel's and the warp goes back to the resume point with the resume mask less
DEADM. What that point is (the next block, the redone step 5, the same block's map) is the caller's. -/
def Warp.leaveTrap (w : Warp) (t : Trap) : Warp :=
  { w with cls := w.kclass, trap := none, handle := t.handle, mask := t.mask &&& ~~~w.deadm, image := none, matched := false }

/-- A trap ends without trapret (07 R154): the class returns, the resume point is abandoned. -/
def Warp.abandonTrap (w : Warp) : Warp :=
  { w with cls := w.kclass, trap := none, redo := none, clipDue := [], svcDue := [] }

/-! ### Poison of scratchpad words (18 R439) -/

def spadPoisoned (g : Group) (addr n : Nat) : Bool :=
  g.spois.any fun k => decide (k * 4 < addr + n) && decide (addr < k * 4 + 4)

def markWords (p : List Nat) (a n : Nat) (bad : Bool) : List Nat :=
  let ws := if n = 0 then [] else (List.range ((a + n - 1) / 4 + 1 - a / 4)).map (· + a / 4)
  ws.foldl (fun p k =>
    if bad then nins p k else if a ≤ 4 * k ∧ 4 * k + 4 ≤ a + n then p.filter (· ≠ k) else p) p

/-- What a scratchpad byte that the group has not written holds: 0 in SRAM just cleared (21 R468), else free (log 14). -/
def spadRest (g : Group) (a : Nat) : Byte := if g.born = 0 then 0 else Config.freeByte g.born a
def spadByte (g : Group) (a : Nat) : Byte := sget (spadRest g a) g.spad a
def spadBytes (g : Group) (a : Nat) : Nat → List Byte
  | 0 => []
  | n + 1 => spadByte g a :: spadBytes g (a + 1) n
def spadWord (g : Group) (a : Nat) : Word := word4 (spadBytes g a 4)

def spadSet (g : Group) (m : Smap Byte) : Nat → List Byte → Smap Byte
  | _, [] => m
  | a, b :: r => spadSet g (sput (spadRest g a) m a b) (a + 1) r

/-- Write scratchpad bytes of a group. -/
def spadWrite (g : Group) (a : Nat) (bs : List Byte) (bad : Bool := false) : Group :=
  { g with spad := spadSet g g.spad a bs, spois := markWords g.spois a bs.length bad }

end Sys2Proof.Machine
end

