-- ==== Sys2Proof/Machine/Crypto.lean ====
section
/-!
DEFINITION. What the security processor computes with (21 R472 to R474): SHA-256 and ECDSA on the curve P-256. The spec names both and leaves
them to their standards, FIPS 180-4 and FIPS 186 (log 114).
-/
namespace Sys2Proof.Machine

/-! ### SHA-256 -/

/-- The number whose big-endian bytes these are, and the n big-endian bytes of a number. -/
def beNat (bs : List Byte) : Nat := bs.foldl (fun n b => n * 256 + b.toNat) 0
def beBytes (x n : Nat) : List Byte := (leBytes x n).reverse

/-- The chaining value of SHA-256, and its working variables. -/
structure Sha where
  a : Word
  b : Word
  c : Word
  d : Word
  e : Word
  f : Word
  g : Word
  h : Word
deriving DecidableEq, Repr

def shaStart : Sha :=
  ⟨0x6a09e667, 0xbb67ae85, 0x3c6ef372, 0xa54ff53a, 0x510e527f, 0x9b05688c, 0x1f83d9ab, 0x5be0cd19⟩

/-- The constants of the 64 rounds. -/
def shaRounds : List Word :=
  [0x428a2f98, 0x71374491, 0xb5c0fbcf, 0xe9b5dba5, 0x3956c25b, 0x59f111f1, 0x923f82a4, 0xab1c5ed5,
   0xd807aa98, 0x12835b01, 0x243185be, 0x550c7dc3, 0x72be5d74, 0x80deb1fe, 0x9bdc06a7, 0xc19bf174] ++
  [0xe49b69c1, 0xefbe4786, 0x0fc19dc6, 0x240ca1cc, 0x2de92c6f, 0x4a7484aa, 0x5cb0a9dc, 0x76f988da,
   0x983e5152, 0xa831c66d, 0xb00327c8, 0xbf597fc7, 0xc6e00bf3, 0xd5a79147, 0x06ca6351, 0x14292967] ++
  [0x27b70a85, 0x2e1b2138, 0x4d2c6dfc, 0x53380d13, 0x650a7354, 0x766a0abb, 0x81c2c92e, 0x92722c85,
   0xa2bfe8a1, 0xa81a664b, 0xc24b8b70, 0xc76c51a3, 0xd192e819, 0xd6990624, 0xf40e3585, 0x106aa070] ++
  [0x19a4c116, 0x1e376c08, 0x2748774c, 0x34b0bcb5, 0x391c0cb3, 0x4ed8aa4a, 0x5b9cca4f, 0x682e6ff3,
   0x748f82ee, 0x78a5636f, 0x84c87814, 0x8cc70208, 0x90befffa, 0xa4506ceb, 0xbef9a3f7, 0xc67178f2]

def rot (x : Word) (n : Nat) : Word := x.rotateRight n

/-- One round with its constant and the word of the message schedule. -/
def Sha.round (x : Sha) (k w : Word) : Sha :=
  let t1 := x.h + (rot x.e 6 ^^^ rot x.e 11 ^^^ rot x.e 25) + ((x.e &&& x.f) ^^^ (~~~x.e &&& x.g)) + k + w
  let t2 := (rot x.a 2 ^^^ rot x.a 13 ^^^ rot x.a 22) + ((x.a &&& x.b) ^^^ (x.a &&& x.c) ^^^ (x.b &&& x.c))
  ⟨t1 + t2, x.a, x.b, x.c, x.d + t1, x.e, x.f, x.g⟩

/-- The rounds of one block. The schedule is kept as its next sixteen words. -/
def Sha.rounds : List Word → List Word → Sha → Sha
  | k :: ks, w :: ws, x =>
    let w1 := ws.getD 0 0
    let w14 := ws.getD 13 0
    let next := (rot w14 17 ^^^ rot w14 19 ^^^ (w14 >>> 10)) + ws.getD 8 0 + (rot w1 7 ^^^ rot w1 18 ^^^ (w1 >>> 3)) + w
    Sha.rounds ks (ws ++ [next]) (x.round k w)
  | _, _, x => x

def Sha.block (x : Sha) (ws : List Word) : Sha :=
  let y := Sha.rounds shaRounds ws x
  ⟨x.a + y.a, x.b + y.b, x.c + y.c, x.d + y.d, x.e + y.e, x.f + y.f, x.g + y.g, x.h + y.h⟩

/-- The message with its padding: a one bit, zeros, and its length in bits, to a whole number of 64-byte blocks. -/
def shaPad (bs : List Byte) : List Byte := bs ++ 0x80 :: List.replicate ((119 - bs.length % 64) % 64) 0 ++ beBytes (8 * bs.length) 8

/-- SHA-256 of a message. -/
def sha256 (bs : List Byte) : BitVec 256 :=
  let m := shaPad bs
  let word (i : Nat) : Word := BitVec.ofNat 32 (beNat ((m.drop (4 * i)).take 4))
  let x := (List.range (m.length / 64)).foldl (fun x b => x.block ((List.range 16).map fun i => word (16 * b + i))) shaStart
  x.a ++ x.b ++ x.c ++ x.d ++ x.e ++ x.f ++ x.g ++ x.h

/-! ### The curve P-256: y² = x³ - 3x + b over the numbers mod p; a base point of prime order n -/

def curveP : Nat := 0xffffffff00000001000000000000000000000000ffffffffffffffffffffffff
def curveN : Nat := 0xffffffff00000000ffffffffffffffffbce6faada7179e84f3b9cac2fc632551
def curveB : Nat := 0x5ac635d8aa3a93e7b3ebbd55769886bc651d06b0cc53b0f63bce3c3e27d2604b

/-- A point (x / z², y / z³); at infinity where z is 0. -/
structure CurvePoint where
  x : Nat
  y : Nat
  z : Nat
deriving DecidableEq, Repr

def curveBase : CurvePoint :=
  ⟨0x6b17d1f2e12c4247f8bce6e563a440f277037d812deb33a0f4a13945d898c296,
   0x4fe342e2fe1a7f9b8ee7eb4a7c0f9e162bce33576b315ececbb6406837bf51f5, 1⟩

def mulP (a b : Nat) : Nat := a * b % curveP
def subP (a b : Nat) : Nat := (a + curveP - b % curveP) % curveP

namespace CurvePoint

/-- The affine point lies on the curve. -/
def onCurve (x y : Nat) : Bool :=
  decide (x < curveP) && decide (y < curveP) && decide (mulP y y = (x * x % curveP * x + curveB + 3 * (curveP - x)) % curveP)

def twice (p : CurvePoint) : CurvePoint :=
  let yy := mulP p.y p.y
  let zz := mulP p.z p.z
  let s := 4 * mulP p.x yy % curveP
  let m := 3 * mulP (subP p.x zz) (p.x + zz) % curveP
  let x := subP (mulP m m) (2 * s)
  ⟨x, subP (mulP m (subP s x)) (8 * mulP yy yy), 2 * mulP p.y p.z % curveP⟩

def add (p q : CurvePoint) : CurvePoint :=
  if p.z = 0 then q
  else if q.z = 0 then p
  else
    let pz := mulP p.z p.z
    let qz := mulP q.z q.z
    let u := mulP p.x qz
    let s := mulP p.y (mulP q.z qz)
    let h := subP (mulP q.x pz) u
    let r := subP (mulP q.y (mulP p.z pz)) s
    if h = 0 then (if r = 0 then p.twice else ⟨1, 1, 0⟩)
    else
      let hh := mulP h h
      let hhh := mulP h hh
      let v := mulP u hh
      let x := subP (mulP r r) (hhh + 2 * v)
      ⟨x, subP (mulP r (subP v x)) (mulP s hhh), mulP h (mulP p.z q.z)⟩

end CurvePoint

/-- The 256 bits of a number, the highest first. -/
def bits256 (k : Nat) : List Bool := (List.range 256).map fun i => k.testBit (255 - i)

/-- A power modulo m. -/
def powMod (m b k : Nat) : Nat := (bits256 k).foldl (fun a t => if t then a * a % m * b % m else a * a % m) (1 % m)

/-- The inverse modulo a prime. -/
def invMod (m a : Nat) : Nat := powMod m a (m - 2)

/-- k times a point. -/
def CurvePoint.times (k : Nat) (p : CurvePoint) : CurvePoint :=
  (bits256 k).foldl (fun a t => if t then a.twice.add p else a.twice) ⟨1, 1, 0⟩

/-- The affine x coordinate of a point that is not at infinity. -/
def CurvePoint.xOf (p : CurvePoint) : Nat := let i := invMod curveP p.z; mulP p.x (mulP i i)
def CurvePoint.yOf (p : CurvePoint) : Nat := let i := invMod curveP p.z; mulP p.y (mulP i (mulP i i))

/-! ### ECDSA -/

/-- The public key of a private one. -/
def pubKeyOf (d : Nat) : PubKey := let q := CurvePoint.times d curveBase; ⟨BitVec.ofNat 256 q.xOf, BitVec.ofNat 256 q.yOf⟩

/-- A signature over a digest verifies against a public key. -/
def ecdsaVerify (key : PubKey) (e : BitVec 256) (sig : Signature) : Bool :=
  let r := sig.r.toNat
  let s := sig.s.toNat
  CurvePoint.onCurve key.x.toNat key.y.toNat && decide (0 < r) && decide (r < curveN) && decide (0 < s) && decide (s < curveN) &&
    (let w := invMod curveN s
     let p := (CurvePoint.times (e.toNat * w % curveN) curveBase).add (CurvePoint.times (r * w % curveN) ⟨key.x.toNat, key.y.toNat, 1⟩)
     decide (p.z ≠ 0) && decide (p.xOf % curveN = r))

/-- The signature that a private key makes over a digest with a nonce. -/
def ecdsaSign (d : Nat) (e : BitVec 256) (nonce : Nat) : Signature :=
  let r := (CurvePoint.times nonce curveBase).xOf % curveN
  ⟨BitVec.ofNat 256 r, BitVec.ofNat 256 (invMod curveN nonce * (e.toNat + r * d) % curveN)⟩

/-- The digest of a public key: of its two coordinates, 32 bytes each, most significant first (log 114). -/
def keyDigest (k : PubKey) : BitVec 256 := sha256 (beBytes k.x.toNat 32 ++ beBytes k.y.toNat 32)

end Sys2Proof.Machine
end

