-- ==== Sys2Proof/Machine/Flags.lean ====
section
/-!
DEFINITION. Number formats, rounding, special values and the sticky flags (08): every computation on real numbers is exact arithmetic
on integers and dyadic numbers, rounded once. Bit patterns are natural numbers here; a result is a pattern with the flags it raises.
-/
namespace Sys2Proof.Machine

/-! ### The sticky flags (R175) -/

def flNV : Word := 1
def flDZ : Word := 2
def flOF : Word := 4
def flUF : Word := 8
def flNX : Word := 16
def flSAT : Word := 32

def flagIf (c : Bool) (f : Word) : Word := if c then f else 0

/-! ### Integers (R158 to R160) -/

def s32 (w : Word) : Int := w.toInt
def s64 (w : DWord) : Int := w.toInt

/-- Clamp an exact result. -/
def clampTo (lo hi x : Int) : Int := max lo (min hi x)

/-- Class A results of 32 bits (R159): wrapped, or clamped with SAT. -/
def satI32 (x : Int) : Word × Word :=
  let y := clampTo (-2147483648) 2147483647 x
  (BitVec.ofInt 32 y, flagIf (decide (y ≠ x)) flSAT)

def satN32 (x : Int) : Word × Word :=
  let y := clampTo 0 4294967295 x
  (BitVec.ofInt 32 y, flagIf (decide (y ≠ x)) flSAT)

/-- Integer division toward zero and its remainder (R160), on the signed or unsigned readings of n-bit operands. -/
def intDiv (n : Nat) (a b : Int) : Int := if b = 0 then -1 else if a = -(2 ^ (n - 1)) ∧ b = -1 then a else Int.tdiv a b
def intRem (a b : Int) : Int := if b = 0 then a else Int.tmod a b

/-! ### Formats (R161) -/

inductive FKind where
  | ieee | e4m3 | e2m1
deriving DecidableEq, Repr

/-- A format: fraction width, exponent width, bias, and how its top patterns read. -/
structure Fmt where
  m    : Nat
  ew   : Nat
  bias : Int
  kind : FKind
deriving DecidableEq, Repr

def fF64 : Fmt := ⟨52, 11, 1023, .ieee⟩
def fF32 : Fmt := ⟨23, 8, 127, .ieee⟩
def fF16 : Fmt := ⟨10, 5, 15, .ieee⟩
def fBF16 : Fmt := ⟨7, 8, 127, .ieee⟩
def fE5M2 : Fmt := ⟨2, 5, 15, .ieee⟩
def fE4M3 : Fmt := ⟨3, 4, 7, .e4m3⟩
def fE2M1 : Fmt := ⟨1, 2, 1, .e2m1⟩

def Fmt.width (F : Fmt) : Nat := 1 + F.ew + F.m
def Fmt.signBit (F : Fmt) : Nat := 2 ^ (F.ew + F.m)
/-- The magnitude pattern of infinity. -/
def Fmt.infBits (F : Fmt) : Nat := (2 ^ F.ew - 1) * 2 ^ F.m
/-- The magnitude pattern of the largest finite value. -/
def Fmt.maxBits (F : Fmt) : Nat :=
  match F.kind with
  | .ieee => F.infBits - 1 | .e4m3 => 0x7E | .e2m1 => 7
/-- The canonical NaN (R167); .e2m1 has none and yields +0 (R485). -/
def Fmt.canon (F : Fmt) : Nat :=
  match F.kind with
  | .ieee => F.infBits + 2 ^ (F.m - 1) | .e4m3 => 0x7F | .e2m1 => 0

def Fmt.neg (F : Fmt) (x : Nat) : Bool := decide (x / F.signBit % 2 = 1)
def Fmt.mag (F : Fmt) (x : Nat) : Nat := x % F.signBit
def Fmt.sign (F : Fmt) (neg : Bool) : Nat := if neg then F.signBit else 0

def Fmt.isNaN (F : Fmt) (x : Nat) : Bool :=
  match F.kind with
  | .ieee => decide (F.infBits < F.mag x) | .e4m3 => decide (F.mag x = 0x7F) | .e2m1 => false
def Fmt.isInf (F : Fmt) (x : Nat) : Bool := decide (F.kind = .ieee) && decide (F.mag x = F.infBits)
/-- A NaN whose fraction's top bit is 0 (R167). -/
def Fmt.isSNaN (F : Fmt) (x : Nat) : Bool := F.isNaN x && decide (F.kind = .ieee) && decide (F.mag x % 2 ^ F.m < 2 ^ (F.m - 1))
def Fmt.isZero (F : Fmt) (x : Nat) : Bool := decide (F.mag x = 0)

/-- A NaN made quiet (R168). -/
def Fmt.quiet (F : Fmt) (x : Nat) : Nat := if F.isSNaN x then x + 2 ^ (F.m - 1) else x

/-! ### Exact values -/

/-- A value: a signed dyadic n * 2^e, an infinity, or no number. -/
inductive Num where
  | fin (neg : Bool) (n : Nat) (e : Int)
  | inf (neg : Bool)
  | nan
deriving DecidableEq, Repr

/-- The value of a pattern (R162). -/
def Fmt.num (F : Fmt) (x : Nat) : Num :=
  if F.isNaN x then .nan
  else if F.isInf x then .inf (F.neg x)
  else
    let e := F.mag x / 2 ^ F.m
    let f := F.mag x % 2 ^ F.m
    if e = 0 then .fin (F.neg x) f (1 - F.bias - F.m) else .fin (F.neg x) (2 ^ F.m + f) ((e : Int) - F.bias - F.m)

def Num.neg : Num → Bool
  | .fin s _ _ => s | .inf s => s | .nan => false

def Num.negate : Num → Num
  | .fin s n e => .fin (!s) n e | .inf s => .inf (!s) | .nan => .nan

def Num.isZero : Num → Bool
  | .fin _ 0 _ => true | _ => false

def Num.finite : Num → Bool
  | .fin .. => true | _ => false

/-- A dyadic as a signed mantissa at exponent `at_`, which is no more than its own. -/
def Num.mant (at_ : Int) : Num → Int
  | .fin s n e => let v : Int := (n * 2 ^ (e - at_).toNat : Nat); if s then -v else v
  | _ => 0

def Num.exp : Num → Int
  | .fin _ _ e => e | _ => 0

/-- The product; 0 times infinity is no number. -/
def Num.mul : Num → Num → Num
  | .nan, _ | _, .nan => .nan
  | .fin s n e, .fin t k d => .fin (Bool.xor s t) (n * k) (e + d)
  | .inf s, .inf t => .inf (Bool.xor s t)
  | .inf s, .fin t k _ => if k = 0 then .nan else .inf (Bool.xor s t)
  | .fin s n _, .inf t => if n = 0 then .nan else .inf (Bool.xor s t)

/-- The exact sum of terms, with the sign R165 gives a zero: negative when every term is −0; otherwise positive, or negative in RD. -/
def Num.sum (rd : Bool) (ts : List Num) : Num :=
  if ts.any (· = .nan) then .nan
  else
    let pos := ts.any (· = .inf false)
    let neg := ts.any (· = .inf true)
    if pos && neg then .nan
    else if pos then .inf false
    else if neg then .inf true
    else
      let at_ := ts.foldl (fun a t => if t.isZero then a else min a t.exp) (ts.foldl (fun a t => max a t.exp) 0)
      let v : Int := ts.foldl (fun (v : Int) t => v + if t.isZero then 0 else t.mant at_) 0
      if v = 0 then .fin (if ts.all fun t => t.isZero && t.neg then true else rd && !(ts.all fun t => t.isZero && !t.neg)) 0 0
      else .fin (decide (v < 0)) v.natAbs at_

/-- Order of two numbers that are not NaN; −0 and +0 are equal (R170). -/
def Num.cmp (x y : Num) : Ordering :=
  match x, y with
  | .inf s, .inf t => if s = t then .eq else if s then .lt else .gt
  | .inf s, _ => if s then .lt else .gt
  | _, .inf t => if t then .gt else .lt
  | .fin .., .fin .. =>
    let at_ := min x.exp y.exp
    compare (x.mant at_) (y.mant at_)
  | _, _ => .eq

/-! ### Rounding (R164 to R166) -/

/-- n * 2^sh rounded to an integer magnitude, and whether it was inexact. -/
def roundAt (r : Round) (neg : Bool) (n : Nat) (sh : Int) : Nat × Bool :=
  if 0 ≤ sh then (n * 2 ^ sh.toNat, false)
  else
    let k := (-sh).toNat
    let q := n / 2 ^ k
    let rest := n % 2 ^ k
    if rest = 0 then (q, false)
    else
      let up := match r with
        | .rne => decide (2 ^ k < 2 * rest) || (decide (2 * rest = 2 ^ k) && decide (q % 2 = 1))
        | .rz => false
        | .ru => !neg
        | .rd => neg
      (if up then q + 1 else q, true)

/-- What an overflow gives (R166): pattern without the sign. -/
def Fmt.overBits (F : Fmt) (r : Round) (sat neg : Bool) : Nat :=
  if sat || decide (F.kind = .e2m1) then F.maxBits
  else
    let big := if F.kind = .ieee then F.infBits else 0x7F
    match r with
    | .rne => big
    | .rz => F.maxBits
    | .ru => if neg then F.maxBits else big
    | .rd => if neg then big else F.maxBits

/-- Round a dyadic to a format: pattern and flags (R164 to R166). -/
def Fmt.roundFin (F : Fmt) (r : Round) (sat neg : Bool) (n : Nat) (e : Int) : Nat × Word :=
  if n = 0 then (F.sign neg, 0)
  else
    let top : Int := n.log2 + e
    let qmin : Int := 1 - F.bias - F.m
    let q := max qmin (top - F.m)
    let (k, inx) := roundAt r neg n (e - q)
    let bits := (q - qmin).toNat * 2 ^ F.m + k
    if F.maxBits < bits then (F.sign neg + F.overBits r sat neg, flOF ||| flNX)
    else
      -- tininess is found after rounding with the exponent unbounded (R165)
      let (k', _) := roundAt r neg n ((F.m : Int) - n.log2)
      let top' := if k' = 2 ^ (F.m + 1) then top + 1 else top
      let tiny := decide (top' < 1 - F.bias)
      (F.sign neg + bits, if inx then (if tiny then flNX ||| flUF else flNX) else 0)

/-- Round a value to a format; no number gives the canonical NaN (the caller sets NV where R168 says so). -/
def Fmt.round (F : Fmt) (r : Round) (sat : Bool) : Num → Nat × Word
  | .nan => (F.canon, if F.kind = .e2m1 then flNV else 0)
  | .inf s =>
    match F.kind with
    | .ieee => (F.sign s + F.infBits, 0)
    | .e4m3 => (F.sign s + (if sat then 0x7E else 0x7F), flOF ||| flNX)
    | .e2m1 => (F.sign s + 7, flOF ||| flNX)
  | .fin s n e => F.roundFin r sat s n e

/-! ### Operations on patterns of one format (R165 to R168) -/

/-- The first NaN operand made quiet, if any, with NV for a signalling one (R168). -/
def Fmt.nanOf (F : Fmt) (xs : List Nat) : Option (Nat × Word) :=
  (xs.find? F.isNaN).map fun x => (F.quiet x, flagIf (xs.any F.isSNaN) flNV)

/-- An operation invalid on numbers: the canonical NaN and NV. -/
def Fmt.invalid (F : Fmt) : Nat × Word := (F.canon, flNV)

/-- Deliver an exact value, invalid where it is no number. -/
def Fmt.deliver (F : Fmt) (r : Round) (x : Num) : Nat × Word := if x = .nan then F.invalid else F.round r false x

def Fmt.add (F : Fmt) (r : Round) (a b : Nat) : Nat × Word :=
  match F.nanOf [a, b] with
  | some x => x
  | none => F.deliver r (Num.sum (decide (r = .rd)) [F.num a, F.num b])

def Fmt.sub (F : Fmt) (r : Round) (a b : Nat) : Nat × Word :=
  match F.nanOf [a, b] with
  | some x => x
  | none => F.deliver r (Num.sum (decide (r = .rd)) [F.num a, (F.num b).negate])

def Fmt.mul (F : Fmt) (r : Round) (a b : Nat) : Nat × Word :=
  match F.nanOf [a, b] with
  | some x => x
  | none => F.deliver r ((F.num a).mul (F.num b))

/-- a * b + c with one rounding; 0 times infinity sets NV even where c is the NaN returned (R168). -/
def Fmt.fma (F : Fmt) (r : Round) (a b c : Nat) : Nat × Word :=
  match F.nanOf [a, b, c] with
  | some (x, fl) => (x, fl ||| flagIf (!F.isNaN a && !F.isNaN b && decide ((F.num a).mul (F.num b) = .nan)) flNV)
  | none => F.deliver r (Num.sum (decide (r = .rd)) [(F.num a).mul (F.num b), F.num c])

/-- A quotient of naturals to p bits at least, with a sticky bit below: mantissa and exponent. -/
def quotient (p n d : Nat) : Nat × Int :=
  let k := p + d.log2 + 2
  let q := n * 2 ^ k / d
  (2 * q + (if n * 2 ^ k % d = 0 then 0 else 1), -(k : Int) - 1)

def Fmt.divNum (F : Fmt) (r : Round) (x y : Num) : Nat × Word :=
  match x, y with
  | .fin s n e, .fin t d c =>
    if d = 0 then (if n = 0 then F.invalid else (F.sign (Bool.xor s t) + F.infBits, flDZ))
    else
      let (q, k) := quotient (F.m + 4) n d
      F.roundFin r false (Bool.xor s t) q (e - c + k)
  | .inf s, .fin t _ _ => (F.sign (Bool.xor s t) + F.infBits, 0)
  | .fin s _ _, .inf t => (F.sign (Bool.xor s t), 0)
  | _, _ => F.invalid

def Fmt.div (F : Fmt) (r : Round) (a b : Nat) : Nat × Word :=
  match F.nanOf [a, b] with
  | some x => x
  | none => F.divNum r (F.num a) (F.num b)

/-- The integer square root, by trial of each bit from bit k down. -/
def isqrtGo (n : Nat) : Nat → Nat → Nat
  | 0, r => if (r + 1) * (r + 1) ≤ n then r + 1 else r
  | k + 1, r =>
    let t := r + 2 ^ (k + 1)
    isqrtGo n k (if t * t ≤ n then t else r)

def isqrt (n : Nat) : Nat := isqrtGo n (n.log2 / 2 + 1) 0

/-- A square root of n * 2^e to p bits at least, with a sticky bit below. -/
def sqrtDyadic (p n : Nat) (e : Int) : Nat × Int :=
  let j : Nat := if e % 2 = 0 then 2 * p else 2 * p + 1
  let n' := n * 2 ^ j
  let q := isqrt n'
  (2 * q + (if q * q = n' then 0 else 1), (e - j) / 2 - 1)

def Fmt.sqrt (F : Fmt) (r : Round) (a : Nat) : Nat × Word :=
  match F.nanOf [a] with
  | some x => x
  | none =>
    match F.num a with
    | .inf s => if s then F.invalid else (F.infBits, 0)
    | .fin s n e =>
      if n = 0 then (a, 0)
      else if s then F.invalid
      else
        let (q, k) := sqrtDyadic (F.m + 4) n e
        F.roundFin r false false q k
    | .nan => F.invalid

/-- 1 / a, rounded to nearest even (16 R386). -/
def Fmt.recip (F : Fmt) (a : Nat) : Nat × Word :=
  match F.nanOf [a] with
  | some x => x
  | none => F.divNum .rne (.fin false 1 0) (F.num a)

/-- 1 / sqrt(a) (16 R386). -/
def Fmt.rsqrt (F : Fmt) (a : Nat) : Nat × Word :=
  match F.nanOf [a] with
  | some x => x
  | none =>
    match F.num a with
    | .inf s => if s then F.invalid else (0, 0)
    | .fin s n e =>
      if n = 0 then (F.sign s + F.infBits, flDZ)
      else if s then F.invalid
      else
        -- with n * 2^e = n' * 2^(2h): the root of 2^(2K) / n' over 2^(K + h)
        let n' := if e % 2 = 0 then n else 2 * n
        let h := (if e % 2 = 0 then e else e - 1) / 2
        let K := F.m + 4 + n'.log2
        let q := isqrt (2 ^ (2 * K) / n')
        F.roundFin .rne false false (2 * q + (if q * q * n' = 2 ^ (2 * K) then 0 else 1)) (-(K : Int) - h - 1)
    | .nan => F.invalid

/-- Round to an integral value (16 R389). -/
def Fmt.rint (F : Fmt) (r : Round) (a : Nat) : Nat × Word :=
  match F.nanOf [a] with
  | some x => x
  | none =>
    match F.num a with
    | .fin s n e =>
      let (k, inx) := roundAt r s n e
      ((F.roundFin r false s k 0).1, flagIf inx flNX)
    | _ => (a, 0)

/-- a * 2^b (16 R390); a shift beyond every exponent of the format acts as one of 1000. -/
def Fmt.scale (F : Fmt) (r : Round) (a : Nat) (b : Int) : Nat × Word :=
  match F.nanOf [a] with
  | some x => x
  | none =>
    match F.num a with
    | .fin s n e => F.roundFin r false s n (e + clampTo (-1000) 1000 b)
    | _ => (a, 0)

/-! ### Compare, minimum, maximum, class (R170, 16 R388) -/

def Fmt.cmp (F : Fmt) (c : ClsFc) (a b : Nat) : Bool × Word :=
  let un := F.isNaN a || F.isNaN b
  let sn := F.isSNaN a || F.isSNaN b
  let o := (F.num a).cmp (F.num b)
  match c with
  | .eq => (!un && decide (o = .eq), flagIf sn flNV)
  | .ne => (un || decide (o ≠ .eq), flagIf sn flNV)
  | .lt => (!un && decide (o = .lt), flagIf un flNV)
  | .le => (!un && decide (o ≠ .gt), flagIf un flNV)
  | .gt => (!un && decide (o = .gt), flagIf un flNV)
  | .ge => (!un && decide (o ≠ .lt), flagIf un flNV)
  | .num => (!un, flagIf sn flNV)
  | .nan => (un, flagIf sn flNV)

/-- a is less than b, with −0 less than +0. -/
def Fmt.less (F : Fmt) (a b : Nat) : Bool :=
  match (F.num a).cmp (F.num b) with
  | .lt => true
  | .eq => F.neg a && !F.neg b
  | .gt => false

def Fmt.minmax (F : Fmt) (isMax : Bool) (a b : Nat) : Nat × Word :=
  let fl := flagIf (F.isSNaN a || F.isSNaN b) flNV
  let v :=
    if F.isNaN a then (if F.isNaN b then F.canon else b)
    else if F.isNaN b then a
    else if isMax then (if F.less a b then b else a)
    else (if F.less b a then b else a)
  (v, fl)

def Fmt.classOf (F : Fmt) (a : Nat) : Nat :=
  let s := F.neg a
  if F.isNaN a then (if F.isSNaN a then 1 else 2)
  else if F.isInf a then (if s then 4 else 512)
  else if F.isZero a then (if s then 32 else 64)
  else if F.mag a < 2 ^ F.m then (if s then 16 else 128)
  else (if s then 8 else 256)

/-! ### Conversion (R169, 16 R395) -/

/-- A NaN of one format as a NaN of another (R169, R485). -/
def nanConvert (F G : Fmt) (x : Nat) : Nat × Word :=
  let fl := flagIf (F.isSNaN x) flNV
  match G.kind with
  | .e2m1 => (0, flNV)
  | .e4m3 => (G.sign (F.neg x) + 0x7F, fl)
  | .ieee =>
    let f := F.mag x % 2 ^ F.m
    let g := if F.m ≤ G.m then f * 2 ^ (G.m - F.m) else f / 2 ^ (F.m - G.m)
    (G.sign (F.neg x) + G.infBits + (if g < 2 ^ (G.m - 1) then g + 2 ^ (G.m - 1) else g), fl)

/-- Float to float. Between two equal types the value is unchanged but for a NaN made quiet. -/
def convert (F G : Fmt) (r : Round) (sat : Bool) (x : Nat) : Nat × Word :=
  if F.isNaN x then nanConvert F G x else if F = G then (x, 0) else G.round r sat (F.num x)

/-- An integer in a format. -/
def numOfInt (v : Int) : Num := .fin (decide (v < 0)) v.natAbs 0

/-- Float to integer in a range (R169). -/
def toInteger (F : Fmt) (r : Round) (lo hi : Int) (x : Nat) : Int × Word :=
  match F.num x with
  | .nan => (0, flNV)
  | .inf s => (if s then lo else hi, flNV)
  | .fin s n e =>
    let (k, inx) := roundAt r s n e
    let y : Int := if s then -(k : Int) else k
    let z := clampTo lo hi y
    (z, if z ≠ y then flNV ||| flagIf inx flNX else flagIf inx flNX)

/-! ### Sums of products (R178, R399, 16 R405 to R407) -/

/-- An exact dot of two lists of values, as terms. -/
def products (xs ys : List Num) : List Num := (xs.zip ys).map fun p => p.1.mul p.2

/-- acc + s with one rounding in .f32 (R178): acc as a pattern, s exact; a chunk that is no number gives the canonical NaN. -/
def addChunk (acc : Nat) (s : Num) : Nat :=
  if s = .nan then fF32.canon
  else if fF32.isNaN acc then fF32.quiet acc
  else (fF32.round .rne false (Num.sum false [fF32.num acc, s])).1

/-- One single-precision addition as atomics, collision rules and copies make it (R180). -/
def addF32 (a b : Word) : Word := BitVec.ofNat 32 (fF32.add .rne a.toNat b.toNat).1

/-! ### Transcendentals (16 R387): fixed point with guard bits far beyond the format -/

/-- Fraction bits of the fixed point. -/
def fxP : Nat := 384

/-- The series of atan(1/k), alternating or not (then atanh), in fixed point. -/
def atanSeries (alt : Bool) (k : Nat) : Nat → Nat → Nat → Int → Int
  | 0, _, _, acc => acc
  | fuel + 1, t, j, acc =>
    let term : Int := (t / (2 * j + 1) : Nat)
    atanSeries alt k fuel (t / (k * k)) (j + 1) (if alt ∧ j % 2 = 1 then acc - term else acc + term)

def fxAtanInv (alt : Bool) (k : Nat) : Int := atanSeries alt k 260 (2 ^ fxP / k) 0 0

/-- pi and ln 2 in fixed point. -/
def fxPi : Nat := (16 * fxAtanInv true 5 - 4 * fxAtanInv true 239).toNat
def fxLn2 : Nat := (2 * fxAtanInv false 3).toNat

def fxMul (a b : Nat) : Nat := a * b / 2 ^ fxP

/-- Sum of x^k / k! over k = k0, k0 + step, ..., with or without alternating signs, from a first term. -/
def fxSeries (alt : Bool) (x step : Nat) : Nat → Nat → Nat → Bool → Int → Int
  | 0, _, _, _, acc => acc
  | fuel + 1, t, k, sub, acc =>
    let acc' : Int := if sub then acc - t else acc + t
    let t' := (List.range step).foldl (fun t i => fxMul t x / (k + 1 + i)) t
    fxSeries alt x step fuel t' (k + step) (alt && !sub) acc'

def fxExp (x : Nat) : Nat := (fxSeries false x 1 90 (2 ^ fxP) 0 false 0).toNat
def fxSin (x : Nat) : Nat := (fxSeries true x 2 50 x 1 false 0).toNat
def fxCos (x : Nat) : Nat := (fxSeries true x 2 50 (2 ^ fxP) 0 false 0).toNat

/-- The bits of log2 of m in [1, 2), by squaring. -/
def fxLog2Go : Nat → Nat → Nat → Nat
  | 0, _, acc => acc
  | k + 1, y, acc =>
    let y2 := fxMul y y
    if 2 ^ (fxP + 1) ≤ y2 then fxLog2Go k (y2 / 2) (2 * acc + 1) else fxLog2Go k y2 (2 * acc)

/-- One of the two values that bracket an inexact result of magnitude n * 2^e, the choice free (R387): NX always, UF below the
smallest normal. -/
def bracket (op : Nat) (a : Word) (neg : Bool) (n : Nat) (e : Int) : Nat × Word :=
  let lo := fF32.mag (fF32.roundFin .rz false false n e).1
  let bits := if Config.upper op a then lo + 1 else lo
  (fF32.sign neg + bits, if bits < 2 ^ 23 then flNX ||| flUF else flNX)

def fex2 (a : Word) : Nat × Word :=
  match fF32.nanOf [a.toNat] with
  | some x => x
  | none =>
    match fF32.num a.toNat with
    | .inf s => if s then (0, 0) else (fF32.infBits, 0)
    | .fin s n e =>
      if n = 0 then (fF32.roundFin .rne false false 1 0)
      else
        -- |a| >= 2^10 is beyond every result
        let big := decide ((10 : Int) ≤ n.log2 + e)
        if big then (if s then bracket 0 a false 1 (-400) else (fF32.infBits, flOF ||| flNX))
        else
          let v : Nat := (Num.fin false n e |>.mant (-fxP)).toNat
          let x : Int := if s then -(v : Int) else v
          let k := x / (2 ^ fxP : Nat)
          let f := (x - k * (2 ^ fxP : Nat)).toNat
          if f = 0 then
            if -149 ≤ k ∧ k ≤ 127 then fF32.roundFin .rne false false 1 k
            else if k < 0 then bracket 0 a false 1 k
            else (fF32.infBits, flOF ||| flNX)
          else if 128 ≤ k then (fF32.infBits, flOF ||| flNX)
          else bracket 0 a false (fxExp (fxMul f fxLn2)) (k - fxP)
    | .nan => fF32.invalid

def flg2 (a : Word) : Nat × Word :=
  match fF32.nanOf [a.toNat] with
  | some x => x
  | none =>
    match fF32.num a.toNat with
    | .inf s => if s then fF32.invalid else (fF32.infBits, 0)
    | .fin s n e =>
      if n = 0 then (fF32.signBit + fF32.infBits, flDZ)
      else if s then fF32.invalid
      else
        let k : Int := n.log2 + e
        if n = 2 ^ n.log2 then fF32.round .rne false (numOfInt k)
        else
          let m := n * 2 ^ (fxP - n.log2)
          let x : Int := k * (2 ^ 150 : Nat) + fxLog2Go 150 m 0
          bracket 1 a (decide (x < 0)) x.natAbs (-150)
    | .nan => fF32.invalid

/-- sin or cos of a, reduced by the exact multiple of pi / 2. -/
def fsin (c : ClsSc) (a : Word) : Nat × Word :=
  match fF32.nanOf [a.toNat] with
  | some x => x
  | none =>
    match fF32.num a.toNat with
    | .inf _ => fF32.invalid
    | .fin s n e =>
      let op := if c = .sin then 2 else 3
      if n = 0 then (match c with | .sin => (a.toNat, 0) | .cos => (0x3F800000, 0))
      else if (n.log2 : Int) + e < -30 then
        -- sin a lies just below a, cos a just below 1
        match c with
        | .sin => bracket op a s (2 * n - 1) (e - 1)
        | .cos => bracket op a false (2 ^ 60 - 1) (-60)
      else
        let v : Nat := (Num.fin false n e |>.mant (-fxP)).toNat
        let half := fxPi / 2
        let q := v / half
        let x := v - q * half
        -- the quadrant, and the sign of sin for a negative a
        let useSin := decide ((q % 2 = 0) = (c = .sin))
        let neg := match c with
          | .sin => Bool.xor s (decide (q % 4 = 2 ∨ q % 4 = 3))
          | .cos => decide (q % 4 = 1 ∨ q % 4 = 2)
        bracket op a neg (if useSin then fxSin x else fxCos x) (-fxP)
    | .nan => fF32.invalid

end Sys2Proof.Machine
end

