-- ==== Sys2Proof/Machine/Stack.lean ====
section
/-!
DEFINITION. The split stack and the choice of the next block (07 R149 to R155), and the kills a warp takes at its boundary (R152).
-/
namespace Sys2Proof.Machine

def endHandle : Word := 0x7FFFFFFF

/-! ### The split stack (R149) -/

def Warp.count (w : Warp) : Nat := wbits w.ssp 4 0
def Warp.spilled (w : Warp) : Nat := wbits w.ssp 31 16
def Warp.setCount (w : Warp) (n : Nat) : Warp := { w with ssp := BitVec.ofNat 32 (w.spilled * 2 ^ 16 + n) }
def Warp.winHandle (w : Warp) (k : Nat) : Word := sreg w (352 + 2 * k)
def Warp.winMask (w : Warp) (k : Nat) : Mask := sreg w (353 + 2 * k)

/-- Push an entry; the caller has checked for room. The words written are clean (18 R440). -/
def Warp.push (w : Warp) (h : Word) (m : Mask) : Warp :=
  let k := w.count
  let w := (setS (setS w (352 + 2 * k) h) (353 + 2 * k) m).setCount (k + 1)
  { w with spois := w.spois.filter fun r => r ≠ 352 + 2 * k ∧ r ≠ 353 + 2 * k }

/-- Push a pending entry. A handle found with bit 31 set is held without it, for the entry would read as a JOIN entry, and marked by its
lanes, which no other pending entry holds, wherever a handler moves it: the map of the target still raises ILLEGAL (02 R29, log 87). -/
def Warp.pushPending (w : Warp) (h : Word) (m : Mask) : Warp :=
  let w := w.push (h &&& 0x7FFFFFFF) m
  if h.getLsbD 31 then { w with oddPend := (h &&& 0x7FFFFFFF, m) :: w.oddPend } else w

/-- The entry is one that was pushed for a handle with bit 31 set, with those of its lanes that still live. -/
def oddEntry (h : Word) (m : Mask) (e : Word × Mask) : Bool := decide (e.1 = h &&& 0x7FFFFFFF) && decide (m ≠ 0) && decide (m &&& ~~~e.2 = 0)
def Warp.isOdd (w : Warp) (h : Word) (m : Mask) : Bool := w.oddPend.any (oddEntry h m)

/-- The handle that an entry taken off the stack leads to: the scalar's own, bit 31 and all, of an odd one. -/
def Warp.entryHandle (w : Warp) (h : Word) (m : Mask) : Word := if w.isOdd h m then h ||| 0x80000000 else h &&& 0x7FFFFFFF

/-- The top entry, or none where the window is empty. -/
def Warp.top (w : Warp) : Option (Word × Mask) :=
  if w.count = 0 then none else some (w.winHandle (w.count - 1), w.winMask (w.count - 1))

/-- The top entry is removed; the mark of one that spop takes stays, for a handler may push it again. -/
def Warp.drop (w : Warp) : Warp := w.setCount (w.count - 1)

/-- The top entry is taken to be entered or passed over: removed, with its mark. -/
def Warp.pop (w : Warp) : Warp :=
  match w.top with
  | some (h, m) => { w with oddPend := w.oddPend.filter fun e => !oddEntry h m e }.drop
  | none => w

/-- Lanes end or are killed: added to DEADM and cleared from every window entry (R150, R152). -/
def Warp.killLanes (w : Warp) (m : Mask) : Warp :=
  let w := { w with deadm := w.deadm ||| m }
  (List.range w.count).foldl (fun w k => setS w (353 + 2 * k) (w.winMask k &&& ~~~m)) w

/-- The handle of the topmost JOIN entry in the window, searched from entry k - 1 down (R151). -/
def Warp.topJoin (w : Warp) : Nat → Option Word
  | 0 => none
  | k + 1 =>
    if (w.winHandle k).getLsbD 31 && !w.isOdd (w.winHandle k) (w.winMask k) then some (w.winHandle k &&& 0x7FFFFFFF) else w.topJoin k

/-- Where arrive and resume end: a block entered, the warp ended, or a trap. -/
inductive Chosen where
  | enter (w : Warp) (h : Word) (m : Mask)
  | ended (w : Warp)
  | trap (c : TrapCode)
deriving DecidableEq, Repr

mutual
/-- resume (R151), with fuel for the entries it may pop. -/
def Warp.resume (w : Warp) : Nat → Chosen
  | 0 => .ended w
  | fuel + 1 =>
    match w.top with
    | none => if w.spilled > 0 then .trap .splitFill else .ended w
    | some (h, m) =>
      let m := m &&& ~~~w.deadm
      if m = 0 then w.drop.resume fuel
      else w.pop.arrive (w.entryHandle h m) m fuel

/-- arrive (R151): a warp never enters a JOIN handle while that entry is on the stack. -/
def Warp.arrive (w : Warp) (h : Word) (m : Mask) : Nat → Chosen
  | 0 => .enter w h m
  | fuel + 1 =>
    if w.count = 0 ∧ w.spilled > 0 then .trap .splitFill
    else if w.topJoin w.count = some h then w.resume fuel
    else .enter w h m
end

/-- Fuel enough for a window of 16 entries. -/
def stackFuel : Nat := 40

/-- Push the JOIN entry and the pending entries of a split, highest exit first (R150). -/
def Warp.pushSplit (w : Warp) (join : Word) (live : List (Word × Mask)) : Warp :=
  let union := live.foldl (fun u p => u ||| p.2) 0
  let w := w.push (join ||| 0x80000000) union
  live.tail.reverse.foldl (fun w p => w.pushPending p.1 p.2) w

/-- The lanes that end, and the live exits lowest first; lanes that DEADM holds have left every mask (R152, 15 R379). -/
def splitVotes (w : Warp) (r : Redo) : Mask × List (Word × Mask) :=
  let es := ((r.votes.map (· &&& ~~~w.deadm)).zip (r.targets.zip r.ends)).filter fun e => e.1 ≠ 0
  ((es.filter fun e => e.2.2).foldl (fun d e => d ||| e.1) 0, (es.filter fun e => !e.2.2).map fun e => (e.2.1, e.1))

/-- Step 5 of commit outside trap handlers (R150). A trap is answered with nothing of it done (R153). -/
def Warp.stepFive (w : Warp) (r : Redo) : Chosen :=
  let (dead, live) := splitVotes w r
  match live with
  | [] => (w.killLanes dead).resume stackFuel
  | [(h, m)] => (w.killLanes dead).arrive h m stackFuel
  | (h, m) :: _ =>
    if w.count + live.length > 16 then .trap .splitSpill
    else ((w.killLanes dead).pushSplit r.join live).arrive h m stackFuel

/-- The push of spush, between steps 4 and 5 (R155); none where it finds no room. -/
def Warp.pushDue (w : Warp) (r : Redo) : Option (Warp × Redo) :=
  match r.push with
  | some (h, m) => if w.count = 16 then none else some (w.push h (m &&& ~~~w.deadm), { r with push := none })
  | none => some (w, r)

/-- The warp enters a block next. -/
def Warp.next (w : Warp) (h : Word) (m : Mask) : Warp :=
  { w with handle := h, mask := m, image := none, matched := false, fijTaken := false, prefetched := none }

/-! ### Kills (R152) -/

/-- The redo that only resumes (R151): what remains where every lane of the next mask is dead. -/
def Redo.resume : Redo := ⟨[0, 0, 0, 0], [0, 0, 0, 0], [false, false, false, false], 0, none⟩

/-- The warp as step 5 leaves it: entered, ended, or with the redo due (R150 to R153). Within a trap the redo it took stays due. -/
def applyChosen (s : State) (wid : Nat) (w : Warp) (r : Redo) : Chosen → State
  | .enter w' h m => setWarp s wid { w'.next h m with redo := if w'.trap.isSome then w'.redo else none }
  | .ended w' => endWarp (setWarp s wid { w' with redo := none }) wid
  | .trap _ => setWarp s wid { w with redo := some r }

/-- Choosing the next block takes a poisoned entry off the stack (18 R440). -/
def poppedPoison (w : Warp) : Chosen → Bool
  | .enter w' _ _ | .ended w' =>
    (List.range w.count).any fun k => decide (w'.count ≤ k) && (w.spois.contains (352 + 2 * k) || w.spois.contains (353 + 2 * k))
  | .trap _ => false

/-- The warp takes what was chosen at its boundary, where no block runs: a poisoned entry it takes off the stack is POISON there (log 112). -/
def applyAtBoundary (s : State) (wid : Nat) (w : Warp) (r : Redo) (c : Chosen) : State :=
  if poppedPoison w c then fatalGroup (setWarp s wid w) wid w Code.poison ((w.handle &&& 0x7FFFFFFF).setWidth 64) 0 else applyChosen s wid w r c

/-- Kills asked for while a block ran, made at the warp's boundary (R152). A mask they empty is resumed from there: by the redo, if one
is due. -/
def applyKills (s : State) (wid : Nat) : State :=
  match getWarp s wid with
  | none => s
  | some w =>
    if w.killDue = 0 ∨ warpSaved s w then s
    else
      let w := { w.killLanes w.killDue with killDue := 0 }
      let w := { w with mask := w.mask &&& ~~~w.deadm }
      if w.mask ≠ 0 ∨ w.redo.isSome ∨ w.trap.isSome then setWarp s wid w
      else applyAtBoundary s wid w Redo.resume (w.resume stackFuel)

end Sys2Proof.Machine
end

