-- ==== Sys2Proof/Machine/Page.lean ====
section
/-!
DEFINITION. Translation (12): page-table entries and walks (R254 to R257), rights (R256), translation caches (R259, R260), the fault
queue and its records (R261 to R264), shootdown (R268), and the meaning of WALK_COMPLETE.
-/
namespace Sys2Proof.Machine

/-- Access bits of a fault record (R262): fetch, atomic, write, read. -/
abbrev Acc := BitVec 4
def accRead : Acc := 1
def accWrite : Acc := 2
def accAtomic : Acc := 4
def accFetch : Acc := 8

/-! ### Entries (R255) -/

def pte (e : DWord) (hi lo : Nat) : Nat := bitsOf e.toNat hi lo
def pteAddr (e : DWord) : Nat := pte e 51 16 * 2 ^ 16
def pteValid (e : DWord) : Bool := e.getLsbD 0
def pteLeaf (e : DWord) : Bool := e.getLsbD 11
def pteSizeCode (e : DWord) : Nat := pte e 10 9
def pteHome (e : DWord) : Nat := pte e 8 7
def ptePlace (e : DWord) : Bool := e.getLsbD 6
def pteX (e : DWord) : Bool := e.getLsbD 3
def pteW (e : DWord) : Bool := e.getLsbD 2
def pteR (e : DWord) : Bool := e.getLsbD 1

def pteClass (e : DWord) : PageClass :=
  match pte e 5 4 with
  | 1 => .S | 2 => .U | _ => .C

def pageBytes (code : Nat) : Nat :=
  match code with
  | 0 => 2 ^ 16 | 1 => 2 ^ 21 | _ => 2 ^ 30

/-- Index of a virtual address at a level (R254). -/
def vaIndex (va level : Nat) : Nat :=
  match level with
  | 0 => bitsOf va 51 40 | 1 => bitsOf va 39 28 | _ => bitsOf va 27 16

/-- The place and home of a leaf agree with the window of its address (R256): die-local pages name their die's window, spread ones the
spread or the host window. An address in no window is left to the range check. -/
def placeAgrees (s : State) (e : DWord) : Bool :=
  match windowOf s (pteAddr e) with
  | some (.die d) => ptePlace e && decide (pteHome e = d)
  | some .spread => !ptePlace e
  | some .host => !ptePlace e
  | none => true

/-- The code of the first case of R256 that the entry meets at this level, if any. -/
def pteFault (s : State) (level : Nat) (e : DWord) : Option Nat :=
  if !pteValid e then some Code.pageFault
  else if (decide (level = 0) && pteLeaf e) || (decide (level = 2) && !pteLeaf e) then some Code.pteFormat
  else if pteLeaf e ∧ ((level = 1 ∧ pteSizeCode e ≠ 2) ∨ (level = 2 ∧ pteSizeCode e ≠ 0 ∧ pteSizeCode e ≠ 1)) then some Code.pteFormat
  else if pte e 15 12 ≠ 0 ∨ (!pteLeaf e ∧ pte e 10 1 ≠ 0) then some Code.pteFormat
  else if pteLeaf e ∧ (pte e 5 4 = 3 ∨ pteSizeCode e = 3 ∨ (!ptePlace e ∧ pteHome e ≠ 0)) then some Code.pteFormat
  else if pteLeaf e ∧ pteW e ∧ pteX e then some Code.pteFormat
  else if pteLeaf e ∧ pteAddr e % pageBytes (pteSizeCode e) ≠ 0 then some Code.pteFormat
  else if pteLeaf e ∧ !placeAgrees s e then some Code.pteFormat
  else if pteLeaf e ∧ pteClass e = .S ∧ windowOf s (pteAddr e) = some .host then some Code.pteFormat
  else if !inOneWindow s (pteAddr e) (if pteLeaf e then pageBytes (pteSizeCode e) else 32768) then some Code.pageRange
  else none

/-! ### Walks -/

/-- Outcome of a walk: a leaf with its level, a fault, or a context fault: a table entry behind a down die link (14 R318), or one that an
uncorrectable error has hit (03 R62). -/
inductive Walk where
  | leaf (e : DWord) (level : Nat)
  | bad (code level : Nat) (e : DWord)
  | cut
deriving DecidableEq, Repr

/-- The level-0 or level-1 entry the walk cache holds for an address, while it holds it (R259). -/
def walkCached (s : State) (ctx va level : Nat) : Option DWord :=
  (s.tlb.walkc.find? fun x => decide (x.1 = ctx) && decide (x.2.1 = level) && decide (x.2.2.1 = va / 2 ^ (40 - 12 * level))
    && Config.holds s.tick (va / 2 ^ (40 - 12 * level))).map (·.2.2.2)

/-- Walk from the table at `table` (R254 to R256); at most three levels. -/
def walkFrom (s : State) (ctx va : Nat) : Nat → Nat → Nat → Walk
  | 0, _, _ => .cut
  | fuel + 1, level, table =>
    let a := table + 8 * vaIndex va level
    let e? := match walkCached s ctx va level with
      | some e => some e
      | none => if reaches s none a && !poisonedAt s a 8 then some (hubDWord s a) else none
    match e? with
    | none => .cut
    | some e =>
      match pteFault s level e with
      | some c => .bad c level e
      | none => if pteLeaf e then .leaf e level else walkFrom s ctx va fuel (level + 1) (pteAddr e)

def walk (s : State) (ctx : Nat) (c : Context) (va : Nat) : Walk := walkFrom s ctx va 3 0 c.desc.ptroot

/-- The addresses of the entries that a walk reads in memory, those it finds in the walk cache left out. -/
def walkReadsFrom (s : State) (ctx va : Nat) : Nat → Nat → Nat → List Nat
  | 0, _, _ => []
  | fuel + 1, level, table =>
    let a := table + 8 * vaIndex va level
    let go (e : DWord) : List Nat :=
      if pteFault s level e = none ∧ !pteLeaf e then walkReadsFrom s ctx va fuel (level + 1) (pteAddr e) else []
    match walkCached s ctx va level with
    | some e => go e
    | none => a :: go (hubDWord s a)

def walkReads (s : State) (ctx va : Nat) : List Nat :=
  match getCtx s ctx with | some c => walkReadsFrom s ctx va 3 0 c.desc.ptroot | none => []

/-- The bytes a walk reads are charged to its context (03 R58). -/
def chargeWalk (s : State) (ctx va : Nat) : State := (walkReads s ctx va).foldl (fun s a => hubUse s ctx a 8) s

/-- A walk reads an entry across a retraining link. -/
def walkHeld (s : State) (ctx va : Nat) : Bool := (walkReads s ctx va).any (crossesHeld s none)

/-- The pointer entries a walk passes, kept in the walk cache; only entries a walk could use are kept, and no leaf (R259). -/
def fillWalkCache (s : State) (ctx : Nat) (c : Context) (va : Nat) : State :=
  let a0 := c.desc.ptroot + 8 * vaIndex va 0
  let e0 := hubDWord s a0
  if reaches s none a0 ∧ pteFault s 0 e0 = none then
    let e1 := hubDWord s (pteAddr e0 + 8 * vaIndex va 1)
    let new := (ctx, 0, va / 2 ^ 40, e0) ::
      (if reaches s none (pteAddr e0) ∧ pteFault s 1 e1 = none ∧ !pteLeaf e1 then [(ctx, 1, va / 2 ^ 28, e1)] else [])
    let keep := s.tlb.walkc.filter fun x => !(decide (x.1 = ctx) && (new.any fun y => y.2.1 = x.2.1 ∧ y.2.2.1 = x.2.2.1))
    { s with tlb := { s.tlb with walkc := (new ++ keep).take 1024 } }
  else s

/-- The rights an access needs and the code where the leaf lacks them (R256). -/
def rightsFault (e : DWord) (a : Acc) : Option Nat :=
  if a.getLsbD 3 then (if pteX e then none else some Code.instPerm)
  else if a.getLsbD 2 then (if pteR e && pteW e then none else some Code.pagePerm)
  else if a.getLsbD 1 && !pteW e then some Code.pagePerm
  else if a.getLsbD 0 && !pteR e then some Code.pagePerm
  else none

/-- Outcome of a translation made at once, with the leaf and the level at which the walk ended (0xF where a cached entry was used). -/
inductive Xlate where
  | ok (pa : Nat) (cls : PageClass) (e : DWord) (level : Nat)
  | bad (f : XFault)
  | cut
deriving DecidableEq, Repr

def leafPa (e : DWord) (va : Nat) : Nat := pteAddr e + va % pageBytes (pteSizeCode e)

/-- Translate at the hub, by a walk: for the hub's own accesses and the operations it makes for a warp. -/
def hubXlate (s : State) (ctx va : Nat) (a : Acc) : Xlate :=
  match getCtx s ctx with
  | none => .cut
  | some c =>
    match walk s ctx c va with
    | .cut => .cut
    | .bad code level e => .bad ⟨code, a, level, e, va⟩
    | .leaf e level =>
      match rightsFault e a with
      | some code => .bad ⟨code, a, level, e, va⟩
      | none => .ok (leafPa e va) (pteClass e) e level

/-- The page's walk is outstanding: a later miss waits on it (R260). -/
def walkOut (s : State) (ctx va : Nat) : Bool := s.tlb.walks.any fun r => decide (r.ctx = ctx) && decide (r.page = va / 65536)

/-- An access of the hub to n bytes of a context waits: the page's walk is outstanding (R260), or its own walk or its bytes lie across a
retraining link (14 R313, R315). -/
def hubHeld (s : State) (ctx va : Nat) : Bool :=
  walkOut s ctx va || walkHeld s ctx va || (match hubXlate s ctx va accRead with | .ok pa _ _ _ => crossesHeld s none pa | _ => false)

/-- Some die link is retraining: a transfer of records, which lie on every stack, waits (14 R313, R315). -/
def anyHeld (s : State) : Bool := (List.range 4).any (linkHeld s)

/-! ### Translation caches (R259, R260) -/

def TlbEntry.covers (t : TlbEntry) (holder ctx va : Nat) : Bool :=
  decide (t.holder = holder) && decide (t.ctx = ctx) && decide (t.base ≤ va) && decide (va < t.base + t.size)

/-- The leaf a die's TLB holds for an address, while it holds it. -/
def dieLeaf (s : State) (die ctx va : Nat) : Option DWord :=
  (s.tlb.die.find? fun t => t.covers die ctx va && Config.holds (s.tick + 1) (va / 65536)).map (·.entry)

/-- The leaf a core's TLB, or its die's, holds for an address, while it holds it. -/
def tlbLeaf (s : State) (core ctx va : Nat) : Option DWord :=
  match s.tlb.core.find? fun t => t.covers core ctx va && Config.holds s.tick (va / 65536) with
  | some t => some t.entry
  | none => dieLeaf s (core / 64) ctx va

/-- Fill a translation into one cache of at most `cap` entries for the holder. -/
def tlbFill (l : List TlbEntry) (t : TlbEntry) (cap : Nat) : List TlbEntry :=
  let mine := l.filter fun x => decide (x.holder = t.holder) && !(decide (x.ctx = t.ctx) && decide (x.base = t.base))
  let others := l.filter fun x => decide (x.holder ≠ t.holder)
  t :: mine.take (cap - 1) ++ others

def tlbInsert (s : State) (core ctx va : Nat) (e : DWord) : State :=
  let size := pageBytes (pteSizeCode e)
  let base := va / size * size
  { s with tlb := { s.tlb with
      core := tlbFill s.tlb.core ⟨core, ctx, base, size, e⟩ 256
      die := tlbFill s.tlb.die ⟨core / 64, ctx, base, size, e⟩ 8192 } }

/-- Fill a die's TLB alone. -/
def dieInsert (s : State) (die ctx va : Nat) (e : DWord) : State :=
  let size := pageBytes (pteSizeCode e)
  { s with tlb := { s.tlb with die := tlbFill s.tlb.die ⟨die, ctx, va / size * size, size, e⟩ 8192 } }

/-- A fault of an engine of a die removes the entry it used from the die's TLB (R259). -/
def dieDrop (s : State) (die ctx va : Nat) : State :=
  { s with tlb := { s.tlb with die := s.tlb.die.filter fun t => !t.covers die ctx va } }

/-- A fault removes the entry it used from the core's TLB and its die's (R259). -/
def tlbDrop (s : State) (core ctx va : Nat) : State :=
  { s with tlb := { s.tlb with
      core := s.tlb.core.filter fun t => !t.covers core ctx va
      die := s.tlb.die.filter fun t => !t.covers (core / 64) ctx va } }

/-- An instruction's translation on its core: a cached leaf is used at once and its rights checked (level 0xF of R262), a miss must
wait for a walk. -/
inductive CoreXlate where
  | hit (pa : Nat) (cls : PageClass)
  | miss
  | bad (f : XFault)
deriving DecidableEq, Repr

def coreXlate (s : State) (core ctx va : Nat) (a : Acc) : CoreXlate :=
  match tlbLeaf s core ctx va with
  | none => .miss
  | some e =>
    match rightsFault e a with
    | some code => .bad ⟨code, a, 0xF, e, va⟩
    | none => .hit (leafPa e va) (pteClass e)

/-- A requester waits on the walk of a page that is outstanding: a core's instruction or fetch, or an agent of a die (R260). -/
def joinWalk (s : State) (core : Option Nat) (die ctx va : Nat) : State :=
  let add (r : WalkReq) : WalkReq :=
    if r.ctx = ctx ∧ r.page = va / 65536 then
      (match core with | some k => { r with cores := nins r.cores k } | none => { r with dies := nins r.dies die })
    else r
  { s with tlb := { s.tlb with walks := s.tlb.walks.map add } }

/-- Outcome of a translation for a block fetch, a copy or the fabric: done, a fault, a context fault, waiting on the page's walk or
behind a retraining link, or out of reach across a link that is down (14 R316). -/
inductive AgentX where
  | ok (pa : Nat) (cls : PageClass) (e : DWord)
  | bad (f : XFault)
  | cut
  | wait
  | lost
deriving DecidableEq, Repr

/-- Translate for a block fetch of a core, or for a copy engine or the fabric of a die (no core): by the TLBs that hold its leaf
translations, else by a walk, which fills them (R259). Where the page's walk is outstanding it waits for that one, which fills its TLB too
(R260; after a fault it reads the entries itself, log 36). -/
def agentXlate (s : State) (core : Option Nat) (die ctx va : Nat) (a : Acc) : AgentX × State :=
  match (match core with | some k => tlbLeaf s k ctx va | none => dieLeaf s die ctx va) with
  | some e =>
    match rightsFault e a with
    | some code => (.bad ⟨code, a, 0xF, e, va⟩, match core with | some k => tlbDrop s k ctx va | none => dieDrop s die ctx va)
    | none => (.ok (leafPa e va) (pteClass e) e, s)
  | none =>
    if linkDown s die then (.lost, s)
    else if walkOut s ctx va then (.wait, joinWalk s core die ctx va)
    else if linkHeld s die || walkHeld s ctx va then (.wait, s)
    else
      let t := chargeWalk (match core with | some k => countEvent s (k / 64) ctx 11 1 | none => s) ctx va
      match hubXlate s ctx va a with
      | .cut => (.cut, t)
      | .bad f => (.bad f, t)
      | .ok pa cls e _ => (.ok pa cls e, match core with | some k => tlbInsert t k ctx va e | none => dieInsert t die ctx va e)

/-- An instruction that translates as it fires has to wait: on the page's walk that is outstanding (R260), or behind a retraining link (14
R315). -/
def nowWaits (s : State) (core ctx va : Nat) : Bool :=
  (tlbLeaf s core ctx va).isNone && (walkOut s ctx va || linkHeld s (core / 64) || walkHeld s ctx va)

/-- Translate on a core at once, for cwb and cinv and for what else a core's instruction reads as it fires: by the core's TLB or its die's, else
by a walk, which fills them. -/
def xlateNow (s : State) (core ctx va : Nat) (a : Acc) : Xlate × State :=
  match coreXlate s core ctx va a with
  | .hit pa cls => (.ok pa cls 0 0xF, s)
  | .bad f => (.bad f, s)
  | .miss =>
    let t := chargeWalk (countEvent s (core / 64) ctx 11 1) ctx va
    match hubXlate s ctx va a with
    | .ok pa cls e lv => (.ok pa cls e lv, tlbInsert t core ctx va e)
    | r => (r, t)

/-- Add a core's miss to the page's walk (R260: misses merge). -/
def addWalk (s : State) (core ctx va : Nat) : State :=
  let s := countEvent s (core / 64) ctx 11 1
  let page := va / 65536
  let rec go : List WalkReq → List WalkReq
    | [] => [⟨ctx, page, [core], []⟩]
    | r :: rs => if r.ctx = ctx ∧ r.page = page then { r with cores := nins r.cores core } :: rs else r :: go rs
  { s with tlb := { s.tlb with walks := go s.tlb.walks } }

/-! ### Fault records (R261 to R264) -/

/-- What a record says beyond its translation fault. -/
structure RecWho where
  source : Nat
  kid    : Word
  group  : Word
  handle : Word
  where_ : Word
  object : DWord
deriving DecidableEq, Repr

def recordWords (x : RecWho) (k : Word) (f : XFault) (clk : DWord) : List Word :=
  let what := x.source * 2 ^ 24 + f.access.toNat * 2 ^ 12 + f.level * 2 ^ 8 + f.code
  let va := BitVec.ofNat 64 f.va
  [BitVec.ofNat 32 what, k, lo32 va, hi32 va, lo32 f.entry, hi32 f.entry, x.kid, x.group, x.handle, x.where_,
    lo32 x.object, hi32 x.object, lo32 clk, hi32 clk, 0, 0]

/-- The new fault merges with this open record (R263). -/
def OpenRec.merges (o : OpenRec) (x : RecWho) (f : XFault) : Bool :=
  decide (x.source ≤ 4) && decide (o.source ≤ 4) && decide (o.vaddr / 65536 = f.va / 65536) && decide (o.code = f.code)
    && decide (o.access = f.access)

def addWaiter (os : List OpenRec) (x : RecWho) (f : XFault) (w : Option Waiter) : List OpenRec :=
  match os with
  | [] => []
  | o :: r =>
    if o.merges x f then { o with waiters := o.waiters ++ w.toList } :: r else o :: addWaiter r x f w

/-- The index of the record a fault merges with, if any. -/
def mergeIndex (c : Context) (x : RecWho) (f : XFault) : Option Word := (c.openRecs.find? fun o => o.merges x f).map (·.index)

/-- The bytes of the fault queue that posting record k touches: the header and the record. -/
def fqBytes (fq k : Nat) : List (Nat × Nat) := [(fq, 16), (fq + 64 + 64 * (k % 4096), 64)]

/-- Post a fault record, or merge it with an open one (R261, R263). A full queue is a context fault (03 R62), and so is one of which a byte
needed lies behind a down link; the record not written is counted there (14 R316, R318, R319). Answers the record's index too. -/
def postFault (s : State) (ctx : Nat) (x : RecWho) (f : XFault) (w : Option Waiter) : State × Word :=
  match getCtx s ctx with
  | none => (s, 0)
  | some c =>
    match mergeIndex c x f with
    | some k => (setCtx s ctx { c with openRecs := addWaiter c.openRecs x f w }, k)
    | none =>
      let fq := c.desc.faultq
      match (fqBytes fq c.fqWr.toNat).find? fun b => !hubCan s b.1 b.2 with
      | some b => (contextFault (countLoss s b.1) ctx, 0)
      | none =>
        let rd := hubWord s (fq + 4)
        if 4096 < (c.fqWr + 1 - rd).toNat then (contextFault s ctx, 0)
        else
          let k := c.fqWr
          let o : OpenRec := ⟨k, x.source, f.code, f.access, f.va, x.kid, w.toList⟩
          let s := hubOwedFor (hubUse s ctx fq 16) ctx (fq + 64 + 64 * (k.toNat % 4096)) (bytesOfWords (recordWords x k f s.clk))
          let s := hubOwedFor s ctx fq (leBytes (k + 1).toNat 4)
          let s := hubOwedFor s ctx (fq + 8) (leBytes (c.openRecs.length + 1) 4)
          let s := modCtx s ctx fun c => { c with fqWr := k + 1, openRecs := c.openRecs ++ [o] }
          (raiseVec (countEvent s hubDie ctx 12 1) ctx, k)

/-- No lane of the block to be replayed survives the kills due: the warp resumes instead, and the block is not entered again (07 R152). -/
def killsAll (w : Warp) : Bool :=
  decide (w.killDue ≠ 0) && decide (w.mask &&& ~~~(w.deadm ||| w.killDue) = 0) && w.redo.isNone && w.trap.isNone

/-- A warp's translation fault (07 R131): the block is flushed, the warp takes the kills due at its boundary (R152), enters FAULT_WAIT, and
a record is posted, or merged. A warp that gstop has ended, or that resumes elsewhere, does not wait on the record. On a cut die the group
is halted with LINK_LOST instead (14 R334). -/
def warpFault (s : State) (wid : Nat) (source idx : Nat) (f : XFault) : State :=
  match getWarp s wid with
  | none => s
  | some w =>
    let s := tlbDrop s w.core w.ctx f.va
    let post (s : State) (x : Option Waiter) : State :=
      (postFault s w.ctx ⟨source, kidWord w.kid, rankWord s w.gid, w.handle, whereWord w idx, 0⟩ f x).1
    if linkDown s (w.core / 64) then fatalGroup s wid w Code.linkLost (BitVec.ofNat 64 f.va) idx
    else if w.haltDue then modWarp s wid fun w => w.flush .ready
    else
      let s := if w.frame.isSome then countFlush s w else s
      if groupStopped s w.gid then post (endWarp s wid) none
      else if killsAll w then post (applyKills (setWarp s wid ({ w with image := none }.flush .ready)) wid) none
      else post (applyKills (setWarp s wid { w.flush .faultWait with image := none }) wid) (some (.warp wid idx))

/-- A write or arrival that the hub owes and cannot make is dropped alone, and a record of source 8 is posted (R480). -/
def dropOwed (s : State) (ctx : Nat) (kid : Word) (f : XFault) (object : DWord) : State :=
  (postFault s ctx ⟨8, kid, 0xFFFFFFFF, 0, 0, object⟩ { f with entry := 0 } none).1

/-! ### Shootdown (R268) -/

def inRange (base len va size : Nat) : Bool := decide (va < base + len) && decide (base < va + size)

/-- Remove a context's translations over a range from the walk cache and from the TLBs of the dies a test selects. -/
def shootDies (s : State) (ctx base len : Nat) (on : Nat → Bool) : State :=
  let keep (die : Nat) (t : TlbEntry) : Bool := !on die || !(decide (t.ctx = ctx) && inRange base len t.base t.size)
  { s with tlb := { s.tlb with
      core := s.tlb.core.filter fun t => keep (t.holder / 64) t
      die := s.tlb.die.filter fun t => keep t.holder t
      walkc := s.tlb.walkc.filter fun x =>
        !(decide (x.1 = ctx) && inRange base len (x.2.2.1 * 2 ^ (40 - 12 * x.2.1)) (2 ^ (40 - 12 * x.2.1))) } }

/-- Remove them everywhere but on a die behind a down link, whose TLBs lose theirs when the link next starts (14 R334). -/
def shootdown (s : State) (ctx base len : Nat) : State := shootDies s ctx base len fun d => !linkDown s d

/-! ### WALK_COMPLETE (R260) -/

/-- The access bits of a slot's instruction (R256, R262). -/
def SlotKind.acc : SlotKind → Acc
  | .stG => accWrite
  | .atom | .red | .cas => accAtomic
  | _ => accRead

def SlotKind.isGlobal : SlotKind → Bool
  | .ldG | .ldK | .stG | .atom | .red | .cas => true
  | _ => false

/-- Addresses of an enabled peer aperture behave as U-class whatever their page's class (14 R333). -/
def effClass (s : State) (pa : Nat) (cls : PageClass) : PageClass := if (apertureOf s pa).isSome then .U else cls

/-- The class checks of 09 R185 that follow the rights check: an atomic of device or system scope on an S-class page. -/
def classFault (k : SlotKind) (sc : Scope) (cls : PageClass) : Bool :=
  (decide (k = .atom) || decide (k = .red) || decide (k = .cas)) && decide (cls = .S) && (decide (sc = .device) || decide (sc = .system))

/-- Answer one frame's waiting accesses to a page with a leaf: the physical addresses, or the causes of flush. -/
def answerAcc (s : State) (handle : Word) (e : DWord) (level page : Nat) (x : SlotEntry) (a : LaneAcc) : LaneAcc × List Cause :=
  if a.pa.isSome ∨ a.addr / 65536 ≠ page then (a, [])
  else
    match rightsFault e x.kind.acc with
    | some code => (a, [⟨1, x.idx, code, 0, some ⟨code, x.kind.acc, level, e, a.addr⟩⟩])
    | none =>
      let pa := leafPa e a.addr
      let cls := effClass s pa (pteClass e)
      ({ a with pa := some pa, cls := cls, route := routeOf s pa },
        if classFault x.kind x.scope cls then [⟨3, x.idx, Code.atomicClass, BitVec.ofNat 64 (handle.toNat + x.idx * 2 ^ 32), none⟩] else [])

def answerSlot (s : State) (handle : Word) (e : DWord) (level page : Nat) (x : SlotEntry) : SlotEntry × List Cause :=
  if x.kind.isGlobal then
    let r := x.accs.map (answerAcc s handle e level page x)
    ({ x with accs := r.map (·.1) }, r.flatMap (·.2))
  else (x, [])

def answerFrame (s : State) (e : DWord) (level page : Nat) (f : Frame) : Frame :=
  let r := f.slots.map fun p => let q := answerSlot s f.handle e level page p.2; ((p.1, q.1), q.2)
  { f with slots := r.map (·.1), causes := f.causes ++ r.flatMap (·.2) }

/-- The accesses of a frame that wait on the page, as faults of a code: one for each. -/
def waitingFaults (f : Frame) (page code level : Nat) (e : DWord) : List Cause :=
  f.slots.flatMap fun p =>
    if p.2.kind.isGlobal then
      (p.2.accs.filter fun a => a.pa.isNone && decide (a.addr / 65536 = page)).map fun a =>
        ⟨1, p.2.idx, code, 0, some ⟨code, p.2.kind.acc, level, e, a.addr⟩⟩
    else []

/-- The translation faults of a frame. -/
def Frame.xfaults (f : Frame) : List (Nat × XFault) := f.causes.filterMap fun c => c.xlat.map fun x => (c.idx, x)

/-- Of the translation faults met so far, that of the lowest instruction index, and of its lowest lane (07 R133; log 125). -/
def firstFault : List (Nat × XFault) → Option (Nat × XFault)
  | [] => none
  | x :: r => match firstFault r with | some y => if y.1 < x.1 then some y else some x | none => some x

/-- Flush a warp on the first of its translation faults; every entry that refused an access of the block leaves the TLBs (R259, R263). -/
def flushOnFault (s : State) (wid : Nat) (f : Frame) : State :=
  match firstFault f.xfaults, getWarp s wid with
  | some (i, x), some w => warpFault (f.xfaults.foldl (fun s e => tlbDrop s w.core w.ctx e.2.va) s) wid 0 i x
  | _, _ => s

/-- Pre-empt the warps a test selects (06 R122): of a block that has met a translation fault, the fault's flush comes first, and its warp
waits on the record (R271). -/
def preemptAll (s : State) (p : Nat → Warp → Bool) (f : Warp → Warp) : State :=
  let faulty (w : Warp) : Bool := match w.frame with | some x => !x.stays && !x.xfaults.isEmpty && !w.haltDue | none => false
  let s := (s.warps.filter fun e => p e.1 e.2 && faulty e.2).foldl (fun s e =>
    match e.2.frame with | some x => flushOnFault s e.1 x | none => s) s
  preemptWith s p f

/-- A walk ends for one warp; on a cut die its group takes LINK_LOST (14 R316). -/
def answerWarp (r : Walk) (page : Nat) (s : State) (e : Nat × Warp) : State :=
  match e.2.frame with
  | none => s
  | some f =>
    match (if linkDown s (e.2.core / 64) then (waitingFaults f page 0 0 0).head? else none) with
    | some c => fatalGroup s e.1 e.2 Code.linkLost (BitVec.ofNat 64 (match c.xlat with | some x => x.va | none => 0)) c.idx
    | none =>
    let f' := match r with
      | .leaf e lv => answerFrame s e lv page f
      | .bad code lv e => { f with causes := f.causes ++ waitingFaults f page code lv e }
      | .cut => f
    if f' = f then s
    else
      let s := modWarp s e.1 fun w => { w with frame := some f' }
      if f'.xfaults = [] then s else flushOnFault s e.1 f'

/-- The walks that run at once: the hub's 128 (R259), the oldest first. A later one waits, and no fault is raised; an entry past the 1,024 of a
die's miss table is past them too (R260). -/
def hubWalks : Nat := 128

/-- WALK_COMPLETE: every waiter on the page is answered at once; a walk behind a down link faults the context (14 R318), one across a
retraining link is held. -/
def execWalkComplete (ctx : BitVec 8) (page : Nat) (s : State) : Out :=
  match (s.tlb.walks.take hubWalks).find? fun r => decide (r.ctx = ctx.toNat) && decide (r.page = page), getCtx s ctx.toNat with
  | some r, some c =>
    if walkHeld s r.ctx (page * 65536) || (r.cores.any fun k => linkHeld s (k / 64)) || r.dies.any (linkHeld s) then
      notDue "WALK_COMPLETE"
    else
      let s := { s with tlb := { s.tlb with walks := s.tlb.walks.filter fun x => x ≠ r } }
      let va := page * 65536
      let res := walk s r.ctx c va
      let s := chargeWalk s r.ctx va
      let mine := s.warps.filter fun e => decide (e.2.ctx = r.ctx) && r.cores.contains e.2.core
      let s := match res with
        | .leaf e _ =>
          let s := r.cores.foldl (fun s core => tlbInsert s core r.ctx va e) (fillWalkCache s r.ctx c va)
          r.dies.foldl (fun s die => dieInsert s die r.ctx va e) s
        | .bad .. => s
        | .cut => contextFault s r.ctx
      .next (mine.foldl (answerWarp res page) s)
  | _, _ => notDue "WALK_COMPLETE"

end Sys2Proof.Machine
end

