-- ==== Sys2Proof/Machine/Boundary.lean ====
section
/-!
DEFINITION. A warp at its boundary (07 R149 to R156): the debug stops, traps and kills due there, the group barrier its end may complete,
and the waking of a waiting warp.
-/
namespace Sys2Proof.Machine

/-! ### Debug stops (18 R443, R446) -/

def StopWhy.code : StopWhy → Nat
  | .brk => Code.brk | .step => Code.step | .match_ => Code.match_ | .dstop => Code.dstop

/-- The warp enters stopped: a record of kind 4 and vector 256 (R446). `idx` is the instruction index of brk, `id` the brk id or the
breakpoint entry. -/
def stopWarp (s : State) (wid : Nat) (why : StopWhy) (handle : Word) (idx : Nat) (id : Word) : State :=
  match getWarp s wid with
  | none => s
  | some w =>
    let what := w.ctx * 2 ^ 24 + why.code % 256 * 2 ^ 16 + 4 * 4096
    let s := postEvent s [BitVec.ofNat 32 what, handle, lo32 s.clk, hi32 s.clk, whereWord w idx, kidWord w.kid, id, rankWord s w.gid] 256
    modWarp s wid fun w => { w with state := .stopped, stopDue := none, mode := .run, matched := w.matched || decide (why = .match_) }

/-- The warp's group is being swapped or stands in its records: a debug stop takes effect after it is placed again (06 R123). -/
def stopHeld (s : State) (w : Warp) : Bool :=
  match getGroup s w.gid with | some g => decide (g.state = .swapping) || g.savedAt.isSome | none => false

/-- Stop the warps a test selects (R442, R443): each at its boundary, where it takes the kills due (R152), those that stand at one, waiting
included, at once. -/
def stopAll (s : State) (p : Nat → Warp → Bool) : State :=
  let hit (i : Nat) (x : Warp) : Bool :=
    p i x && decide (x.state ≠ .ended) && decide (x.state ≠ .stopped) && x.stopDue.isNone && !x.haltDue
  let s := preemptAll s hit fun x => { x with stopDue := some (.dstop, 0) }
  let s := (s.warps.filter fun e => decide (e.2.stopDue = some (.dstop, 0)) && e.2.frame.isNone).foldl (fun s e => applyKills s e.1) s
  s.warps.foldl (fun s e =>
    if e.2.stopDue = some (.dstop, 0) ∧ (e.2.state = .ready ∨ e.2.state = .waiting) ∧ !stopHeld s e.2 then
      stopWarp s e.1 .dstop e.2.handle 0 0 else s) s

/-- Which other warps stop with a stopping one (R442, R443): none, its group's, or its context's. -/
def stopOthers (s : State) (wid : Nat) (w : Warp) : State :=
  let pol := match getCtx s w.ctx with | some c => wbits c.dbgctl 3 2 | none => 0
  let s := stopAll s fun i x =>
    decide (i ≠ wid) && ((decide (pol = 1) && decide (x.gid = w.gid)) || (decide (pol = 2) && decide (x.ctx = w.ctx)))
  if pol = 2 then
    { s with parts := s.parts.map fun p =>
        if p.2.ctx = w.ctx then (p.1, { p.2 with regions := p.2.regions.map fun r => { r with stop := true } }) else p }
  else s

/-! ### What is due at a boundary (18 R438: stop, then split traps, CLIPPED, SVC) -/

def trapSlotOf (s : State) (ctx : Nat) : Nat :=
  match getCtx s ctx with | some c => c.desc.trapSlot | none => 0

/-- A warp is ready (06 R116): its ready age starts. -/
def Warp.ready (w : Warp) (clk : DWord) : Warp := { w with state := .ready, wait := .none, since := clk }

/-- The warp is being taken off its core: what its boundary brings, but for kills and debug stops, follows resume (R156). -/
def trapHeld (s : State) (w : Warp) : Bool :=
  stopHeld s w || (match getCtx s w.ctx with | some c => c.leaving.isSome | none => false)

/-- The lanes that step 5 ends have ended when it finds the window empty and raises SPLIT_FILL, so that a handler for which none is left
runs lane-less (18 R436); SPLIT_SPILL leaves all of step 5 undone (R150). -/
def Warp.endedFor (w : Warp) (c : TrapCode) (r : Redo) : Warp :=
  match c with
  | .splitFill => w.killLanes (splitVotes w r).1
  | _ => w

/-- What a warp's boundary brings, in the order of R438: kills, a debug stop, which a warp that has begun a wait takes too (06 R122, 18
R442), and of a ready warp the resumption of R151 where no lane is left, else the redo of step 5 with its traps, CLIPPED, SVC. -/
def settleOne (s : State) (wid : Nat) : State :=
  let s := applyKills s wid
  match getWarp s wid with
  | none => s
  | some w =>
    if (w.state ≠ .ready ∧ w.state ≠ .waiting) ∨ w.haltDue ∨ stopHeld s w then s
    else
      match w.stopDue with
      | some (why, id) => stopOthers (stopWarp s wid why w.handle 0 id) wid w
      | none =>
        let slot := trapSlotOf s w.ctx
        if w.state ≠ .ready ∨ w.trap.isSome ∨ trapHeld s w then s
        else
          if w.mask &&& ~~~w.deadm = 0 then
            match w.resume stackFuel with
            | .trap c => setWarp s wid ({ w with redo := some Redo.resume }.takeTrap slot c 0 w.handle w.mask false)
            | c => applyAtBoundary s wid w Redo.resume c
          else
            match w.redo with
            | some r =>
              (match w.pushDue r with
               | none => setWarp s wid (w.takeTrap slot .splitSpill 0 w.handle w.mask false)
               | some (w, r) =>
                 match w.stepFive r with
                 | .trap c => setWarp s wid ({ w.endedFor c r with redo := some r }.takeTrap slot c 0 w.handle w.mask false)
                 | c => applyAtBoundary s wid w r c)
            | none =>
              match w.clipDue, w.svcDue with
              | n :: r, _ => setWarp s wid ({ w with clipDue := r }.takeTrap slot .clipped n w.handle w.mask false)
              | [], n :: r => setWarp s wid ({ w with svcDue := r }.takeTrap slot .svc n.toNat w.handle w.mask false)
              | [], [] => s

/-- Each stage of a boundary follows the one before. -/
def settleStages (s : State) (wid : Nat) : State := settleOne (settleOne (settleOne s wid) wid) wid

/-- The group barrier is complete (06 R125): warps that have ended count as arrived. Its waiters become ready together, and the next
block of each acts as if its acquire scope were group. -/
def gbarCheck (s : State) (gid : Nat) : State :=
  match getGroup s gid with
  | none => s
  | some g =>
    let ws := warpsOf s gid
    let gone := (ws.filter fun e => decide (e.2.state = .ended)).length
    if g.arrived = 0 ∨ g.arrived + gone < g.W then s
    else
      let s := setGroup s gid { g with arrived := 0 }
      (ws.filter fun e => decide (e.2.wait = .gbar)).foldl (fun s e =>
        match getWarp s e.1 with
        | some w =>
          if w.state = .waiting then settleStages (setWarp s e.1 { w.ready s.clk with acqDue := max w.acqDue 2 }) e.1
          else setWarp s e.1 { w with wait := .none, acqDue := max w.acqDue 2 }
        | none => s) s

/-- Kills due of the selected warps that stand at their boundary are made: one that a flush left there replays with the smaller mask
(R152, R156); an end may complete the group barrier (06 R125). -/
def settleKills (s : State) (p : Nat → Warp → Bool) : State :=
  (s.warps.filter fun e => p e.1 e.2 && e.2.frame.isNone && decide (e.2.killDue ≠ 0)).foldl
    (fun s e => gbarCheck (applyKills s e.1) e.2.gid) s

/-- The group barriers of a context that ends of warps, by kills at stops taken together, may complete (06 R125, 18 R443). -/
def gbarAll (s : State) (ctx : Nat) : State := (s.groups.filter fun g => decide (g.2.ctx = ctx)).foldl (fun s g => gbarCheck s g.1) s

/-- A warp that does not wait stands at its boundary: what is due there, and the group barriers its end may complete. -/
def settle (s : State) (wid : Nat) : State :=
  match getWarp s wid with
  | some w => gbarAll (settleStages s wid) w.ctx
  | none => s

/-- A waiting warp's condition holds: it leaves the wait with the acquire the release gives (09 R199), and what is due at its boundary
follows. -/
def wakeWarp (s : State) (wid : Nat) (acq : Nat) : State :=
  match getWarp s wid with
  | some w => settle (setWarp s wid { w.ready s.clk with acqDue := max w.acqDue acq }) wid
  | none => s

/-- The warp is ready again at the same block (a fault serviced, R116). -/
def readyAgain (s : State) (wid : Nat) : State :=
  match getWarp s wid with
  | some w => if w.state = .faultWait then settle (setWarp s wid (w.ready s.clk)) wid else s
  | none => s

/-! ### In-flight counters and waitc (11 R240, R249) -/

/-- An operation on a counter completes: it is lowered past every completed operation at the front. -/
def opDone (l : List (Nat × Bool)) (id : Nat) : List (Nat × Bool) :=
  (l.map fun e => if e.1 = id then (e.1, true) else e).dropWhile (·.2)

def Warp.counter (w : Warp) : ClsCw → Nat
  | .d => w.cntD.length | .x => w.cntX.length | .k => w.cntK.length

/-- Operation `id` of a warp completes on every counter that counted it; a waitc whose threshold is reached is released, and the next
block acts as if its acquire scope were device (code 4). -/
def countersDone (s : State) (wid id : Nat) : State :=
  match getWarp s wid with
  | none => s
  | some w =>
    let w := { w with cntD := opDone w.cntD id, cntX := opDone w.cntX id, cntK := opDone w.cntK id }
    let s := setWarp s wid w
    match w.state, w.wait with
    | .waiting, .waitc p t => if w.counter p ≤ t.toNat then wakeWarp s wid 4 else s
    | _, _ => s

/-! ### YIELD_EXPIRY (06 R127) -/

/-- The cycles of a yield have passed: the warp enters ready, behind those of its class already ready. -/
def execYieldExpiry (w : Nat) (s : State) : Out :=
  match getWarp s w with
  | some x =>
    match x.state, x.wait with
    | .waiting, .yield t => if t.toNat ≤ s.clk.toNat then .next (wakeWarp s w 0) else notDue "YIELD_EXPIRY"
    | _, _ => notDue "YIELD_EXPIRY"
  | none => notDue "YIELD_EXPIRY"

end Sys2Proof.Machine
end

