-- ==== Sys2Proof/Machine/Operands.lean ====
section
/-!
DEFINITION. Operands and firing (07 R134 to R138, R145, 18 R440, R482): tokens, guards, which lanes fire, the delivery of results to
operands, guards, write slots and votes, and the one operation through which every instruction fires.
-/
namespace Sys2Proof.Machine

/-! ### The image (02 R22 to R35) -/

namespace Img
def word (ws : List Word) (k : Nat) : Word := ws.getD k 0
def n (ws : List Word) : Nat := wbits (word ws 0) 25 20 + 1
def d (ws : List Word) : Nat := wbits (word ws 0) 19 18
def slots (ws : List Word) : Nat := wbits (word ws 0) 17 12
def nexits (ws : List Word) : Nat := wbits (word ws 0) 11 10 + 1
def rel (ws : List Word) : Nat := wbits (word ws 0) 9 7
def acq (ws : List Word) : Nat := wbits (word ws 0) 6 4
def irrev (ws : List Word) : Bool := (word ws 0).getLsbD 3
def trap (ws : List Word) : Bool := (word ws 0).getLsbD 2
def bnd (ws : List Word) : Bool := (word ws 0).getLsbD 1
def join (ws : List Word) : Bool := (word ws 0).getLsbD 0
def exit (ws : List Word) (k : Nat) : Word := word ws (2 + k)
def pbar (ws : List Word) : Nat := wbits (word ws 6) 30 22
def pdesc (ws : List Word) : Nat := wbits (word ws 6) 21 13
def pfen (ws : List Word) : Bool := (word ws 6).getLsbD 12
def nwrites (ws : List Word) : Nat := wbits (word ws 6) 11 6
def nreads (ws : List Word) : Nat := wbits (word ws 6) 5 0
def hasstep (ws : List Word) : Bool := (word ws 7).getLsbD 20
def gparts (ws : List Word) : Nat := wbits (word ws 7) 19 16
def rgnw (ws : List Word) : Nat := wbits (word ws 7) 15 8
def rgnr (ws : List Word) : Nat := wbits (word ws 7) 7 0
/-- E, W and A of R33. -/
def eWords (ws : List Word) : Nat := nreads ws - 8
def wWords (ws : List Word) : Nat := (nwrites ws + 2) / 3
def aWords (ws : List Word) : Nat := (slots ws + 7) / 8
/-- The image word that holds read declaration k (R26, R33). -/
def readAt (k : Nat) : Nat := if k < 8 then 8 + k else 16 + (k - 8)
def readWord (ws : List Word) (k : Nat) : Word := word ws (readAt k)
def writeAt (ws : List Word) (k : Nat) : Nat := 16 + eWords ws + k / 3
def writeId (ws : List Word) (k : Nat) : Nat := wbits (word ws (writeAt ws k)) (10 * (k % 3) + 9) (10 * (k % 3))
def accessAt (ws : List Word) (k : Nat) : Nat := 16 + eWords ws + wWords ws + k / 8
/-- The access code of slot k (R35). -/
def access (ws : List Word) (k : Nat) : Nat := wbits (word ws (accessAt ws k)) (4 * (k % 8) + 3) (4 * (k % 8))
def sizeCode (ws : List Word) (k : Nat) : Nat := access ws k % 8
def bytes (ws : List Word) (k : Nat) : Nat := 2 ^ sizeCode ws k
def sx (ws : List Word) (k : Nat) : Bool := decide (access ws k / 8 = 1)
/-- The image word of instruction index i (R23). -/
def instrAt (ws : List Word) (i : Nat) : Nat := 16 * (1 + d ws) + i
def code (ws : List Word) (i : Nat) : List Word := ws.drop (instrAt ws i)
/-- Words of the whole image (R22). -/
def total (ws : List Word) : Nat := 16 * (1 + d ws + (n ws + 15) / 16)
/-- Chunks of the image. -/
def chunks (ws : List Word) : Nat := 1 + d ws + (n ws + 15) / 16

/-- The instructions of an image: index and instruction, the extension words passed over. -/
def instrs (ws : List Word) : Nat → Nat → List (Nat × Instr)
  | 0, _ => []
  | fuel + 1, i =>
    if i < n ws then
      match decode (code ws i) with
      | .ok (x, rest) => (i, x) :: instrs ws fuel (i + ((code ws i).length - rest.length))
      | .error _ => instrs ws fuel (i + 1)
    else []

def all (ws : List Word) : List (Nat × Instr) := instrs ws 64 0
def instr (ws : List Word) (i : Nat) : Option Instr :=
  match decode (code ws i) with | .ok (x, _) => some x | .error _ => none
end Img

/-! ### Tokens (07 R134) -/

/-- A scalar token, valid or null. -/
def Token.scal (wide : Bool) (ok : Bool) (v : DWord) (pois : Bool := false) : Token :=
  ⟨false, wide, false, if ok then ones32 else 0, [v], if pois then ones32 else 0⟩

/-- A vector token from a function of the lane. -/
def Token.vect (wide : Bool) (valid : Mask) (f : Nat → DWord) (pois : Mask := 0) : Token :=
  ⟨true, wide, false, valid, lanes32.map fun l => if valid.getLsbD l then f l else 0, pois⟩

/-- The value in a lane; a scalar has one value for every lane. -/
def Token.at (t : Token) (l : Nat) : DWord := if t.vec then t.vals.getD l 0 else t.vals.headD 0
def Token.w (t : Token) (l : Nat) : Word := (t.at l).setWidth 32

/-- Key of operand k (0 a, 1 b, 2 c, 3 guard) of instruction i in a frame. -/
def slotKey (i k : Nat) : Nat := 4 * i + k

/-! ### What a firing sees -/

/-- An instruction about to fire: its warp and frame, its index, its operands and guard, the lanes that fire (one stands for the whole
in a lane-less block, R482), whether results are vector (R135), and the poison its results carry. -/
structure Fire where
  wid   : Nat
  w     : Warp
  f     : Frame
  i     : Nat
  a     : Option Token
  b     : Option Token
  c     : Option Token
  guard : Option Token
  lanes : Mask
  vec   : Bool
  pois  : Mask
  /-- Some consumed operand is poisoned in a fired lane, and where first. -/
  consumed : Bool
deriving DecidableEq, Repr

def Fire.any (x : Fire) : Bool := decide (x.lanes ≠ 0)
def Fire.has (x : Fire) (l : Nat) : Bool := x.lanes.getLsbD l
def Fire.list (x : Fire) : List Nat := Mask.lanes x.lanes
def Fire.av (x : Fire) (l : Nat) : DWord := match x.a with | some t => t.at l | none => 0
def Fire.bv (x : Fire) (l : Nat) : DWord := match x.b with | some t => t.at l | none => 0
def Fire.cv (x : Fire) (l : Nat) : DWord := match x.c with | some t => t.at l | none => 0
def Fire.aw (x : Fire) (l : Nat) : Word := (x.av l).setWidth 32
def Fire.bw (x : Fire) (l : Nat) : Word := (x.bv l).setWidth 32
def Fire.cw (x : Fire) (l : Nat) : Word := (x.cv l).setWidth 32
/-- The lowest fired lane. -/
def Fire.low (x : Fire) : Nat := x.list.headD 0

/-- The lanes in which a token counts as valid (R134): a scalar in every lane of the entry mask. -/
def validIn (entry : Mask) (t : Option Token) : Mask :=
  match t with
  | some t => t.valid &&& entry
  | none => entry

/-- The lanes the guard passes (R135, R39). -/
def guardPass (g : Guard) (t : Option Token) : Mask :=
  match g, t with
  | .always, _ => ones32
  | _, none => 0
  | .onTrue, some t => maskOf fun l => t.valid.getLsbD l && (t.at l).getLsbD 0
  | .onFalse, some t => maskOf fun l => t.valid.getLsbD l && !(t.at l).getLsbD 0

def isVec (t : Option Token) : Bool := match t with | some t => t.vec | none => false
def poisOf (t : Option Token) : Mask := match t with | some t => t.pois | none => 0

/-- Operand k of instruction i has a producer in the image: a read declaration or an earlier instruction names it. -/
def Target.names (t : Target) (i k : Nat) : Bool :=
  match t with
  | .opA j => decide (k = 0) && decide (j.toNat = i)
  | .opB j => decide (k = 1) && decide (j.toNat = i)
  | .opC j => decide (k = 2) && decide (j.toNat = i)
  | .guard j => decide (k = 3) && decide (j.toNat = i)
  | _ => false

def tgtNames (b : BitVec 9) (i k : Nat) : Bool :=
  match Target.ofBits b with | some t => Target.names t i k | none => false

/-- The target fields of an encoded instruction: two of a T word, four of mov4, one of the I, M and K formats. -/
def targetsOf : Instr → List Target
  | .add _ _ a b | .sub _ _ a b | .mul _ _ a b | .mulhi _ _ a b | .mad _ _ a b | .div _ _ a b | .rem _ _ a b | .neg _ _ a b
  | .abs _ _ a b | .min _ _ a b | .max _ _ a b | .and _ _ a b | .or _ _ a b | .xor _ _ a b | .not _ _ a b | .andn _ _ a b
  | .shl _ _ a b | .shr _ _ a b | .sar _ _ a b | .rotl _ _ a b | .clz _ _ a b | .popc _ _ a b | .brev _ _ a b | .bfe _ _ a b
  | .bfi _ _ a b | .lea _ _ a b | .addw _ _ a b | .sext _ _ a b | .bsel _ a b | .mov _ _ a b | .null _ a b | .cmp _ _ a b
  | .cmp64 _ _ a b | .sel _ _ a b | .pand _ a b | .por _ a b | .pxor _ a b | .pnot _ a b | .rfl _ _ a b | .rdln _ _ a b
  | .wrln _ _ a b | .lxch _ _ a b | .vote _ _ a b | .matchKeys _ _ a b | .redux _ _ a b | .scan _ _ a b | .lmask _ _ a b
  | .bcast _ _ a b | .mskz _ a b | .fadd _ _ a b | .fsub _ _ a b | .fmul _ _ a b | .ffma _ _ a b | .fmin _ a b | .fmax _ a b
  | .fabs _ a b | .fneg _ a b | .fcmp _ _ a b | .fdiv _ _ a b | .fsqrt _ _ a b | .frcp _ a b | .frsq _ a b | .fex2 _ a b
  | .flg2 _ a b | .fsin _ _ a b | .fclass _ a b | .frnd _ _ a b | .fscale _ _ a b | .dadd _ _ a b | .dsub _ _ a b
  | .dmul _ _ a b | .dfma _ _ a b | .dmin _ a b | .dmax _ a b | .dcmp _ _ a b | .ddiv _ _ a b | .dsqrt _ _ a b
  | .hadd2 _ _ a b | .hmul2 _ _ a b | .hfma2 _ _ a b | .hmin2 _ _ a b | .hmax2 _ _ a b | .hcmp2 _ _ a b
  | .cvt _ a b _ _ _ _ | .pack _ _ a b | .unpk _ _ a b | .dot4I8 _ _ a b | .dot8I4 _ _ a b | .dot4F8 _ _ a b | .dot8F4 _ a b
  | .dot2Bf _ a b | .atom _ a b _ _ _ _ | .cas _ a b _ _ _ | .atomS _ a b _ _ _ _ | .rgnStat _ a b | .stepQ _ a b
  | .barTest _ a b | .barStat _ a b | .mmaGrp _ _ a b | .gstat _ a b | .spop _ a b | .clk _ a b => [a, b]
  | .mov4 _ _ a b c d => [a, b, c, d]
  | .addi _ _ t | .andi _ _ t | .ori _ _ t | .xori _ _ t | .shli _ _ t | .shri _ _ t | .sari _ _ t | .muli _ _ t | .cmpiEq _ _ t
  | .cmpiNe _ _ t | .cmpiLt _ _ t | .cmpiLe _ _ t | .cmpiGt _ _ t | .cmpiGe _ _ t | .ldG _ _ _ t | .ldK _ _ _ t | .ldS _ _ _ t
  | .rdsr _ _ t | .genk _ t | .appk _ t => [t]
  | _ => []

def hasProducer (ws : List Word) (i k : Nat) : Bool :=
  (List.range (Img.nreads ws)).any (fun r =>
    let d := Img.readWord ws r
    tgtNames (d.extractLsb' 13 9) i k || tgtNames (d.extractLsb' 4 9) i k)
  || (Img.all ws).any fun e => (targetsOf e.2).any fun t => Target.names t i k

/-- Operand k has arrived: its token is there, or nothing in the image sends one. `need` says the instruction always takes it. -/
def arrived (f : Frame) (i k : Nat) (need : Bool) : Bool :=
  (tget f.toks (slotKey i k)).isSome || (!need && !hasProducer f.words i k)

/-- An instruction of the image that can fire: it has not, and every operand that the image sends it, its guard's included, has arrived. -/
def canFire (f : Frame) (i : Nat) : Bool :=
  !f.fired.contains i && [0, 1, 2, 3].all fun k => arrived f i k false

/-- In a serial step the lowest-indexed ready instruction goes first (18 R445). -/
def serialOk (w : Warp) (f : Frame) (i : Nat) : Bool :=
  decide (w.mode ≠ .serial) || (Img.all f.words).all fun e => !(decide (e.1 < i) && canFire f e.1)

/-- The instruction that `cur` names, ready to fire (R135): its warp has a frame, it has not fired, and every operand it takes and its
guard have arrived. `need` lists the operands it always takes; `passes` those, 3 for the guard, whose poison it does not consume: it passes into the result (18
R440), or nothing comes of it. -/
def ready (s : State) (g : Guard) (need passes : List Nat) : Option Fire :=
  let (wid, i) := s.cur
  match getWarp s wid with
  | none => none
  | some w =>
    match w.frame with
    | none => none
    | some f =>
      let ok (k : Nat) : Bool := arrived f i k (need.contains k)
      if w.state = .mapped ∧ !f.fired.contains i ∧ serialOk w f i ∧ ok 0 ∧ ok 1 ∧ ok 2 ∧ (g = .always ∨ (tget f.toks (slotKey i 3)).isSome) then
        let a := tget f.toks (slotKey i 0)
        let b := tget f.toks (slotKey i 1)
        let c := tget f.toks (slotKey i 2)
        let gd := if g = .always then none else tget f.toks (slotKey i 3)
        let vec := isVec a || isVec b || isVec c || isVec gd
        let entry : Mask := if f.laneless then (if vec then 0 else 1) else f.entry
        let lanes := validIn entry a &&& validIn entry b &&& validIn entry c &&& guardPass g gd
        let eat (k : Nat) (t : Option Token) : Mask := if passes.contains k then 0 else poisOf t &&& lanes
        let eaten := eat 0 a ||| eat 1 b ||| eat 2 c ||| eat 3 gd
        let all := (poisOf a ||| poisOf b ||| poisOf c ||| poisOf gd) &&& lanes
        some ⟨wid, w, f, i, a, b, c, gd, lanes, vec, all, decide (eaten ≠ 0)⟩
      else none

/-! ### Effects and their application -/

def Effects.none : Effects := ⟨[], [], Option.none, 0, [], []⟩

/-- A cause found when an instruction fires (rank 3 of R133), with the detail R435 gives most codes: block handle and index. -/
def fireCause (x : Fire) (code : Nat) : Cause :=
  ⟨3, x.i, code, BitVec.ofNat 64 (x.f.handle.toNat + x.i * 2 ^ 32), none⟩

/-- The same with an address as detail (18 R435). -/
def addrCause (x : Fire) (code : Nat) (addr : Nat) : Cause := ⟨3, x.i, code, BitVec.ofNat 64 addr, none⟩

def blockDetail (f : Frame) (i : Nat) : DWord := BitVec.ofNat 64 (f.handle.toNat + i * 2 ^ 32)

/-- Gather a token into a write slot: two producers valid in one lane raise WRITE_CONFLICT (R137). -/
def gather (f : Frame) (i wslot : Nat) (t : Token) : Frame :=
  let clash := f.wtoks.any fun e => decide (e.1 = wslot) && decide (e.2.2.valid &&& t.valid ≠ 0)
  { f with
    wtoks := f.wtoks ++ [(wslot, i, t)]
    causes := if clash then f.causes ++ [⟨4, i, Code.writeConflict, blockDetail f i, none⟩] else f.causes }

/-- Deliver one token (R36). -/
def deliver (i : Nat) (f : Frame) (p : Target × Token) : Frame :=
  match p.1 with
  | .opA j => { f with toks := tput f.toks (slotKey j.toNat 0) p.2 }
  | .opB j => { f with toks := tput f.toks (slotKey j.toNat 1) p.2 }
  | .opC j => { f with toks := tput f.toks (slotKey j.toNat 2) p.2 }
  | .guard j => { f with toks := tput f.toks (slotKey j.toNat 3) p.2 }
  | .write k => gather f i k.toNat p.2
  | .none => f

/-- One exit vote (R145): a second in a lane raises EXIT_CONFLICT, an exit beyond the count EXIT_RANGE; neither then counts. -/
def castVote (i : Nat) (f : Frame) (v : Nat × Nat) : Frame :=
  if Img.nexits f.words ≤ v.2 then { f with causes := f.causes ++ [⟨5, i, Code.exitRange, blockDetail f i, none⟩] }
  else if f.votes.any fun e => decide (e.1 = v.1) then
    { f with causes := f.causes ++ [⟨5, i, Code.exitConflict, blockDetail f i, none⟩] }
  else { f with votes := f.votes ++ [v] }

/-- The votes of one instruction: the range check of every lane comes before the conflict check of any (R133, R148). -/
def castVotes (i : Nat) (f : Frame) (vs : List (Nat × Nat)) : Frame :=
  (vs.filter (fun v => Img.nexits f.words ≤ v.2) ++ vs.filter (fun v => v.2 < Img.nexits f.words)).foldl (castVote i) f

/-- The vote of a lane-less block (18 R482). -/
def castWhole (i : Nat) (f : Frame) (v : Nat) : Frame :=
  if Img.nexits f.words ≤ v then { f with causes := f.causes ++ [⟨5, i, Code.exitRange, blockDetail f i, none⟩] }
  else if f.whole.isSome then { f with causes := f.causes ++ [⟨5, i, Code.exitConflict, blockDetail f i, none⟩] }
  else { f with whole := some v }

/-- A command among those that wait for commit, in instruction-index order (R146). -/
def insCmd : List (Nat × Cmd) → Nat × Cmd → List (Nat × Cmd)
  | [], x => [x]
  | y :: r, x => if x.1 < y.1 then x :: y :: r else y :: insCmd r x

/-- Apply what instruction i yields to its frame. One that finds a fault after the irrevocable point has no effect but the fault
(R481). -/
def applyEffects (f : Frame) (i : Nat) (e : Effects) : Frame :=
  if f.irrev ∧ e.causes ≠ [] then { f with causes := f.causes ++ e.causes }
  else
    let f := e.toks.foldl (deliver i) f
    let f := castVotes i f e.votes
    let f := match e.whole with | some v => castWhole i f v | none => f
    { f with flags := f.flags ||| e.flags, cmds := (e.cmds.map fun c => (i, c)).foldl insCmd f.cmds, causes := f.causes ++ e.causes }

/-- What a firing does to the machine: effects on its frame now, or later by an event of a unit; a memory-order slot filled; and the
caches and walks it touches. -/
structure Fired where
  eff  : Effects
  late : Option Late
  slot : Option (Nat × SlotEntry)
  st   : State

def Fired.now (s : State) (e : Effects) : Fired := ⟨e, none, none, s⟩

/-- POISON consumed before the irrevocable point is a cause of rank 2 (R133, R144, 18 R440). -/
def poisonCause (x : Fire) : List Cause :=
  if x.consumed ∧ !x.f.irrev then [⟨2, x.i, Code.poison, blockDetail x.f x.i, none⟩] else []

/-- The frame after the instruction has fired. -/
def Fire.settle (x : Fire) (r : Fired) : Frame :=
  let f := { x.f with fired := x.i :: x.f.fired, causes := x.f.causes ++ poisonCause x }
  let f := match r.slot with
    | some (k, e) => { f with slots := tput f.slots k e }
    | none => f
  match r.late with
  | some l => { f with infl := f.infl ++ [(x.i, l, r.eff)] }
  | none => applyEffects f x.i r.eff

/-! ### The energy of a firing (18 R456; which instructions are which event, log 11) -/

/-- A shape of mma (16 R401): the entry of its products, its side, its depth. -/
def mmaMacs : ClsMm → Nat × Nat × Nat
  | .bf16m16 | .f16m16 => (2, 16, 16)
  | .bf16m32 | .f16m32 => (2, 32, 16)
  | .e4m3m32 | .e5m2m32 | .i8m32 => (1, 32, 32)
  | .e2m1m32 => (0, 32, 64)

/-- The rows an mma.grp computes (16 R409). -/
def grpRows (b : Word) (side : Nat) : Nat := min side (wbits b 5 0 + wbits b 11 6 + wbits b 17 12 + wbits b 23 18)

/-- The entry of the energy table that a firing counts, and how often: for all of a matrix instruction, or for each lane of a vector
firing. -/
def Fire.energy (x : Fire) : Nat × Nat :=
  let lane (entry n : Nat) : Nat × Nat := if x.vec then (entry, n * x.list.length) else (6, x.any.toNat)
  match Img.instr x.f.words x.i with
  | some (.mma _ s) | some (.mmaSc _ s) | some (.mmaChk _ s) => let (e, n, k) := mmaMacs s; (e, n * n * k * x.any.toNat)
  | some (.mmaGrp _ s _ _) => let (e, n, k) := mmaMacs s; (e, grpRows (x.bw x.low) n * n * k * x.any.toNat)
  | some (.ffma ..) => lane 3 1
  | some (.dfma ..) => lane 4 1
  | some (.hfma2 ..) | some (.dot2Bf ..) => lane 2 2
  | some (.dot4I8 ..) | some (.dot4F8 ..) => lane 1 4
  | some (.dot8I4 ..) | some (.dot8F4 ..) => lane 0 8
  | _ => lane 5 1

/-- A firing is counted (18 R454, event 2), and its energy is charged to its context. -/
def Fire.charge (x : Fire) (s : State) : State :=
  spend (countEvent s (x.w.core / 64) x.w.ctx 2 1) (x.w.core / 64) x.w.ctx x.energy.1 x.energy.2

/-- Fire the instruction that `cur` names: every meaning of the block instruction set goes through here. It changes its own warp's
frame, and through `r.st` the caches, TLBs and walks; nothing else (07 R130, R146). -/
def fire (m : String) (s : State) (g : Guard) (need passes : List Nat) (body : Fire → Fired) : Out :=
  match ready s g need passes with
  | none => notDue m
  | some x =>
    let r := body x
    let s := x.charge r.st
    -- a context fault met on the way has flushed the block
    match getWarp s x.wid with
    | some w => .next (if w.frame.isSome then setWarp s x.wid { w with frame := some (x.settle r) } else s)
    | none => .next s

/-- Fire an instruction that has to wait where a test says so: for a walk it needs, which is outstanding (12 R260), or behind a retraining link
(14 R315). -/
def fireHeld (m : String) (s : State) (g : Guard) (need passes : List Nat) (wait : Fire → Bool) (body : Fire → Fired) : Out :=
  match ready s g need passes with
  | some x => if wait x then notDue m else fire m s g need passes body
  | none => notDue m

/-! ### Results -/

/-- The result token of an instruction that works lane by lane (R135). -/
def Fire.res (x : Fire) (wide : Bool) (v : Nat → DWord) : Token :=
  if x.vec then Token.vect wide x.lanes v x.pois
  else Token.scal wide x.any (if x.any then v x.low else 0) (decide (x.pois ≠ 0))

/-- A scalar result, whatever the operands (null when no lane fires). -/
def Fire.scalRes (x : Fire) (wide : Bool) (v : DWord) : Token :=
  Token.scal wide x.any (if x.any then v else 0) (decide (x.pois ≠ 0))

/-- Two targets of a result. -/
def both (ta tb : Target) (t : Token) : List (Target × Token) := [(ta, t), (tb, t)]

/-- An instruction that only computes: lane by lane, a result of the given width and the flags each lane raises (08 R175). -/
def fireLanes (m : String) (s : State) (g : Guard) (need : List Nat) (tgts : List Target) (wide : Bool)
    (v : Fire → Nat → DWord × Word) (passes : List Nat := []) : Out :=
  fire m s g need passes fun x =>
    let act := if x.vec then x.list else x.list.take 1
    Fired.now s { Effects.none with
      toks := tgts.map fun t => (t, x.res wide fun l => (v x l).1)
      flags := act.foldl (fun fl l => fl ||| (v x l).2) 0 }

/-- The same without flags. -/
def firePure (m : String) (s : State) (g : Guard) (need : List Nat) (tgts : List Target) (wide : Bool)
    (v : Fire → Nat → DWord) (passes : List Nat := []) : Out :=
  fire m s g need passes fun x =>
    Fired.now s { Effects.none with toks := tgts.map fun t => (t, x.res wide fun l => v x l) }

/-- An instruction whose scalar command waits for commit: where it fires with no null operand (11, 10, 04). -/
def fireCmd (m : String) (s : State) (g : Guard) (need : List Nat) (c : Fire → List Cause × List Cmd) : Out :=
  fire m s g need [] fun x =>
    Fired.now s (if x.any then { Effects.none with causes := (c x).1, cmds := (c x).2 } else Effects.none)

/-- Every instruction index still in flight has its event: deliver its effects (DIVISION_COMPLETE and its like). -/
def completeLate (m : String) (s : State) (wid i : Nat) (l : Late) : Out :=
  match getWarp s wid with
  | none => notDue m
  | some w =>
    match w.frame with
    | none => notDue m
    | some f =>
      match f.infl.find? fun e => decide (e.1 = i) && decide (e.2.1 = l) with
      | none => notDue m
      | some e =>
        let f := { f with infl := f.infl.filter fun x => x.1 ≠ i }
        .next (setWarp s wid { w with frame := some (applyEffects f i e.2.2) })

end Sys2Proof.Machine
end

