-- ==== Sys2Proof/Machine/IntOps.lean ====
section
/-!
DEFINITION. The integer, logic, shift, bit-field, move, compare and predicate instructions (15 R336 to R359): what each lane computes,
and one meaning per instruction.
-/
namespace Sys2Proof.Machine

/-! ### Readings and results -/

def z32 (w : Word) : DWord := w.setWidth 64
def ofI32 (x : Int) : DWord := z32 (BitVec.ofInt 32 x)
def ofI64 (x : Int) : DWord := BitVec.ofInt 64 x
def ofN (x : Nat) : DWord := BitVec.ofNat 64 x
def ofB (b : Bool) : DWord := if b then 1 else 0

end Sys2Proof.Machine

namespace Sys2Proof
open Sys2Proof.Machine

def ClsA.wide : ClsA → Bool | .i64 => true | _ => false

def ClsS.wide : ClsS → Bool | .i64 | .n64 => true | _ => false

def ClsB.wide : ClsB → Bool | .b64 => true | _ => false

def ClsB.bits : ClsB → Nat | .b64 => 64 | .b32 => 32

def ClsS.bits (s : ClsS) : Nat := if s.wide then 64 else 32

def ClsS.signed : ClsS → Bool | .i32 | .i64 => true | _ => false

/-- The value a class S operand stands for. -/
def ClsS.read (s : ClsS) (v : DWord) : Int :=
  match s with
  | .i32 => s32 (v.setWidth 32) | .i64 => s64 v | .n32 => (v.setWidth 32 : Word).toNat | .n64 => v.toNat

/-- A class S result, wrapped. -/
def ClsS.write (s : ClsS) (x : Int) : DWord := if s.wide then ofI64 x else ofI32 x

/-- A class B operand as a number below 2^W. -/
def ClsB.read (s : ClsB) (v : DWord) : Nat := match s with | .b32 => (v.setWidth 32 : Word).toNat | .b64 => v.toNat

/-- A class A operand as an unbounded integer (R339). -/
def ClsA.read (s : ClsA) (v : DWord) : Int :=
  match s with
  | .i64 => s64 v | .n32sat => (v.setWidth 32 : Word).toNat | _ => s32 (v.setWidth 32)

/-- A class A result of an exact value (R339), and the flags. -/
def ClsA.write (s : ClsA) (x : Int) : DWord × Word :=
  match s with
  | .i32 => (ofI32 x, 0)
  | .i64 => (ofI64 x, 0)
  | .i32sat => let r := satI32 x; (z32 r.1, r.2)
  | .n32sat => let r := satN32 x; (z32 r.1, r.2)

/-- Compares (R356). -/
def ClsCmp.holds (c : ClsCmp) (w a b : Nat) : Bool :=
  match c with
  | .eq => decide (a = b) | .ne => decide (a ≠ b)
  | .lt => decide (sextN a w < sextN b w) | .le => decide (sextN a w ≤ sextN b w)
  | .gt => decide (sextN b w < sextN a w) | .ge => decide (sextN b w ≤ sextN a w)
  | .ltn => decide (a < b) | .len => decide (a ≤ b)

def ClsL.shift : ClsL → Nat
  | .s0 => 0 | .s1 => 1 | .s2 => 2 | .s3 => 3 | .s4 => 4 | .s5 => 5 | .s6 => 6 | .s7 => 7

end Sys2Proof

namespace Sys2Proof.Machine

/-- The sign-extended 12-bit immediate. -/
def simm (imm : BitVec 12) : Int := imm.toInt

/-! ### What a lane computes -/

def laneA (s : ClsA) (f : Int → Int → Int → Int) (x : Fire) (l : Nat) : DWord × Word :=
  s.write (f (s.read (x.av l)) (s.read (x.bv l)) (s.read (x.cv l)))

def laneS (s : ClsS) (f : Int → Int → Int) (x : Fire) (l : Nat) : DWord := s.write (f (s.read (x.av l)) (s.read (x.bv l)))

/-- A bitwise operation over the width (R343). -/
def laneB (s : ClsB) (f : DWord → DWord → DWord) (x : Fire) (l : Nat) : DWord := ofN (s.read (f (x.av l) (x.bv l)))

/-- Shifts and rotates (R344). -/
def shlW (w a n : Nat) : Nat := if w ≤ n then 0 else a * 2 ^ n % 2 ^ w
def shrW (w a n : Nat) : Nat := if w ≤ n then 0 else a / 2 ^ n
def sarW (w a n : Nat) : Int := sextN a w / (2 ^ min n (w - 1) : Nat)
def rotlW (w a n : Nat) : Nat := (a * 2 ^ (n % w) % 2 ^ w) + a / 2 ^ (w - n % w)

/-- Number of zero bits above the highest set bit of a w-bit number; of set bits; and the bits reversed (R345). -/
def clzW (w a : Nat) : Nat := if a = 0 then w else w - 1 - a.log2
def popW (w a : Nat) : Nat := (List.range w).foldl (fun n i => n + a / 2 ^ i % 2) 0
def brevW (w a : Nat) : Nat := (List.range w).foldl (fun n i => n + a / 2 ^ (w - 1 - i) % 2 * 2 ^ i) 0

/-- Bit-field extract (R346). -/
def bfeW (s : ClsS) (a : DWord) (b c : Word) : DWord :=
  let pos := b.toNat % 256
  let len := min (c.toNat % 256) s.bits
  let f := (s.read a / (2 ^ pos : Nat)) % (2 ^ len : Nat)
  if len = 0 then 0 else s.write (if s.signed then sextN f.toNat len else f)

/-- Bit-field insert (R347). -/
def bfiW (w a b : Nat) (c : Word) : Nat :=
  let pos := c.toNat % 256
  let len := c.toNat / 256 % 256
  if len = 0 ∨ w ≤ pos then b
  else
    let n := min len (w - pos)
    b - b / 2 ^ pos % 2 ^ n * 2 ^ pos + a % 2 ^ n * 2 ^ pos

/-- One byte of bsel (R348). -/
def bselByte (src : List Byte) (f : Nat) : Byte :=
  let y := src.getD (f % 8) 0
  let y : Byte := if f / 8 % 2 = 1 then 0 else if f / 16 % 2 = 1 then (if y.getLsbD 7 then 0xFF else 0) else y
  if f / 32 % 2 = 1 then ~~~y else y

def bselW (a b c : Word) : Word :=
  let src := leBytes a.toNat 4 ++ leBytes b.toNat 4
  word4 ((List.range 4).map fun k => bselByte src (c.toNat / 256 ^ k % 256))

def bit0 (w : DWord) : Bool := w.getLsbD 0

/-! ### Integer arithmetic (R339 to R342) -/

def execAdd (g : Guard) (s : ClsA) (ta tb : Target) (st : State) : Out :=
  fireLanes "ADD" st g [0, 1] [ta, tb] s.wide (laneA s fun a b _ => a + b)
def execSub (g : Guard) (s : ClsA) (ta tb : Target) (st : State) : Out :=
  fireLanes "SUB" st g [0, 1] [ta, tb] s.wide (laneA s fun a b _ => a - b)
def execMul (g : Guard) (s : ClsA) (ta tb : Target) (st : State) : Out :=
  fireLanes "MUL" st g [0, 1] [ta, tb] s.wide (laneA s fun a b _ => a * b)
def execMad (g : Guard) (s : ClsA) (ta tb : Target) (st : State) : Out :=
  fireLanes "MAD" st g [0, 1, 2] [ta, tb] s.wide (laneA s fun a b c => a * b + c)
def execNeg (g : Guard) (s : ClsA) (ta tb : Target) (st : State) : Out :=
  fireLanes "NEG" st g [0] [ta, tb] s.wide (laneA s fun a _ _ => -a)
def execAbs (g : Guard) (s : ClsA) (ta tb : Target) (st : State) : Out :=
  fireLanes "ABS" st g [0] [ta, tb] s.wide (laneA s fun a _ _ => a.natAbs)
def execMulhi (g : Guard) (s : ClsS) (ta tb : Target) (st : State) : Out :=
  firePure "MULHI" st g [0, 1] [ta, tb] s.wide (laneS s fun a b => a * b / (2 ^ s.bits : Nat))
def execMin (g : Guard) (s : ClsS) (ta tb : Target) (st : State) : Out :=
  firePure "MIN" st g [0, 1] [ta, tb] s.wide (laneS s fun a b => min a b)
def execMax (g : Guard) (s : ClsS) (ta tb : Target) (st : State) : Out :=
  firePure "MAX" st g [0, 1] [ta, tb] s.wide (laneS s fun a b => max a b)

/-- An instruction of a unit that delivers after some cycles, by an event (R341, 16 R383): at once where no lane fires (R136). -/
def fireLate (m : String) (s : State) (g : Guard) (need : List Nat) (tgts : List Target) (wide : Bool) (late : Late)
    (v : Fire → Nat → DWord × Word) : Out :=
  fire m s g need [] fun x =>
    let act := if x.vec then x.list else x.list.take 1
    { eff := { Effects.none with
        toks := tgts.map fun t => (t, x.res wide fun l => (v x l).1)
        flags := act.foldl (fun fl l => fl ||| (v x l).2) 0 }
      late := if x.any then some late else none, slot := none, st := s }

def execDiv (g : Guard) (s : ClsS) (ta tb : Target) (st : State) : Out :=
  fireLate "DIV" st g [0, 1] [ta, tb] s.wide .div fun x l => (laneS s (intDiv s.bits) x l, 0)
def execRem (g : Guard) (s : ClsS) (ta tb : Target) (st : State) : Out :=
  fireLate "REM" st g [0, 1] [ta, tb] s.wide .div fun x l => (laneS s intRem x l, 0)
/-- The unit delivers a quotient or remainder (R341). -/
def execDivisionComplete (w i : Nat) (st : State) : Out := completeLate "DIVISION_COMPLETE" st w i .div

/-- An immediate instruction (R342). -/
def fireImm (m : String) (st : State) (g : Guard) (t : Target) (f : Word → DWord) : Out :=
  firePure m st g [0] [t] false fun x l => f (x.aw l)

def immW (imm : BitVec 12) : Word := imm.signExtend 32

def execAddi (g : Guard) (imm : BitVec 12) (t : Target) (st : State) : Out :=
  fireImm "ADDI" st g t fun a => ofI32 (s32 a + simm imm)
def execAndi (g : Guard) (imm : BitVec 12) (t : Target) (st : State) : Out := fireImm "ANDI" st g t fun a => z32 (a &&& immW imm)
def execOri (g : Guard) (imm : BitVec 12) (t : Target) (st : State) : Out := fireImm "ORI" st g t fun a => z32 (a ||| immW imm)
def execXori (g : Guard) (imm : BitVec 12) (t : Target) (st : State) : Out := fireImm "XORI" st g t fun a => z32 (a ^^^ immW imm)
def execShli (g : Guard) (imm : BitVec 12) (t : Target) (st : State) : Out :=
  fireImm "SHLI" st g t fun a => ofN (shlW 32 a.toNat imm.toNat)
def execShri (g : Guard) (imm : BitVec 12) (t : Target) (st : State) : Out :=
  fireImm "SHRI" st g t fun a => ofN (shrW 32 a.toNat imm.toNat)
def execSari (g : Guard) (imm : BitVec 12) (t : Target) (st : State) : Out :=
  fireImm "SARI" st g t fun a => ofI32 (sarW 32 a.toNat imm.toNat)
def execMuli (g : Guard) (imm : BitVec 12) (t : Target) (st : State) : Out :=
  fireImm "MULI" st g t fun a => ofI32 (s32 a * simm imm)

/-! ### Logic, shifts, bit fields (R343 to R348) -/

def execAnd (g : Guard) (s : ClsB) (ta tb : Target) (st : State) : Out :=
  firePure "AND" st g [0, 1] [ta, tb] s.wide (laneB s fun a b => a &&& b)
def execOr (g : Guard) (s : ClsB) (ta tb : Target) (st : State) : Out :=
  firePure "OR" st g [0, 1] [ta, tb] s.wide (laneB s fun a b => a ||| b)
def execXor (g : Guard) (s : ClsB) (ta tb : Target) (st : State) : Out :=
  firePure "XOR" st g [0, 1] [ta, tb] s.wide (laneB s fun a b => a ^^^ b)
def execAndn (g : Guard) (s : ClsB) (ta tb : Target) (st : State) : Out :=
  firePure "ANDN" st g [0, 1] [ta, tb] s.wide (laneB s fun a b => a &&& ~~~b)
def execNot (g : Guard) (s : ClsB) (ta tb : Target) (st : State) : Out :=
  firePure "NOT" st g [0] [ta, tb] s.wide (laneB s fun a _ => ~~~a)

/-- A shift: a has the sub's width, the count b is 32 bits (R344). -/
def fireShift (m : String) (st : State) (g : Guard) (s : ClsB) (ta tb : Target) (f : Nat → Nat → Nat → DWord) : Out :=
  firePure m st g [0, 1] [ta, tb] s.wide fun x l => f s.bits (s.read (x.av l)) (x.bw l).toNat

def execShl (g : Guard) (s : ClsB) (ta tb : Target) (st : State) : Out :=
  fireShift "SHL" st g s ta tb fun w a n => ofN (shlW w a n)
def execShr (g : Guard) (s : ClsB) (ta tb : Target) (st : State) : Out :=
  fireShift "SHR" st g s ta tb fun w a n => ofN (shrW w a n)
def execSar (g : Guard) (s : ClsB) (ta tb : Target) (st : State) : Out :=
  fireShift "SAR" st g s ta tb fun w a n => if w = 32 then ofI32 (sarW w a n) else ofI64 (sarW w a n)
def execRotl (g : Guard) (s : ClsB) (ta tb : Target) (st : State) : Out :=
  fireShift "ROTL" st g s ta tb fun w a n => ofN (rotlW w a n)

def execClz (g : Guard) (s : ClsB) (ta tb : Target) (st : State) : Out :=
  firePure "CLZ" st g [0] [ta, tb] false fun x l => ofN (clzW s.bits (s.read (x.av l)))
def execPopc (g : Guard) (s : ClsB) (ta tb : Target) (st : State) : Out :=
  firePure "POPC" st g [0] [ta, tb] false fun x l => ofN (popW s.bits (s.read (x.av l)))
def execBrev (g : Guard) (s : ClsB) (ta tb : Target) (st : State) : Out :=
  firePure "BREV" st g [0] [ta, tb] s.wide fun x l => ofN (brevW s.bits (s.read (x.av l)))
def execBfe (g : Guard) (s : ClsS) (ta tb : Target) (st : State) : Out :=
  firePure "BFE" st g [0, 1, 2] [ta, tb] s.wide fun x l => bfeW s (x.av l) (x.bw l) (x.cw l)
def execBfi (g : Guard) (s : ClsB) (ta tb : Target) (st : State) : Out :=
  firePure "BFI" st g [0, 1, 2] [ta, tb] s.wide fun x l => ofN (bfiW s.bits (s.read (x.av l)) (s.read (x.bv l)) (x.cw l))
def execBsel (g : Guard) (ta tb : Target) (st : State) : Out :=
  firePure "BSEL" st g [0, 1, 2] [ta, tb] false fun x l => z32 (bselW (x.aw l) (x.bw l) (x.cw l))

/-! ### Addresses, widening, moves (R349 to R355) -/

def execLea (g : Guard) (s : ClsL) (ta tb : Target) (st : State) : Out :=
  firePure "LEA" st g [0, 1] [ta, tb] true fun x l => ofI64 (s64 (x.av l) + s32 (x.bw l) * (2 ^ s.shift : Nat))
def execAddw (g : Guard) (s : ClsW) (ta tb : Target) (st : State) : Out :=
  firePure "ADDW" st g [0, 1] [ta, tb] true fun x l =>
    x.av l + (match s with | .i32 => (x.bw l).signExtend 64 | .n32 => z32 (x.bw l))
def execSext (g : Guard) (s : ClsE) (ta tb : Target) (st : State) : Out :=
  firePure "SEXT" st g [0] [ta, tb] (match s with | .i32 | .n32 => true | _ => false) fun x l =>
    match s with
    | .i8 => ofI32 (sextN (x.aw l).toNat 8)
    | .i16 => ofI32 (sextN (x.aw l).toNat 16)
    | .i32 => (x.aw l).signExtend 64
    | .n32 => z32 (x.aw l)

def execMov (g : Guard) (s : ClsB) (ta tb : Target) (st : State) : Out :=
  firePure "MOV" st g [0] [ta, tb] s.wide (fun x l => ofN (s.read (x.av l))) [0]
def execMov4 (g : Guard) (s : ClsB) (ta tb tc td : Target) (st : State) : Out :=
  firePure "MOV4" st g [0] [ta, tb, tc, td] s.wide (fun x l => ofN (s.read (x.av l))) [0]

/-- null (R354): a null of every kind and width, vector if its guard is. -/
def execNull (g : Guard) (ta tb : Target) (st : State) : Out :=
  fire "NULL" st g [] [] fun x =>
    let t : Token := ⟨x.vec, false, true, 0, if x.vec then List.replicate 32 0 else [0], 0⟩
    Fired.now st { Effects.none with toks := both ta tb t }

/-- genk (R355): a valid scalar at once. -/
def execGenk (imm : BitVec 16) (t : Target) (st : State) : Out :=
  fire "GENK" st .always [] [] fun _ => Fired.now st { Effects.none with toks := [(t, Token.scal false true (ofN imm.toNat))] }
def execAppk (imm : BitVec 16) (t : Target) (st : State) : Out :=
  firePure "APPK" st .always [0] [t] false fun x l => z32 ((x.aw l <<< 16) ||| imm.setWidth 32)

/-! ### Compares, predicates, sel (R356 to R359) -/

def execCmp (g : Guard) (s : ClsCmp) (ta tb : Target) (st : State) : Out :=
  firePure "CMP" st g [0, 1] [ta, tb] false fun x l => ofB (s.holds 32 (x.aw l).toNat (x.bw l).toNat)
def execCmp64 (g : Guard) (s : ClsCmp) (ta tb : Target) (st : State) : Out :=
  firePure "CMP64" st g [0, 1] [ta, tb] false fun x l => ofB (s.holds 64 (x.av l).toNat (x.bv l).toNat)

/-- A compare with the sign-extended immediate (R357). -/
def fireCmpi (m : String) (st : State) (g : Guard) (c : ClsCmp) (imm : BitVec 12) (t : Target) : Out :=
  firePure m st g [0] [t] false fun x l => ofB (c.holds 32 (x.aw l).toNat (immW imm).toNat)

def execCmpiEq (g : Guard) (imm : BitVec 12) (t : Target) (st : State) : Out := fireCmpi "CMPI_EQ" st g .eq imm t
def execCmpiNe (g : Guard) (imm : BitVec 12) (t : Target) (st : State) : Out := fireCmpi "CMPI_NE" st g .ne imm t
def execCmpiLt (g : Guard) (imm : BitVec 12) (t : Target) (st : State) : Out := fireCmpi "CMPI_LT" st g .lt imm t
def execCmpiLe (g : Guard) (imm : BitVec 12) (t : Target) (st : State) : Out := fireCmpi "CMPI_LE" st g .le imm t
def execCmpiGt (g : Guard) (imm : BitVec 12) (t : Target) (st : State) : Out := fireCmpi "CMPI_GT" st g .gt imm t
def execCmpiGe (g : Guard) (imm : BitVec 12) (t : Target) (st : State) : Out := fireCmpi "CMPI_GE" st g .ge imm t

def execPand (g : Guard) (ta tb : Target) (st : State) : Out :=
  firePure "PAND" st g [0, 1] [ta, tb] false fun x l => ofB (bit0 (x.av l) && bit0 (x.bv l))
def execPor (g : Guard) (ta tb : Target) (st : State) : Out :=
  firePure "POR" st g [0, 1] [ta, tb] false fun x l => ofB (bit0 (x.av l) || bit0 (x.bv l))
def execPxor (g : Guard) (ta tb : Target) (st : State) : Out :=
  firePure "PXOR" st g [0, 1] [ta, tb] false fun x l => ofB (Bool.xor (bit0 (x.av l)) (bit0 (x.bv l)))
def execPnot (g : Guard) (ta tb : Target) (st : State) : Out :=
  firePure "PNOT" st g [0] [ta, tb] false fun x l => ofB (!bit0 (x.av l))

/-- sel (R359): a condition chooses b or c in each lane; poison of the chosen arm passes (18 R440). -/
def execSel (g : Guard) (s : ClsB) (ta tb : Target) (st : State) : Out :=
  fire "SEL" st g [0, 1, 2] [1, 2] fun x =>
    let pick (l : Nat) : Option Token := if bit0 (x.av l) then x.b else x.c
    let bad : Mask := x.lanes &&& (maskOf fun l => (poisOf (pick l)).getLsbD l || (poisOf x.a).getLsbD l || (poisOf x.guard).getLsbD l)
    let y := { x with pois := bad }
    Fired.now st { Effects.none with
      toks := both ta tb (y.res s.wide fun l => ofN (s.read (if bit0 (x.av l) then x.bv l else x.cv l))) }

end Sys2Proof.Machine
end

