-- ==== Sys2Proof/Machine/LaneOps.lean ====
section
/-!
DEFINITION. The lane instructions (15 R360 to R370, 06 R124), which read other lanes' operands, and never other lanes' results.
-/
namespace Sys2Proof.Machine

/-- A vector result valid in given lanes; a scalar one of lane 0 where the instruction fires as a scalar one in a lane-less block: every operand
it takes and its guard are scalar (18 R482). -/
def Fire.vecRes (x : Fire) (wide : Bool) (valid : Mask) (v : Nat → DWord) (pois : Mask) : Token :=
  if x.f.laneless ∧ !x.vec then Token.scal wide x.any (if x.any then v 0 else 0) (decide (pois ≠ 0)) else Token.vect wide valid v pois

/-- The poison of a result whose lane l uses the lanes `used l` of its operands. -/
def Fire.crossPois (x : Fire) (used : Nat → Mask) : Mask :=
  maskOf fun l => x.has l && (x.pois.getLsbD l || decide (x.pois &&& used l ≠ 0))

/-- POISON where lanes of operand a that were used are poisoned, before the irrevocable point, and nothing else consumed any. -/
def Fire.usedPoison (x : Fire) (used : Mask) : List Cause :=
  if !x.consumed ∧ !x.f.irrev ∧ poisOf x.a &&& used ≠ 0 then [⟨2, x.i, Code.poison, blockDetail x.f x.i, none⟩] else []

def isWide (t : Option Token) : Bool := match t with | some t => t.wide | none => false
def validOf (t : Option Token) : Mask := match t with | some t => t.valid | none => 0

/-- rfl (R361): the value of the lowest fired lane, a scalar. -/
def execRfl (g : Guard) (s : ClsB) (ta tb : Target) (st : State) : Out :=
  fire "RFL" st g [0] [0] fun x =>
    let used : Mask := BitVec.ofNat 32 (if x.any then 2 ^ x.low else 0)
    Fired.now st { Effects.none with
      toks := both ta tb (Token.scal s.wide x.any (if x.any then ofN (s.read (x.av x.low)) else 0) (decide (x.pois &&& used ≠ 0)))
      causes := x.usedPoison used }

/-- rdln (R362): lane b[4:0] of a, a scalar; null where that lane is. -/
def execRdln (g : Guard) (s : ClsB) (ta tb : Target) (st : State) : Out :=
  fire "RDLN" st g [0, 1] [0] fun x =>
    let j := (x.bw 0).toNat % 32
    let ok := decide (guardPass g x.guard ≠ 0) && decide (validOf x.b ≠ 0) && (validOf x.a).getLsbD j && !x.f.laneless
    let used : Mask := BitVec.ofNat 32 (if ok then 2 ^ j else 0)
    Fired.now st { Effects.none with
      toks := both ta tb (Token.scal s.wide ok (if ok then ofN (s.read (x.av j)) else 0)
        (ok && (decide (poisOf x.a &&& used ≠ 0) || decide (poisOf x.b ≠ 0) || decide (poisOf x.guard ≠ 0))))
      causes := x.usedPoison used }

/-- wrln (R363): lane b[4:0] takes c; its result is a vector token, a null one too. -/
def execWrln (g : Guard) (s : ClsB) (ta tb : Target) (st : State) : Out :=
  fire "WRLN" st g [0, 1, 2] [] fun x =>
    let v (l : Nat) : DWord := ofN (s.read (if l = (x.bw 0).toNat % 32 then x.cv l else x.av l))
    Fired.now st { Effects.none with toks := both ta tb (x.vecRes s.wide x.lanes v x.pois) }

/-- The lanes of a mask, lowest first: the member of rank t is element t. -/
def memberAt (m : Mask) (t : Int) : Option Nat := if 0 ≤ t then (Mask.lanes m)[t.toNat]? else none

def rankIn (m : Mask) (l : Nat) : Nat := ((Mask.lanes m).filter (· < l)).length

/-- The mask of lane l for lxch, redux and scan: all ones where c is not taken (R360). -/
def Fire.maskFor (x : Fire) (l : Nat) : Mask := match x.c with | some c => c.w l | none => ones32

/-- The lane that lane l takes its value from (R364). -/
def lxchSource (s : ClsSh) (x : Fire) (l : Nat) : Nat :=
  let m := x.maskFor l
  let r : Int := rankIn m l
  let k := (x.bw l).toNat
  let t : Int := match s with
    | .from => k
    | .back => r - k
    | .fwd => r + k
    | .flip => (Nat.xor r.toNat k : Nat)
  if m.getLsbD l then
    match memberAt m t with
    | some j => if (validOf x.a).getLsbD j then j else l
    | none => l
  else l

/-- lxch (R364): exchange by rank within each lane's mask. -/
def execLxch (g : Guard) (s : ClsSh) (ta tb : Target) (st : State) : Out :=
  fire "LXCH" st g [0, 1] [0] fun x =>
    let used := x.list.foldl (fun (m : Mask) l => m ||| BitVec.ofNat 32 (2 ^ lxchSource s x l)) 0
    let bad := maskOf fun l => x.has l && ((poisOf x.a).getLsbD (lxchSource s x l) || (poisOf x.b).getLsbD l || (poisOf x.c).getLsbD l
      || (poisOf x.guard).getLsbD l)
    Fired.now st { Effects.none with
      toks := both ta tb (x.vecRes (isWide x.a) x.lanes (fun l => x.av (lxchSource s x l)) bad)
      causes := x.usedPoison used }

/-- vote (R365): a scalar from bit 0 of each fired lane; a lane-less one counts no lane (18 R482). -/
def execVote (g : Guard) (s : ClsV) (ta tb : Target) (st : State) : Out :=
  fire "VOTE" st g [0] [] fun x =>
    let act : Mask := if x.f.laneless then 0 else x.lanes
    let ballot := maskOf fun l => act.getLsbD l && bit0 (x.av l)
    let v : DWord := match s with
      | .any => ofB (decide (ballot ≠ 0))
      | .all => ofB (decide (ballot = act))
      | .ballot => z32 ballot
      | .count => ofN (Mask.lanes ballot).length
    Fired.now st { Effects.none with toks := both ta tb (x.scalRes false v) }

/-- match (06 R124): the fired lanes whose key equals the lane's. -/
def execMatchKeys (g : Guard) (s : ClsB) (ta tb : Target) (st : State) : Out :=
  fire "MATCH" st g [0] [] fun x =>
    let v (l : Nat) : DWord := z32 (maskOf fun j => x.has j && decide (s.read (x.av j) = s.read (x.av l)))
    Fired.now st { Effects.none with toks := both ta tb (x.vecRes false x.lanes v (x.crossPois fun _ => x.lanes)) }

/-- The identity and the combination of class RO (R366). -/
def roIdentity : ClsRo → Word
  | .minI32 => 0x7FFFFFFF | .maxI32 => 0x80000000 | .minN32 => 0xFFFFFFFF | .and => 0xFFFFFFFF | _ => 0

def roCombine (o : ClsRo) (a b : Word) : Word :=
  match o with
  | .addI32 => a + b
  | .minI32 => if s32 a ≤ s32 b then a else b
  | .maxI32 => if s32 a ≤ s32 b then b else a
  | .minN32 => if a.toNat ≤ b.toNat then a else b
  | .maxN32 => if a.toNat ≤ b.toNat then b else a
  | .and => a &&& b
  | .or => a ||| b
  | .xor => a ^^^ b

/-- op over the elements of a in the lanes of a set. -/
def roOver (o : ClsRo) (x : Fire) (m : Mask) : Word := (Mask.lanes m).foldl (fun v j => roCombine o v (x.aw j)) (roIdentity o)

/-- redux (R366): one scalar over all fired lanes, or with a mask each lane's own group. -/
def execRedux (g : Guard) (s : ClsRo) (ta tb : Target) (st : State) : Out :=
  fire "REDUX" st g [0] [] fun x =>
    let grp (l : Nat) : Mask := x.lanes &&& x.maskFor l
    let t := match x.c with
      | none => Token.scal false x.any (if x.any then z32 (roOver s x x.lanes) else 0) (decide (x.pois ≠ 0))
      | some _ => x.vecRes false x.lanes (fun l => z32 (roOver s x (grp l))) (x.crossPois grp)
    Fired.now st { Effects.none with toks := both ta tb t }

/-- scan (R367): the inclusive prefix over fired lanes of each lane's mask. -/
def execScan (g : Guard) (s : ClsRo) (ta tb : Target) (st : State) : Out :=
  fire "SCAN" st g [0] [] fun x =>
    let grp (l : Nat) : Mask := x.lanes &&& x.maskFor l &&& maskOf fun j => decide (j ≤ l)
    Fired.now st { Effects.none with
      toks := both ta tb (x.vecRes false x.lanes (fun l => z32 (roOver s x (grp l))) (x.crossPois grp)) }

/-- The relation of class LM (R368). -/
def lmRel (s : ClsLm) (j l : Nat) : Bool :=
  match s with
  | .self => decide (j = l) | .below => decide (j < l) | .upto => decide (j ≤ l) | .above => decide (l < j)
  | .onward => decide (l ≤ j)

/-- lmask (R368): the lanes in relation to each lane, within a where it is taken. -/
def execLmask (g : Guard) (s : ClsLm) (ta tb : Target) (st : State) : Out :=
  fire "LMASK" st g [] [] fun x =>
    let v (l : Nat) : DWord :=
      let m := maskOf fun j => lmRel s j l
      z32 (match x.a with | some a => m &&& a.w l | none => m)
    Fired.now st { Effects.none with toks := both ta tb (x.vecRes false x.lanes v x.pois) }

/-- bcast (R369): a scalar in every fired lane. -/
def execBcast (g : Guard) (s : ClsB) (ta tb : Target) (st : State) : Out :=
  fire "BCAST" st g [0] [] fun x =>
    Fired.now st { Effects.none with toks := both ta tb (x.vecRes s.wide x.lanes (fun l => ofN (s.read (x.av l))) x.pois) }

/-- mskz (R370): 0 in the lanes of the entry mask where a is null. -/
def execMskz (g : Guard) (ta tb : Target) (st : State) : Out :=
  fire "MSKZ" st g [0] [] fun x =>
    let lanes : Mask := if x.f.laneless then 0 else x.f.entry &&& guardPass g x.guard
    let v (l : Nat) : DWord := if (validOf x.a).getLsbD l then x.av l else 0
    Fired.now st { Effects.none with
      toks := both ta tb (Token.vect (isWide x.a) lanes v ((poisOf x.a ||| poisOf x.guard) &&& lanes)) }

end Sys2Proof.Machine
end

