-- ==== Sys2Proof/Machine/Cache.lean ====
section
/-!
DEFINITION. The memory hierarchy (09): the five paths and their caches (R181 to R183), the coherence classes (R185 to R188, 20 R464),
write-backs, pfence (R184), cwb and cinv (R186, 17 R430), the accesses of the host and of peers (R188, 14 R321, R332), and the
meanings of the events these make.
-/
namespace Sys2Proof.Machine

def dieOf (core : Nat) : Nat := core / 64

/-! ### What a die's L2 shows -/

def sLine (s : State) (die line : Nat) : Option SLine := s.cache.l2.find? fun l => decide (l.die = die) && decide (l.line = line)

/-- The byte a die sees behind its L1 caches: its own S-class line if it holds one, else the hub's copy. -/
def dieByte (s : State) (die pa : Nat) : Byte :=
  match sLine s die (pa / 128) with
  | some l => l.bytes.getD (pa % 128) 0
  | none => s.mem.byte pa

def dieBytes (s : State) (die pa : Nat) : Nat → List Byte
  | 0 => []
  | n + 1 => dieByte s die pa :: dieBytes s die (pa + 1) n

/-- A sector is poisoned in the copy a die sees behind its L1 caches: its L2's where it holds the line, else the hub's (18 R439). -/
def dieMark (s : State) (die : Nat) (cls : PageClass) (k : Nat) : Bool :=
  match cls with
  | .U => hubMark s k
  | .S => match sLine s die (k / 4) with | some l => l.pois.contains k | none => hubMark s k
  | .C =>
    match s.cache.dir.find? fun d => decide (d.die = die) && decide (d.line = k / 4) with
    | some d => d.pois.contains k
    | none => hubMark s k

/-- Some of n bytes are poisoned in the copy a die sees. -/
def dieBad (s : State) (die : Nat) (cls : PageClass) (pa n : Nat) : Bool := (secsOf pa n).any (dieMark s die cls)

/-- The die's L2 holds the line under the directory, or as an S-class line. -/
def l2Holds (s : State) (die line : Nat) : Bool :=
  (sLine s die line).isSome || s.cache.dir.any fun d => decide (d.die = die) && decide (d.line = line)

/-- The die's L2 serves an access without the hub: it holds the line, and exclusively where a C-class line is to be written (R185). -/
def l2Serves (s : State) (die line : Nat) (cls : PageClass) (write : Bool) : Bool :=
  match cls with
  | .U => false
  | .S => (sLine s die line).isSome
  | .C => s.cache.dir.any fun d => decide (d.die = die) && decide (d.line = line) && (!write || d.excl)

/-- An access of a core die reaches its data (14 R316): on a cut die only lines homed there that its L2 serves without the hub. -/
def coreReaches (s : State) (die pa : Nat) (cls : PageClass) (write : Bool) : Bool :=
  if linkDown s die then decide (homeDie s pa = some die) && l2Serves s die (pa / 128) cls write else reaches s (some die) pa

/-- The access is held behind a retraining link (14 R315): it needs the hub, or another die's stack, across it. -/
def coreHeld (s : State) (die pa : Nat) (cls : PageClass) (write : Bool) : Bool :=
  !l2Serves s die (pa / 128) cls write && (linkHeld s die || crossesHeld s (some die) pa)

/-! ### Lines, and the room for them (01 R7, R11; which line a full cache gives up, log 89) -/

/-- Lines of a core's L1 data cache: 192 KiB of 128 bytes. -/
def l1Lines : Nat := 1536
/-- Chunks of a core's block cache: 128 KiB of 64 bytes. -/
def icLines : Nat := 2048
/-- Lines of a core's scalar cache: 32 KiB of 64 bytes. -/
def kcLines : Nat := 512
/-- Lines of a die's L2: 256 MiB of 128 bytes. -/
def l2Lines : Nat := 2097152

/-- A line filled into its core's cache of `cap` lines. -/
def coreFill (cs : List CLine) (x : CLine) (cap : Nat) : List CLine :=
  let mine := cs.filter fun l => decide (l.core = x.core) && !(decide (l.ctx = x.ctx) && decide (l.line = x.line))
  x :: mine.take (cap - 1) ++ cs.filter fun l => decide (l.core ≠ x.core)

def dropL1 (s : State) (core line : Nat) : State :=
  { s with cache := { s.cache with l1 := s.cache.l1.filter fun l => !(decide (l.core = core) && decide (l.line = line)) } }

/-- The caches below the performing point are refreshed for an acquire of group scope or wider (R196): the L1 is emptied, so that every
later load of the core fills from the die L2. -/
def refreshL1 (s : State) (core : Nat) : State :=
  { s with cache := { s.cache with l1 := s.cache.l1.filter fun l => decide (l.core ≠ core) } }

/-! ### Write-backs of S-class lines (R186, R187) -/

/-- The hub merges the dirty bytes of a line into its copy. -/
def mergeDirty (m : Memory) (base : Nat) (dirty : BitVec 128) : List Byte → Nat → Memory
  | [], _ => m
  | b :: r, k => mergeDirty (if dirty.getLsbD k then m.setByte (base + k) b else m) base dirty r (k + 1)

/-- The marks of the hub's copy after the merge, each sector as after a write of its dirty bytes (18 R440). -/
def mergeMarks (s : State) (l : SLine) : List Nat :=
  ((List.range 4).map (· + 4 * l.line)).filter fun k =>
    let sent := (List.range 32).countP fun j => l.dirty.getLsbD (k % 4 * 32 + j)
    if sent = 0 then hubMark s k else l.pois.contains k || (hubMark s k && decide (sent < 32))

/-- Bytes owed by a warp, a copy or a partition are lost behind a down link (14 R316): the warp's group ends halted (R317), the copy ends with
LINK_LOST, and the sectors it was known to have completed at its barrier's scope are its count (11 R237). -/
def loseDebts (s : State) (at_ : Nat) (ds : List Debt) : State :=
  ds.foldl (fun s d =>
    match d with
    | .warp w => match getWarp s w with | some x => modGroup s x.gid fun g => { g with lost := true } | none => s
    | .group g => modGroup s g fun x => { x with lost := true }
    | .copy c =>
      { s with copies := s.copies.map fun e =>
          if e.1 = c ∧ e.2.ended.isNone then
            (c, { e.2 with ended := some (Code.linkLost, BitVec.ofNat 32 e.2.low, BitVec.ofNat 64 at_) }) else e }
    | .part _ => s) s

/-- Write back one line of a die; the mask clears. Behind a down link the bytes are lost (14 R316). The bytes sent are charged to the context
that wrote the line last (03 R58). -/
def writeBack (s : State) (die line : Nat) : State :=
  match sLine s die line with
  | none => s
  | some l =>
    let s := { s with cache := { s.cache with
      l2 := s.cache.l2.map fun x => if x.die = die ∧ x.line = line then { x with dirty := 0, debts := [] } else x } }
    if l.dirty = 0 then s
    else if linkDown s die || !reaches s (some die) (line * 128) then loseDebts s (line * 128) l.debts
    else
      let n := (List.range 128).countP fun k => l.dirty.getLsbD k
      let s := chargeBytes (hubTouch (linkBytes s die l.ctx n) l.ctx line) l.ctx n
      setMarks { s with mem := mergeDirty s.mem (line * 128) l.dirty l.bytes 0 } line (mergeMarks s l)

/-- Discard a line from a die's L2 and from the L1 caches of its cores. -/
def discardLine (s : State) (die line : Nat) : State :=
  { s with cache := { s.cache with
      l2 := s.cache.l2.filter fun x => !(decide (x.die = die) && decide (x.line = line))
      l1 := s.cache.l1.filter fun x => !(decide (dieOf x.core = die) && decide (x.line = line)) } }

/-- A die L2 evicts an S-class line, writing its dirty bytes back first. -/
def evictS (s : State) (die line : Nat) : State :=
  let s := writeBack s die line
  { s with cache := { s.cache with l2 := s.cache.l2.filter fun x => !(decide (x.die = die) && decide (x.line = line)) } }

/-- The marks of the copy that a die holds exclusively come back to the hub (R185). -/
def giveBack (s : State) (p : DirLine → Bool) : State :=
  (s.cache.dir.filter fun d => d.excl && p d).foldl (fun s d => setMarks s d.line d.pois) s

/-- A die's hold of a C-class line ends, with the L1 copies of its cores. -/
def dropHold (s : State) (die line : Nat) : State :=
  let s := giveBack s fun d => decide (d.die = die) && decide (d.line = line)
  { s with cache := { s.cache with
      dir := s.cache.dir.filter fun x => !(decide (x.die = die) && decide (x.line = line))
      l1 := s.cache.l1.filter fun x => !(decide (dieOf x.core = die) && decide (x.line = line)) } }

/-- Room for one more line in a die's L2: a full one evicts a line of its choice. -/
def l2Room (s : State) (die : Nat) : State :=
  let sl := s.cache.l2.filter fun l => decide (l.die = die)
  let cl := s.cache.dir.filter fun d => decide (d.die = die)
  if sl.length + cl.length < l2Lines then s
  else
    let k := Config.order s.tick die % (sl.length + cl.length)
    match sl[k]?, cl[k - sl.length]? with
    | some l, _ => evictS s die l.line
    | none, some d => dropHold s die d.line
    | none, none => s

/-- Fill an S-class line into a die L2 from the hub (20 R464). -/
def fillS (s : State) (die ctx line : Nat) : State :=
  if (sLine s die line).isSome then s
  else
    let s := l2Room s die
    { s with cache := { s.cache with l2 := ⟨die, line, s.mem.bytes (line * 128) 128, 0, [], ctx, lineMarks s line⟩ :: s.cache.l2 } }

/-- A die takes a shared hold of a C-class line. -/
def holdShared (s : State) (die line : Nat) : State :=
  if s.cache.dir.any fun d => decide (d.die = die) && decide (d.line = line) then s
  else
    let s := giveBack (l2Room s die) fun d => decide (d.line = line)
    { s with cache := { s.cache with
      dir := ⟨die, line, false, lineMarks s line⟩ :: s.cache.dir.map fun d => if d.line = line then { d with excl := false } else d } }

/-- The hub holds the ownership of a host-window line (14 R322). -/
def ownLine (s : State) (line : Nat) : State :=
  if windowOf s (line * 128) = some .host then { s with cache := { s.cache with own := nins s.cache.own line } } else s

/-- A die takes a C-class line exclusively; the other dies' copies are invalidated (R185), and the hub first takes a host-window line from
the host (14 R322). -/
def holdExcl (s : State) (die line : Nat) : State :=
  let own := s.cache.dir.find? fun d => decide (d.die = die) && decide (d.line = line)
  let s := if own.isSome then s else l2Room (ownLine s line) die
  let s := giveBack (ownLine s line) fun d => decide (d.line = line) && decide (d.die ≠ die)
  let marks := match own with | some d => d.pois | none => lineMarks s line
  let gone (l : CLine) : Bool := decide (l.line = line) && decide (dieOf l.core ≠ die)
    && s.cache.dir.any fun d => decide (d.die = dieOf l.core) && decide (d.line = line)
  { s with cache := { s.cache with
      dir := ⟨die, line, true, marks⟩ :: s.cache.dir.filter fun d => d.line ≠ line
      l1 := s.cache.l1.filter fun l => !gone l } }

/-- An access of a die L2 (18 R456, entry 8); one that it does not serve goes to the hub (R454, event 6). -/
def l2Access (s : State) (die ctx : Nat) (cls : PageClass) (line : Nat) (hit : Bool) : State :=
  let s := spend s die ctx 8 1
  if hit then s else hubMove (countEvent s die ctx 6 1) (some die) ctx cls (line * 128) 128

/-- A die L2 that misses a line fills it for a read, from the hub. -/
def l2Fill (s : State) (die ctx : Nat) (cls : PageClass) (line : Nat) : State :=
  let s := l2Access s die ctx cls line (l2Holds s die line)
  if cls = .S then fillS s die ctx line else holdShared s die line

/-- A die L2 readied for a write: an S-class line filled, a C-class line held exclusively. -/
def l2Take (s : State) (die ctx : Nat) (cls : PageClass) (line : Nat) : State :=
  let s := l2Access s die ctx cls line (l2Serves s die line cls true)
  if cls = .S then fillS s die ctx line else holdExcl s die line

/-- The L1 line of a core, while it is still held (R182). -/
def l1Line (s : State) (core line : Nat) : Option CLine :=
  s.cache.l1.find? fun l => decide (l.core = core) && decide (l.line = line) && Config.holds s.tick line

/-! ### The D path (R182, R185). The class is that in effect: U in a peer aperture (14 R333) -/

/-- The marks of the copy of a line that a die sees. -/
def dieMarks (s : State) (die : Nat) (cls : PageClass) (line : Nat) : List Nat :=
  ((List.range 4).map (· + 4 * line)).filter (dieMark s die cls)

/-- Bytes read, and the poisoned sectors of the copy they were read from. -/
abbrev Read := List Byte × List Nat

/-- Some of n bytes at pa lie in one of the sectors. -/
def badAt (secs : List Nat) (pa n : Nat) : Bool := (secsOf pa n).any fun k => secs.contains k

/-- A load of n bytes within one line by a core: U-class at the hub, others through L1, which they fill from the die L2. -/
def loadD (s : State) (core ctx : Nat) (cls : PageClass) (pa n : Nat) : Read × State :=
  let line := pa / 128
  let die := dieOf core
  match cls with
  | .U => ((s.mem.bytes pa n, lineMarks s line), hubMove s (some die) ctx .U pa n)
  | cls =>
    let s := spend s die ctx 7 1
    match l1Line s core line with
    | some l => (((l.bytes.drop (pa % 128)).take n, l.pois), s)
    | none =>
      let s := l2Fill (countEvent (dropL1 s core line) die ctx 5 1) die ctx cls line
      let bs := dieBytes s die (line * 128) 128
      let marks := dieMarks s die cls line
      (((bs.drop (pa % 128)).take n, marks),
        { s with cache := { s.cache with l1 := coreFill s.cache.l1 ⟨core, ctx, line, bs, marks⟩ l1Lines } })

/-- Replace bytes of a list from an offset. -/
def patch (l : List Byte) (off : Nat) (bs : List Byte) : List Byte := l.take off ++ bs ++ l.drop (off + bs.length)

/-- The part of n bytes at pa that lies in a line: its offset in the line, and where it begins and ends in the bytes. -/
def linePart (pa n line : Nat) : Nat × Nat × Nat :=
  let lo := max pa (line * 128)
  (lo - line * 128, lo - pa, min (pa + n) (line * 128 + 128) - pa)

/-- An S-class line with bytes written into it: their mask bits are set, and they are owed to their writer. -/
def SLine.write (l : SLine) (pa : Nat) (bs : List Byte) (bad : Bool) (who : Debt) (ctx : Nat) : SLine :=
  let (off, lo, hi) := linePart pa bs.length l.line
  { l with
    bytes := patch l.bytes off ((bs.take hi).drop lo)
    dirty := l.dirty ||| BitVec.ofNat 128 ((2 ^ (hi - lo) - 1) * 2 ^ off)
    debts := if l.debts.contains who then l.debts else who :: l.debts
    ctx := ctx
    pois := markLine l.pois l.line pa bs.length bad }

/-- Bytes written in a die, with the marks of the copy they are written to: U-class at the hub; C-class with the line held exclusively; S-class
into the die's line, marking the dirty bytes (R185, R464). -/
def storeDie (s : State) (die ctx : Nat) (who : Debt) (cls : PageClass) (pa : Nat) (bs : List Byte) (bad : Bool) : State :=
  match cls with
  | .U => hubWrite (hubMove s (some die) ctx .U pa bs.length) pa bs bad
  | .C =>
    let ls := linesOf pa bs.length
    let s := ls.foldl (fun s l => l2Take s die ctx .C l) s
    let upd (d : DirLine) : DirLine :=
      if d.die = die ∧ ls.contains d.line then { d with pois := markLine d.pois d.line pa bs.length bad } else d
    { s with mem := s.mem.setBytes pa bs, cache := { s.cache with dir := s.cache.dir.map upd } }
  | .S =>
    let ls := linesOf pa bs.length
    let s := ls.foldl (fun s l => l2Take s die ctx .S l) s
    let upd (l : SLine) : SLine := if l.die = die ∧ ls.contains l.line then l.write pa bs bad who ctx else l
    { s with cache := { s.cache with l2 := s.cache.l2.map upd } }

/-- The core's own L1 copy of the bytes of a store within one line is updated (R182). -/
def updateL1 (s : State) (core pa : Nat) (bs : List Byte) (bad : Bool) : State :=
  let upd (l : CLine) : CLine :=
    if l.core = core ∧ l.line = pa / 128 then
      { l with bytes := patch l.bytes (pa % 128) bs, pois := markLine l.pois l.line pa bs.length bad }
    else l
  { s with cache := { s.cache with l1 := s.cache.l1.map upd } }

/-- A store of a core within one line: it performs in the die and updates the core's own L1 copy; it allocates no L1 line (R182). -/
def storeD (s : State) (core ctx : Nat) (who : Debt) (cls : PageClass) (pa : Nat) (bs : List Byte) (bad : Bool) : State :=
  updateL1 (storeDie (spend s (dieOf core) ctx 7 1) (dieOf core) ctx who cls pa bs bad) core pa bs bad

/-- A read-modify-write is made at the hub, which first takes a line of host memory from the host (14 R322). -/
def hubAtomic (s : State) (die ctx : Nat) (cls : PageClass) (pa : Nat) (bs : List Byte) (bad : Bool) : State :=
  hubWrite (hubMove (ownLine s (pa / 128)) (some die) ctx cls pa bs.length) pa bs bad

/-- The address lies in host memory, not in a peer's (14 R322, R333). -/
def inHost (s : State) (pa : Nat) : Bool := decide (windowOf s pa = some .host) && decide (routeOf s pa = none)

/-- The write of an atomic of a core. On host memory it performs at the hub under the hub's ownership, whatever the class (14 R322). -/
def atomicD (s : State) (core ctx : Nat) (who : Debt) (cls : PageClass) (pa : Nat) (bs : List Byte) (bad : Bool) : State :=
  if inHost s pa then hubAtomic s (dieOf core) ctx cls pa bs bad else storeD s core ctx who cls pa bs bad

/-- The value an atomic of a core meets and, through `atomicD`, replaces. -/
def atomicRead (s : State) (core : Nat) (cls : PageClass) (pa n : Nat) : List Byte :=
  match cls with
  | .S => dieBytes s (dieOf core) pa n
  | _ => s.mem.bytes pa n

/-- The bytes an atomic reads carry poison. -/
def atomicBad (s : State) (core : Nat) (cls : PageClass) (pa n : Nat) : Bool :=
  if inHost s pa then poisonedAt s pa n else dieBad s (dieOf core) cls pa n

/-- Some S-class bytes of a writer rest dirty in a die L2: its stores have not all performed at device scope (R193). -/
def owes (s : State) (d : Debt) : Bool := s.cache.l2.any fun l => l.debts.contains d

/-! ### The K and I paths (R181 to R183): 64-byte lines tagged with the context -/

def lineOf (cs : List CLine) (s : State) (core ctx line : Nat) : Option CLine :=
  cs.find? fun l => decide (l.core = core) && decide (l.ctx = ctx) && decide (l.line = line) && Config.holds s.tick line

/-- The 64 bytes of a K or I line, behind the core's cache: from the die L2, which it fills, or for a U-class page from the hub. -/
def behindCore (s : State) (core ctx : Nat) (cls : PageClass) (line : Nat) : Read × State :=
  match cls with
  | .U => ((s.mem.bytes (line * 64) 64, lineMarks s (line / 2)), hubMove s (some (dieOf core)) ctx .U (line * 64) 64)
  | cls =>
    let s := l2Fill s (dieOf core) ctx cls (line / 2)
    ((dieBytes s (dieOf core) (line * 64) 64, dieMarks s (dieOf core) cls (line / 2)), s)

/-- Read n bytes within one 64-byte line on the K path, filling the scalar cache whole; a U-class page is not held there (17 R422). -/
def loadK (s : State) (core ctx : Nat) (cls : PageClass) (pa n : Nat) : Read × State :=
  let line := pa / 64
  match cls, lineOf s.cache.kc s core ctx line with
  | .U, _ => ((s.mem.bytes pa n, lineMarks s (pa / 128)), hubMove s (some (dieOf core)) ctx .U pa n)
  | _, some l => (((l.bytes.drop (pa % 64)).take n, l.pois), s)
  | cls, none =>
    let ((bs, marks), s) := behindCore s core ctx cls line
    (((bs.drop (pa % 64)).take n, marks), { s with cache := { s.cache with kc := coreFill s.cache.kc ⟨core, ctx, line, bs, marks⟩ kcLines } })

/-- Read one chunk on the I path, filling the block cache whole, but for a U-class page (R185). -/
def loadI (s : State) (core ctx : Nat) (cls : PageClass) (pa : Nat) : Read × State :=
  let line := pa / 64
  match cls, lineOf s.cache.ic s core ctx line with
  | .U, _ => behindCore s core ctx .U line
  | _, some l => ((l.bytes, l.pois), s)
  | cls, none =>
    let ((bs, marks), s) := behindCore s core ctx cls line
    ((bs, marks), { s with cache := { s.cache with ic := coreFill s.cache.ic ⟨core, ctx, line, bs, marks⟩ icLines } })

/-- Invalidate a context's lines of the named paths on every core (R184): bit 0 D, 1 K, 2 I. R182 tags no line of the L1 caches with a context:
the lines held there for one are those that its loads filled (log 111). Images fetched and not yet mapped go with the block cache. -/
def invalidatePaths (s : State) (ctx : Nat) (mask : BitVec 5) : State :=
  let keep (on : Bool) (l : List CLine) := if on then l.filter fun x => x.ctx ≠ ctx else l
  let drop (w : Warp) : Warp := if w.ctx = ctx ∧ mask.getLsbD 2 then { w with image := none } else w
  { s with
    cache := { s.cache with
      l1 := keep (mask.getLsbD 0) s.cache.l1, kc := keep (mask.getLsbD 1) s.cache.kc, ic := keep (mask.getLsbD 2) s.cache.ic }
    warps := s.warps.map fun e => (e.1, drop e.2) }

/-- EVICTION_WRITEBACK: a die L2 evicts an S-class line, writing its dirty bytes back (R186, R187); across a retraining link it waits. -/
def execEvictionWriteback (die : BitVec 2) (line : Nat) (s : State) : Out :=
  match sLine s die.toNat line with
  | none => notDue "EVICTION_WRITEBACK"
  | some _ =>
    if linkHeld s die.toNat || crossesHeld s (some die.toNat) (line * 128) then notDue "EVICTION_WRITEBACK"
    else .next (evictS s die.toNat line)

/-! ### Asynchronous operations of a warp, in issue order -/

/-- An older pfence of the warp is still running: commands issued after it are held back (R184). -/
def pfenceBefore (s : State) (warp seq : Nat) (p : BitVec 5 → Bool) : Bool :=
  s.jobs.any fun e => decide (e.2.warp = warp) && decide (e.2.seq < seq) && (match e.2.job with | .pfence m _ => p m | _ => false)

/-- An older cwb or cinv of the warp has not completed: its write-backs count as stores of its block (R186). -/
def maintBefore (s : State) (warp seq : Nat) : Bool :=
  s.jobs.any fun e => decide (e.2.warp = warp) && decide (e.2.seq < seq) && (match e.2.job with | .maint .. => true | _ => false)

/-- A store of the warp to a stepped region, issued before, has not yet performed. -/
def storesBefore (s : State) (warp seq : Nat) (num : Option Nat) : Bool :=
  s.jobs.any fun e => decide (e.2.warp = warp) && decide (e.2.seq < seq) &&
    (match e.2.job with | .store _ _ g => (match num with | some n => decide (g / 2 ^ 32 = n) | none => true) | _ => false)

def dropJob (s : State) (id : Nat) : State := { s with jobs := tdel s.jobs id }

/-- What a warp's asynchronous operation needs the hub for is held while its die's link retrains (14 R315). -/
def warpHeld (s : State) (w : Nat) : Bool := match getWarp s w with | some x => linkHeld s (dieOf x.core) | none => false

/-- PFENCE_COMPLETE (R184): the stores of its block and of the warp's earlier ones have performed at device scope, those to S-class lines by
their write-back (R193), older pfences of the warp have completed (R201), and the lines of the named paths are invalidated; its counters
are lowered and waitc released. -/
def execPfenceComplete (id : Nat) (s : State) : Out :=
  match tget s.jobs id with
  | some ⟨w, _, ctx, seq, .pfence mask _⟩ =>
    if pfenceBefore s w seq (fun _ => true) || maintBefore s w seq || storesBefore s w seq none || owes s (.warp w) || warpHeld s w then
      notDue "PFENCE_COMPLETE"
    else .next (countersDone (dropJob (invalidatePaths s ctx mask) id) w id)
  | _ => notDue "PFENCE_COMPLETE"

/-- The first of a list of lines whose dirty bytes a die cannot write back (14 R316). -/
def lostLine (s : State) (die : Nat) (lines : List Nat) : Option Nat :=
  lines.find? fun l => (match sLine s die l with | some x => decide (x.dirty ≠ 0) | none => false)
    && (linkDown s die || !reaches s (some die) (l * 128))

/-- CACHE_MAINT_COMPLETE: a cwb or cinv writes its lines back and, for cinv, discards them; counter D is lowered (R186, R240). The
job's list names the physical lines of its range, found when it was issued. Where a line's bytes are lost behind a down link the group
takes LINK_LOST, or if it is retiring does not retire (14 R316, R317). -/
def execCacheMaintComplete (id : Nat) (s : State) : Out :=
  match tget s.jobs id with
  | some ⟨w, gid, _, _, .maint inv lines⟩ =>
    match getWarp s w with
    | some x =>
      let die := dieOf x.core
      if lines.any fun l => (sLine s die l).isSome && (linkHeld s die || crossesHeld s (some die) (l * 128)) then
        notDue "CACHE_MAINT_COMPLETE"
      else
        let lost := lostLine s die lines
        let s := lines.foldl (fun s l => let s := writeBack s die l; if inv then discardLine s die l else s) s
        let s := countersDone (dropJob s id) w id
        match lost, getWarp s w with
        | some l, some x =>
          .next (modGroup (fatalGroup s w x Code.linkLost (BitVec.ofNat 64 (l * 128)) 0) gid fun g => { g with lost := true })
        | _, _ => .next s
    | none => .next (dropJob s id)
  | _ => notDue "CACHE_MAINT_COMPLETE"

/-! ### Atomic operations (02 R42); addition of .f32 is `addF32` of Machine/Flags.lean, given as an argument -/

/-- The value an atomic leaves, at width 32 or 64, from the memory value d and the operand b. -/
def atomResult (addF32 : Word → Word → Word) (op : AtomOp) (wide : Bool) (d b : DWord) : DWord :=
  let n := if wide then 64 else 32
  let x := d.toNat % 2 ^ n
  let y := b.toNat % 2 ^ n
  let z : Nat := match op with
    | .add => (x + y) % 2 ^ n
    | .minS => if sextN x n ≤ sextN y n then x else y
    | .maxS => if sextN x n ≤ sextN y n then y else x
    | .minU => min x y
    | .maxU => max x y
    | .and => Nat.land x y
    | .or => Nat.lor x y
    | .xor => Nat.xor x y
    | .exch => y
    | .inc => if x ≥ y then 0 else x + 1
    | .dec => if x = 0 ∨ x > y then y else x - 1
    | .addF32 => (addF32 (BitVec.ofNat 32 x) (BitVec.ofNat 32 y)).toNat
  BitVec.ofNat 64 z

/-! ### Host and peer accesses (14 R321, R332, 09 R188) -/

/-- The physical address of a host offset through the HDM decoder (14 R321). -/
def hdmAddr (s : State) (off : Nat) : Option Nat :=
  let spread := stackCount s.ident.is768 * s.split * gib
  let per := stacksPerDie s.ident.is768 * (64 - s.split) * gib
  if off < spread then some off
  else if per = 0 then none
  else
    let k := (off - spread) / per
    if k < 4 then some (dieBase k + (off - spread) % per) else none

/-- An access through CXL.mem: it performs at the hub at system scope; die copies of its C-class lines are recalled, S-class copies are
untouched. One that crosses a retraining link is held (R313). An offset past the installed capacity has no address. -/
def busAccess (addF32 : Word → Word → Word) (op : BusOp) (m : String) (s : State) : Out :=
  if s.start.state ≠ .ready then notDue m
  else
    match op with
    | .read off len =>
      match hdmAddr s off with
      | some pa =>
        if spanHeld s pa len then notDue m
        else if hubCan s pa len then .next { s with hostRead := s.mem.bytes pa len } else .next { s with hostRead := [] }
      | none => .fault (.outsideEveryWindow off)
    | .write off data =>
      match hdmAddr s off with
      | some pa => .next (hubOwed s pa data)
      | none => .fault (.outsideEveryWindow off)
    | .atomic op off wide b =>
      let n := if wide then 8 else 4
      match hdmAddr s off with
      | some pa =>
        if spanHeld s pa n then notDue m
        else if hubCan s pa n ∧ pa % n = 0 then
          let old := s.mem.bytes pa n
          let new := atomResult addF32 op wide (BitVec.ofNat 64 (leNat old)) b
          .next { hubWrite s pa (leBytes new.toNat n) with hostRead := old }
        else .next { s with hostRead := [] }
      | none => .fault (.outsideEveryWindow off)

/-- HOST_SNOOP: the host takes the ownership of a host-window line back, and the die copies are recalled (14 R322); the bytes it then
stores perform at the hub (09 R188). -/
def execHostSnoop (x : HostTake) (s : State) : Out :=
  let line := x.line
  if windowOf s (line * 128) = some .host ∧ routeOf s (line * 128) = none ∧ portUp s none ∧ x.off + x.data.length ≤ 128 then
    let s := recallLines s fun l => decide (l = line)
    let s := { s with cache := { s.cache with own := s.cache.own.filter (· ≠ line), hub := s.cache.hub.filter fun h => h.line ≠ line } }
    .next (memPut s (line * 128 + x.off) x.data false)
  else notDue "HOST_SNOOP"

end Sys2Proof.Machine
end

