-- ==== Sys2Proof/Machine/Cell.lean ====
section
/-!
DEFINITION. The barrier cell (11): the operations on its eight words (R224 to R231, R244 to R246), where a cell lies (R223), the
waking of its waiters (R243), the order of one warp's operations on a cell (20 R461), the arrivals the hub owes (12 R480), and the
meaning of BAR_ARRIVAL.
-/
namespace Sys2Proof.Machine

/-- A cell's fields (R224). Word 3 is software's. -/
structure BCell where
  pend   : Nat
  err    : Bool
  armed  : Bool
  phase  : Nat
  sect   : Nat
  live   : Bool
  scope  : Nat
  reload : Nat
  soft   : Word
  which  : Bool
  code   : Nat
  count  : Word
  detail : DWord
deriving DecidableEq, Repr

def BCell.ofWords (ws : List Word) : BCell :=
  let w (k : Nat) : Word := ws.getD k 0
  { pend := wbits (w 0) 31 8, err := (w 0).getLsbD 5, armed := (w 0).getLsbD 4, phase := wbits (w 0) 3 0, sect := (w 1).toNat,
    live := (w 2).getLsbD 31, scope := wbits (w 2) 26 24, reload := wbits (w 2) 23 0, soft := w 3,
    which := (w 4).getLsbD 8, code := wbits (w 4) 7 0, count := w 5, detail := w 7 ++ w 6 }

def BCell.word0 (c : BCell) : Word :=
  BitVec.ofNat 32 (c.pend * 256 + c.err.toNat * 32 + c.armed.toNat * 16 + c.phase)
def BCell.word2 (c : BCell) : Word := BitVec.ofNat 32 (c.live.toNat * 2 ^ 31 + c.scope * 2 ^ 24 + c.reload)
def BCell.word4 (c : BCell) : Word := BitVec.ofNat 32 (c.which.toNat * 256 + c.code)

def BCell.toWords (c : BCell) : List Word :=
  [c.word0, BitVec.ofNat 32 c.sect, c.word2, c.soft, c.word4, c.count, lo32 c.detail, hi32 c.detail]

/-! ### Operations (R227 to R231, R246) -/

/-- The completion test (R227): a flip is part of the same operation. -/
def BCell.test (c : BCell) : BCell :=
  if c.live ∧ c.armed ∧ c.pend = 0 ∧ c.sect = 0 then
    { c with phase := (c.phase + 1) % 16, armed := false, pend := c.reload, sect := 0 }
  else c

/-- A status write (R229): the first nonzero code stays. -/
def BCell.status (c : BCell) (which : Bool) (code : Nat) (count : Word) (detail : DWord) : BCell :=
  if code ≠ 0 then
    let c := if c.code = 0 then { c with which := which, code := code, count := count, detail := detail } else c
    { c with err := true }
  else if c.code = 0 then { c with count := count, detail := detail }
  else c

/-- An arrival of n (R228, R231). -/
def BCell.arrive (c : BCell) (n : Nat) : BCell :=
  if !c.live then c
  else if n ≤ c.pend then { c with armed := true, pend := c.pend - n }.test
  else ({ c with armed := true, pend := 0 }.status false Code.overrun (BitVec.ofNat 32 (n - c.pend)) 0).test

/-- A completion of m sectors of the copy with this descriptor address (R228). -/
def BCell.sectors (c : BCell) (m : Nat) (desc : DWord) : BCell :=
  if !c.live then c
  else if m ≤ c.sect then { c with sect := c.sect - m }.test
  else ({ c with armed := true, sect := 0 }.status true Code.overrun (BitVec.ofNat 32 (m - c.sect)) desc).test

/-- An expectation of n, saturating (R231). -/
def BCell.expect (c : BCell) (n : Nat) : BCell :=
  if !c.live then c
  else if c.pend + n ≤ 0xFFFFFF then { c with armed := true, pend := c.pend + n }.test
  else ({ c with armed := true, pend := 0xFFFFFF }.status false Code.barSat (BitVec.ofNat 32 n) 0).test

/-- A copy issue of S sectors, saturating; it makes no completion test (R231). -/
def BCell.issue (c : BCell) (S : Nat) : BCell :=
  if !c.live then c
  else if c.sect + S ≤ 0xFFFFFFFF then { c with armed := true, sect := c.sect + S }
  else { c with armed := true, sect := 0xFFFFFFFF }.status false Code.barSat (BitVec.ofNat 32 S) 0

/-- Initialise (R231): the phase stays where it stood. -/
def BCell.init (c : BCell) (n : Nat) (scope : Nat) : BCell :=
  { c with
    armed := false, err := false, pend := n, reload := n, sect := 0, scope := scope, live := true
    which := false, code := 0, count := 0, detail := 0 }

/-- Clear the status if word 4 still is what was read (R245). -/
def BCell.clear (c : BCell) (word4 : Word) : BCell :=
  if c.live ∧ c.word4 = word4 then { c with which := false, code := 0, count := 0, detail := 0, err := false } else c

/-- Invalidate (R246). -/
def BCell.invalidate (c : BCell) : BCell :=
  if c.live then
    { c.status false Code.barDead (BitVec.ofNat 32 c.pend) 0 with
      phase := (c.phase + 1) % 16, live := false, armed := false, pend := 0, sect := 0 }
  else c

/-- A status write on a live cell; on a dead one it is discarded (R246). -/
def BCell.report (c : BCell) (code : Nat) (count : Word) (detail : DWord) : BCell :=
  if c.live then c.status false code count detail else c

/-! ### Where a cell lies (R223) -/

inductive CellAt where
  | glob (pa : Nat)
  | spad (gid addr : Nat)
deriving DecidableEq, Repr

/-- Why an operand names no usable cell: its form, place or class, with the level at which the walk ended and the leaf it read, if a walk was
made (12 R262); a translation fault; a walk that runs into a cut link. -/
inductive CellBad where
  | operand (level : Nat) (e : DWord) | xlat (f : XFault) | cut (va : Nat)
deriving DecidableEq, Repr

def opSpad (op : DWord) : Bool := op.getLsbD 63

/-- A group scratchpad span lies within one core rank's share (06 R113). -/
def inShare (g : Group) (addr n : Nat) : Bool :=
  decide (addr < 2 ^ 22) && decide (addr / 2 ^ 19 < g.C) && decide (addr % 2 ^ 19 + n ≤ g.S)

/-- Storage bytes of a region (10 R203). -/
def storageBytes (k : RKind) (n : Nat) : Nat :=
  match k with
  | .plain => 4 * n
  | .stepped => 8 * n + (n + 511) / 512 * 128
  | .prio => 12 * n + (n + 511) / 512 * 128

def Region.storage (r : Region) : Nat := storageBytes r.kind r.size
def Region.active (r : Region) : Bool := decide (r.state = .defined) || decide (r.state = .stepping)

/-- A span touches the storage of an active region. -/
def Region.touches (r : Region) (addr n : Nat) : Bool :=
  r.active && decide (addr < r.base + r.storage) && decide (r.base < addr + n)

/-- Find the cell an operand names: R223's form, place and class, and the rights the operation needs. `gid` is the group whose
scratchpad is meant; none for the hub. -/
def findCell (s : State) (ctx : Nat) (gid : Option Nat) (op : DWord) (a : Acc) : Except CellBad CellAt :=
  if opSpad op then
    match gid.bind (getGroup s) with
    | some g =>
      let addr := bitsOf op.toNat 31 0
      if bitsOf op.toNat 62 32 ≠ 0 ∨ addr % 32 ≠ 0 ∨ !inShare g addr 32 ∨ g.regions.any (fun r => r.touches addr 32) then .error (.operand 0 0)
      else .ok (.spad (gid.getD 0) addr)
    | none => .error (.operand 0 0)
  else
    let va := op.toNat
    if 2 ^ 52 ≤ va ∨ va % 32 ≠ 0 then .error (.operand 0 0)
    else
      match hubXlate s ctx va a with
      | .ok pa cls e level => if effClass s pa cls = .C then .ok (.glob pa) else .error (.operand level e)
      | .bad f => .error (.xlat f)
      | .cut => .error (.cut va)

def readCell (s : State) : CellAt → BCell
  | .glob pa => BCell.ofWords (wordsOf (hubBytes s pa 32))
  | .spad g a =>
    match getGroup s g with
    | some g => BCell.ofWords (wordsOf (spadBytes g a 32))
    | none => BCell.ofWords []

/-- Write a cell; the hub makes a global one's operation, for the context (03 R58). -/
def writeCell (s : State) (ctx : Nat) (at_ : CellAt) (c : BCell) : State :=
  match at_ with
  | .glob pa => hubOwedFor s ctx pa (bytesOfWords c.toWords)
  | .spad g a => modGroup s g fun g => spadWrite g a (bytesOfWords c.toWords)

/-! ### Waiters (R243) -/

/-- The warp's group is swapped out or saved: its waits are tested afresh when it is placed again (03 R67). -/
def groupOut (s : State) (gid : Nat) : Bool :=
  match getGroup s gid with | some g => decide (g.state = .waiting) | none => false

/-- A waiting warp's cell. -/
def waitCell (s : State) (w : Warp) : Option (CellAt × Nat) :=
  match w.state, w.wait with
  | .waiting, .bar op ph =>
    if groupOut s w.gid then none else
    match findCell s w.ctx (some w.gid) op accRead with
    | .ok at_ => some (at_, ph.toNat)
    | .error _ => none
  | _, _ => none

/-- Release every warp that waits on the cell and whose condition no longer holds: live and at the phase waited past. -/
def wakeCell (s : State) (at_ : CellAt) : State :=
  let c := readCell s at_
  s.warps.foldl (fun s e =>
    match waitCell s e.2 with
    | some (a, ph) => if a = at_ ∧ !(c.live && decide (c.phase = ph)) then wakeWarp s e.1 c.scope else s
    | none => s) s

/-- One indivisible operation on a cell, and the release of its waiters (R226). -/
def onCell (s : State) (ctx : Nat) (at_ : CellAt) (f : BCell → BCell) : State :=
  wakeCell (writeCell s ctx at_ (f (readCell s at_))) at_

/-- The cell on a remote stack of a cut die: an operation on it is dropped (14 R316). -/
def cellCut (s : State) (at_ : CellAt) : Bool :=
  match at_ with
  | .glob pa => !hubCan s pa 32
  | .spad .. => false

/-- The hub's walk to a global cell is charged to the context (03 R58). -/
def walkCell (s : State) (ctx : Nat) (op : DWord) : State := if opSpad op then s else chargeWalk s ctx op.toNat

/-- An operation on the cell an operand names, for an operand checked before; one whose cell can no longer be found is dropped. -/
def onOperand (s : State) (ctx : Nat) (gid : Option Nat) (op : DWord) (f : BCell → BCell) : State :=
  match findCell s ctx gid op accAtomic with
  | .ok at_ => onCell (walkCell s ctx op) ctx at_ f
  | .error _ => s

/-- An arrival with a status that the hub owes (04 R87, 05 R95): dropped with a record of source 8 where it cannot be made
(12 R480); one whose walk runs into a cut link is dropped, and the context faults (14 R316, R318). -/
def hubArrive (s : State) (ctx : Nat) (kid : Word) (op : DWord) (code : Nat) (count : Word) (detail : DWord) : State :=
  let r := findCell s ctx none op accAtomic
  let s := walkCell s ctx op
  match r with
  | .ok at_ => if cellCut s at_ then writeCell s ctx at_ (readCell s at_)
    else onCell s ctx at_ fun c => if c.live then (c.status false code count detail).arrive 1 else c
  | .error (.xlat f) => dropOwed s ctx kid f op
  | .error (.operand level e) => dropOwed s ctx kid ⟨Code.barOperand, accAtomic, level, e, op.toNat⟩ op
  | .error (.cut _) => contextFault s ctx

/-! ### One warp's operations on a cell take effect in the order issued (20 R461) -/

def sameCell (s : State) (w : Warp) (a b : DWord) : Bool :=
  decide (a = b) ||
    (match findCell s w.ctx (some w.gid) a accRead, findCell s w.ctx (some w.gid) b accRead with
     | .ok x, .ok y => decide (x = y)
     | _, _ => false)

/-- A status write (16 R408, R239) that has armed the cell, and one that completes as soon as it has: values of BarOp.copy, where 0 says that it
has not armed it. -/
def armedOnce : Nat := 1
def atOnce : Nat := 2

/-- Apply one operation of a warp to its cell. -/
def applyBarOp (s : State) (w : Warp) (o : BarOp) : State :=
  let on := onOperand s w.ctx (some w.gid) o.cell
  match o.op with
  | .barInit _ n sc => on fun c => c.init n.toNat sc.toBits.toNat
  | .barArv _ n => on fun c => c.arrive n.toNat
  | .barExp _ n => on fun c => c.expect n.toNat
  | .barClear _ w4 => on fun c => c.clear w4
  | .barInv _ => on BCell.invalidate
  | .copy .. =>
    match tget s.copies o.copy with
    | none => s
    | some x =>
      match findCell s w.ctx (some w.gid) o.cell accAtomic with
      | .ok at_ =>
        if cellCut s at_ then { s with copies := tdel s.copies o.copy }
        else if (readCell s at_).live then
          onCell (walkCell { s with copies := tput s.copies o.copy { x with issued := true } } w.ctx o.cell) w.ctx at_ fun c => c.issue x.sectors
        else { s with copies := tdel s.copies o.copy }
      | .error _ => { s with copies := tdel s.copies o.copy }
  | .graph .. => on fun c => c.issue 1
  | .chkStatus _ code count detail => on fun c => (c.report code count detail).sectors 1 (if o.copy = atOnce then detail else 0)
  | _ => s

/-- A cell in global memory lies across a retraining link from the hub, or its page's walk is outstanding (12 R260). -/
def cellHeld (s : State) (ctx : Nat) (op : DWord) : Bool := !opSpad op && hubHeld s ctx op.toNat

/-- A global cell is read at the hub for a context, to which it is charged (03 R58). -/
def touchCell (s : State) (ctx : Nat) : CellAt → State
  | .glob pa => hubUse s ctx pa 32
  | .spad .. => s

/-- The cell's scope is device or wider, where S-class stores perform only by their write-back (09 R193). -/
def cellWide (s : State) (w : Warp) (op : DWord) : Bool :=
  match findCell s w.ctx (some w.gid) op accRead with
  | .ok at_ => decide (4 ≤ (readCell s at_).scope)
  | .error _ => false

/-- An operation cannot be made yet: what it needs of the hub is held (14 R315), or it is an arrival whose release is not made: the stores of its
block and of the warp's earlier ones, their write-backs included, have not performed at the cell's scope (R242). -/
def BarOp.waits (s : State) (wid : Nat) (w : Warp) (o : BarOp) : Bool :=
  (!opSpad o.cell && warpHeld s wid) || cellHeld s w.ctx o.cell ||
    (match o.op with
     | .barArv .. => maintBefore s wid o.seq || storesBefore s wid o.seq none || (cellWide s w o.cell && owes s (.warp wid))
     | _ => false)

/-- The operation is made by an event of its own: an arrival, and the completion of a checksum status write (16 R408). -/
def BarOp.later (o : BarOp) : Bool :=
  match o.op with | .barArv .. => true | .chkStatus .. => decide (o.copy = armedOnce) | _ => false

/-- One operation is made, and what of it is still to come: a status write first arms the cell with one sector, unless it is dead (11 R236). -/
def makeBarOp (s : State) (w : Warp) (o : BarOp) : State × List BarOp :=
  match o.op with
  | .chkStatus .. =>
    if o.copy = armedOnce then (applyBarOp s w o, [])
    else
      match findCell s w.ctx (some w.gid) o.cell accAtomic with
      | .ok at_ =>
        if cellCut s at_ || !(readCell s at_).live then (s, [])
        else
          let s := onCell (walkCell s w.ctx o.cell) w.ctx at_ fun c => c.issue 1
          if o.copy = atOnce then (applyBarOp s w o, []) else (s, [{ o with copy := armedOnce }])
      | .error _ => (s, [])
  | _ => (applyBarOp s w o, [])

/-- Perform a warp's queued operations that nothing holds back: `kept` are the ones still waiting, in order. -/
def drainBarq (s : State) (wid : Nat) (w : Warp) : List BarOp → List BarOp → State
  | [], kept => modWarp s wid fun x => { x with barq := kept }
  | o :: r, kept =>
    if o.later || o.waits s wid w || kept.any (fun k => sameCell s w k.cell o.cell) then drainBarq s wid w r (kept ++ [o])
    else
      let (s, rest) := makeBarOp s w o
      drainBarq s wid w r (kept ++ rest)

def drainWarp (s : State) (wid : Nat) : State :=
  match getWarp s wid with
  | some w => drainBarq s wid w w.barq []
  | none => s

/-- A barrier operation joins its warp's queue, and what nothing holds back is performed (20 R461). -/
def queueBar (s : State) (wid : Nat) (handle : Word) (cell : DWord) (op : Cmd) (how : Nat) : State :=
  let (id, s) := takeUid s
  drainWarp (modWarp s wid fun w => { w with barq := w.barq ++ [⟨cell, id, op, how, handle⟩] }) wid

/-- The first operation of a queue that can be made and that no earlier one on its cell holds back. -/
def firstArrival (s : State) (wid : Nat) (w : Warp) : List BarOp → List BarOp → Option BarOp
  | [], _ => none
  | o :: r, before =>
    if !o.waits s wid w && !before.any (fun k => sameCell s w k.cell o.cell) then some o else firstArrival s wid w r (before ++ [o])

/-- BAR_ARRIVAL: a queued operation on a cell is made, with what waited behind it (R242, R461). -/
def execBarArrival (w : Nat) (s : State) : Out :=
  match getWarp s w with
  | none => notDue "BAR_ARRIVAL"
  | some x =>
    match firstArrival s w x x.barq [] with
    | none => notDue "BAR_ARRIVAL"
    | some o =>
      let (s, rest) := makeBarOp s x o
      .next (drainWarp (modWarp s w fun y => { y with barq := rest ++ y.barq.erase o }) w)

end Sys2Proof.Machine
end

