-- ==== Sys2Proof/Machine/Region.lean ====
section
/-!
DEFINITION. The region (10): which accesses a group's regions allow (R209), the present plane (R210), the store rule at the home bank
(R207, R211), steps (R212 to R215), and the region instructions and events.
-/
namespace Sys2Proof.Machine

/-- A region number with no descriptor (R206). -/
def Region.empty : Region :=
  { state := .free, kind := .plain, rule := .fault, base := 0, size := 0, parts := 0, arrivals := 0, k := 0, coll := 0, ccur := 0,
    sel := [], written := [], hits := [], writers := [], gen := 0, lastWarp := 0, lastAt := 0 }

def getRegion (g : Group) (num : Nat) : Region := g.regions.getD num Region.empty
def setRegion (g : Group) (num : Nat) (r : Region) : Group := { g with regions := setAt g.regions num r }

/-- The active region whose storage a span touches, if it touches just one. -/
def regionsAt (g : Group) (addr n : Nat) : List (Nat × Region) :=
  (g.regions.zipIdx.filter fun e => e.1.touches addr n).map fun e => (e.2, e.1)

def Region.stepped (r : Region) : Bool := decide (r.kind ≠ .plain)

/-- The span lies in the visible range (R203). -/
def Region.visible (r : Region) (addr n : Nat) : Bool := decide (r.base ≤ addr) && decide (addr + n ≤ r.base + 4 * r.size)

/-! ### Which accesses are allowed (R209) -/

/-- The rows of R209: ld.s; the scratchpad operand of mma and ldm; a copy source; st.s and atom.s; st.step; stp; any other (stm). -/
inductive RAcc where
  | load | matrix | copySrc | store | stStep | stp | other
deriving DecidableEq, Repr

def RAcc.allowed (a : RAcc) (r : Region) (addr n : Nat) (rd wr : Bool) : Bool :=
  r.visible addr n &&
  (match a with
   | .load => rd && (!r.stepped || ((decide (n = 4) || decide (n = 8) || decide (n = 16)) && decide (addr % n = 0)))
   | .matrix => rd && !r.stepped
   | .copySrc => rd
   | .store => wr && !r.stepped
   | .stStep => wr && r.stepped && decide (n = 4) && decide (addr % 4 = 0)
   | .stp => wr && decide (r.kind = .prio) && decide (n = 4) && decide (addr % 4 = 0)
   | .other => false)

/-- A scratchpad access of a block that may read the regions `rgnr` and write those of `rgnw`. -/
def regionOk (g : Group) (rgnr rgnw : Nat) (a : RAcc) (addr n : Nat) : Bool :=
  match regionsAt g addr n with
  | [] => decide (a ≠ .stStep) && decide (a ≠ .stp)
  | [(k, r)] => a.allowed r addr n (Nat.testBit rgnr k) (Nat.testBit rgnw k)
  | _ => false

/-- The scratchpad address that holds what a visible byte presents (R210). -/
def presentAddr (g : Group) (a : Nat) : Nat :=
  match g.regions.find? fun r => r.active && r.stepped && r.visible a 1 with
  | some r => if r.sel.contains ((a - r.base) / 4) then a + 4 * r.size else a
  | none => a

def presentBytes (g : Group) (a n : Nat) : List Byte := (List.range n).map fun k => spadByte g (presentAddr g (a + k))
def presentPoison (g : Group) (a n : Nat) : Bool := (List.range n).any fun k => spadPoisoned g (presentAddr g (a + k)) 1

/-- The bytes touch the storage of a stepped region. -/
def steppedTouched (g : Group) (addr n : Nat) : Bool := g.regions.any fun r => r.stepped && r.touches addr n

/-- The region, with its definition, that a stepped store of an address names (R211). -/
def steppedAt (g : Group) (addr : Nat) : Option (Nat × Nat) :=
  match regionsAt g addr 4 with
  | [(k, r)] => if r.stepped then some (k, r.gen) else none
  | _ => none

/-! ### The rule at the home bank (R204, R207, R211) -/

/-- A key word. -/
def keyWord (key ident : Nat) : Word := BitVec.ofNat 32 (key % 65536 * 65536 + ident % 16384)

/-- What the rule keeps of an old and a new value, with their key words; answers whether the new key word is kept too. Of two
stores with equal key words the first stands (log 122). -/
def RRule.keep (r : RRule) (old new okey nkey : Word) : Word × Bool :=
  let flt (m : Bool) : Word := BitVec.ofNat 32 (fF32.minmax m old.toNat new.toNat).1
  match r with
  | .fault => (old, false)
  | .prioHigh => if okey.toNat < nkey.toNat then (new, true) else (old, false)
  | .prioLow => if nkey.toNat < okey.toNat then (new, true) else (old, false)
  | .addI32 => (old + new, false)
  | .addsI32 => ((satI32 (s32 old + s32 new)).1, false)
  | .addF32 => (addF32 old new, false)
  | .minI32 => (if s32 old ≤ s32 new then old else new, false)
  | .minN32 => (if old.toNat ≤ new.toNat then old else new, false)
  | .minF32 => (flt false, false)
  | .maxI32 => (if s32 old ≤ s32 new then new else old, false)
  | .maxN32 => (if old.toNat ≤ new.toNat then new else old, false)
  | .maxF32 => (flt true, false)
  | .or => (old ||| new, false)
  | .and => (old &&& new, false)

/-- Address of word w's next plane, and of its key word. -/
def Region.nextAddr (r : Region) (w : Nat) : Nat := if r.sel.contains w then r.base + 4 * w else r.base + 4 * r.size + 4 * w
def Region.keyAddr (r : Region) (w : Nat) : Nat := r.base + 8 * r.size + 4 * w

/-- The first two warps to store to a word in the current step are kept (R215). -/
def noteWriter (r : Region) (w rank : Nat) : Smap (List Nat) :=
  let l := sget [] r.writers w
  if l.length < 2 then sput [] r.writers w (l ++ [rank]) else r.writers

/-- One store of one word performs (R211). -/
def stepStore (g : Group) (num w : Nat) (new : Word) (key ident rank : Nat) (bad : Bool) : Group :=
  let r := getRegion g num
  let nk := keyWord key ident
  let a := r.nextAddr w
  let wr (g : Group) (v : Word) (bad : Bool) : Group := spadWrite g a (leBytes v.toNat 4) bad
  let wk (g : Group) : Group := if r.kind = .prio then spadWrite g (r.keyAddr w) (leBytes nk.toNat 4) false else g
  let r := { r with state := .stepping, writers := noteWriter r w rank }
  if !r.written.contains w then setRegion (wk (wr g new bad)) num { r with written := nins r.written w }
  else
    let old := spadWord g a
    let (v, k) := RRule.keep r.rule old new (spadWord g (r.keyAddr w)) nk
    let oldBad := spadPoisoned g a 4
    let bad' := match r.rule with
      | .fault => oldBad | .prioHigh | .prioLow => if k then bad else oldBad | _ => bad || oldBad
    let g := wr g v bad'
    let g := if k then wk g else g
    setRegion g num { r with ccur := satAdd r.ccur 1 16383, hits := nins r.hits w }

/-- STEPPED_STORE_APPLY: a held store reaches its home bank. Stores of one warp to one word go in their order; others in none (R208). A
region freed or defined again since raises REGION_DEF after the commit (R211). -/
def execSteppedStoreApply (id : Nat) (s : State) : Out :=
  match tget s.jobs id with
  | some ⟨wid, gid, _, seq, .store acc kind gen⟩ =>
    match getGroup s gid, getWarp s wid with
    | some g, some w =>
      let older := s.jobs.any fun e => decide (e.2.warp = wid) && decide (e.2.seq < seq) &&
        (match e.2.job with | .store b _ _ => decide (b.addr = acc.addr) | _ => false)
      if older then notDue "STEPPED_STORE_APPLY"
      else
        let s := dropJob s id
        let num := gen / 2 ^ 32
        let r := getRegion g num
        if r.active ∧ r.gen = gen % 2 ^ 32 then
          let g := stepStore g num ((acc.addr - r.base) / 4) (acc.data.setWidth 32)
            (if kind = .stp then acc.key.toNat else 0) (w.rank * 32 + acc.lane) w.rank acc.pois
          .next (setGroup s gid g)
        else .next (fatalGroup s wid w Code.regionDef acc.data2 (bitsOf acc.data2.toNat 37 32))
    | _, _ => .next (dropJob s id)
  | _ => notDue "STEPPED_STORE_APPLY"

/-! ### Steps (R212 to R215, R220) -/

/-- The step is complete and not yet settled: its next arrival waits. -/
def arrivalHeld (s : State) (gid num gen : Nat) : Bool :=
  match getGroup s gid with
  | some g => let r := getRegion g num; r.active && decide (r.gen = gen) && decide (r.parts ≤ r.arrivals)
  | none => false

/-- An arrival at a step (R212, R220); one that finds the region freed or defined again raises REGION_DEF after the commit. -/
def applyArrival (s : State) (wid gid num gen : Nat) (at_ : DWord) : State :=
  match getGroup s gid with
  | none => s
  | some g =>
    let r := getRegion g num
    if r.active ∧ r.gen = gen then
      setGroup s gid (setRegion g num { r with state := .stepping, arrivals := r.arrivals + 1, lastWarp := wid, lastAt := at_ })
    else
      match getWarp s wid with
      | some x => fatalGroup s wid x Code.regionDef at_ (bitsOf at_.toNat 37 32)
      | none => s

/-- STEP_ARRIVAL: the warp's stores to the region released before have performed; the arrival is counted. While a complete step waits
to be settled no further arrival is counted. -/
def execStepArrival (id : Nat) (s : State) : Out :=
  match tget s.jobs id with
  | some ⟨wid, gid, _, seq, .stepArrive num gen at_⟩ =>
    if storesBefore s wid seq (some num) || arrivalHeld s gid num gen then notDue "STEP_ARRIVAL"
    else
      let k := match getGroup s gid with | some g => (getRegion g num).k | none => 0
      .next (modWarp (applyArrival (dropJob s id) wid gid num gen at_) wid fun w =>
        match w.wait with
        | .step n q _ => if n = num ∧ q = gen then { w with wait := .step n q k } else w
        | _ => w)
  | _ => notDue "STEP_ARRIVAL"

/-- A warp waits on this step and its arrival is counted. -/
def awaitsStep (s : State) (gid num gen : Nat) (k : Word) (e : Nat × Warp) : Bool :=
  decide (e.2.gid = gid) && decide (e.2.state = .waiting) && decide (e.2.wait = .step num gen k) &&
    !s.jobs.any fun j => decide (j.2.warp = e.1) && (match j.2.job with | .stepArrive n q _ => decide (n = num ∧ q = gen) | _ => false)

/-- The completion of a step, one indivisible act (R212). -/
def Region.complete (r : Region) : Region :=
  let flip := r.written.foldl (fun sel w => if sel.contains w then sel.filter (· ≠ w) else nins sel w) r.sel
  { r with sel := flip, written := [], hits := [], writers := [], k := r.k + 1, coll := r.ccur, ccur := 0, arrivals := 0 }

/-- A step of a stepped region is due to complete: its arrivals have reached parts (R212). -/
def Region.stepDue (r : Region) : Bool := r.active && r.stepped && decide (r.parts ≠ 0) && decide (r.parts ≤ r.arrivals)

/-- Some step of the group is due, so its records are not written before it is settled (R214, R221). -/
def Group.stepDue (g : Group) : Bool := g.regions.any Region.stepDue

/-- REGION_STEP_COMPLETE: the arrivals have reached parts, in a group on its cores, being swapped or not (06 R121). Under FAULT with a
collision it is COLLISION instead (R215). -/
def execRegionStepComplete (gid : Nat) (num : BitVec 3) (s : State) : Out :=
  match getGroup s gid with
  | none => notDue "REGION_STEP_COMPLETE"
  | some g =>
    let r := getRegion g num.toNat
    if !r.stepDue ∨ (g.state ≠ .resident ∧ g.state ≠ .swapping) then notDue "REGION_STEP_COMPLETE"
    else if r.rule = .fault ∧ 0 < r.ccur then
      let w := r.hits.headD 0
      let s := setGroup s gid { g with collision := some (num.toNat, r.base + 4 * w, sget [] r.writers w) }
      match getWarp s r.lastWarp with
      | some x => .next (fatalGroup s r.lastWarp x Code.collision r.lastAt (bitsOf r.lastAt.toNat 37 32))
      | none => .next s
    else
      let ws := s.warps.filter (awaitsStep s gid num.toNat r.gen r.k)
      let s := setGroup s gid (setRegion g num.toNat r.complete)
      .next (ws.foldl (fun s e => wakeWarp s e.1 2) s)

/-! ### What waits for commit -/

def regionOverlaps (g : Group) (base len : Nat) : Bool := g.regions.any fun r => r.touches base len

/-- rgn.def at commit step 3 (R216): checked again, then defined. -/
def applyRgnDef (s : State) (wid : Nat) (w : Warp) (at_ : DWord) (num : Nat) (kind : RKind) (rule : RRule) (base size parts : Word) : State :=
  match getGroup s w.gid with
  | none => s
  | some g =>
    let r := getRegion g num
    if r.active || regionOverlaps g base.toNat (storageBytes kind size.toNat) then
      fatalGroup s wid w Code.regionDef at_ (bitsOf at_.toNat 37 32)
    else
      setGroup s w.gid (setRegion g num { Region.empty with
        state := .defined, kind := kind, rule := rule, base := base.toNat, size := size.toNat, parts := parts.toNat, gen := r.gen + 1 })

/-- The hidden storage has undefined contents (R217): free bytes. -/
def freeBytes (tick a n : Nat) : List Byte := (List.range n).map fun k => Config.freeByte tick (a + k)

/-- rgn.free at commit step 3 (R217). -/
def applyRgnFree (s : State) (wid : Nat) (w : Warp) (at_ : DWord) (num : Nat) : State :=
  match getGroup s w.gid with
  | none => s
  | some g =>
    let r := getRegion g num
    if r.arrivals ≠ 0 ∨ !r.active then fatalGroup s wid w Code.regionDef at_ (bitsOf at_.toNat 37 32)
    else
      let g := if r.stepped then r.sel.foldl (fun g k =>
          let a := r.base + 4 * r.size + 4 * k
          spadWrite g (r.base + 4 * k) (spadBytes g a 4) (spadPoisoned g a 4)) g else g
      let hid := r.base + 4 * r.size
      let g := if r.stepped then spadWrite g hid (freeBytes s.tick hid (r.storage - 4 * r.size)) else g
      setGroup s w.gid (setRegion g num { r with state := .freed, sel := [], written := [], hits := [], writers := [] })

/-! ### Instructions (R216 to R220) -/

def Fire.group (x : Fire) (s : State) : Group :=
  match getGroup s x.w.gid with
  | some g => g
  | none => { kid := 0, ctx := 0, rank := 0, state := .waiting, cores := [], C := 0, W := 0, S := 0, gran := 0, spad := [], spois := [],
              regions := [], arrived := 0, stopped := false, since := 0, aged := 0, lastCommit := 0, dump := none, fatal := none, collision := none
              lost := false, copyCells := [], born := 0, savedAt := none }

/-- The checks of rgn.def when it fires, the first that fails (R216). -/
def rgnDefBad (g : Group) (num : Nat) (kind : RKind) (a b c : Word) : Option (Nat × Option Nat) :=
  if a.toNat % 128 ≠ 0 ∨ b = 0 ∨ b.toNat % 32 ≠ 0 then some (Code.regionDef, none)
  else if (kind = .plain ∧ c ≠ 0) ∨ (kind ≠ .plain ∧ (c = 0 ∨ 1023 < c.toNat)) then some (Code.regionDef, none)
  else if !inShare g a.toNat (storageBytes kind b.toNat) then some (Code.spadRange, some a.toNat)
  else if (getRegion g num).active then some (Code.regionDef, none)
  else if regionOverlaps g a.toNat (storageBytes kind b.toNat) then some (Code.regionDef, none)
  else none

def execRgnDef (g : Guard) (rule : RRule) (kind : RKind) (num : BitVec 3) (st : State) : Out :=
  fireCmd "RGN_DEF" st g [0, 1, 2] fun x =>
    match rgnDefBad (x.group st) num.toNat kind (x.aw x.low) (x.bw x.low) (x.cw x.low) with
    | some (code, some a) => ([addrCause x code a], [])
    | some (code, none) => ([fireCause x code], [])
    | none => ([], [.rgnDef num.toNat kind rule (x.aw x.low) (x.bw x.low) (x.cw x.low)])

/-- rgn.free, step and step.q name a region: above 7 or in a wrong state is REGION_DEF, a missing rgnw bit REGION_ACCESS. -/
def regionOperand (x : Fire) (r : Region) (n : Nat) (steps : Bool) : List Cause :=
  if 7 < n ∨ !r.active ∨ (steps ∧ !r.stepped) then [fireCause x Code.regionDef]
  else if !Nat.testBit (Img.rgnw x.f.words) n then [fireCause x Code.regionAccess]
  else []

def execRgnFree (g : Guard) (st : State) : Out :=
  fireCmd "RGN_FREE" st g [0] fun x =>
    let n := (x.aw x.low).toNat
    let r := getRegion (x.group st) n
    match regionOperand x r n false with
    | [] => ([], [.rgnFree n r.gen])
    | cs => (cs, [])

def RState.code : RState → Nat
  | .free => 0 | .defined => 1 | .stepping => 2 | .freed => 3
def RKind.code : RKind → Nat
  | .plain => 0 | .stepped => 1 | .prio => 2
def RRule.code : RRule → Nat
  | .fault => 0 | .prioHigh => 1 | .prioLow => 2 | .addI32 => 3 | .addsI32 => 4 | .addF32 => 5 | .minI32 => 6 | .minN32 => 7
  | .minF32 => 8 | .maxI32 => 9 | .maxN32 => 10 | .maxF32 => 11 | .or => 12 | .and => 13

/-- The eight words of region descriptor `num` (R205). A free number has no descriptor but its number. -/
def Region.words (r : Region) (num : Nat) : List Word :=
  ((RState.code r.state * 4 + RKind.code r.kind) * 2 ^ 28 + RRule.code r.rule * 2 ^ 24 + num) :: [r.base, r.size, r.parts, r.arrivals, r.k.toNat, r.coll, r.ccur]
    |>.map (BitVec.ofNat 32)

def RState.ofCode (n : Nat) : RState := [RState.free, .defined, .stepping, .freed].getD n .free
def RKind.ofCode (n : Nat) : Option RKind := [RKind.plain, .stepped, .prio][n]?
def RRule.ofCode (n : Nat) : Option RRule :=
  [RRule.fault, .prioHigh, .prioLow, .addI32, .addsI32, .addF32, .minI32, .minN32, .minF32, .maxI32, .maxN32, .maxF32, .or, .and][n]?

/-- A region as its descriptor's words say (R205): its zero fields are not kept, a reserved kind or rule leaves the old one, and its tags
are not in the descriptor (log 121). -/
def Region.ofWords (r : Region) (ws : List Word) : Region :=
  let w (k : Nat) : Word := ws.getD k 0
  { r with
    state := RState.ofCode (wbits (w 0) 31 30)
    kind := (RKind.ofCode (wbits (w 0) 29 28)).getD r.kind
    rule := (RRule.ofCode (wbits (w 0) 27 24)).getD r.rule
    base := (w 1).toNat
    size := (w 2).toNat
    parts := (w 3).toNat % 1024
    arrivals := (w 4).toNat % 1024
    k := w 5
    coll := (w 6).toNat % 16384
    ccur := (w 7).toNat % 16384 }

/-- The result of rgn.stat (R218). -/
def rgnStatus (r : Region) : DWord :=
  if r.state = .free then 0
  else BitVec.ofNat 64 (((RState.code r.state * 4 + RKind.code r.kind) * 16 + RRule.code r.rule) * 2 ^ 56 + r.coll * 2 ^ 42 +
    r.arrivals * 2 ^ 32 + r.k.toNat)

def execRgnStat (g : Guard) (ta tb : Target) (st : State) : Out :=
  fire "RGN_STAT" st g [0] [] fun x =>
    let n := (x.aw x.low).toNat
    let r := getRegion (x.group st) n
    let cs := if !x.any then []
      else if 7 < n then [fireCause x Code.regionDef]
      else if !Nat.testBit (Img.rgnr x.f.words) n then [fireCause x Code.regionAccess] else []
    Fired.now st { Effects.none with toks := both ta tb (x.scalRes true (rgnStatus r)), causes := cs }

def execStep (g : Guard) (st : State) : Out :=
  fireCmd "STEP" st g [0] fun x =>
    let n := (x.aw x.low).toNat
    let r := getRegion (x.group st) n
    match regionOperand x r n true with
    | [] => ([], [.step n r.gen])
    | cs => (cs, [])

def execStepQ (g : Guard) (ta tb : Target) (st : State) : Out :=
  fire "STEP_Q" st g [0] [] fun x =>
    let n := (x.aw x.low).toNat
    let r := getRegion (x.group st) n
    let cs := if x.any then regionOperand x r n true else []
    Fired.now st { Effects.none with
      toks := both ta tb (x.scalRes false (z64 r.k))
      causes := cs
      cmds := if x.any ∧ cs = [] then [.stepQ n r.gen] else [] }
where
  z64 (w : Word) : DWord := w.setWidth 64

end Sys2Proof.Machine
end

