-- ==== Sys2Proof/Machine/MemOps.lean ====
section
/-!
DEFINITION. The slot instructions (17; 07 R139 to R142): their checks when they fire (R418), loads (R421, R422), stores (R423), atomics
and red (R424 to R428), the events by which loads return and atomics issue and return, what commit step 2 performs, and the
cache-control instructions prf, cwb, cinv and pfence (R429 to R431).
-/
namespace Sys2Proof.Machine

/-! ### Free order -/

def takeAt {α : Type} : List α → Nat → Option (α × List α)
  | [], _ => none
  | x :: r, 0 => some (x, r)
  | x :: r, n + 1 => (takeAt r n).map fun p => (p.1, x :: p.2)

/-- A list in an order that is not defined: each next element is Config.order's choice. -/
def freeOrderGo {α : Type} (tick : Nat) : Nat → List α → List α
  | 0, _ => []
  | k + 1, l =>
    match takeAt l (Config.order tick k % l.length) with
    | some (x, r) => x :: freeOrderGo tick k r
    | none => []

def freeOrder {α : Type} (tick : Nat) (l : List α) : List α := if l.length ≤ 1 then l else freeOrderGo tick l.length l

/-! ### Kinds -/

def SlotKind.isStore : SlotKind → Bool
  | .stG | .stS | .stStep | .stp | .red => true
  | _ => false
def SlotKind.isLoad : SlotKind → Bool
  | .ldG | .ldK | .ldS => true
  | _ => false
def SlotKind.isAtomic : SlotKind → Bool
  | .atom | .cas | .atomS => true
  | _ => false

/-- The slot an instruction occupies and whether it is a store or red (R139, R140). -/
def slotOf : Instr → Option (Nat × Bool)
  | .ldG _ k _ _ | .ldK _ k _ _ | .ldS _ k _ _ => some (k.toNat, false)
  | .stG _ k _ | .stS _ k _ | .stStep _ k _ | .stp _ k _ => some (k.toNat, true)
  | .red _ _ _ _ k => some (k.toNat, true)
  | .atom _ _ _ _ _ _ k | .cas _ _ _ _ _ k | .atomS _ _ _ _ _ _ k => some (k.toNat, false)
  | _ => none

/-! ### Checks at fire (R418) -/

/-- A lane's access as checked: the first failing check by its place in the order of R418 with code and address, a translation fault, or
neither; and whether it waits for a walk. -/
structure Checked where
  acc  : LaneAcc
  bad  : Option (Nat × Nat)
  xf   : Option XFault
  miss : Bool
deriving DecidableEq, Repr

/-- The scratchpad row of R209 for a slot's kind. -/
def SlotKind.racc : SlotKind → RAcc
  | .ldS => .load | .stStep => .stStep | .stp => .stp | _ => .store

/-- A link or port the access, a load or a write, needs is down (14 R316, R333): for the host window the port it was translated to (R334). -/
def lostAcc (s : State) (core : Nat) (write : Bool) (a : LaneAcc) : Bool :=
  match a.pa with
  | some pa =>
    if windowOf s pa = some .host then linkDown s (dieOf core) || !portUp s a.route else !coreReaches s (dieOf core) pa a.cls write
  | none => false

/-- The access is held behind a retraining link (14 R315). -/
def heldAcc (s : State) (core : Nat) (k : SlotKind) (a : LaneAcc) : Bool :=
  match a.pa with
  | some pa => coreHeld s (dieOf core) pa a.cls !k.isLoad
  | none => false

/-- The checks of one lane's access, whose effective address is `ea` exactly (00 R6), in the order of R418; but a misaligned access to a
stepped region is REGION_ACCESS, as 10 R209 lists it (log 103). -/
def checkAcc (s : State) (x : Fire) (k : SlotKind) (n : Nat) (sc : Scope) (ea : Int) (a : LaneAcc) : Checked :=
  if k.isGlobal then
    if ea < 0 ∨ 2 ^ 52 ≤ ea then ⟨a, some (0, Code.addrForm), none, false⟩
    else if a.addr % n ≠ 0 then ⟨a, some (1, Code.misalign), none, false⟩
    else
      match coreXlate s x.w.core x.w.ctx a.addr k.acc with
      | .hit pa cls =>
        let a := { a with pa := some pa, cls := effClass s pa cls, route := routeOf s pa }
        if classFault k sc a.cls then ⟨a, some (4, Code.atomicClass), none, false⟩
        else if !k.isLoad && lostAcc s x.w.core true a then ⟨a, some (5, Code.linkLost), none, false⟩
        else ⟨a, none, none, false⟩
      | .miss => if linkDown s (dieOf x.w.core) then ⟨a, some (5, Code.linkLost), none, false⟩ else ⟨a, none, none, true⟩
      | .bad f => ⟨a, none, some f, false⟩
  else
    let g := x.group s
    if ea % n ≠ 0 then ⟨a, some (if steppedTouched g a.addr n then (3, Code.regionAccess) else (1, Code.misalign)), none, false⟩
    else if ea < 0 ∨ !inShare g a.addr n then ⟨a, some (2, Code.spadRange), none, false⟩
    else if !regionOk g (Img.rgnr x.f.words) (Img.rgnw x.f.words) k.racc a.addr n then ⟨a, some (3, Code.regionAccess), none, false⟩
    else ⟨a, none, none, false⟩

/-- The codes whose detail is the faulting address (18 R435). -/
def addressCode (c : Nat) : Bool :=
  decide (c = Code.addrForm) || decide (c = Code.misalign) || decide (c = Code.spadRange) || decide (c = Code.linkLost)

/-- The first failing check of an instruction, then its lowest lane (07 R133). -/
def firstBad (cs : List Checked) : Option (Nat × Nat × Nat) :=
  cs.foldl (fun m c =>
    match c.bad with
    | none => m
    | some (o, code) =>
      match m with
      | some (o', _, _) => if o < o' then some (o, code, c.acc.addr) else m
      | none => some (o, code, c.acc.addr)) none

def checkedCauses (x : Fire) (cs : List Checked) : List Cause :=
  (match firstBad cs with
   | some (_, code, addr) => [if addressCode code then addrCause x code addr else fireCause x code]
   | none => []) ++
  cs.filterMap fun c => c.xf.map fun f => ⟨1, x.i, f.code, BitVec.ofNat 64 f.va, some f⟩

/-- The misses of an instruction each join the walk of their page (12 R260). -/
def walkMisses (s : State) (w : Warp) (cs : List Checked) : State :=
  cs.foldl (fun s c => if c.miss then addWalk s w.core w.ctx c.acc.addr else s) s

/-! ### Firing a slot instruction -/

/-- What a slot instruction is, apart from its operands. -/
structure SlotOp where
  kind : SlotKind
  slot : Nat
  off  : Int
  op   : AtomOp
  ord  : Order
  scope : Scope
  tgts : List Target
deriving DecidableEq, Repr

/-- One access is made for all fired lanes (R417): scalar address, and for anything but a load scalar data too. -/
def SlotOp.single (o : SlotOp) (x : Fire) : Bool :=
  !isVec x.a && (o.kind.isLoad || (!isVec x.b && !isVec x.c))

/-- The effective address of a lane: an exact sum (17 R421, 00 R6). -/
def SlotOp.ea (o : SlotOp) (x : Fire) (n l : Nat) : Int :=
  (if o.kind.isGlobal then (x.av l).toNat else (x.aw l).toNat : Nat) + o.off * n

/-- A lane's access; an address outside 64 bits, which no check passes, is kept modulo 2^64 for the fault's detail. -/
def SlotOp.acc (o : SlotOp) (x : Fire) (n l : Nat) : LaneAcc :=
  let pois (t : Option Token) : Bool := (poisOf t).getLsbD l
  { lane := l, addr := (BitVec.ofInt 64 (o.ea x n l)).toNat, pa := none, cls := .C, data := x.bv l
    data2 := if o.kind = .stStep ∨ o.kind = .stp then blockDetail x.f x.i else x.cv l
    key := x.cw l
    pois := pois x.b || (decide (o.kind = .cas) && pois x.c)
    pois2 := decide (n = 16) && pois x.c
    route := none
    gone := 0 }

/-- The null token of a load's or atomic's result. -/
def nullRes (x : Fire) (wide : Bool) : Token :=
  if x.vec then Token.vect wide 0 (fun _ => 0) else Token.scal wide false 0

/-- Tokens of a load of 128 bits go to two write slots (R417). -/
def wideTargets (n : Nat) (tgts : List Target) (lo hi : Token) : List (Target × Token) :=
  if n = 16 then tgts.flatMap fun t => match t with
    | .write k => [(.write k, lo), (.write (k + 1), hi)]
    | t => [(t, lo)]
  else tgts.map fun t => (t, lo)

/-- The accesses of a firing, checked. -/
def SlotOp.checks (o : SlotOp) (st : State) (x : Fire) (n : Nat) (lanes : List Nat) : List Checked :=
  lanes.map fun l => checkAcc st x o.kind n o.scope (o.ea x n l) (o.acc x n l)

/-- The regions, with their definitions, that stepped stores name. -/
def SlotOp.gens (o : SlotOp) (st : State) (x : Fire) (as : List LaneAcc) : List Nat :=
  if o.kind = .stStep ∨ o.kind = .stp then
    as.map fun a => match steppedAt (x.group st) a.addr with | some (k, gen) => k * 2 ^ 32 + gen | none => 0
  else []

/-- An access with the translation that its address was given when the addresses of its instruction were checked. -/
def LaneAcc.placed (a : LaneAcc) (known : List LaneAcc) : LaneAcc :=
  match known.find? fun b => decide (b.addr = a.addr) with
  | some b => { a with pa := b.pa, cls := b.cls, route := b.route }
  | none => a

/-- The entry of a slot before its accesses are known. -/
def SlotOp.entry (o : SlotOp) (x : Fire) (n : Nat) : SlotEntry :=
  { idx := x.i, kind := o.kind, size := n, sx := Img.sx x.f.words o.slot, scalar := !x.vec, accs := [], op := o.op, ord := o.ord
    scope := o.scope, tgts := o.tgts, fired := x.lanes, gens := [], issued := false, done := false, held := false, result := [], saw := [] }

/-- A slot instruction fires. One that finds a fault fills no slot: its entry keeps only the accesses whose translation is still to come,
marked done so that nothing is delivered for it. A store whose addresses have been checked before takes its data (07 R143). -/
def fireSlot (m : String) (st : State) (g : Guard) (need passes : List Nat) (o : SlotOp) : Out :=
  fire m st g need passes fun x =>
    let n := Img.bytes x.f.words o.slot
    let entry := o.entry x n
    if !x.any then
      let t := nullRes x (decide (8 ≤ n))
      ⟨{ Effects.none with toks := wideTargets n o.tgts t t }, none, some (o.slot, { entry with kind := .null, done := true }), st⟩
    else
      let lanes := if o.single x then [x.low] else x.list
      match (tget x.f.slots o.slot).filter (·.held) with
      | some h =>
        let as := lanes.map fun l => (o.acc x n l).placed h.accs
        ⟨Effects.none, none, some (o.slot, { entry with accs := as, gens := o.gens st x as }), st⟩
      | none =>
        let cs := o.checks st x n lanes
        ⟨{ Effects.none with causes := checkedCauses x cs }, none,
          some (o.slot, { entry with
            accs := (cs.filter fun c => c.bad.isNone).map (·.acc), gens := o.gens st x (cs.map (·.acc)), done := cs.any fun c => c.bad.isSome }),
          walkMisses st x.w cs⟩

/-! ### A store whose data the block's returning atomic gives (07 R142, R143; log 90) -/

/-- A returning atomic. -/
def isReturning : Instr → Bool
  | .atom .. | .cas .. | .atomS .. => true
  | _ => false

/-- The instruction indices that the result of the block's returning atomic reaches: producers come before consumers (02 R37). -/
def fedByAtomic (ws : List Word) : List Nat :=
  (Img.all ws).foldl (fun hot e =>
    if isReturning e.2 || hot.contains e.1 then
      (targetsOf e.2).foldl (fun hot t => match t with
        | .opA j | .opB j | .opC j | .guard j => nins hot j.toNat
        | _ => hot) hot
    else hot) []

/-- The addresses of a store that waits for the atomic's result can be checked. -/
def addrDue (f : Frame) (i k : Nat) : Bool :=
  !f.fired.contains i && (tget f.slots k).isNone && !f.irrev && (tget f.toks (slotKey i 0)).isSome && !canFire f i
    && (fedByAtomic f.words).contains i

/-- Some store of the frame has addresses to check. -/
def addrsDue (f : Frame) : Bool :=
  (Img.all f.words).any fun e => match slotOf e.2 with | some (k, true) => addrDue f e.1 k | _ => false

/-- What such a firing sees: the address, and the guard if it has come. -/
def addrReady (s : State) (g : Guard) (o : SlotOp) : Option Fire :=
  let (wid, i) := s.cur
  match getWarp s wid with
  | none => none
  | some w =>
    match w.frame with
    | none => none
    | some f =>
      if w.state = .mapped ∧ serialOk w f i ∧ addrDue f i o.slot then
        let a := tget f.toks (slotKey i 0)
        let gd := if g = .always then none else tget f.toks (slotKey i 3)
        let entry : Mask := if f.laneless then (if isVec a || isVec gd then 0 else 1) else f.entry
        let lanes := validIn entry a &&& (if gd.isSome then guardPass g gd else ones32)
        let bad := (poisOf a ||| poisOf gd) &&& lanes
        some ⟨wid, w, f, i, a, none, none, gd, lanes, isVec a || isVec gd, bad, decide (bad ≠ 0)⟩
      else none

/-- The addresses of the store are translated and checked; its slot is held for the data, and it has not fired. -/
def fireAddr (m : String) (st : State) (g : Guard) (o : SlotOp) : Out :=
  match addrReady st g o with
  | none => notDue m
  | some x =>
    let n := Img.bytes x.f.words o.slot
    let cs := o.checks st x n (if isVec x.a then x.list else x.list.take 1)
    let f := { x.f with
      slots := tput x.f.slots o.slot { o.entry x n with accs := (cs.filter fun c => c.bad.isNone).map (·.acc), held := true }
      causes := x.f.causes ++ poisonCause x ++ checkedCauses x cs }
    let s := walkMisses st x.w cs
    match getWarp s x.wid with
    | some w => .next (if w.frame.isSome then setWarp s x.wid { w with frame := some f } else s)
    | none => .next s

/-- A store or red fires, or has its addresses checked while its data waits for the block's atomic. -/
def fireStore (m : String) (st : State) (g : Guard) (need passes : List Nat) (o : SlotOp) : Out :=
  match ready st g need passes with
  | some _ => fireSlot m st g need passes o
  | none => fireAddr m st g o

def imm7 (i : BitVec 7) : Int := i.toInt

def mOp (k : SlotKind) (slot : BitVec 5) (imm : BitVec 7) (tgts : List Target) : SlotOp :=
  ⟨k, slot.toNat, imm7 imm, .add, .relaxed, .warp, tgts⟩

def execLdG (g : Guard) (slot : BitVec 5) (imm : BitVec 7) (t : Target) (st : State) : Out :=
  fireSlot "LD_G" st g [0] [] (mOp .ldG slot imm [t])
def execLdK (g : Guard) (slot : BitVec 5) (imm : BitVec 7) (t : Target) (st : State) : Out :=
  fireSlot "LD_K" st g [0] [] (mOp .ldK slot imm [t])
def execLdS (g : Guard) (slot : BitVec 5) (imm : BitVec 7) (t : Target) (st : State) : Out :=
  fireSlot "LD_S" st g [0] [] (mOp .ldS slot imm [t])
def execStG (g : Guard) (slot : BitVec 5) (imm : BitVec 7) (st : State) : Out :=
  fireStore "ST_G" st g [0, 1] [1, 2] (mOp .stG slot imm [])
def execStS (g : Guard) (slot : BitVec 5) (imm : BitVec 7) (st : State) : Out :=
  fireStore "ST_S" st g [0, 1] [1, 2] (mOp .stS slot imm [])
def execStStep (g : Guard) (slot : BitVec 5) (imm : BitVec 7) (st : State) : Out :=
  fireStore "ST_STEP" st g [0, 1] [1] (mOp .stStep slot imm [])
def execStp (g : Guard) (slot : BitVec 5) (imm : BitVec 7) (st : State) : Out :=
  fireStore "STP" st g [0, 1, 2] [1] (mOp .stp slot imm [])
def execAtom (g : Guard) (ta tb : Target) (op : AtomOp) (ord : Order) (sc : Scope) (slot : BitVec 5) (st : State) : Out :=
  fireSlot "ATOM" st g [0, 1] [] ⟨.atom, slot.toNat, 0, op, ord, sc, [ta, tb]⟩
def execRed (g : Guard) (op : AtomOp) (ord : Order) (sc : Scope) (slot : BitVec 5) (st : State) : Out :=
  fireStore "RED" st g [0, 1] [1] ⟨.red, slot.toNat, 0, op, ord, sc, []⟩
def execCas (g : Guard) (ta tb : Target) (ord : Order) (sc : Scope) (slot : BitVec 5) (st : State) : Out :=
  fireSlot "CAS" st g [0, 1, 2] [] ⟨.cas, slot.toNat, 0, .exch, ord, sc, [ta, tb]⟩
def execAtomS (g : Guard) (ta tb : Target) (op : AtomOp) (ord : Order) (sc : Scope) (slot : BitVec 5) (st : State) : Out :=
  fireSlot "ATOM_S" st g [0, 1] [] ⟨.atomS, slot.toNat, 0, op, ord, sc, [ta, tb]⟩

/-! ### Forwarding (07 R140) -/

/-- The place of an access: physical address for global memory, group scratchpad address otherwise. -/
def SlotEntry.place (e : SlotEntry) (a : LaneAcc) : Option (Bool × Nat) :=
  if e.kind.isGlobal then a.pa.map fun p => (true, p) else some (false, a.addr)

/-- The bytes an access writes. -/
def SlotEntry.bytes (e : SlotEntry) (a : LaneAcc) : List Byte :=
  if e.size = 16 then leBytes a.data.toNat 8 ++ leBytes a.data2.toNat 8 else leBytes a.data.toNat e.size

/-- Byte k of an access carries poison: each half of 128 bits its own (R423). -/
def LaneAcc.badAt (a : LaneAcc) (k : Nat) : Bool := if k < 8 then a.pois else a.pois2

/-- Byte `p` of space `sp` as a store entry's lanes write it: the highest lane's byte, and its poison. -/
def storeByte (e : SlotEntry) (sp : Bool) (p : Nat) : Option (Byte × Bool) :=
  e.accs.foldl (fun r a =>
    match e.place a with
    | some (sp', b) =>
      if sp = sp' ∧ b ≤ p ∧ p < b + e.size then some ((e.bytes a).getD (p - b) 0, a.badAt (p - b)) else r
    | none => r) none

/-- The byte a load of slot k takes from the block's own stores: the highest lower slot that writes it. -/
def forwarded (f : Frame) (k : Nat) (sp : Bool) (p : Nat) : Option (Byte × Bool) :=
  f.slots.foldl (fun r q =>
    if q.1 < k ∧ (q.2.kind = .stG ∨ q.2.kind = .stS) then
      match storeByte q.2 sp p with
      | some x => some x
      | none => r
    else r) none

/-- A lower red of the block writes the byte (R428). -/
def redOverlaps (f : Frame) (k : Nat) (p : Nat) : Bool :=
  f.slots.any fun q => decide (q.1 < k) && decide (q.2.kind = .red) && (storeByte q.2 true p).isSome

/-! ### Loads perform (R421, R422) -/

/-- The aligned words of n bytes at b, two for each aligned 8 bytes of them: what a load reads at one moment (R420). -/
def pairWords (b n : Nat) : List Nat :=
  (List.range ((b + n + 7) / 8 - b / 8)).flatMap fun j => [2 * (b / 8 + j), 2 * (b / 8 + j) + 1]

/-- An aligned word as a load of a higher slot of the block has already read it: a load of slot k that reads the same bytes later takes
that value, for they follow slot order (09 R195). -/
def sawWord (f : Frame) (k : Nat) (kind : SlotKind) (w : Nat) : Option (List Byte × Bool) :=
  f.slots.foldl (fun r q =>
    if k < q.1 ∧ q.2.kind = kind ∧ r.isNone then (q.2.saw.find? fun x => decide (x.1 = w)).map (·.2) else r) none

/-- The lines that the accesses of a load need of memory, each once (R190), with the class of its page and the bytes asked of it. -/
def linesAsked (f : Frame) (k lsz : Nat) (e : SlotEntry) : List (Nat × PageClass × Nat) :=
  (e.accs.foldl (fun (r : List (Nat × PageClass) × List (Nat × PageClass × Nat)) a =>
    match a.pa with
    | some pa =>
      if r.1.contains (pa, a.cls) || (pairWords pa e.size).all (fun w => (sawWord f k e.kind w).isSome) then r
      else
        let line := pa / lsz
        ((pa, a.cls) :: r.1,
          if r.2.any fun x => decide (x.1 = line) then r.2.map fun x => if x.1 = line then (line, x.2.1, x.2.2 + e.size) else x
          else r.2 ++ [(line, a.cls, e.size)])
    | none => r) ([], [])).2

/-- Read the lines, with the marks of the copies they come from: D path in lines of 128 bytes, K path of 64; a U-class line from the hub,
charged for the bytes asked. A block whose header acquires finds its core's L1 copies refreshed whenever it loads (09 R196, R197). -/
def readLines (w : Warp) (acq : Bool) (lsz : Nat) : State → List (Nat × PageClass × Nat) → List (Nat × Read) × State
  | s, [] => ([], s)
  | s, (line, cls, n) :: r =>
    let (x, s) := match cls with
      | .U => ((s.mem.bytes (line * lsz) lsz, lineMarks s (line * lsz / 128)), hubMove s (some (dieOf w.core)) w.ctx .U (line * lsz) n)
      | cls =>
        if lsz = 64 then loadK s w.core w.ctx cls (line * 64) 64
        else loadD (if acq then dropL1 s w.core line else s) w.core w.ctx cls (line * 128) 128
    let (xs, s) := readLines w acq lsz s r
    ((line, x) :: xs, s)

/-- The lines of a load's accesses as it reads them, and the state with the caches it fills; none for the scratchpad. -/
def loadLines (s : State) (w : Warp) (f : Frame) (k : Nat) (e : SlotEntry) : List (Nat × Read) × State :=
  let lsz := if e.kind = .ldK then 64 else 128
  if e.kind.isGlobal then readLines w (decide (2 ≤ Img.acq f.words)) lsz s (linesAsked f k lsz e) else ([], s)

/-- An aligned word of memory, or of the group scratchpad, as a load sees it, and whether it carries poison. -/
def wordSeen (s : State) (w : Warp) (f : Frame) (k : Nat) (e : SlotEntry) (lines : List (Nat × Read)) (x : Nat) : List Byte × Bool :=
  match sawWord f k e.kind x with
  | some r => r
  | none =>
    if e.kind.isGlobal then
      let lsz := if e.kind = .ldK then 64 else 128
      match lines.find? fun l => decide (l.1 = 4 * x / lsz) with
      | some l => ((l.2.1.drop (4 * x % lsz)).take 4, badAt l.2.2 (4 * x) 4)
      | none => ([], false)
    else
      match getGroup s w.gid with
      | some g => (presentBytes g (4 * x) 4, presentPoison g (4 * x) 4)
      | none => ([], false)

/-- The aligned words that an access of a load reads. -/
def accSeen (s : State) (w : Warp) (f : Frame) (k : Nat) (e : SlotEntry) (lines : List (Nat × Read)) (a : LaneAcc) :
    List (Nat × List Byte × Bool) :=
  match e.place a with
  | some (_, b) => (pairWords b e.size).map fun x => (x, wordSeen s w f k e lines x)
  | none => []

/-- The value of a load's bytes as its token holds it (R417). -/
def loadValue (n : Nat) (sx : Bool) (bs : List Byte) : DWord :=
  let v := leNat (bs.take (min n 8))
  if sx ∧ n ≤ 2 then (BitVec.ofInt 32 (sextN v (8 * n))).setWidth 64 else BitVec.ofNat 64 v

/-- A token from one value per access, in lane order; a single access serves every fired lane. -/
def resultToken (e : SlotEntry) (wide : Bool) (vs : List (Nat × DWord)) (pois : Mask) : Token :=
  let one : DWord := match vs with | (_, v) :: _ => v | [] => 0
  if e.scalar then Token.scal wide true one (decide (pois ≠ 0))
  else Token.vect wide e.fired (fun l => match vs.find? fun p => decide (p.1 = l) with | some p => p.2 | none => one) pois

/-- One access of a load, given the words it sees: its bytes, the block's own lower stores first, their poison, and whether a lower red
writes one. -/
def loadAcc (f : Frame) (k : Nat) (e : SlotEntry) (seen : List (Nat × List Byte × Bool)) (a : LaneAcc) : List Byte × Bool × Bool :=
  let sp := e.kind.isGlobal
  let base := match e.place a with | some (_, b) => b | none => 0
  let byte (j : Nat) : Byte × Bool :=
    match forwarded f k sp (base + j) with
    | some x => x
    | none =>
      match seen.find? fun x => decide (x.1 = (base + j) / 4) with
      | some x => (x.2.1.getD ((base + j) % 4) 0, x.2.2)
      | none => (0, false)
  let out := (List.range e.size).map byte
  (out.map (·.1), out.any (·.2), sp && (List.range e.size).any fun j => redOverlaps f k (base + j))

/-- Every lower slot that holds a store in the image has its addresses and data (R139). -/
def storesReady (f : Frame) (k : Nat) : Bool :=
  (Img.all f.words).all fun e =>
    match slotOf e.2 with
    | some (j, true) => !decide (j < k) || (match tget f.slots j with
        | some q => decide (q.kind = .null) || (!q.done && !q.held && q.accs.all fun a => !q.kind.isGlobal || a.pa.isSome)
        | none => false)
    | _ => true

/-- A load of a lower slot that has fired and not yet performed reads some of the same words: it goes first (09 R195). -/
def loadBefore (f : Frame) (k : Nat) (e : SlotEntry) : Bool :=
  let words (e : SlotEntry) : List Nat := e.accs.flatMap fun a => match e.place a with | some (_, b) => pairWords b e.size | none => []
  let mine := words e
  f.slots.any fun q => decide (q.1 < k) && decide (q.2.kind = e.kind) && !q.2.done && (words q.2).any mine.contains

def SlotEntry.translated (e : SlotEntry) : Bool := e.accs.all fun a => !e.kind.isGlobal || a.pa.isSome

/-- The causes a returning load finds: LINK_LOST, RED_OVERLAP, POISON. -/
def loadCauses (s : State) (w : Warp) (f : Frame) (e : SlotEntry) (xs : List (LaneAcc × List Byte × Bool × Bool)) : List Cause :=
  let lost := if e.kind.isGlobal then xs.filter (fun x => lostAcc s w.core false x.1) else []
  (match lost with | x :: _ => [⟨3, e.idx, Code.linkLost, BitVec.ofNat 64 x.1.addr, none⟩] | [] => []) ++
  (match xs.filter (fun x => x.2.2.2) with | _ :: _ => [⟨3, e.idx, Code.redOverlap, blockDetail f e.idx, none⟩] | [] => []) ++
  (match xs.filter (fun x => x.2.2.1) with
   | x :: _ => if f.irrev then [] else [⟨2, e.idx, Code.poison, BitVec.ofNat 64 x.1.addr, none⟩]
   | [] => [])

/-- The lane that an injection of FIJ delivers poisoned, if it fired (18 R458). -/
def injected (w : Warp) (e : SlotEntry) : Mask :=
  let lane : Mask := BitVec.ofNat 32 (2 ^ wbits w.fij 20 16)
  if wbits w.fij 31 28 = 2 then lane &&& e.fired else 0

/-! ### Scratchpad passes (01 R13, 09 R191) -/

/-- The scratchpad bank of a byte address (01 R13). -/
def bank (a : Nat) : Nat := a / 4 % 32

/-- The lanes of one pass group. -/
def passGroup (n lane : Nat) : Nat := if n ≤ 4 then 0 else if n = 8 then lane / 16 else lane / 8

/-- Passes of one pass group: the most distinct units, of a word, 8 or 16 bytes, in one bank, bank pair or quad. -/
def groupPasses (n : Nat) (as : List Nat) : Nat :=
  let u := max 4 n
  let units := (as.map (· / u)).foldl nins []
  (List.range 32).foldl (fun m b => max m (units.countP fun x => decide (bank (x * u) / (u / 4) = b))) 0

/-- Passes beyond the first, of every core that holds some of the bytes, for accesses of n bytes by lane and address (18 R454, event 10). -/
def extraPasses (n : Nat) (as : List (Nat × Nat)) : Nat :=
  (List.range 8).foldl (fun t core =>
    let mine := as.filter fun a => decide (a.2 / 2 ^ 19 = core)
    t + ((List.range 4).foldl (fun t k => t + groupPasses n ((mine.filter fun a => decide (passGroup n a.1 = k)).map (·.2))) 0 - 1)) 0

/-- A scratchpad slot instruction is served: its accesses and passes are counted. -/
def countPasses (s : State) (w : Warp) (e : SlotEntry) : State :=
  if e.kind.isGlobal then s
  else
    let g := getGroup s w.gid
    let at_ (a : LaneAcc) : Nat := match g with | some g => if e.kind = .ldS then presentAddr g a.addr else a.addr | none => a.addr
    let n := extraPasses e.size (e.accs.map fun a => (a.lane, at_ a))
    let s := spend s (dieOf w.core) w.ctx 7 e.accs.length
    if n = 0 then s else countEvent s (dieOf w.core) w.ctx 10 n

/-- LOAD_RETURN: a load whose addresses are translated and whose lower stores are known performs, and its result is delivered. -/
def execLoadReturn (wid i : Nat) (s : State) : Out :=
  match getWarp s wid with
  | none => notDue "LOAD_RETURN"
  | some w =>
    match w.frame with
    | none => notDue "LOAD_RETURN"
    | some f =>
      match f.slots.find? fun q => decide (q.2.idx = i) && q.2.kind.isLoad && !q.2.done with
      | none => notDue "LOAD_RETURN"
      | some (k, e) =>
        if w.state ≠ .mapped ∨ !e.translated ∨ !storesReady f k ∨ loadBefore f k e then notDue "LOAD_RETURN"
        else if e.kind.isGlobal ∧ e.accs.any (lostAcc s w.core false) then
          let cs := loadCauses s w f e (e.accs.map fun a => (a, [], false, false))
          .next (setWarp s wid { w with frame := some { f with
            causes := f.causes ++ cs, slots := tput f.slots k { e with done := true } } })
        else if e.kind.isGlobal ∧ e.accs.any (heldAcc s w.core e.kind) then notDue "LOAD_RETURN"
        else
          let (lines, s) := loadLines s w f k e
          let seen := e.accs.flatMap (accSeen s w f k e lines)
          let xs := e.accs.map fun a => (a, loadAcc f k e seen a)
          let lo := xs.map fun x => (x.1.lane, loadValue e.size e.sx x.2.1)
          let hi := xs.map fun x => (x.1.lane, loadValue 8 false (x.2.1.drop 8))
          let bad : Mask := (if xs.any (fun x => x.2.2.1) then e.fired else 0) ||| injected w e
          let wide := decide (8 ≤ e.size)
          let toks := wideTargets e.size e.tgts (resultToken e wide lo bad) (resultToken e wide hi bad)
          let f' := { f with slots := tput f.slots k { e with done := true, saw := seen } }
          let f' := applyEffects f' i { Effects.none with toks := toks, causes := loadCauses s w f e xs }
          .next (setWarp (countPasses s w e) wid { w with frame := some f' })

/-! ### Stores perform -/

/-- Write bytes of an access where it lies. An access of a block past its irrevocable point whose link has gone down is dropped (14 R316,
R334). -/
def putBytes (s : State) (wid : Nat) (w : Warp) (e : SlotEntry) (a : LaneAcc) (off : Nat) (bs : List Byte) (bad : Bool) : State :=
  if bs = [] then s
  else if e.kind.isGlobal then
    match a.pa with
    | some pa =>
      if lostAcc s w.core true a then s
      else if e.kind = .stG then storeD s w.core w.ctx (.warp wid) a.cls (pa + off) bs bad
      else atomicD s w.core w.ctx (.warp wid) a.cls (pa + off) bs bad
    | none => s
  else modGroup s w.gid fun g => spadWrite g (a.addr + off) bs bad

/-- The bytes of a store that are still to perform and lie in a place, by address: of several lanes' the highest lane's, with its poison
(R423). -/
def storeBytes (e : SlotEntry) (sp : Bool) (base n : Nat) : Table (Byte × Bool) :=
  e.accs.foldl (fun t a =>
    match e.place a with
    | some (sp', b) =>
      if sp ≠ sp' then t
      else (List.range e.size).foldl (fun t k =>
        if base ≤ b + k ∧ b + k < base + n ∧ !Nat.testBit a.gone k then tput t (b + k) ((e.bytes a).getD k 0, a.badAt k) else t) t
    | none => t) []

/-- The runs of bytes that lie in one 32-byte sector and are all poisoned or all clean. -/
def byteRuns : Table (Byte × Bool) → List (Nat × List Byte × Bool)
  | [] => []
  | (a, b, bad) :: r =>
    match byteRuns r with
    | (a', bs, bad') :: rs =>
      if a + 1 = a' ∧ a' % 32 ≠ 0 ∧ bad = bad' then (a, b :: bs, bad) :: rs else (a, [b], bad) :: (a', bs, bad') :: rs
    | [] => [(a, [b], bad)]

/-- The lane of a store that writes a byte of memory. -/
def laneAt (e : SlotEntry) (sp : Bool) (p : Nat) : Option (LaneAcc × Nat) :=
  e.accs.findSome? fun a =>
    match e.place a with
    | some (sp', b) => if sp = sp' ∧ b ≤ p ∧ p < b + e.size then some (a, p - b) else none
    | none => none

/-- The bytes of a store that are still to perform and lie in a place perform, the clean bytes of a sector together (18 R440). -/
def putRange (s : State) (wid : Nat) (w : Warp) (e : SlotEntry) (sp : Bool) (base n : Nat) : State :=
  (byteRuns (storeBytes e sp base n)).foldl (fun s r =>
    match laneAt e sp r.1 with
    | some (a, off) => putBytes s wid w e a off r.2.1 r.2.2
    | none => s) s

def rangeMask (lo hi : Nat) : Nat := 2 ^ hi - 2 ^ lo

/-- Every byte of an entry has performed. -/
def SlotEntry.allGone (e : SlotEntry) : SlotEntry := { e with accs := e.accs.map fun a => { a with gone := rangeMask 0 e.size } }

/-- A red of release order performs after every other store of its block (R428). -/
def SlotEntry.late (e : SlotEntry) : Bool := decide (e.kind = .red) && (decide (e.ord = .release) || decide (e.ord = .acqRel))

/-- The place [base, base + n) and an access share bytes: from and to, in the access's own offsets. -/
def overlap (e : SlotEntry) (a : LaneAcc) (sp : Bool) (base n : Nat) : Option (Nat × Nat) :=
  match e.place a with
  | some (sp', b) =>
    let lo := max b base - b
    let hi := min (b + e.size) (base + n) - b
    if sp = sp' ∧ lo < hi ∧ b < base + n ∧ base < b + e.size then some (lo, hi) else none
  | none => none

/-- One indivisible combine of an atomic or red (R425): old bytes, and the state after. An exchange writes its data whole, so the old
value's poison does not stay in the place (18 R440). -/
def combine (s : State) (wid : Nat) (w : Warp) (e : SlotEntry) (a : LaneAcc) : List Byte × Bool × State :=
  let n := e.size
  let go (old : List Byte) (bad : Bool) : List Byte × Bool × State :=
    let o := BitVec.ofNat 64 (leNat old)
    let new := if e.kind = .cas then (if o = BitVec.ofNat 64 (a.data.toNat % 2 ^ (8 * n)) then a.data2 else o)
      else atomResult addF32 e.op (decide (n = 8)) o a.data
    let stays := bad && !(decide (e.kind ≠ .cas) && decide (e.op = .exch))
    (old, bad, putBytes s wid w e a 0 (leBytes new.toNat n) (stays || a.pois))
  if e.kind.isGlobal then
    match a.pa with
    | some pa => go (atomicRead s w.core a.cls pa n) (atomicBad s w.core a.cls pa n)
    | none => ([], false, s)
  else
    match getGroup s w.gid with
    | some g => go (spadBytes g a.addr n) (spadPoisoned g a.addr n)
    | none => ([], false, s)

/-- An access with its bytes of a place performed. -/
def LaneAcc.done (e : SlotEntry) (sp : Bool) (base n : Nat) (a : LaneAcc) : LaneAcc :=
  match overlap e a sp base n with
  | some (lo, hi) => { a with gone := Nat.lor a.gone (rangeMask lo hi) }
  | none => a

/-- Stores of slots below `upto` perform their bytes of a place, in slot order. -/
def performUnder (wid : Nat) (w : Warp) (upto : Nat) (sp : Bool) (base n : Nat) : State → Table SlotEntry → State × Table SlotEntry
  | s, [] => (s, [])
  | s, (k, e) :: r =>
    let (s, e) :=
      if k < upto ∧ !e.held ∧ (e.kind = .stG ∨ e.kind = .stS) then
        (putRange s wid w e sp base n, { e with accs := e.accs.map (LaneAcc.done e sp base n) })
      else (s, e)
    let (s, r) := performUnder wid w upto sp base n s r
    (s, (k, e) :: r)

/-- Reds of lower slots that share bytes with the place combine whole, their lanes in no defined order, each after the lower stores under it
(R427). Those of release order are left out where they have still to wait for other stores (R428). -/
def performReds (wid : Nat) (w : Warp) (late : Bool) (upto : Nat) (sp : Bool) (base n : Nat) (s : State) (t : Table SlotEntry) :
    State × Table SlotEntry :=
  t.foldl (fun (p : State × Table SlotEntry) q =>
    if q.1 < upto ∧ !q.2.held ∧ q.2.kind = .red ∧ (late ∨ !q.2.late) then
      (freeOrder p.1.tick q.2.accs).foldl (fun (p : State × Table SlotEntry) a =>
        match overlap q.2 a sp base n, q.2.place a with
        | some _, some (_, b) =>
          if a.gone ≠ 0 then p
          else
            let (s, t) := performUnder wid w q.1 sp b q.2.size p.1 p.2
            let (_, _, s) := combine s wid w q.2 a
            (s, t.map fun z => if z.1 = q.1 then
              (z.1, { z.2 with accs := z.2.accs.map fun c => if c.lane = a.lane then { c with gone := rangeMask 0 q.2.size } else c })
              else z)
        | _, _ => p) p
    else p) (s, t)

/-- The block's lower stores and reds perform where they meet an access of the atomic, in the same operation (R427). -/
def performBefore (wid : Nat) (w : Warp) (late : Bool) (k : Nat) (e : SlotEntry) (s : State) (t : Table SlotEntry) (a : LaneAcc) :
    State × Table SlotEntry :=
  match e.place a with
  | some (sp, b) =>
    let p := performReds wid w late k sp b e.size s t
    performUnder wid w k sp b e.size p.1 p.2
  | none => (s, t)

/-- One lane of an atomic: its old value, the poison of it, and the state (R426). Behind a link that has gone down since the irrevocable
point the old value is poisoned (14 R334), and nothing says what it is. -/
def atomLane (s : State) (wid : Nat) (w : Warp) (e : SlotEntry) (a : LaneAcc) : (Nat × DWord × Bool) × State :=
  if e.kind.isGlobal ∧ lostAcc s w.core true a then
    ((a.lane, BitVec.ofNat 64 (leNat ((List.range e.size).map fun k => Config.freeByte s.tick (a.lane * 8 + k))), true), s)
  else
    let (old, bad, s) := combine s wid w e a
    ((a.lane, BitVec.ofNat 64 (leNat old), bad), s)

/-- The lanes of an atomic that have not performed. -/
def SlotEntry.lanesLeft (e : SlotEntry) : List LaneAcc := e.accs.filter fun a => !e.result.any fun r => decide (r.1 = a.lane)

/-- Stores of earlier blocks of a warp have performed at a scope (09 R196, R186, R193): those to S-class lines at device scope and wider by
their write-back, stepped stores at group scope and wider at their home bank. -/
def earlierDone (s : State) (wid seq : Nat) (scope : Nat) : Bool :=
  (decide (scope < 4) || (!maintBefore s wid seq && !owes s (.warp wid))) && (decide (scope < 2) || !storesBefore s wid seq none)

def Scope.num (sc : Scope) : Nat := sc.toBits.toNat

/-- The scope of the reds of release order below slot k that combine in its atomic's operation (R427, R428). -/
def metScope (f : Frame) (k : Nat) (e : SlotEntry) : Nat :=
  f.slots.foldl (fun m q =>
    let met := e.accs.any fun a => match e.place a with
      | some (sp, b) => q.2.accs.any fun c => (overlap q.2 c sp b e.size).isSome
      | none => false
    if q.1 < k ∧ q.2.late ∧ met then max m (Scope.num q.2.scope) else m) 0

/-- The release the block's atomic makes: its own, the header's, and that of the reds which combine with it. -/
def releaseScope (f : Frame) (k : Nat) (e : SlotEntry) : Nat :=
  max (max (Img.rel f.words) (if e.ord = .release ∨ e.ord = .acqRel then Scope.num e.scope else 0)) (metScope f k e)

/-- Every slot in use but one holds a translated access or a null, and every load has performed (R142). -/
def othersReady (f : Frame) (k : Nat) : Bool :=
  (List.range (Img.slots f.words)).all fun j =>
    decide (j = k) || (match tget f.slots j with
      | some e => e.translated && (!e.kind.isLoad || e.done)
      | none => false)

/-- The stores, reds and atomics of a frame that need a link or port that is down (14 R316). -/
def lostCauses (s : State) (w : Warp) (f : Frame) : List Cause :=
  f.slots.flatMap fun q =>
    if q.2.kind.isGlobal && !q.2.kind.isLoad && !q.2.issued then
      match q.2.accs.find? (lostAcc s w.core true) with
      | some a => [⟨3, q.2.idx, Code.linkLost, BitVec.ofNat 64 a.addr, none⟩]
      | none => []
    else []

/-- One lane of the atomic of slot k performs, after what of the block's lower stores meets it; the first is the block's irrevocable point. -/
def issueLane (s : State) (wid : Nat) (w : Warp) (f : Frame) (k : Nat) (e : SlotEntry) (a : LaneAcc) : State :=
  let (s, t) := performBefore wid w true k e s f.slots a
  let (r, s) := atomLane s wid w e a
  let s := if e.issued then s else countPasses s w e
  setWarp s wid { w with frame := some { f with irrev := true, slots := tput t k { e with issued := true, result := e.result ++ [r] } } }

/-- ATOMIC_ISSUE: a lane of the block's returning atomic performs, in an order that is not defined; other agents may come between the lanes
(R426). The first is the irrevocable point (R142). -/
def execAtomicIssue (wid : Nat) (s : State) : Out :=
  match getWarp s wid with
  | none => notDue "ATOMIC_ISSUE"
  | some w =>
    match w.frame with
    | none => notDue "ATOMIC_ISSUE"
    | some f =>
      match f.slots.find? fun q => q.2.kind.isAtomic && decide (q.2.lanesLeft ≠ []) with
      | none => notDue "ATOMIC_ISSUE"
      | some (k, e) =>
        match freeOrder s.tick e.lanesLeft with
        | [] => notDue "ATOMIC_ISSUE"
        | a :: _ =>
          if w.state ≠ .mapped ∨ (e.kind.isGlobal ∧ !lostAcc s w.core true a ∧ heldAcc s w.core e.kind a) then notDue "ATOMIC_ISSUE"
          else if e.issued then .next (issueLane s wid w f k e a)
          else if !e.translated ∨ !othersReady f k ∨ f.causes ≠ [] ∨ !earlierDone s wid s.uid (releaseScope f k e) ∨ w.haltDue then
            notDue "ATOMIC_ISSUE"
          else
            match lostCauses s w f with
            | c :: cs => .next (setWarp s wid { w with frame := some { f with causes := f.causes ++ c :: cs } })
            | [] => .next (issueLane s wid w f k e a)

/-- The lanes whose old values carry poison: all that fired where one access serves them (07 R144). -/
def SlotEntry.badLanes (e : SlotEntry) : Mask :=
  match e.result with
  | [(_, _, bad)] => if bad then e.fired else 0
  | rs => maskOf fun l => rs.any fun r => decide (r.1 = l) && r.2.2

/-- ATOMIC_RETURN: every lane has performed, and the old values are delivered. -/
def execAtomicReturn (wid : Nat) (s : State) : Out :=
  match getWarp s wid with
  | none => notDue "ATOMIC_RETURN"
  | some w =>
    match w.frame with
    | none => notDue "ATOMIC_RETURN"
    | some f =>
      match f.slots.find? fun q => q.2.kind.isAtomic && q.2.issued && !q.2.done with
      | none => notDue "ATOMIC_RETURN"
      | some (k, e) =>
        if e.lanesLeft ≠ [] then notDue "ATOMIC_RETURN"
        else
          let t := resultToken e (decide (e.size = 8)) (e.result.map fun r => (r.1, r.2.1)) e.badLanes
          let f := { f with slots := tput f.slots k { e with done := true } }
          let f := applyEffects f e.idx { Effects.none with toks := e.tgts.map fun x => (x, t) }
          .next (setWarp s wid { w with frame := some f })

/-- One slot's stores perform at commit step 2: a store whole, a red's lanes in no defined order. -/
def performEntry (s : State) (wid : Nat) (w : Warp) (e : SlotEntry) : State :=
  match e.kind with
  | .stG => putRange s wid w e true 0 (2 ^ 52)
  | .stS => putRange (countPasses s w e) wid w e false 0 (2 ^ 52)
  | .red => (freeOrder s.tick e.accs).foldl (fun s a => if a.gone = 0 then (combine s wid w e a).2.2 else s) s
  | _ => s

/-- A stepped store leaves for its home bank (10 R211). -/
def queueStepped (s : State) (wid : Nat) (w : Warp) (e : SlotEntry) : State :=
  if e.kind = .stStep ∨ e.kind = .stp then
    let (seq, s) := takeUid (countPasses s w e)
    (e.accs.zip e.gens).foldl (fun s p =>
      let (id, s) := takeUid s
      { s with jobs := tput s.jobs id ⟨wid, w.gid, w.ctx, seq, .store p.1 e.kind p.2⟩ }) s
  else s

/-- The buffered stores of a block are released (07 R146 step 2), but for the reds of release order. -/
def releaseStores (s : State) (wid : Nat) (w : Warp) (f : Frame) : State :=
  let s := f.slots.foldl (fun s q => if q.2.late then s else performEntry s wid w q.2) s
  f.slots.foldl (fun s q => queueStepped s wid w q.2) s

/-- The frame once they are: only its reds of release order are left to perform. -/
def Frame.released (f : Frame) : Frame := { f with slots := f.slots.map fun q => if q.2.late then q else (q.1, q.2.allGone) }

/-- The reds of release order perform, after every other store (R428). -/
def releaseLate (s : State) (wid : Nat) (w : Warp) (f : Frame) : State :=
  f.slots.foldl (fun s q => if q.2.late then performEntry s wid w q.2 else s) s

/-! ### A red lane by lane (R428, 08 R180): other agents may come between -/

/-- The lanes of the block's reds, of release order or not, that have still to combine, by slot. -/
def redsLeft (f : Frame) (late : Bool) : List (Nat × LaneAcc) :=
  f.slots.flatMap fun q =>
    if q.2.kind = .red ∧ q.2.late = late then (q.2.accs.filter fun a => decide (a.gone = 0)).map fun a => (q.1, a) else []

/-- One lane of the lowest red left combines, after the block's lower stores to its bytes (07 R140). -/
def redLane (s : State) (wid : Nat) (w : Warp) (f : Frame) (late : Bool) : State × Frame :=
  match redsLeft f late with
  | [] => (s, f)
  | (k, _) :: _ =>
    match tget f.slots k, freeOrder s.tick ((redsLeft f late).filter fun x => decide (x.1 = k)) with
    | some e, (_, a) :: _ =>
      let (s, t) := performBefore wid w late k e s f.slots a
      let s := (combine s wid w e a).2.2
      (s, { f with stage := max f.stage 1, slots := t.map fun z => if z.1 = k then
        (k, { z.2 with accs := z.2.accs.map fun b => if b.lane = a.lane then { b with gone := rangeMask 0 e.size } else b }) else z })
    | _, _ => (s, f)

/-- The scope up to which the block's reds of release order wait for stores. -/
def lateScope (f : Frame) : Nat := f.slots.foldl (fun m q => if q.2.late then max m (Scope.num q.2.scope) else m) 0

/-- A store, red or stepped store of the frame is held behind a retraining link (14 R315). -/
def storesHeld (s : State) (w : Warp) (f : Frame) : Bool :=
  f.slots.any fun q => (decide (q.2.kind = .stG) || decide (q.2.kind = .red)) &&
    q.2.accs.any fun a => decide (a.gone = 0) && !lostAcc s w.core true a && heldAcc s w.core q.2.kind a

/-! ### prf, cwb, cinv, pfence (R429 to R431) -/

/-- prf asks for lines and may always be dropped, and it never faults, on a poisoned address or guard either (R429): it has no effect. -/
def execPrf (g : Guard) (_s : ClsP) (st : State) : Out := fire "PRF" st g [0] [0, 3] fun _ => Fired.now st Effects.none

/-- What the translation of a range finds: its S-class segments, the causes of flush, a context fault, and where it first meets a stack behind
a down link. -/
structure Maint where
  segs   : List (Nat × Nat)
  causes : List Cause
  cut    : Bool
  lost   : Option Nat

/-- The first 4 KiB chunk of n bytes at pa that the die cannot reach, as an offset (14 R316). -/
def chunkLost (s : State) (die pa n : Nat) : Option Nat :=
  if s.links.any fun l => decide (l.state = .down) then
    ((List.range (n / 4096 + 1)).map (4096 * ·)).find? fun o => decide (o < n) && !reaches s (some die) (pa + o)
  else none

/-- Translate a range page by page, up to the first cause (R430). -/
def maintSegs (s : State) (x : Fire) : Nat → Nat → Nat → Maint × State
  | 0, _, _ => (⟨[], [], false, none⟩, s)
  | fuel + 1, p, stop =>
    if stop ≤ p then (⟨[], [], false, none⟩, s)
    else
      let q := min stop (p / 65536 * 65536 + 65536)
      match xlateNow s x.w.core x.w.ctx p accRead with
      | (.bad f, s) => (⟨[], [⟨1, x.i, f.code, BitVec.ofNat 64 f.va, some f⟩], false, none⟩, s)
      | (.cut, s) => (⟨[], [], true, none⟩, s)
      | (.ok pa cls _ _, s) =>
        let isS := decide (effClass s pa cls = .S)
        let here := if isS then (chunkLost s (dieOf x.w.core) pa (q - p)).map (p + ·) else none
        let (m, s) := maintSegs s x fuel q stop
        (⟨if isS then (pa, q - p) :: m.segs else m.segs, m.causes, m.cut, match here with | some a => some a | none => m.lost⟩, s)

/-- A page of the range has its walk outstanding, or its walk crosses a retraining link: the instruction waits (12 R260, 14 R315). -/
def maintWaits (st : State) (x : Fire) : Bool :=
  let a := (x.av x.low).toNat
  let b := (x.bw x.low).toNat
  x.any && decide (a + b ≤ 2 ^ 52) && !linkDown st (dieOf x.w.core) &&
    ((List.range (b / 65536 + 2)).map (a / 65536 + ·)).any fun p => decide (p * 65536 < a + b) && nowWaits st x.w.core x.w.ctx (p * 65536)

def fireMaint (m : String) (st : State) (g : Guard) (mk : List (Nat × Nat) → Cmd) : Out :=
  fireHeld m st g [0, 1] [] (maintWaits st) fun x =>
    if !x.any then Fired.now st Effects.none
    else
      let a := (x.av x.low).toNat
      let b := (x.bw x.low).toNat
      if 2 ^ 52 ≤ a ∨ 2 ^ 52 < a + b then
        Fired.now st { Effects.none with causes := [addrCause x Code.addrForm a] }
      else if linkDown st (dieOf x.w.core) then Fired.now st { Effects.none with causes := [addrCause x Code.linkLost a] }
      else
        let (r, st) := maintSegs st x (b / 65536 + 2) a (a + b)
        if r.cut then Fired.now (contextFault st x.w.ctx) Effects.none
        else
          let lost := match r.lost with | some va => [addrCause x Code.linkLost va] | none => []
          Fired.now st { Effects.none with causes := r.causes ++ lost, cmds := if r.causes = [] ∧ lost = [] then [mk r.segs] else [] }

def execCwb (g : Guard) (st : State) : Out := fireMaint "CWB" st g .cwb
def execCinv (g : Guard) (st : State) : Out := fireMaint "CINV" st g .cinv

/-- pfence issues at commit step 3; a mask of zero does nothing (R184). -/
def execPfence (g : Guard) (imm : BitVec 12) (st : State) : Out :=
  fireCmd "PFENCE" st g [] fun _ => ([], if imm.setWidth 5 = (0 : BitVec 5) then [] else [.pfence (imm.setWidth 5)])

end Sys2Proof.Machine
end

