-- ==== Sys2Proof/Machine/BarOps.lean ====
section
/-!
DEFINITION. The barrier instructions and waitc (11 R241 to R246, R249): their checks when they fire, and what waits for commit.
-/
namespace Sys2Proof.Machine

/-- What a barrier operand gives when the instruction fires: the cell, or the causes; and the state, for a walk that runs into a cut
link faults the context (14 R318). -/
structure CellCheck where
  cell   : Option CellAt
  causes : List Cause
  st     : State

/-- Check a barrier operand (R223): BAR_OPERAND, a translation fault, or LINK_LOST where the issuing die is cut (14 R316). -/
def checkCell (s : State) (x : Fire) (op : DWord) (a : Acc) : CellCheck :=
  if !opSpad op && linkDown s (dieOf x.w.core) then ⟨none, [addrCause x Code.linkLost op.toNat], s⟩
  else
    match findCell s x.w.ctx (some x.w.gid) op a with
    | .ok at_ => ⟨some at_, [], s⟩
    | .error (.operand ..) => ⟨none, [fireCause x Code.barOperand], s⟩
    | .error (.xlat f) => ⟨none, [⟨1, x.i, f.code, BitVec.ofNat 64 f.va, some f⟩], s⟩
    | .error (.cut _) => ⟨none, [], contextFault s x.w.ctx⟩

/-- The instruction waits: its cell's page has its walk outstanding, or what it needs of the hub lies behind a retraining link (12 R260, 14
R315). -/
def cellWaits (s : State) (x : Fire) (op : DWord) : Bool :=
  x.any && !opSpad op && !linkDown s (dieOf x.w.core) && (linkHeld s (dieOf x.w.core) || cellHeld s x.w.ctx op)

/-- A barrier instruction without a result: the cell check, its own range check, and the command. -/
def fireBar (m : String) (st : State) (g : Guard) (need : List Nat) (a : Acc) (bad : Fire → Bool) (cmd : Fire → Cmd) : Out :=
  fireHeld m st g need [] (fun x => cellWaits st x (x.av x.low)) fun x =>
    if !x.any then Fired.now st Effects.none
    else
      let k := checkCell st x (x.av x.low) a
      let cs := k.causes ++ (if k.causes = [] ∧ bad x then [fireCause x Code.barOperand] else [])
      Fired.now k.st { Effects.none with causes := cs, cmds := if cs = [] then [cmd x] else [] }

def cellRW : Acc := accAtomic

/-- The scope fits the cell's space (R225). -/
def scopeFits (op : DWord) (sc : Scope) : Bool :=
  if opSpad op then decide (sc = .group) else decide (sc = .die) || decide (sc = .device) || decide (sc = .system)

def execBarInit (g : Guard) (sc : Scope) (st : State) : Out :=
  fireBar "BAR_INIT" st g [0, 1] cellRW (fun x => decide (0xFFFFFF < (x.bw x.low).toNat) || !scopeFits (x.av x.low) sc)
    fun x => .barInit (x.av x.low) (x.bw x.low) sc

def execBarArv (g : Guard) (st : State) : Out :=
  fireBar "BAR_ARV" st g [0, 1] cellRW (fun x => decide (x.bw x.low = 0) || decide (0xFFFFFF < (x.bw x.low).toNat))
    fun x => .barArv (x.av x.low) (x.bw x.low)

def execBarExp (g : Guard) (st : State) : Out :=
  fireBar "BAR_EXP" st g [0, 1] cellRW (fun x => decide (0xFFFFFF < (x.bw x.low).toNat)) fun x => .barExp (x.av x.low) (x.bw x.low)

def execBarWait (g : Guard) (st : State) : Out :=
  fireBar "BAR_WAIT" st g [0, 1] accRead (fun _ => false) fun x => .barWait (x.av x.low) ((x.bw x.low).setWidth 4)

def execBarInv (g : Guard) (st : State) : Out :=
  fireBar "BAR_INV" st g [0] cellRW (fun _ => false) fun x => .barInv (x.av x.low)

/-- Some byte of a cell is poisoned. -/
def cellPoisoned (s : State) : CellAt → Bool
  | .glob pa => poisonedAt s pa 32
  | .spad g a => match getGroup s g with | some g => spadPoisoned g a 32 | none => false

/-- A cell read by the instruction itself: LINK_LOST where it lies behind a cut link, POISON where it is poisoned. -/
def readCauses (s : State) (x : Fire) (at_ : CellAt) : List Cause :=
  (if cellCut s at_ then [addrCause x Code.linkLost (x.av x.low).toNat] else []) ++
  (if cellPoisoned s at_ && !x.f.irrev then [⟨2, x.i, Code.poison, blockDetail x.f x.i, none⟩] else [])

/-- A barrier instruction that reads its cell when it fires. -/
def fireBarRead (m : String) (st : State) (g : Guard) (tgts : List Target) (wide : Bool) (a : Fire → Acc) (bad : Fire → Bool)
    (v : Fire → BCell → DWord) (cmds : Fire → BCell → List Cmd) : Out :=
  fireHeld m st g [0, 1] [] (fun x => cellWaits st x (x.av x.low)) fun x =>
    if !x.any then Fired.now st { Effects.none with toks := tgts.map fun t => (t, Token.scal wide false 0) }
    else
      let k := checkCell st x (x.av x.low) (a x)
      let cs := k.causes ++ (if k.causes = [] ∧ bad x then [fireCause x Code.barOperand] else [])
      match k.cell with
      | some at_ =>
        let cs := cs ++ readCauses st x at_
        let c := readCell st at_
        Fired.now (touchCell k.st x.w.ctx at_) { Effects.none with
          toks := tgts.map fun t => (t, Token.scal wide true (v x c) (decide (x.pois ≠ 0) || cellPoisoned st at_))
          causes := cs
          cmds := if cs = [] then cmds x c else [] }
      | none => Fired.now k.st { Effects.none with causes := cs }

/-- bar.test is ready: the cell is dead or past the phase (R244). -/
def BCell.ready (c : BCell) (phase : Nat) : Bool := !c.live || decide (c.phase ≠ phase)

def BCell.testWord (c : BCell) (phase : Nat) : Nat :=
  c.err.toNat * 512 + c.live.toNat * 256 + c.phase * 16 + (c.ready phase).toNat

def execBarTest (g : Guard) (ta tb : Target) (st : State) : Out :=
  let ph (x : Fire) : Nat := (x.bw x.low).toNat % 16
  fireBarRead "BAR_TEST" st g [ta, tb] false (fun _ => accRead) (fun _ => false)
    (fun x c => BitVec.ofNat 64 (c.testWord (ph x)))
    (fun x c => if c.live ∧ c.phase ≠ ph x then [.acquire c.scope] else [])

/-- bar.stat (R245): word 4 and word 5; mode 1 clears at commit if word 4 is then what was read. -/
def execBarStat (g : Guard) (ta tb : Target) (st : State) : Out :=
  fireBarRead "BAR_STAT" st g [ta, tb] true (fun x => if x.bw x.low = 1 then cellRW else accRead)
    (fun x => decide (1 < (x.bw x.low).toNat)) (fun _ c => c.count ++ c.word4)
    (fun x c => if x.bw x.low = 1 then [.barClear (x.av x.low) c.word4] else [])

/-- waitc waits after commit (R249). -/
def execWaitc (g : Guard) (s : ClsCw) (st : State) : Out :=
  fireCmd "WAITC" st g [0] fun x => ([], [.waitc s (x.aw x.low)])

end Sys2Proof.Machine
end

