-- ==== Sys2Proof/Machine/Copy.lean ====
section
/-!
DEFINITION. Copies (11 R232 to R239, R247, R248): the descriptor and its address generator, the checks when a copy instruction fires,
the footprint check, the movement of sectors and the completion, and the events these are made of. A header prefetch starts the same
copy at map.
-/
namespace Sys2Proof.Machine

/-! ### The descriptor and the generator (R232, R233, R235) -/

/-- A parsed descriptor: element size, levels (count, source stride, destination stride), xstride, bases and aux. -/
structure CDesc where
  esize  : Nat
  levels : List (Nat × Int × Int)
  xs     : Int
  sbase  : DWord
  dbase  : DWord
  aux    : DWord
deriving DecidableEq, Repr

def sx32 (w : Word) : Int := w.toInt
def dword (ws : List Word) (k : Nat) : DWord := ws.getD (k + 1) 0 ++ ws.getD k 0

/-- A base is well formed: a scratchpad one holds only a 32-bit address, a global one 52 bits (R223). -/
def baseOk (b : DWord) : Bool :=
  if opSpad b then decide (bitsOf b.toNat 62 32 = 0) else decide (b.toNat < 2 ^ 52)

/-- The address a base holds. -/
def baseAddr (b : DWord) : Int := if opSpad b then (bitsOf b.toNat 31 0 : Nat) else (b.toNat : Nat)

def CopyKind.usesIndex : CopyKind → Bool
  | .gth | .sct => true
  | _ => false
def CopyKind.isRed : CopyKind → Bool
  | .red _ => true
  | _ => false

/-- The spaces a kind allows its source and destination: global, scratchpad (R235). -/
def CopyKind.srcOk (k : CopyKind) (spad : Bool) : Bool :=
  match k with
  | .g2s | .g2g | .gth | .win => !spad
  | .s2g => spad
  | .sct | .red _ => true
def CopyKind.dstOk (k : CopyKind) (spad : Bool) : Bool :=
  match k with
  | .g2s | .win => spad
  | .s2g | .g2g | .sct | .red _ => !spad
  | .gth => true

def CDesc.kh (d : CDesc) : Nat := bitsOf d.aux.toNat 7 0
def CDesc.wstride (d : CDesc) : Nat := bitsOf d.aux.toNat 15 8
def CDesc.dil (d : CDesc) : Nat := bitsOf d.aux.toNat 23 16

def levelsOf (ws : List Word) (n : Nat) : List (Nat × Int × Int) :=
  (List.range n).map fun l => ((ws.getD (8 + 3 * l) 0).toNat, sx32 (ws.getD (9 + 3 * l) 0), sx32 (ws.getD (10 + 3 * l) 0))

def parseDesc (ws : List Word) : CDesc :=
  { esize := 2 ^ wbits (ws.getD 0 0) 26 24, levels := levelsOf ws (wbits (ws.getD 0 0) 18 16 + 1), xs := sx32 (ws.getD 1 0)
    sbase := dword ws 2, dbase := dword ws 4, aux := dword ws 6 }

/-- The implicit level of cp.win stands between levels 0 and 1. -/
def CDesc.counts (d : CDesc) (k : CopyKind) : List Nat :=
  let cs := d.levels.map (·.1)
  match k, cs with
  | .win, c :: r => c :: d.kh :: r
  | _, cs => cs

def CDesc.elems (d : CDesc) (k : CopyKind) : Nat := (d.counts k).foldl (· * ·) 1
def CDesc.bytes (d : CDesc) (k : CopyKind) : Nat := d.elems k * d.esize
def CDesc.sectors (d : CDesc) (k : CopyKind) : Nat := (d.bytes k + 31) / 32

/-- The descriptor obeys R232, R235 and, for cp.red, R248. -/
def descOk (k : CopyKind) (ws : List Word) : Bool :=
  let d := parseDesc ws
  let ctl := ws.getD 0 0
  let L := d.levels.length
  wbits ctl 31 27 == 0 && wbits ctl 23 19 == 0 && wbits ctl 15 0 == 0 && decide (wbits ctl 26 24 ≤ 4)
  && (ws.drop (8 + 3 * L)).all (fun w => decide (w = 0))
  && d.levels.all (fun l => decide (1 ≤ l.1) && decide (l.1 ≤ 2 ^ 24))
  && baseOk d.sbase && baseOk d.dbase && k.srcOk (opSpad d.sbase) && k.dstOk (opSpad d.dbase)
  && (match k with
      | .gth => baseOk d.aux && d.levels.tail.all fun l => decide (l.2.1 = 0)
      | .sct => baseOk d.aux && d.levels.tail.all fun l => decide (l.2.2 = 0)
      | .win => decide (L ≤ 7) && decide (d.aux.toNat < 2 ^ 24) && decide (d.kh ≠ 0) && decide (d.wstride ≠ 0) && decide (d.dil ≠ 0)
      | _ => decide (d.aux = 0) && decide (d.xs = 0))
  && (match k with
      | .red .addBf16 => decide (d.esize = 2)
      | .red _ => decide (d.esize = 4)
      | _ => true)
  && decide (1 ≤ d.bytes k) && decide (d.bytes k ≤ 2 ^ 36)
  && d.levels.all (fun l => decide (l.2.1 % d.esize = 0) && decide (l.2.2 % d.esize = 0))
  && decide (d.xs % d.esize = 0) && decide (baseAddr d.sbase % d.esize = 0) && decide (baseAddr d.dbase % d.esize = 0)

/-- Index tuple of element e, innermost first. -/
def tupleOf : List Nat → Nat → List Nat
  | [], _ => []
  | c :: r, e => e % c :: tupleOf r (e / c)

def dotI (is : List Nat) (ss : List Int) : Int := ((is.zip ss).map fun p => (p.1 : Int) * p.2).foldl (· + ·) 0

/-- Source and destination address of element e, exact (R233, R235). -/
def CDesc.at (d : CDesc) (k : CopyKind) (index : List Int) (e : Nat) : Int × Int :=
  let is := tupleOf (d.counts k) e
  let ss := d.levels.map (·.2.1)
  let ds := d.levels.map (·.2.2)
  let s0 := ss.headD 0
  let d0 := ds.headD 0
  let i0 : Int := (is.headD 0 : Nat)
  let q := e / (d.counts k).headD 1
  let sb := baseAddr d.sbase
  let db := baseAddr d.dbase
  match k with
  | .gth => (sb + index.getD q 0 * d.xs + i0 * s0, db + dotI is ds)
  | .sct => (sb + dotI is ss, db + index.getD q 0 * d.xs + i0 * d0)
  | .win =>
    let j : Int := (is.getD 1 0 : Nat)
    (sb + (i0 * d.wstride + j * d.dil) * s0 + dotI (is.drop 2) ss.tail, db + i0 * d0 + j * d.xs + dotI (is.drop 2) ds.tail)
  | _ => (sb + dotI is ss, db + dotI is ds)

/-! ### Firing (R236) -/

/-- Words of a descriptor read on the K path by a core, and whether they carry poison. -/
def readDesc (s : State) (core ctx pa : Nat) (cls : PageClass) : (List Word × Bool) × State :=
  let (a, s) := loadK s core ctx cls pa 64
  let (b, s) := loadK s core ctx cls (pa + 64) 64
  ((wordsOf (a.1 ++ b.1), badAt a.2 pa 64 || badAt b.2 (pa + 64) 64), s)

/-- What a descriptor address gives: the words, or why not. -/
inductive DescRead where
  | ok (ws : List Word) (bad : Bool) | desc | xlat (f : XFault) | lost | cut
deriving DecidableEq, Repr

def fetchDesc (s : State) (w : Warp) (a : DWord) : DescRead × State :=
  if 2 ^ 52 ≤ a.toNat then (.desc, s)
  else if linkDown s (dieOf w.core) then (.lost, s)
  else
    match xlateNow s w.core w.ctx a.toNat accRead with
    | (.bad f, s) => (.xlat f, s)
    | (.cut, s) => (.cut, s)
    | (.ok pa cls _ _, s) =>
      let cls := effClass s pa cls
      if a.toNat % 128 ≠ 0 then (.desc, s)
      else if !coreReaches s (dieOf w.core) pa cls false then (.lost, s)
      else let r := readDesc s w.core w.ctx pa cls; (.ok r.1.1 r.1.2, r.2)

/-- Reading the descriptor has to wait for a walk, or behind a retraining link (12 R260, 14 R315). -/
def descWaits (s : State) (core ctx : Nat) (a : DWord) : Bool :=
  decide (a.toNat < 2 ^ 52) && !linkDown s (dieOf core) && (linkHeld s (dieOf core) || nowWaits s core ctx a.toNat ||
    (match coreXlate s core ctx a.toNat accRead with
     | .hit pa cls => coreHeld s (dieOf core) pa (effClass s pa cls) false
     | _ => false))

/-- The cell that a copy names is live and of a scope that its space does not allow (R225). -/
def scopeBad (s : State) (op : DWord) (at_ : CellAt) : Bool :=
  let c := readCell s at_
  c.live && !(if opSpad op then decide (c.scope = 2) else decide (3 ≤ c.scope) && decide (c.scope ≤ 5))

def fireCopy (m : String) (st : State) (g : Guard) (k : CopyKind) : Out :=
  let wait (x : Fire) : Bool :=
    x.any && (descWaits st x.w.core x.w.ctx (x.av x.low) || (decide (x.bv x.low ≠ 0) && cellWaits st x (x.bv x.low)))
  fireHeld m st g [0, 1] [] wait fun x =>
    if !x.any then Fired.now st Effects.none
    else
      let a := x.av x.low
      let b := x.bv x.low
      let (d, s) := fetchDesc st x.w a
      let bar : CellCheck := if b = 0 then ⟨none, [], s⟩ else checkCell s x b cellRW
      let scope : List Cause := match bar.cell with
        | some at_ => if scopeBad s b at_ then [fireCause x Code.barOperand] else []
        | none => []
      let dc : List Cause := match d with
        | .desc => [fireCause x Code.copyDesc]
        | .xlat f => [⟨1, x.i, f.code, BitVec.ofNat 64 f.va, some f⟩]
        | .lost => [addrCause x Code.linkLost a.toNat]
        | .cut => []
        | .ok ws bad => (if bad && !x.f.irrev then [⟨2, x.i, Code.poison, blockDetail x.f x.i, none⟩] else []) ++
            if descOk k ws then [] else [fireCause x Code.copyDesc]
      let cs := dc ++ bar.causes ++ scope
      match d with
      | .cut => Fired.now (contextFault bar.st x.w.ctx) Effects.none
      | .ok ws _ => Fired.now bar.st { Effects.none with causes := cs, cmds := if cs = [] then [.copy k a.toNat ws b] else [] }
      | _ => Fired.now bar.st { Effects.none with causes := cs }

def execCpG2s (g : Guard) (st : State) : Out := fireCopy "CP_G2S" st g .g2s
def execCpS2g (g : Guard) (st : State) : Out := fireCopy "CP_S2G" st g .s2g
def execCpG2g (g : Guard) (st : State) : Out := fireCopy "CP_G2G" st g .g2g
def execCpGth (g : Guard) (st : State) : Out := fireCopy "CP_GTH" st g .gth
def execCpSct (g : Guard) (st : State) : Out := fireCopy "CP_SCT" st g .sct
def execCpWin (g : Guard) (st : State) : Out := fireCopy "CP_WIN" st g .win
def execCpRed (g : Guard) (s : ClsCr) (st : State) : Out := fireCopy "CP_RED" st g (.red s)

/-! ### Issue (R236, R240) -/

/-- A copy as it is issued; one with a barrier waits for its operation on the cell, in order with the warp's others (20 R461). -/
def issueCopy (s : State) (wid : Nat) (w : Warp) (rgnr : Nat) (k : CopyKind) (desc : Nat) (ws : List Word) (bar : DWord) : State :=
  let (id, s) := takeUid s
  let x : Copy :=
    { warp := wid, gid := w.gid, ctx := w.ctx, kind := k, desc := desc, snap := ws, bar := bar, rgnr := BitVec.ofNat 8 rgnr, seq := id
      sectors := (parseDesc ws).sectors k, done := [], low := 0, issued := decide (bar = 0), checked := false
      paused := none, pauseVa := 0, todo := [], index := [], ended := none }
  let s := { s with copies := tput s.copies id x }
  if bar = 0 then modWarp s wid fun w => { w with cntX := w.cntX ++ [(id, false)] }
  else
    let s := modGroup s w.gid fun g => { g with copyCells := if g.copyCells.contains bar then g.copyCells else g.copyCells ++ [bar] }
    modWarp s wid fun w => { w with barq := w.barq ++ [⟨bar, id, .copy k desc ws bar, id, w.handle⟩] }

/-! ### Running (R237, R248) -/

/-- Bytes an element writes: in the scratchpad, or at a physical address of a page of a class; and whether they are poisoned. -/
structure Put where
  spad  : Bool
  at_   : Nat
  cls   : PageClass
  bytes : List Byte
  bad   : Bool
deriving DecidableEq, Repr

/-- How an element's move ends: done, with what it writes if that is still to be written; at a fault; early; in a context fault; or waiting for
a walk or behind a retraining link; with the state. -/
inductive Moved where
  | done (s : State) (p : Option Put)
  | fault (f : XFault) (s : State)
  | ends (code : Nat) (detail : DWord) (s : State)
  | cut (s : State)
  | wait (s : State)

def spadOperand (a : Int) : DWord := BitVec.ofNat 64 (2 ^ 63 + (a % 2 ^ 32).toNat)

/-- A global access of a copy, by its die's TLB: where it lies, its class and the state, or how the copy takes it. -/
def copyXlate (s : State) (x : Copy) (die : Nat) (a : Int) (acc : Acc) : Sum (Nat × PageClass × State) Moved :=
  if a < 0 ∨ 2 ^ 52 ≤ a then .inr (.ends Code.addrForm (BitVec.ofInt 64 a) s)
  else if linkDown s die then .inr (.ends Code.linkLost (BitVec.ofInt 64 a) s)
  else
    match agentXlate s none die x.ctx a.toNat acc with
    | (.bad f, s) => .inr (.fault f s)
    | (.cut, s) => .inr (.cut s)
    | (.wait, s) => .inr (.wait s)
    | (.lost, s) => .inr (.ends Code.linkLost (BitVec.ofInt 64 a) s)
    | (.ok pa cls _, s) =>
      if !reaches s (some die) pa then .inr (.ends Code.linkLost (BitVec.ofInt 64 a) s)
      else if linkHeld s die || crossesHeld s (some die) pa then .inr (.wait s)
      else .inl (pa, effClass s pa cls, s)

/-- Global bytes as the X path of a die reads them, with their poison, retaining nothing: at the die L2 where it holds their line, else at the
hub (09 R181). -/
def xRead (s : State) (die ctx : Nat) (cls : PageClass) (pa n : Nat) : (List Byte × Bool) × State :=
  let here := l2Serves s die (pa / 128) cls false
  ((if cls = .S then dieBytes s die pa n else s.mem.bytes pa n, if here then dieBad s die cls pa n else poisonedAt s pa n),
    if cls = .U then hubMove s (some die) ctx .U pa n
    else
      let s := spend s die ctx 8 1
      if here then s else hubMove (countEvent s die ctx 6 1) (some die) ctx cls pa n)

def copyRead (s : State) (x : Copy) (die : Nat) (spad : Bool) (a : Int) (n : Nat) : Sum (List Byte × Bool × State) Moved :=
  if spad then
    match getGroup s x.gid with
    | some g =>
      if a < 0 ∨ !inShare g a.toNat n then .inr (.ends Code.spadRange (spadOperand a) s)
      else .inl (presentBytes g a.toNat n, presentPoison g a.toNat n, spend s die x.ctx 7 1)
    | none => .inr (.cut s)
  else
    match copyXlate s x die a accRead with
    | .inl (pa, cls, s) => let r := xRead s die x.ctx cls pa n; .inl (r.1.1, r.1.2, r.2)
    | .inr m => .inr m

/-- The combine of cp.red (R248). -/
def redCombine (op : ClsCr) (d v : Nat) : Nat :=
  let lesser (a b : Nat) : Nat := if sextN a 32 ≤ sextN b 32 then a else b
  let greater (a b : Nat) : Nat := if sextN a 32 ≤ sextN b 32 then b else a
  match op with
  | .addI32 => (d + v) % 2 ^ 32
  | .addF32 => (fF32.add .rne d v).1
  | .addBf16 => (fBF16.add .rne d v).1
  | .minI32 => lesser d v
  | .maxI32 => greater d v
  | .minF32 => (fF32.minmax false d v).1
  | .maxF32 => (fF32.minmax true d v).1

/-- A combine of cp.red is made at the hub; on host memory under the hub's ownership of the line (14 R322). -/
def copyCombine (s : State) (die ctx : Nat) (cls : PageClass) (op : ClsCr) (pa n : Nat) (v : List Byte) (bad : Bool) : State :=
  let new := leBytes (redCombine op (leNat (s.mem.bytes pa n)) (leNat v)) n
  let bad := bad || poisonedAt s pa n
  if inHost s pa then hubAtomic s die ctx cls pa new bad else hubWrite (hubMove s (some die) ctx cls pa n) pa new bad

/-- Read element e of a copy, and combine it or say what it writes. -/
def moveElem (s : State) (x : Copy) (die e : Nat) : Moved :=
  let d := parseDesc x.snap
  let (src, dst) := d.at x.kind x.index e
  match copyRead s x die (opSpad d.sbase) src d.esize with
  | .inr m => m
  | .inl (bs, bad, s) =>
    if opSpad d.dbase then .done s (some ⟨true, dst.toNat, .C, bs, bad⟩)
    else
      match x.kind with
      | .red op =>
        match copyXlate s x die dst accAtomic with
        | .inr m => m
        | .inl (pa, cls, s) =>
          if cls = .S then .ends Code.atomicClass (BitVec.ofInt 64 dst) s
          else .done (copyCombine s die x.ctx cls op pa d.esize bs bad) none
      | _ =>
        match copyXlate s x die dst accWrite with
        | .inr m => m
        | .inl (pa, cls, s) => .done s (some ⟨false, pa, cls, bs, bad⟩)

/-- What the elements of a move write, by address: of two that write one byte, the later one's. -/
def putBytesOf (ps : List Put) : Table (Byte × Bool) :=
  ps.foldl (fun t p => p.bytes.zipIdx.foldl (fun t b => tput t (p.at_ + b.2) (b.1, p.bad)) t) []

/-- The writes of a move are made, the clean bytes of a sector together (18 R440). -/
def makePuts (s : State) (id : Nat) (x : Copy) (die : Nat) (ps : List Put) : State :=
  (byteRuns (putBytesOf ps)).foldl (fun s r =>
    match ps.find? fun p => decide (p.at_ ≤ r.1) && decide (r.1 < p.at_ + p.bytes.length) with
    | some p =>
      if p.spad then modGroup (spend s die x.ctx 7 1) x.gid fun g => spadWrite g r.1 r.2.1 r.2.2
      else storeDie s die x.ctx (.copy id) p.cls r.1 r.2.1 r.2.2
    | none => s) s

/-- How a run over elements ends: all moved, paused at a fault or waiting with the rest still to move, ended early, or a context fault. -/
inductive RunEnd where
  | all | pause (f : XFault) (rest : List Nat) | wait (rest : List Nat) | ends (code : Nat) (detail : DWord) | cut
deriving DecidableEq

/-- Move elements in turn; what those that moved write is written at the end of the move. -/
def moveAll (id : Nat) (x : Copy) (die : Nat) : State → List Put → List Nat → State × RunEnd
  | s, ps, [] => (makePuts s id x die ps, .all)
  | s, ps, e :: r =>
    match moveElem s x die e with
    | .done s p => moveAll id x die s (ps ++ p.toList) r
    | .fault f s => (makePuts s id x die ps, .pause f (e :: r))
    | .ends c d s => (makePuts s id x die ps, .ends c d)
    | .cut s => (makePuts s id x die ps, .cut)
    | .wait s => (makePuts s id x die ps, .wait (e :: r))

/-- A region refuses a byte to a copy (10 R209). -/
def regionRefuses (g : Group) (rgnr : Byte) (wr : Bool) (a : Nat) : Bool :=
  match regionsAt g a 1 with
  | [] => false
  | (k, r) :: _ => if wr then r.stepped else !(r.visible a 1 && rgnr.getLsbD k)

/-- The first byte of the scratchpad footprint, in stream order, that fails a test. -/
def footBad (x : Copy) (bad : Bool → Int → Bool) : Nat → Nat → Option Int
  | 0, _ => none
  | n + 1, e =>
    let d := parseDesc x.snap
    let (src, dst) := d.at x.kind x.index e
    let span (a : Int) : List Int := (List.range d.esize).map fun (i : Nat) => a + (i : Int)
    match (if opSpad d.sbase then (span src).find? (bad false) else none) with
    | some a => some a
    | none =>
      match (if opSpad d.dbase then (span dst).find? (bad true) else none) with
      | some a => some a
      | none => footBad x bad n (e + 1)

/-- The footprint check (R237): shares first, then regions. -/
def footprint (s : State) (x : Copy) : Option (Nat × DWord) :=
  match getGroup s x.gid with
  | none => none
  | some g =>
    let n := (parseDesc x.snap).elems x.kind
    match footBad x (fun _ a => decide (a < 0) || !inShare g a.toNat 1) n 0 with
    | some a => some (Code.spadRange, spadOperand a)
    | none => (footBad x (fun wr a => regionRefuses g x.rgnr wr a.toNat) n 0).map fun a => (Code.regionAccess, spadOperand a)

/-- Read n bytes of the index vector, each translated by itself, for an entry may straddle a page; whether they carry poison. No
region refuses them (log 123). -/
def readIndexBytes (x : Copy) (die : Nat) (spad : Bool) : State → Int → Nat → Sum (List Byte × Bool × State) Moved
  | s, _, 0 => .inl ([], false, s)
  | s, a, n + 1 =>
    match copyRead s x die spad a 1 with
    | .inr m => .inr m
    | .inl (b, bad, s) =>
      match readIndexBytes x die spad s (a + 1) n with
      | .inr m => .inr m
      | .inl (bs, bad', s) => .inl (b ++ bs, bad || bad', s)

/-- Read the index vector from row q on (R235). A poisoned index is a poisoned address: the copy ends with POISON (18 R440, log 91). -/
def readIndex (x : Copy) (die : Nat) : State → Nat → Nat → Sum (List Int × State) Moved
  | s, 0, _ => .inl ([], s)
  | s, n + 1, q =>
    let aux := (parseDesc x.snap).aux
    let a := baseAddr aux + 4 * q
    match readIndexBytes x die (opSpad aux) s a 4 with
    | .inr m => .inr m
    | .inl (bs, bad, s) =>
      if bad then .inr (.ends Code.poison (if opSpad aux then spadOperand a else BitVec.ofInt 64 a) s)
      else
        match readIndex x die s n (q + 1) with
        | .inl (r, s) => .inl (sextN (leNat bs) 32 :: r, s)
        | .inr m => .inr m

def setCopy (s : State) (id : Nat) (x : Copy) : State := { s with copies := tput s.copies id x }

/-- A copy's cell operation. -/
def copyCell (s : State) (x : Copy) (f : BCell → BCell) : State :=
  if x.bar = 0 then s else onOperand s x.ctx (some x.gid) x.bar f

/-- The copy's fault record, and the pause (R237). -/
def pauseCopy (s : State) (id : Nat) (x : Copy) (f : XFault) : State :=
  let kid : Word := match getWarp s x.warp with | some w => kidWord w.kid | none => 0
  let (s, k) := postFault s x.ctx ⟨2, kid, rankWord s x.gid, 0, 0, BitVec.ofNat 64 x.desc⟩ f (some (.copy id))
  { s with copies := tput s.copies id { x with paused := some k, pauseVa := f.va } }

def endCopy (s : State) (id : Nat) (x : Copy) (code count : Nat) (detail : DWord) : State :=
  setCopy s id { x with ended := some (code, BitVec.ofNat 32 count, detail) }

/-- Bytes that the copy wrote to S-class pages rest dirty in a die L2, where they have not performed at the scope the barrier asks: device or
system scope, or device for a counter (R234, R249, 09 R193). Of a copy that ended early too: the sectors it counts have completed (R237). -/
def copyOwes (s : State) (id : Nat) (x : Copy) : Bool :=
  owes s (.copy id) &&
    (decide (x.bar = 0) ||
      (match findCell s x.ctx (some x.gid) x.bar accRead with
       | .ok at_ => decide (4 ≤ (readCell s at_).scope)
       | .error _ => false))

/-- Sectors the cell may have been lowered by: all completed ones but the last of all, which the completion lowers. -/
def Copy.lowered (x : Copy) : Nat := min x.done.length (x.sectors - 1)

/-- The cell is lowered by the sectors that have performed at its scope since (R234). -/
def lowerCell (s : State) (id : Nat) (x : Copy) : State :=
  if x.lowered ≤ x.low ∨ copyOwes s id x ∨ (x.bar ≠ 0 ∧ cellHeld s x.ctx x.bar) then setCopy s id x
  else copyCell (setCopy s id { x with low := x.lowered }) x fun c => c.sectors (x.lowered - x.low) (BitVec.ofNat 64 x.desc)

/-- The elements of a sector. -/
def sectorElems (x : Copy) (j : Nat) : List Nat :=
  let d := parseDesc x.snap
  let per := 32 / d.esize
  (List.range per).map (· + j * per) |>.filter fun e => decide (e < d.elems x.kind)

/-- The sector of an element. -/
def sectorOf (x : Copy) (e : Nat) : Nat := e * (parseDesc x.snap).esize / 32

/-- The sector taken next, which is not defined: one of which no element has moved. -/
def nextSector (s : State) (x : Copy) : Option Nat :=
  let open_ := x.todo.map (sectorOf x)
  let left := (List.range x.sectors).filter fun j => !x.done.contains j && !open_.contains j
  left[Config.order s.tick 0 % left.length]?

/-- How a copy starts: it is ready to move, another state follows first, or it waits for a walk or behind a retraining link. -/
inductive CopyStart where
  | ready (x : Copy) (s : State) | other (s : State) | wait

/-- A state that a wait leaves is a move of its own where the copy has only now joined the walk it waits on. -/
def joined (s t : State) : CopyStart := if t.tlb.walks ≠ s.tlb.walks then .other t else .wait

/-- The copy starts: its index vector is read and its footprint checked. -/
def startCopy (s : State) (id : Nat) (x : Copy) (die : Nat) : CopyStart :=
  let d := parseDesc x.snap
  let rows := if x.kind.usesIndex then (d.counts x.kind).tail.foldl (· * ·) 1 else 0
  match readIndex x die s rows 0 with
  | .inr (.wait t) => joined s t
  | .inr (.fault f s) => .other (pauseCopy s id x f)
  | .inr (.ends c det s) => .other (endCopy s id x c 0 det)
  | .inr (.cut s) | .inr (.done s _) => .other (contextFault s x.ctx)
  | .inl (index, s) =>
    let x := { x with index := index, checked := true }
    match footprint s x with
    | some (c, det) => .other (endCopy s id x c 0 det)
    | none => .ready x s

/-- The copy may run: issued, not paused or ended, and no older pfence of its warp still holds it back (09 R184). -/
def copyRuns (s : State) (x : Copy) : Bool :=
  x.issued && x.paused.isNone && x.ended.isNone && decide (x.done.length < x.sectors) && !pfenceBefore s x.warp x.seq (fun _ => true)

/-- The elements of the sectors in progress that are still to move. A copy goes on with its sector, or takes the next; cp.red may take up another
sector beside those in progress, for its combines fall in no defined order (R248, 08 R180). -/
def inProgress (s : State) (x : Copy) : List Nat :=
  let more := match nextSector s x with | some j => sectorElems x j | none => []
  if x.todo = [] then more else if x.kind.isRed ∧ Config.order s.tick 1 % 2 = 1 then x.todo ++ more else x.todo

/-- One move of a copy that runs: the rest of its sector in progress, or the next sector; one element of cp.red, between whose combines other
agents may come. -/
def runCopy (s : State) (id : Nat) (x : Copy) (die : Nat) : Out :=
  let todo := if x.kind.isRed then freeOrder s.tick (inProgress s x) else inProgress s x
  let sector := sectorOf x (todo.headD 0)
  let now := if x.kind.isRed then todo.take 1 else todo
  let later := if x.kind.isRed then todo.drop 1 else []
  match moveAll id x die s [] now with
  | (s, .pause f rest) => .next (pauseCopy s id { x with todo := rest ++ later } f)
  | (s, .ends c d) => .next (endCopy s id { x with todo := [] } c x.done.length d)
  | (s, .cut) => .next (contextFault s x.ctx)
  | (t, .wait rest) =>
    if rest = now ∧ t.tlb.walks = s.tlb.walks then notDue "COPY_SECTOR_COMPLETE"
    else .next (setCopy t id { x with todo := rest ++ later })
  | (s, .all) =>
    if later.any fun e => decide (sectorOf x e = sector) then .next (setCopy s id { x with todo := later })
    else .next (lowerCell s id { x with todo := later, done := nins x.done sector })

/-- COPY_SECTOR_COMPLETE: a sector's elements move; each completed sector but the last lowers the cell once its bytes have performed at the
cell's scope (R234). -/
def execCopySectorComplete (id : Nat) (s : State) : Out :=
  match tget s.copies id with
  | none => notDue "COPY_SECTOR_COMPLETE"
  | some x =>
    match getWarp s x.warp with
    | none => notDue "COPY_SECTOR_COMPLETE"
    | some w =>
      if x.low < x.lowered ∧ x.issued ∧ !copyOwes s id x ∧ (x.bar = 0 ∨ !cellHeld s x.ctx x.bar) then .next (lowerCell s id x)
      else if !copyRuns s x then notDue "COPY_SECTOR_COMPLETE"
      else
        let die := dieOf w.core
        match (if x.checked then .ready x s else startCopy s id x die : CopyStart) with
        | .wait => notDue "COPY_SECTOR_COMPLETE"
        | .other s => .next s
        | .ready x s => runCopy s id x die

/-- What S-class bytes a finished copy still owes at device scope its group owes now: it retires only when they have performed (05 R94). -/
def passDebt (s : State) (id gid : Nat) : State :=
  let pass (l : SLine) : SLine :=
    if l.debts.contains (.copy id) then
      { l with debts := l.debts.filter (fun d => decide (d ≠ .copy id) && decide (d ≠ .group gid)) ++ [.group gid] }
    else l
  { s with cache := { s.cache with l2 := s.cache.l2.map pass } }

/-- A group in retiring loses work of its drain to a down link: it will end halted (14 R317). -/
def noteLost (s : State) (gid : Nat) : State := modGroup s gid fun g => { g with lost := g.lost || decide (g.state = .retiring) }

/-- COPY_COMPLETION: one barrier operation, the status write and the sectors not yet lowered (R238, R237). -/
def execCopyCompletion (id : Nat) (s : State) : Out :=
  match tget s.copies id with
  | none => notDue "COPY_COMPLETION"
  | some x =>
    if !x.issued || (x.ended.isNone && decide (x.done.length < x.sectors)) || copyOwes s id x || (decide (x.bar ≠ 0) && cellHeld s x.ctx x.bar) then
      notDue "COPY_COMPLETION"
    else
      let (code, count, detail) := match x.ended with
        | some r => r
        | none => (0, BitVec.ofNat 32 x.sectors, BitVec.ofNat 64 x.desc)
      let s := copyCell s x fun c => (c.report code count detail).sectors (x.sectors - x.low) (BitVec.ofNat 64 x.desc)
      let s := if code = Code.linkLost then noteLost s x.gid else s
      .next (countersDone (passDebt { s with copies := tdel s.copies id } id x.gid) x.warp id)

/-! ### The header prefetch (R239, 07 R132) -/

/-- The prefetch's barrier, checked: the operand 0, a usable cell, or the record it leaves. -/
inductive PreBar where
  | untracked | usable | bad (f : XFault) | cut
deriving DecidableEq, Repr

/-- The level and leaf that the walk of a global cell's address ended at (12 R262). -/
def cellLeaf (s : State) (ctx : Nat) (op : DWord) : Nat × DWord :=
  if opSpad op then (0, 0) else match hubXlate s ctx op.toNat cellRW with | .ok _ _ e level => (level, e) | _ => (0, 0)

def prefetchBar (s : State) (w : Warp) (bar : DWord) : PreBar :=
  if bar = 0 then .untracked
  else
    match findCell s w.ctx (some w.gid) bar cellRW with
    | .ok at_ =>
      let (level, e) := cellLeaf s w.ctx bar
      if scopeBad s bar at_ then .bad ⟨Code.barOperand, cellRW, level, e, bar.toNat⟩ else .usable
    | .error (.operand level e) => .bad ⟨Code.barOperand, cellRW, level, e, bar.toNat⟩
    | .error (.xlat f) => .bad { f with va := bar.toNat }
    | .error (.cut _) => .cut

/-- A prefetch that fails: with a barrier it arms the cell with one sector and ends at once with its status; without, it counts on X
and completes at once. -/
def failPrefetch (s : State) (wid : Nat) (w : Warp) (desc : Nat) (bar : DWord) (code : Nat) : State :=
  let (id, s) := takeUid s
  if bar = 0 then modWarp s wid fun w => { w with cntX := opDone (w.cntX ++ [(id, false)]) id }
  else
    queueBar s wid w.handle bar (.chkStatus bar code 0 (BitVec.ofNat 64 desc)) atOnce

/-- The prefetch has to wait, as a copy instruction would. -/
def prefetchWaits (s : State) (w : Warp) (desc bar : DWord) : Bool :=
  descWaits s w.core w.ctx desc || (decide (bar ≠ 0) && !opSpad bar && !linkDown s (dieOf w.core) && cellHeld s w.ctx bar)

/-- Issue the header prefetch of a validated block. -/
def headerPrefetch (s : State) (wid : Nat) (rgnr : Nat) (desc bar : DWord) : State :=
  match getWarp s wid with
  | none => s
  | some w =>
    match prefetchBar s w bar with
    | .bad f =>
      (postFault s w.ctx ⟨5, kidWord w.kid, rankWord s w.gid, w.handle, whereWord w 0, desc⟩ f none).1
    | .cut => contextFault s w.ctx
    | _ =>
      let s := modWarp s wid fun w => { w with prefetched := some w.handle }
      match fetchDesc s w desc with
      | (.ok ws false, s) =>
        if descOk .g2s ws then drainWarp (issueCopy s wid w rgnr .g2s desc.toNat ws bar) wid
        else failPrefetch s wid w desc.toNat bar Code.copyDesc
      | (.desc, s) => failPrefetch s wid w desc.toNat bar Code.copyDesc
      | (.cut, s) => contextFault s w.ctx
      | (_, s) => failPrefetch s wid w desc.toNat bar Code.copyFault

end Sys2Proof.Machine
end

