-- ==== Sys2Proof/Machine/Shape.lean ====
section
/-!
DEFINITION. The static shape of tokens (02 R34, 15 R336): which operands each instruction takes, of which kind and width, what its
guard may be, and the kind and width of its result; and the shapes of all producers of an image, in one pass, since dataflow runs
forward (R37).
-/
namespace Sys2Proof.Machine

/-- Kinds an operand or guard may have. -/
inductive KReq where
  | any | scal | vec
deriving DecidableEq, Repr

/-- Widths an operand may have. -/
inductive WReq where
  | w32 | w64 | either
deriving DecidableEq, Repr

/-- An operand: its width, its kind, and whether it is taken only when some producer names it (R360). -/
structure Opd where
  w   : WReq
  k   : KReq
  opt : Bool
deriving DecidableEq, Repr

/-- The kind of a result: as R135 gives, always scalar, always vector, or vector where operand c is taken (redux). -/
inductive RKindOf where
  | r135 | scal | vec | vecIfC
deriving DecidableEq, Repr

/-- The width of a result: 32 or 64 bits, that of operand a, or none (null). -/
inductive RWidth where
  | w32 | w64 | ofA | null
deriving DecidableEq, Repr

structure Sig where
  a : Option Opd
  b : Option Opd
  c : Option Opd
  guard : KReq
  res : Option (RKindOf × RWidth)
deriving DecidableEq, Repr

namespace Sh
def o32 : Option Opd := some ⟨.w32, .any, false⟩
def o64 : Option Opd := some ⟨.w64, .any, false⟩
def oAny : Option Opd := some ⟨.either, .any, false⟩
def q32 : Option Opd := some ⟨.w32, .scal, false⟩
def q64 : Option Opd := some ⟨.w64, .scal, false⟩
def v32 : Option Opd := some ⟨.w32, .vec, false⟩
def vAny : Option Opd := some ⟨.either, .vec, false⟩
def opt32 : Option Opd := some ⟨.w32, .any, true⟩
def optS32 : Option Opd := some ⟨.w32, .scal, true⟩
def wide (b : Bool) : WReq := if b then .w64 else .w32
def rw (b : Bool) : RWidth := if b then .w64 else .w32
def oW (b : Bool) : Option Opd := some ⟨wide b, .any, false⟩
def sW (b : Bool) : Option Opd := some ⟨wide b, .scal, false⟩
def vW (b : Bool) : Option Opd := some ⟨wide b, .vec, false⟩
/-- Lane-by-lane instructions of one, two and three operands. -/
def un (a : Option Opd) (r : RWidth) : Sig := ⟨a, none, none, .any, some (.r135, r)⟩
def bin (a b : Option Opd) (r : RWidth) : Sig := ⟨a, b, none, .any, some (.r135, r)⟩
def tri (a b c : Option Opd) (r : RWidth) : Sig := ⟨a, b, c, .any, some (.r135, r)⟩
/-- A scalar instruction without a result. -/
def cmd (a b c : Option Opd) : Sig := ⟨a, b, c, .scal, none⟩
/-- A scalar instruction with a scalar result. -/
def ask (a b c : Option Opd) (r : RWidth) : Sig := ⟨a, b, c, .scal, some (.scal, r)⟩
end Sh

def ClsA.is64 : ClsA → Bool
  | .i64 => true | _ => false
def ClsS.is64 : ClsS → Bool
  | .i64 | .n64 => true | _ => false
def ClsB.is64 : ClsB → Bool
  | .b64 => true | _ => false
def NumTy.is64 : NumTy → Bool
  | .i64 | .n64 | .f64 => true | _ => false
def ClsE.is64 : ClsE → Bool
  | .i8 | .i16 => false | _ => true
/-- System registers of 64 bits (02 R48). -/
def sys64 (n : Nat) : Bool := decide (n = 1) || decide (n = 5) || decide (n = 6)

open Sh in
/-- What an instruction takes and gives; `size` is the bytes of its memory-order slot. A row that is no instruction of the block
instruction set takes and gives nothing. -/
def sigOf (size : Nat) : Instr → Sig
  | .add _ s _ _ | .sub _ s _ _ | .mul _ s _ _ => bin (oW (ClsA.is64 s)) (oW (ClsA.is64 s)) (rw (ClsA.is64 s))
  | .mad _ s _ _ => tri (oW (ClsA.is64 s)) (oW (ClsA.is64 s)) (oW (ClsA.is64 s)) (rw (ClsA.is64 s))
  | .neg _ s _ _ | .abs _ s _ _ => un (oW (ClsA.is64 s)) (rw (ClsA.is64 s))
  | .mulhi _ s _ _ | .div _ s _ _ | .rem _ s _ _ | .min _ s _ _ | .max _ s _ _ =>
    bin (oW (ClsS.is64 s)) (oW (ClsS.is64 s)) (rw (ClsS.is64 s))
  | .and _ s _ _ | .or _ s _ _ | .xor _ s _ _ | .andn _ s _ _ => bin (oW (ClsB.is64 s)) (oW (ClsB.is64 s)) (rw (ClsB.is64 s))
  | .not _ s _ _ | .brev _ s _ _ | .mov _ s _ _ | .mov4 _ s _ _ _ _ => un (oW (ClsB.is64 s)) (rw (ClsB.is64 s))
  | .shl _ s _ _ | .shr _ s _ _ | .sar _ s _ _ | .rotl _ s _ _ => bin (oW (ClsB.is64 s)) o32 (rw (ClsB.is64 s))
  | .clz _ s _ _ | .popc _ s _ _ => un (oW (ClsB.is64 s)) .w32
  | .bfe _ s _ _ => tri (oW (ClsS.is64 s)) o32 o32 (rw (ClsS.is64 s))
  | .bfi _ s _ _ => tri (oW (ClsB.is64 s)) (oW (ClsB.is64 s)) o32 (rw (ClsB.is64 s))
  | .bsel _ _ _ => tri o32 o32 o32 .w32
  | .lea _ _ _ _ | .addw _ _ _ _ => bin o64 o32 .w64
  | .sext _ s _ _ => un o32 (rw (ClsE.is64 s))
  | .null _ _ _ => ⟨none, none, none, .any, some (.r135, .null)⟩
  | .addi _ _ _ | .andi _ _ _ | .ori _ _ _ | .xori _ _ _ | .shli _ _ _ | .shri _ _ _ | .sari _ _ _ | .muli _ _ _
  | .cmpiEq _ _ _ | .cmpiNe _ _ _ | .cmpiLt _ _ _ | .cmpiLe _ _ _ | .cmpiGt _ _ _ | .cmpiGe _ _ _ => un o32 .w32
  | .cmp _ _ _ _ => bin o32 o32 .w32
  | .cmp64 _ _ _ _ => bin o64 o64 .w32
  | .sel _ s _ _ => tri o32 (oW (ClsB.is64 s)) (oW (ClsB.is64 s)) (rw (ClsB.is64 s))
  | .pand _ _ _ | .por _ _ _ | .pxor _ _ _ => bin o32 o32 .w32
  | .pnot _ _ _ => un o32 .w32
  | .rfl _ s _ _ => ⟨oW (ClsB.is64 s), none, none, .any, some (.scal, rw (ClsB.is64 s))⟩
  | .rdln _ s _ _ => ⟨vW (ClsB.is64 s), q32, none, .scal, some (.scal, rw (ClsB.is64 s))⟩
  | .wrln _ s _ _ => ⟨vW (ClsB.is64 s), q32, sW (ClsB.is64 s), .any, some (.vec, rw (ClsB.is64 s))⟩
  | .lxch _ _ _ _ => ⟨vAny, o32, opt32, .any, some (.vec, .ofA)⟩
  | .vote _ _ _ _ => ⟨o32, none, none, .any, some (.scal, .w32)⟩
  | .matchKeys _ s _ _ => ⟨vW (ClsB.is64 s), none, none, .any, some (.vec, .w32)⟩
  | .redux _ _ _ _ => ⟨v32, none, opt32, .any, some (.vecIfC, .w32)⟩
  | .scan _ _ _ _ => ⟨v32, none, opt32, .any, some (.vec, .w32)⟩
  | .lmask _ _ _ _ => ⟨opt32, none, none, .any, some (.vec, .w32)⟩
  | .bcast _ s _ _ => ⟨sW (ClsB.is64 s), none, none, .any, some (.vec, rw (ClsB.is64 s))⟩
  | .mskz _ _ _ => ⟨vAny, none, none, .any, some (.vec, .ofA)⟩
  | .exit _ _ => ⟨none, none, none, .any, none⟩
  | .exitv _ => ⟨o32, none, none, .any, none⟩
  | .fadd _ _ _ _ | .fsub _ _ _ _ | .fmul _ _ _ _ | .fmin _ _ _ | .fmax _ _ _ | .fcmp _ _ _ _ | .fdiv _ _ _ _ | .fscale _ _ _ _ =>
    bin o32 o32 .w32
  | .ffma _ _ _ _ => tri o32 o32 o32 .w32
  | .fabs _ _ _ | .fneg _ _ _ | .fsqrt _ _ _ _ | .frcp _ _ _ | .frsq _ _ _ | .fex2 _ _ _ | .flg2 _ _ _ | .fsin _ _ _ _
  | .frnd _ _ _ _ => un o32 .w32
  | .fclass _ _ _ => un oAny .w32
  | .dadd _ _ _ _ | .dsub _ _ _ _ | .dmul _ _ _ _ | .dmin _ _ _ | .dmax _ _ _ | .ddiv _ _ _ _ => bin o64 o64 .w64
  | .dfma _ _ _ _ => tri o64 o64 o64 .w64
  | .dcmp _ _ _ _ => bin o64 o64 .w32
  | .dsqrt _ _ _ _ => un o64 .w64
  | .hadd2 _ _ _ _ | .hmul2 _ _ _ _ | .hmin2 _ _ _ _ | .hmax2 _ _ _ _ | .hcmp2 _ _ _ _ => bin o32 o32 .w32
  | .hfma2 _ _ _ _ => tri o32 o32 o32 .w32
  | .cvt _ _ _ src dst _ _ => un (oW (NumTy.is64 src)) (rw (NumTy.is64 dst))
  | .pack _ _ _ _ => tri o32 o32 o32 .w32
  | .unpk _ _ _ _ => bin o32 o32 .w32
  | .dot4I8 _ _ _ _ | .dot8I4 _ _ _ _ | .dot4F8 _ _ _ _ | .dot8F4 _ _ _ | .dot2Bf _ _ _ => tri o32 o32 o32 .w32
  | .ldG _ _ _ _ => un o64 (rw (decide (8 ≤ size)))
  | .ldS _ _ _ _ => un o32 (rw (decide (8 ≤ size)))
  | .ldK _ _ _ _ => ask q64 none none (rw (decide (8 ≤ size)))
  | .stG _ _ _ => ⟨o64, oW (decide (8 ≤ size)), if size = 16 then o64 else none, .any, none⟩
  | .stS _ _ _ => ⟨o32, oW (decide (8 ≤ size)), if size = 16 then o64 else none, .any, none⟩
  | .stStep _ _ _ => ⟨o32, o32, none, .any, none⟩
  | .stp _ _ _ => ⟨o32, o32, o32, .any, none⟩
  | .atom _ _ _ _ _ _ _ => bin o64 (oW (decide (8 ≤ size))) (rw (decide (8 ≤ size)))
  | .red _ _ _ _ _ => ⟨o64, oW (decide (8 ≤ size)), none, .any, none⟩
  | .cas _ _ _ _ _ _ => tri o64 (oW (decide (8 ≤ size))) (oW (decide (8 ≤ size))) (rw (decide (8 ≤ size)))
  | .atomS _ _ _ _ _ _ _ => bin o32 (oW (decide (8 ≤ size))) (rw (decide (8 ≤ size)))
  | .prf _ _ => ⟨o64, none, none, .any, none⟩
  | .cwb _ | .cinv _ => cmd q64 q32 none
  | .pfence _ _ => cmd none none none
  | .waitc _ _ => cmd q32 none none
  | .rgnDef _ _ _ _ => cmd q32 q32 q32
  | .rgnFree _ | .step _ => cmd q32 none none
  | .rgnStat _ _ _ => ask q32 none none .w64
  | .stepQ _ _ _ => ask q32 none none .w32
  | .barInit _ _ | .barArv _ | .barExp _ | .barWait _ => cmd q64 q32 none
  | .barTest _ _ _ => ask q64 q32 none .w32
  | .barStat _ _ _ => ask q64 q32 none .w64
  | .barInv _ => cmd q64 none none
  | .cpG2s _ | .cpS2g _ | .cpG2g _ | .cpGth _ | .cpSct _ | .cpWin _ | .cpRed _ _ => cmd q64 q64 none
  | .mma _ _ => cmd q32 optS32 none
  | .mmaChk _ _ => cmd q32 optS32 q64
  | .mmaGrp _ _ _ _ => ask q32 q32 optS32 .w32
  | .mmaSc _ _ => cmd q32 optS32 q32
  | .ldm _ _ | .stm _ _ => cmd q32 q32 q32
  | .gload _ => cmd q32 q64 q64
  | .grun _ | .grel _ | .gfree _ => cmd q32 q64 none
  | .garg _ => cmd q32 q32 q64
  | .gdrain _ => cmd q32 none none
  | .gstat _ _ _ => ask q32 q32 none .w64
  | .galloc _ => cmd q32 q32 q64
  | .launch _ => cmd q32 q64 q64
  | .qsig _ => cmd q32 q32 none
  | .svc _ _ | .brk _ _ => cmd none none none
  | .rdsr _ n _ => ask none none none (rw (sys64 n.toNat))
  | .wrsr _ n => cmd (sW (sys64 n.toNat)) none none
  | .yield _ | .gstop _ => cmd q32 none none
  | .spush _ => cmd q32 q32 none
  | .spop _ _ _ => ask none none none .w64
  | .clk _ _ _ => ⟨oAny, none, none, .any, some (.scal, .w64)⟩
  | .trapret _ | .gbar _ => cmd none none none
  | .nop _ => ⟨none, none, none, .any, none⟩
  | .genk _ _ => ⟨none, none, none, .any, some (.scal, .w32)⟩
  | .appk _ _ => un o32 .w32
  | _ => ⟨none, none, none, .any, none⟩

/-! ### Shapes of an image's producers -/

/-- The static shape of a token: vector, 64 bits wide, and null, which matches every kind and width (15 R354). -/
structure TShape where
  vec  : Bool
  wide : Bool
  null : Bool
deriving DecidableEq, Repr

/-- A shape that nothing can be held against: of a producer that was itself refused. -/
def TShape.free : TShape := ⟨false, false, true⟩

/-- One word of an image that delivers tokens: its word in the image, its instruction index (none for a read declaration), its
targets each with the word that holds it. -/
structure Producer where
  word : Nat
  idx  : Option Nat
  tgts : List (Nat × BitVec 9)
deriving DecidableEq, Repr

/-- The shape a read declaration delivers (R30 to R32). -/
def readShape (d : Word) : TShape :=
  let reg := wbits d 31 22
  if reg = 0x2C6 then ⟨false, true, false⟩
  else if reg < 0x100 then ⟨true, d.getLsbD 3, false⟩
  else if reg < 0x280 then ⟨false, d.getLsbD 3, false⟩
  else if reg < 0x2C0 then ⟨true, false, false⟩
  else ⟨decide (reg = 0x2C0), false, false⟩

/-- Tokens sent so far: operand key (or 1000 + write slot), word of the producer, shape. -/
abbrev Sent := List (Nat × Nat × TShape)

def writeKey (w : Nat) : Nat := 1000 + w

/-- The key a target stands for. -/
def Target.key : Target → Option Nat
  | .opA i => some (slotKey i.toNat 0)
  | .opB i => some (slotKey i.toNat 1)
  | .opC i => some (slotKey i.toNat 2)
  | .guard i => some (slotKey i.toNat 3)
  | .write w => some (writeKey w.toNat)
  | .none => none

/-- The keys of a target; a load of 128 bits feeds two write slots (17 R417). -/
def tgtKeys (quad : Bool) (b : BitVec 9) : List Nat :=
  match Target.ofBits b with
  | some t =>
    match Target.key t with
    | some k => if quad && decide (1000 ≤ k) then [k, k + 1] else [k]
    | none => []
  | none => []

def sentTo (sent : Sent) (key : Nat) : List (Nat × TShape) := (sent.filter fun e => e.1 = key).map (·.2)

/-- The shape that reached an operand. -/
def shapeAt (sent : Sent) (key : Nat) : Option TShape := ((sentTo sent key).head?).map (·.2)

/-- The result shape of instruction i, from what reached it. -/
def resShape (sent : Sent) (i : Nat) (g : Sig) : TShape :=
  let at_ (k : Nat) : TShape := (shapeAt sent (slotKey i k)).getD TShape.free
  let v (k : Nat) (o : Option Opd) : Bool := o.isSome && (at_ k).vec
  let r135 := v 0 g.a || v 1 g.b || v 2 g.c || (at_ 3).vec
  match g.res with
  | none => TShape.free
  | some (k, w) =>
    let vec := match k with
      | .r135 => r135 | .scal => false | .vec => true | .vecIfC => (shapeAt sent (slotKey i 2)).isSome
    match w with
    | .w32 => ⟨vec, false, false⟩
    | .w64 => ⟨vec, true, false⟩
    | .ofA => ⟨vec, (at_ 0).wide, false⟩
    | .null => ⟨vec, false, true⟩

/-- The size in bytes of the slot an instruction occupies. -/
def slotSize (ws : List Word) (x : Instr) : Nat :=
  match slotOf x with
  | some (k, _) => if k < Img.slots ws then Img.bytes ws k else 4
  | none => 4

def Instr.isLoad128 (ws : List Word) (x : Instr) : Bool :=
  match x with
  | .ldG .. | .ldS .. => decide (slotSize ws x = 16)
  | _ => false

/-- What the read declarations send. -/
def readSent (ws : List Word) : Sent :=
  (List.range (Img.nreads ws)).flatMap fun k =>
    let d := Img.readWord ws k
    [d.extractLsb' 13 9, d.extractLsb' 4 9].flatMap fun b => (tgtKeys false b).map fun key => (key, Img.readAt k, readShape d)

/-- All tokens sent in a valid image, in word order: the producers' shapes. -/
def imageSent (ws : List Word) : Sent :=
  (Img.all ws).foldl (fun sent e =>
    let r := resShape sent e.1 (sigOf (slotSize ws e.2) e.2)
    let quad := Instr.isLoad128 ws e.2
    sent ++ (targetsOf e.2).flatMap fun t => (tgtKeys quad t.toBits).map fun key => (key, Img.instrAt ws e.1, r)) (readSent ws)

/-- What a write slot receives: the shape of its first producer that is not null. -/
def slotShape (sent : Sent) (k : Nat) : TShape :=
  match (sentTo sent (writeKey k)).find? fun e => !e.2.null with
  | some e => e.2
  | none => TShape.free

/-- The vector registers a declared write covers: first and count; none for other registers. -/
def declaredSpans (ws : List Word) : List (Nat × Nat) :=
  let sent := imageSent ws
  (List.range (Img.nwrites ws)).filterMap fun k =>
    let e := Img.writeId ws k
    if e < 256 then some (e, if (slotShape sent k).wide then 2 else 1) else none

end Sys2Proof.Machine
end

