-- ==== Sys2Proof/Machine/MatrixOps.lean ====
section
/-!
DEFINITION. The matrix instructions (16 R400 to R412): windows and shapes, their checks when they fire, mma and its variants, ldm and
stm. Their windows land at commit step 1, the bytes of stm at step 2; every one of them is delivered by MATRIX_COMPLETE.
-/
namespace Sys2Proof.Machine

/-! ### Shapes and windows (R400, R401) -/

/-- A shape: side (M = N), depth K, element bits, registers of A (and of B), of C (and of D), chunk length, element format (none: .i8). -/
structure MShape where
  side  : Nat
  depth : Nat
  bits  : Nat
  nAB   : Nat
  nCD   : Nat
  chunk : Nat
  fmt   : Option Fmt
deriving DecidableEq, Repr

def mshape : ClsMm → MShape
  | .bf16m16 => ⟨16, 16, 16, 4, 8, 16, some fBF16⟩
  | .bf16m32 => ⟨32, 16, 16, 8, 32, 16, some fBF16⟩
  | .f16m16 => ⟨16, 16, 16, 4, 8, 16, some fF16⟩
  | .f16m32 => ⟨32, 16, 16, 8, 32, 16, some fF16⟩
  | .e4m3m32 => ⟨32, 32, 8, 8, 32, 32, some fE4M3⟩
  | .e5m2m32 => ⟨32, 32, 8, 8, 32, 32, some fE5M2⟩
  | .e2m1m32 => ⟨32, 64, 4, 8, 32, 32, some fE2M1⟩
  | .i8m32 => ⟨32, 32, 8, 8, 32, 32, none⟩

/-- A word with its poison mark. -/
abbrev PWord := Word × Bool

/-- The words of a window: register first + n, lane by lane (R400). -/
def windowWords (w : Warp) (first n : Nat) : List PWord :=
  (List.range n).flatMap fun r => lanes32.map fun l => (vreg w (first + r) l, w.vpois.contains ((first + r) * 32 + l))

/-- The words of a span of group scratchpad. -/
def spadWords (g : Group) (a n : Nat) : List PWord :=
  (List.range n).map fun k => (spadWord g (a + 4 * k), spadPoisoned g (a + 4 * k) 4)

/-- The elements of a window in element order, with the mark of their word. -/
def elements (bits : Nat) (ws : List PWord) : List (Nat × Bool) :=
  ws.flatMap fun w => (List.range (32 / bits)).map fun k => (bitsOf w.1.toNat (bits * k + bits - 1) (bits * k), w.2)

/-- Cut a list into rows of n. -/
def rowsOf {α : Type} (n : Nat) : Nat → List α → List (List α)
  | 0, _ => []
  | k + 1, l => l.take n :: rowsOf n k (l.drop n)

/-- The window fits v0 to v255 and the warp's granules (R403, 01 R12). -/
def windowFits (w : Warp) (first n : Nat) : Bool := decide (first + n ≤ min 256 (8 * w.gran))

/-! ### Products (R405 to R407, 08 R178, R179) -/

/-- A matrix element as a number. -/
def elemNum (f : Option Fmt) (x : Nat) : Num :=
  match f with
  | some F => F.num x
  | none => numOfInt (sextN x 8)

/-- The chunks of a row's products accumulate one rounding each (R178). -/
def accChunks (L : Nat) : Nat → Nat → List Num → Nat
  | 0, acc, _ => acc
  | k + 1, acc, ps => accChunks L k (addChunk acc (Num.sum false (ps.take L))) (ps.drop L)

/-- acc of R405: a pattern of .f32, or of .i32 for .i8. -/
def accOf (sh : MShape) (row col : List Nat) (c : Nat) : Nat :=
  match sh.fmt with
  | some F => accChunks sh.chunk (sh.depth / sh.chunk) c (products (row.map F.num) (col.map F.num))
  | none => (((c : Int) + ((row.zip col).map fun (p : Nat × Nat) => sextN p.1 8 * sextN p.2 8).foldl (· + ·) 0) % 2 ^ 32).toNat

/-- mma.sc: one rounding of the exact product with both factors; a NaN as R168 gives. -/
def scaleOf (sh : MShape) (acc r s : Nat) : Nat :=
  match sh.fmt with
  | some _ =>
    match fF32.nanOf [acc, r, s] with
    | some (x, _) => x
    | none => (fF32.deliver .rne (((fF32.num acc).mul (fF32.num r)).mul (fF32.num s))).1
  | none =>
    match fF32.nanOf [r, s] with
    | some (x, _) => x
    | none => (fF32.deliver .rne (((numOfInt (sextN acc 32)).mul (fF32.num r)).mul (fF32.num s))).1

/-- A checksum: the C elements and the products of one side with the inner sums of the other, rounded once (R407). -/
def checksum (sh : MShape) (cs : List Nat) (as : List Nat) (inner : List (List Nat)) : Nat :=
  match sh.fmt with
  | some F =>
    let sums := inner.map fun l => Num.sum false (l.map F.num)
    (fF32.deliver .rne (Num.sum false (cs.map fF32.num ++ products (as.map F.num) sums))).1
  | none =>
    let sums := inner.map fun l => (l.map fun x => sextN x 8).foldl (· + ·) 0
    (((cs.foldl (· + ·) 0 : Nat) + ((as.zip sums).map fun (p : Nat × Int) => sextN p.1 8 * p.2).foldl (· + ·) 0) % (2 : Int) ^ 32).toNat

/-- The columns of a row-major matrix. -/
def transpose {α : Type} (d : α) (n : Nat) (rows : List (List α)) : List (List α) :=
  (List.range n).map fun j => rows.map fun r => r.getD j d

/-! ### The operands of a matrix instruction -/

/-- The register word's fields (R402). -/
structure RegWord where
  dreg : Nat
  creg : Nat
  breg : Nat
  areg : Nat
deriving DecidableEq, Repr

def regWord (a : Word) : RegWord := ⟨wbits a 31 24, wbits a 23 16, wbits a 15 8, wbits a 7 0⟩

/-- The registers a matrix destination covers: first and count. -/
abbrev Span := Nat × Nat

def spanMeets (a b : Span) : Bool := decide (a.1 < b.1 + b.2) && decide (b.1 < a.1 + a.2)

/-- The destination window an instruction of a frame has claimed. -/
def cmdSpan : Cmd → Option Span
  | .regs ((k, _) :: r) _ => some (k / 32, (k % 32 + r.length) / 32 + 1)
  | _ => none

/-- The matrix destinations already claimed in a frame, checksum registers apart from their window being part of its list. -/
def claimed (f : Frame) : List Span :=
  f.cmds.filterMap (fun c => cmdSpan c.2) ++ f.infl.flatMap fun e => e.2.2.cmds.filterMap cmdSpan

/-- The overlap check of R403 (07 R137). -/
def overlapCause (x : Fire) (ds : List Span) : List Cause :=
  let others := declaredSpans x.f.words ++ claimed x.f
  if ds.any fun d => others.any fun o => spanMeets d o then [⟨4, x.i, Code.writeConflict, blockDetail x.f x.i, none⟩] else []

/-- POISON of a source, before the irrevocable point (R403). -/
def sourcePoison (x : Fire) (src : List PWord) : List Cause :=
  if !x.f.irrev && src.any (·.2) then [⟨2, x.i, Code.poison, blockDetail x.f x.i, none⟩] else []

/-- The words of a source window that exist. A poisoned one is a cause beside any other check that fails: which is reported, R133 says. -/
def heldWords (w : Warp) (first n : Nat) : List PWord := if windowFits w first n then windowWords w first n else []

/-- The words of a B operand in scratchpad that exist. -/
def heldSpad (s : State) (x : Fire) (addr n : Nat) : List PWord :=
  if inShare (x.group s) addr (4 * n) then spadWords (x.group s) addr n else []

/-- The scratchpad operand of B: alignment, shares, regions, in that order (R404). -/
def spadB (s : State) (x : Fire) (addr n : Nat) : Option Cause :=
  let g := x.group s
  if addr % 128 ≠ 0 then some (fireCause x Code.mmaOperand)
  else if !inShare g addr n then some (addrCause x Code.spadRange addr)
  else if !regionOk g (Img.rgnr x.f.words) (Img.rgnw x.f.words) .matrix addr n then some (fireCause x Code.regionAccess)
  else none

/-- The register writes of a window, key by key, with the keys of poisoned ones. -/
def windowWrites (first : Nat) (ws : List PWord) : Cmd :=
  .regs (ws.zipIdx.map fun p => (first * 32 + p.2, p.1.1)) ((ws.zipIdx.filter fun p => p.1.2).map fun p => first * 32 + p.2)

/-- A matrix instruction's results come by MATRIX_COMPLETE, its causes at once. -/
def fireMatrix (m : String) (st : State) (g : Guard) (need : List Nat) (tgts : List Target) (body : Fire → List Cause × Effects) : Out :=
  fire m st g need [] fun x =>
    if !x.any then Fired.now st { Effects.none with toks := tgts.map fun t => (t, Token.scal false false 0) }
    else
      let (cs, e) := body x
      if cs = [] then ⟨e, some .matrix, none, st⟩ else Fired.now st { Effects.none with causes := cs }

/-- A, B and C as rows of A, columns of B and rows of C, with their marks. -/
structure MSource where
  a : List (List (Nat × Bool))
  b : List (List (Nat × Bool))
  c : List (List (Nat × Bool))

def values (l : List (Nat × Bool)) : List Nat := l.map (·.1)
def tainted (l : List (Nat × Bool)) : Bool := l.any (·.2)

def MSource.make (sh : MShape) (a b c : List PWord) : MSource :=
  ⟨rowsOf sh.depth sh.side (elements sh.bits a), rowsOf sh.depth sh.side (elements sh.bits b), rowsOf sh.side sh.side (elements 32 c)⟩

/-- D of R405 row by row, with poison where a row, a column or an element of C carries it. -/
def MSource.product (sh : MShape) (q : MSource) : List (List (Nat × Bool)) :=
  (q.a.zip q.c).map fun p => (q.b.zip p.2).map fun z =>
    (accOf sh (values p.1) (values z.1) z.2.1, tainted p.1 || tainted z.1 || z.2.2)

def asWords (d : List (List (Nat × Bool))) : List PWord := d.flatten.map fun e => (BitVec.ofNat 32 e.1, e.2)

/-- The operands common to mma, mma.chk and mma.sc: D, C and A fit, B comes from registers or scratchpad. `dn` counts the destination
registers. -/
def plainOperands (s : State) (x : Fire) (sh : MShape) (dn : Nat) (b : Option Nat) (extraBad : Bool) : List Cause × MSource :=
  let r := regWord (x.aw x.low)
  let fits := windowFits x.w r.dreg dn && windowFits x.w r.creg sh.nCD && windowFits x.w r.areg sh.nAB && !extraBad
  let wa := windowWords x.w r.areg sh.nAB
  let wc := windowWords x.w r.creg sh.nCD
  let held := heldWords x.w r.areg sh.nAB ++ heldWords x.w r.creg sh.nCD
  match b with
  | none =>
    let wb := windowWords x.w r.breg sh.nAB
    let ok := fits && windowFits x.w r.breg sh.nAB
    (sourcePoison x (held ++ heldWords x.w r.breg sh.nAB) ++ (if ok then [] else [fireCause x Code.mmaOperand]) ++
      overlapCause x [(r.dreg, dn)], MSource.make sh wa wb wc)
  | some addr =>
    let wb := spadWords (x.group s) addr (32 * sh.nAB)
    let cs := if !fits || decide (r.breg ≠ 0) then [fireCause x Code.mmaOperand] else (spadB s x addr (128 * sh.nAB)).toList
    (sourcePoison x (held ++ heldSpad s x addr (32 * sh.nAB)) ++ cs ++ overlapCause x [(r.dreg, dn)], MSource.make sh wa wb wc)

/-- The scratchpad address of B where a producer names the operand. -/
def bAddr (t : Option Token) : Option Nat := t.map fun t => (t.w 0).toNat

def execMma (g : Guard) (s : ClsMm) (st : State) : Out :=
  fireMatrix "MMA" st g [0] [] fun x =>
    let sh := mshape s
    let (cs, q) := plainOperands st x sh sh.nCD (bAddr x.b) false
    (cs, { Effects.none with cmds := [windowWrites (regWord (x.aw x.low)).dreg (asWords (q.product sh))] })

/-- mma.sc (R406). -/
def execMmaSc (g : Guard) (s : ClsMm) (st : State) : Out :=
  fireMatrix "MMA_SC" st g [0, 2] [] fun x =>
    let sh := mshape s
    let sw := x.cw x.low
    let row := windowWords x.w (wbits sw 7 0) 1
    let col := windowWords x.w (wbits sw 15 8) 1
    let bad := decide (wbits sw 31 16 ≠ 0) || !windowFits x.w (wbits sw 7 0) 1 || !windowFits x.w (wbits sw 15 8) 1
    let (cs, q) := plainOperands st x sh sh.nCD (bAddr x.b) bad
    let d := ((q.product sh).zip row).map fun p => (p.1.zip col).map fun z =>
      (scaleOf sh z.1.1 p.2.1.toNat z.2.1.toNat, z.1.2 || p.2.2 || z.2.2)
    let held (r : Nat) : List PWord := (heldWords x.w r 1).take sh.side
    (cs ++ sourcePoison x (held (wbits sw 7 0) ++ held (wbits sw 15 8)),
      { Effects.none with cmds := [windowWrites (regWord (x.aw x.low)).dreg (asWords d)] })

/-- The two checksum registers of mma.chk, as 64 lanes (R407). -/
def checksums (sh : MShape) (q : MSource) : List PWord :=
  let a := q.a.map values
  let b := q.b.map values
  let c := q.c.map values
  let pad (l : List PWord) : List PWord := l ++ List.replicate (32 - l.length) (0, false)
  let allA := q.a.any tainted
  let allB := q.b.any tainted
  let bk := transpose 0 sh.depth b
  let ak := transpose 0 sh.depth a
  let rows := (a.zip c).map fun p => BitVec.ofNat 32 (checksum sh p.2 p.1 bk)
  let cols := (b.zip (transpose 0 sh.side c)).map fun p => BitVec.ofNat 32 (checksum sh p.2 p.1 ak)
  let rp := (q.a.zip q.c).map fun p => tainted p.1 || tainted p.2 || allB
  let cp := (q.b.zip (transpose (0, false) sh.side q.c)).map fun p => tainted p.1 || tainted p.2 || allA
  pad (rows.zip rp) ++ pad (cols.zip cp)

/-- A pattern of D or of a checksum that is not finite; integers always are. -/
def nonFinite (sh : MShape) (w : Word) : Bool := sh.fmt.isSome && (fF32.isNaN w.toNat || fF32.isInf w.toNat)

/-- The status of mma.chk (R408): code, count and detail. -/
def chkStatus (sh : MShape) (d sums : List PWord) : Nat × Word × DWord :=
  let bad := d.zipIdx.filter fun p => nonFinite sh p.1.1
  let detail : DWord := match bad with
    | p :: _ => BitVec.ofNat 64 (p.2 / sh.side * 2 ^ 32 + p.2 % sh.side)
    | [] => 0
  (if bad = [] ∧ !(sums.any fun w => nonFinite sh w.1) then 0 else Code.mmaNonfin, BitVec.ofNat 32 bad.length, detail)

/-- mma.chk (R407, R408). -/
def execMmaChk (g : Guard) (s : ClsMm) (st : State) : Out :=
  fireHeld "MMA_CHK" st g [0, 2] [] (fun x => decide (x.cv x.low ≠ 0) && cellWaits st x (x.cv x.low)) fun x =>
    if !x.any then Fired.now st Effects.none
    else
      let sh := mshape s
      let bar := x.cv x.low
      let k : CellCheck := if bar = 0 then ⟨none, [], st⟩ else checkCell st x bar cellRW
      let (cs, q) := plainOperands st x sh (sh.nCD + 2) (bAddr x.b) false
      let d := asWords (q.product sh)
      let sums := checksums sh q
      let (code, count, detail) := chkStatus sh d sums
      let cs := cs ++ k.causes
      let cmds := windowWrites (regWord (x.aw x.low)).dreg (d ++ sums) :: (if bar = 0 then [] else [.chkStatus bar code count detail])
      if cs = [] then ⟨{ Effects.none with cmds := cmds }, some .matrix, none, k.st⟩
      else Fired.now k.st { Effects.none with causes := cs }

/-! ### mma.grp (R409) -/

/-- The groups of rows: number, first row, rows. -/
def rowGroups (b : Word) : List (Nat × Nat × Nat) :=
  let n := [wbits b 5 0, wbits b 11 6, wbits b 17 12, wbits b 23 18]
  (List.range 4).map fun g => (g, (n.take g).foldl (· + ·) 0, n.getD g 0)

/-- The groups that are read and checked. -/
def liveGroups (sh : MShape) (b : Word) : List (Nat × Nat × Nat) :=
  (rowGroups b).filter fun g => decide (g.2.2 ≠ 0) && decide (g.2.1 < sh.side)

/-- Where group g's B lies: its words that exist, and the first check it fails. -/
def groupB (s : State) (x : Fire) (sh : MShape) (base : Option Nat) (g : Nat) : List PWord × Option Cause :=
  match base with
  | none =>
    let first := (regWord (x.aw x.low)).breg + g * sh.nAB
    (heldWords x.w first sh.nAB, if windowFits x.w first sh.nAB then none else some (fireCause x Code.mmaOperand))
  | some a =>
    let addr := a + g * 128 * sh.nAB
    (heldSpad s x addr (32 * sh.nAB), spadB s x addr (128 * sh.nAB))

/-- Among failing checks, MMA_OPERAND comes first, then SPAD_RANGE, then REGION_ACCESS (R404). -/
def firstCheck (cs : List Cause) : List Cause :=
  match cs.find? fun c => c.code = Code.mmaOperand with
  | some c => [c]
  | none =>
    match cs.find? fun c => c.code = Code.spadRange with
    | some c => [c]
    | none => cs.take 1

def clippedRows (sh : MShape) (b : Word) : Nat := ((rowGroups b).map fun g => g.2.2).foldl (· + ·) 0 - sh.side
def computedRows (sh : MShape) (b : Word) : Nat := min sh.side (((rowGroups b).map fun g => g.2.2).foldl (· + ·) 0)

/-- The result of mma.grp. -/
def groupResult (sh : MShape) (b : Word) : Nat :=
  (if 0 < clippedRows sh b then 2 ^ 31 else 0) + clippedRows sh b * 256 + computedRows sh b

def execMmaGrp (g : Guard) (s : ClsMm) (ta tb : Target) (st : State) : Out :=
  fireMatrix "MMA_GRP" st g [0, 1] [ta, tb] fun x =>
    let sh := mshape s
    let r := regWord (x.aw x.low)
    let b := x.bw x.low
    let base := bAddr x.c
    let gs := liveGroups sh b
    let bs := gs.map fun e => (e, groupB st x sh base e.1)
    let fits := windowFits x.w r.dreg sh.nCD && windowFits x.w r.creg sh.nCD && windowFits x.w r.areg sh.nAB
    let head := !fits || decide (wbits b 30 24 ≠ 0) || (base.isSome && decide (r.breg ≠ 0)) ||
      (match base with | some a => decide (a % 128 ≠ 0) | none => false)
    let wa := windowWords x.w r.areg sh.nAB
    let wc := windowWords x.w r.creg sh.nCD
    let cs := if head then [fireCause x Code.mmaOperand] else firstCheck (bs.filterMap fun e => e.2.2)
    let read := heldWords x.w r.areg sh.nAB ++ heldWords x.w r.creg sh.nCD ++ bs.flatMap fun e => e.2.1
    let rowOf (e : Nat × Nat × Nat) (i : Nat) : Bool := decide (e.2.1 ≤ i) && decide (i < e.2.1 + e.2.2)
    let as := rowsOf sh.depth sh.side (elements sh.bits wa)
    let crows := rowsOf sh.side sh.side (elements 32 wc)
    let d := ((as.zip crows).zipIdx).map fun p =>
      match bs.find? fun e => rowOf e.1 p.2 with
      | some e =>
        let cols := rowsOf sh.depth sh.side (elements sh.bits e.2.1)
        (cols.zip p.1.2).map fun z => (accOf sh (values p.1.1) (values z.1) z.2.1, tainted p.1.1 || tainted z.1 || z.2.2)
      | none => p.1.2
    (sourcePoison x read ++ cs ++ overlapCause x [(r.dreg, sh.nCD)],
      { Effects.none with
        toks := both ta tb (Token.scal false true (BitVec.ofNat 64 (groupResult sh b)) (decide (x.pois ≠ 0)))
        cmds := windowWrites r.dreg (asWords d) ::
          (if 0 < clippedRows sh b ∧ b.getLsbD 31 then [.clipped (clippedRows sh b)] else []) })

/-! ### ldm and stm (R410 to R412) -/

def ldBits : ClsLd → Nat
  | .b16 | .b16t => 16 | .b8 | .b8t => 8 | .b4 => 4 | .b32 => 32
def ldTransposed : ClsLd → Bool
  | .b16t | .b8t => true
  | _ => false

/-- The tile word (R410). -/
structure Tile where
  cols : Nat
  rows : Nat
  reg  : Nat
  bits : Nat
  tr   : Bool
deriving DecidableEq, Repr

def tileOf (s : ClsLd) (a : Word) : Tile := ⟨wbits a 22 16 + 1, wbits a 13 8 + 1, wbits a 7 0, ldBits s, ldTransposed s⟩

/-- Bytes and registers of a tile's window. -/
def Tile.bytes (t : Tile) : Nat := t.rows * t.cols * t.bits / 8
def Tile.regs (t : Tile) : Nat := (t.rows * t.cols * t.bits + 1023) / 1024

/-- The scratchpad runs of a tile: first address and bytes, one for each row, or each column of a transposed form. -/
def Tile.runs (t : Tile) (b stride : Nat) : List (Nat × Nat) :=
  if t.tr then (List.range t.cols).map fun c => (b + c * stride, t.rows * (t.bits / 8))
  else (List.range t.rows).map fun r => (b + r * stride, t.cols * t.bits / 8)

/-- The scratchpad address of byte o of the window (R411). -/
def Tile.addrOf (t : Tile) (b stride o : Nat) : Nat :=
  if t.tr then
    let e := t.bits / 8
    let q := o / e
    b + q % t.cols * stride + q / t.cols * e + o % e
  else
    let n := t.cols * t.bits / 8
    b + o / n * stride + o % n

/-- The checks of ldm and stm (R411). -/
def tileCauses (s : State) (x : Fire) (t : Tile) (a : Word) (b stride : Nat) (acc : RAcc) : List Cause :=
  let g := x.group s
  let unit := if t.tr then t.bits / 8 else 4
  if t.cols * t.bits % 32 ≠ 0 ∨ !windowFits x.w t.reg t.regs ∨ wbits a 31 23 ≠ 0 ∨ wbits a 15 14 ≠ 0 ∨ b % unit ≠ 0 ∨ stride % unit ≠ 0 then
    [fireCause x Code.mmaOperand]
  else
    match (t.runs b stride).find? fun r => !inShare g r.1 r.2 with
    | some r => [addrCause x Code.spadRange r.1]
    | none =>
      if (t.runs b stride).any fun r => !regionOk g (Img.rgnr x.f.words) (Img.rgnw x.f.words) acc r.1 r.2 then
        [fireCause x Code.regionAccess]
      else []

def execLdm (g : Guard) (s : ClsLd) (st : State) : Out :=
  fireMatrix "LDM" st g [0, 1, 2] [] fun x =>
    let t := tileOf s (x.aw x.low)
    let b := (x.bw x.low).toNat
    let stride := (x.cw x.low).toNat
    let gr := x.group st
    let cs := tileCauses st x t (x.aw x.low) b stride .matrix
    let held := (t.runs b stride).all fun r => inShare gr r.1 r.2
    let bytes := (List.range t.bytes).map fun o => let p := t.addrOf b stride o; (spadByte gr p, held && spadPoisoned gr p 1)
    let ws : List PWord := (rowsOf 4 (t.bytes / 4) bytes).map fun q => (word4 (q.map (·.1)), q.any (·.2))
    (sourcePoison x ws ++ cs ++ overlapCause x [(t.reg, t.regs)],
      { Effects.none with cmds := [windowWrites t.reg ws] })

/-- The runs of a tile do not overlap. -/
def Tile.disjoint (t : Tile) (stride : Nat) : Bool :=
  if t.tr then decide (t.cols ≤ 1) || decide (t.rows * (t.bits / 8) ≤ stride)
  else decide (t.rows ≤ 1) || decide (t.cols * t.bits / 8 ≤ stride)

/-- stm: where its own elements share a byte, which one stays is not stated, so their order is free. -/
def execStm (g : Guard) (s : ClsLd) (st : State) : Out :=
  fireMatrix "STM" st g [0, 1, 2] [] fun x =>
    let t := tileOf s (x.aw x.low)
    let b := (x.bw x.low).toNat
    let stride := (x.cw x.low).toNat
    let ws := windowWords x.w t.reg t.regs
    let src := ws.take (t.bytes / 4)
    let cs := tileCauses st x t (x.aw x.low) b stride .other
    let out := (src.flatMap fun w => (leBytes w.1.toNat 4).map fun y => (y, w.2)).zipIdx.map (fun p =>
      (t.addrOf b stride p.2, p.1.1, p.1.2))
    (sourcePoison x ((heldWords x.w t.reg t.regs).take (t.bytes / 4)) ++ cs,
      { Effects.none with cmds := [.stm (if t.disjoint stride then out else freeOrder st.tick out)] })

/-- The bytes of stm perform (R412): a word it covers whole with clean bytes loses its poison mark, one it gives a poisoned byte gains
it (18 R440). -/
def stmWrite (g : Group) (bs : List (Nat × Byte × Bool)) : Group :=
  let g := { g with spad := bs.foldl (fun m e => sput (spadRest g e.1) m e.1 e.2.1) g.spad }
  bs.foldl (fun g e =>
    let k := e.1 / 4
    if bs.any fun q => decide (q.1 / 4 = k) && q.2.2 then { g with spois := nins g.spois k }
    else if (List.range 4).all fun j => bs.any fun q => decide (q.1 = 4 * k + j) then { g with spois := g.spois.filter (· ≠ k) }
    else g) g

/-- MATRIX_COMPLETE: the matrix unit finishes one instruction (R401). -/
def execMatrixComplete (wid i : Nat) (s : State) : Out := completeLate "MATRIX_COMPLETE" s wid i .matrix

end Sys2Proof.Machine
end

