-- ==== Sys2Proof/Machine/Validate.lean ====
section
/-!
DEFINITION. Validation at map (02 R49, R50, R479): every check of an image, each charged to one word with its reason; the first
failing word is reported, with the reason listed first at it. Where only the first words of the image have been fetched, the checks
that need later words are left out (R50).
-/
namespace Sys2Proof.Machine

/-- A failing check: the image word it is charged to, and its reason. -/
abbrev Failure := Nat × Reason

def failIf (c : Bool) (w : Nat) (r : Reason) : List Failure := if c then [(w, r)] else []

/-- The failure reported (R50). -/
def worst : List Failure → Option Failure
  | [] => none
  | f :: r =>
    match worst r with
    | none => some f
    | some g => if g.1 < f.1 ∨ (g.1 = f.1 ∧ g.2.code < f.2.code) then some g else some f

/-- What validation knows of the warp and its context: whether it runs in class 0, debug enable, its granules, and the block's handle. -/
structure MapEnv where
  class0 : Bool
  debug  : Bool
  gran   : Nat
  handle : Word
deriving DecidableEq, Repr

/-! ### The header (R24 to R28, R33) -/

def exitKind (e : Word) : Nat := wbits e 31 29
def exitArg (e : Word) : Nat := wbits e 28 0

/-- An exit descriptor below the exit count is well formed (R28). -/
def exitOk (handle e : Word) : Bool :=
  match exitKind e with
  | 0 | 2 =>
    let t : Int := (handle.toNat % 2 ^ 26 : Nat) + sextN (exitArg e) 29
    decide (0 ≤ t) && decide (t < 2 ^ 26)
  | 1 | 3 => decide (exitArg e < 384)
  | 4 | 5 => decide (exitArg e = 0)
  | _ => false

def isCall (e : Word) : Bool := decide (exitKind e = 2) || decide (exitKind e = 3)

/-- Declaration chunks the counts call for (R33). -/
def needChunks (ws : List Word) : Nat := (Img.eWords ws + Img.wWords ws + Img.aWords ws + 15) / 16

/-- The checks of header words 0 to 7. The spec charges D against R33, and a missing join bit, to no word by name: header word 0, which
holds the fields, takes them (log 31). -/
def headerFailures (v : MapEnv) (ws : List Word) : List Failure :=
  let w0 := Img.word ws 0
  let calls := (List.range (Img.nexits ws)).any fun k => isCall (Img.exit ws k)
  let w6 := Img.word ws 6
  failIf (decide (wbits w0 31 26 ≠ 0b101101)) 0 .signature
  ++ failIf (decide (32 < Img.slots ws) || decide (5 < Img.rel ws) || decide (5 < Img.acq ws) || (Img.trap ws && !v.class0)
      || ((decide (1 < Img.nexits ws) || calls) && !Img.join ws) || decide (Img.d ws ≠ needChunks ws)) 0 .header
  ++ failIf (if Img.join ws then (Img.word ws 1).getLsbD 31 else decide (Img.word ws 1 ≠ 0)) 1 .header
  ++ (List.range 4).flatMap (fun k =>
      failIf (if k < Img.nexits ws then !exitOk v.handle (Img.exit ws k) else decide (Img.exit ws k ≠ 0)) (2 + k) .header)
  ++ failIf (w6.getLsbD 31 || decide (32 < Img.nwrites ws) || decide (32 < Img.nreads ws) ||
      (if Img.pfen ws then decide (Img.pdesc ws % 2 ≠ 0) || decide (Img.pbar ws % 2 ≠ 0) || decide (382 < Img.pdesc ws) || decide (382 < Img.pbar ws)
       else decide (Img.pdesc ws ≠ 0) || decide (Img.pbar ws ≠ 0))) 6 .header
  ++ failIf (decide (wbits (Img.word ws 7) 31 21 ≠ 0)) 7 .header

/-! ### Declarations (R30 to R35) -/

/-- A read declaration's register and pair flag agree, and its granules exist (R30, R31, R101). -/
def readOk (v : MapEnv) (d : Word) : Bool :=
  let reg := wbits d 31 22
  let pair := d.getLsbD 3
  if reg < 0x100 then (!pair || decide (reg % 2 = 0)) && decide (reg + (if pair then 1 else 0) < 8 * v.gran)
  else if reg < 0x280 then !pair || decide (reg % 2 = 0)
  else if reg < 0x2C0 then !pair
  else if reg = 0x2C6 then pair
  else if reg ≤ 0x2C4 then !pair
  else false

/-- A header word at or beyond nreads is zero (R26), so its breach is one of the header; a declaration's is its own. -/
def readFailures (v : MapEnv) (ws : List Word) : List Failure :=
  (List.range 8).flatMap (fun k => failIf (decide (Img.nreads ws ≤ k) && decide (Img.word ws (8 + k) ≠ 0)) (8 + k) .header)
  ++ (List.range (Img.nreads ws)).flatMap fun k =>
      let d := Img.readWord ws k
      failIf (!readOk v d || decide (wbits d 2 0 ≠ 0) || decide (d.extractLsb' 13 9 = 0x1FF)) (Img.readAt k) .declaration

/-- The ids of all write slots before slot k. -/
def writesBefore (ws : List Word) (k : Nat) : List Nat := (List.range k).map (Img.writeId ws)

def writeFailures (v : MapEnv) (sent : Sent) (ws : List Word) : List Failure :=
  let base := 16 + Img.eWords ws
  (List.range (Img.wWords ws)).flatMap (fun j =>
    failIf (decide (wbits (Img.word ws (base + j)) 31 30 ≠ 0) ||
      (List.range 3).any fun f => decide (Img.nwrites ws ≤ 3 * j + f) && decide (Img.writeId ws (3 * j + f) ≠ 0)) (base + j) .declaration)
  ++ (List.range (Img.nwrites ws)).flatMap fun k =>
      let e := Img.writeId ws k
      failIf (decide (0x2BF < e) || (writesBefore ws k).contains e || (decide (0x260 ≤ e) && decide (e ≤ 0x27F) && !Img.trap ws)
        || (decide (e < 0x100) && decide (8 * v.gran ≤ e + (if (slotShape sent k).wide then 1 else 0)))) (Img.writeAt ws k) .declaration

/-- An access code's size and sign bit (R35). -/
def accessOk (code : Nat) : Bool := decide (code % 8 ≤ 4) && (decide (code < 8) || decide (code % 8 ≤ 1))

def accessFailures (ws : List Word) : List Failure :=
  let base := 16 + Img.eWords ws + Img.wWords ws
  (List.range (8 * Img.aWords ws)).flatMap (fun k =>
    failIf (if k < Img.slots ws then !accessOk (Img.access ws k) else decide (Img.access ws k ≠ 0)) (Img.accessAt ws k) .declaration)
  ++ (List.range (16 * Img.d ws)).flatMap fun j =>
      failIf (decide (base + Img.aWords ws ≤ 16 + j) && decide (Img.word ws (16 + j) ≠ 0)) (16 + j) .declaration

/-! ### Instruction words -/

/-- The formats whose targets a word shows even where it is refused. -/
inductive WForm where
  | t | i | m | k | x
deriving DecidableEq, Repr

/-- The format of a word's opcode (R45), none for a reserved one. -/
def formOf (w : Word) : Option WForm :=
  let op := w.opcode.toNat
  if 0x1F8 ≤ op then some .k
  else if decide (0x020 ≤ op ∧ op ≤ 0x027) || decide (0x042 ≤ op ∧ op ≤ 0x047) || decide (op = 0x060) || decide (op = 0x113)
      || decide (0x1C2 ≤ op ∧ op ≤ 0x1C5) then some .i
  else if 0x100 ≤ op ∧ op ≤ 0x106 then some .m
  else if op = 0x0C0 ∨ (0x108 ≤ op ∧ op ≤ 0x10B) ∨ op = 0x140 ∨ op = 0x148 ∨ op = 0x1A0 then some .x
  else
    match byOpcode w.opcode .always w [] with
    | .error ⟨false, .opcode⟩ => none
    | _ => some .t

/-- One instruction of the image: its index, its first word and its opcode (none for a reserved one), whether an extension word is
its own, its targets as they stand with the words that hold them, and its decoding. -/
structure Scan where
  idx  : Nat
  word : Word
  op   : Option Nat
  ext  : Bool
  tgts : List (Nat × BitVec 9)
  dec  : Except Reject Instr

def isExitWord (w : Word) : Bool := decide (w.opcode.toNat = 0x060) || decide (w.opcode.toNat = 0x061)

def scanTargets (ws : List Word) (i : Nat) (f : WForm) : List (Nat × BitVec 9) :=
  let p := Img.instrAt ws i
  let w := Img.word ws p
  if isExitWord w then []
  else
    match f with
    | .t => [(p, w.tgtA), (p, w.tgtB)]
    | .x => [(p, w.tgtA), (p, w.tgtB)] ++
        (if w.opcode.toNat = 0x1A0 then [(p + 1, (Img.word ws (p + 1)).tgtA), (p + 1, (Img.word ws (p + 1)).tgtB)] else [])
    | _ => [(p, w.tgtB)]

/-- The instructions of an image in index order. An extension word that would fall at N or beyond is not read. -/
def scan (ws : List Word) : Nat → Nat → List Scan
  | 0, _ => []
  | fuel + 1, i =>
    if i < Img.n ws then
      let w := Img.word ws (Img.instrAt ws i)
      let code := (Img.code ws i).take (Img.n ws - i)
      let dec : Except Reject Instr := match decode code with | .ok (x, _) => .ok x | .error r => .error r
      match formOf w with
      | none => ⟨i, w, none, false, [], dec⟩ :: scan ws fuel (i + 1)
      | some .x => ⟨i, w, some w.opcode.toNat, decide (i + 1 < Img.n ws), scanTargets ws i .x, dec⟩ :: scan ws fuel (i + 2)
      | some f => ⟨i, w, some w.opcode.toNat, false, scanTargets ws i f, dec⟩ :: scan ws fuel (i + 1)
    else []

def Scan.instr (x : Scan) : Option Instr := match x.dec with | .ok i => some i | .error _ => none

/-- The guard mode of a word: none in a K-format word; the reserved mode 0b11 has no meaning (R39). -/
def Scan.guardMode (x : Scan) : Option Guard :=
  if decide (x.word.kBits = 0x7E) || decide (x.word.kBits = 0x7F) then some .always else Guard.ofBits x.word.guardBits

def Scan.guard (x : Scan) : Guard := x.guardMode.getD .always

def Scan.among (x : Scan) (ops : List Nat) : Bool := match x.op with | some o => ops.contains o | none => false

/-- What an instruction is, by its opcode (R45), were it refused or not: a boundary instruction (R46), an irrevocable one (R47), a user
of steps, an exit, a graph instruction. -/
def Scan.isBoundary (x : Scan) : Bool := x.among [0x115, 0x143, 0x14B, 0x1C6, 0x1CC, 0x1CE]
def Scan.isIrrev (x : Scan) : Bool := x.among [0x108, 0x10A, 0x10B]
def Scan.usesStep (x : Scan) : Bool := x.among [0x143, 0x144]
def Scan.isExit (x : Scan) : Bool := x.among [0x060, 0x061]
def Scan.isGraph (x : Scan) : Bool := x.among [0x190, 0x191, 0x192, 0x193, 0x194, 0x195, 0x196, 0x197]
def Scan.isAtomic (x : Scan) : Bool := x.among [0x108, 0x109, 0x10A, 0x10B]

/-- The slot field of an instruction that occupies one (R40, R41). -/
def Scan.slot (ws : List Word) (x : Scan) : Option Nat :=
  if x.among [0x100, 0x101, 0x102, 0x103, 0x104, 0x105, 0x106] then some x.word.slot.toNat
  else if x.isAtomic && x.ext then some (wbits (Img.word ws (Img.instrAt ws x.idx + 1)) 20 16)
  else none

/-! ### Targets and producers (R36, R37, 17 R417) -/

/-- Operand k of an instruction is one it takes. -/
def Sig.takes (g : Sig) (k : Nat) : Bool :=
  match k with
  | 0 => g.a.isSome | 1 => g.b.isSome | _ => g.c.isSome

/-- The instruction of an opcode, its other fields replaced by ones no check refuses: what a refused word still says of its operands. -/
def plainInstr (f : WForm) (w : Word) : Option Instr :=
  let head := w.toNat / 2 ^ 23 * 2 ^ 23
  let (w, e) : Word × Word := match f with
    | .t => (BitVec.ofNat 32 (head + if w.opcode.toNat = 0x061 then 0x381FF else 0x3FFFF), 0)
    | .x => (BitVec.ofNat 32 (head + (if w.opcode.toNat = 0x1A0 ∧ w.sub.toNat ≤ 1 then w.sub.toNat * 2 ^ 18 else 0) + 0x3FFFF),
        if w.opcode.toNat = 0x1A0 then 0x3FFFF else if w.opcode.toNat = 0x148 then 0x40000000
        else if w.opcode.toNat = 0x0C0 ∨ w.opcode.toNat = 0x140 then 0 else 0x00800000)
    | .i => (BitVec.ofNat 32 (head + if w.opcode.toNat = 0x060 then 0x1C0 else 0x1FF), 0)
    | .m => (BitVec.ofNat 32 (head + w.toNat % 2 ^ 21 / 512 * 512 + 0x1FF), 0)
    | .k => (BitVec.ofNat 32 (w.toNat / 512 * 512 + 0x1FF), 0)
  match decode [w, e] with
  | .ok (i, _) => some i
  | .error _ => none

/-- What an instruction, refused or not, is for those that target it. -/
def Scan.consumer (x : Scan) : Option Instr :=
  match Scan.instr x with
  | some i => some i
  | none => (formOf x.word).bind fun f => plainInstr f x.word

/-- Bytes of the slot a scanned instruction occupies. -/
def Scan.size (ws : List Word) (x : Scan) : Nat :=
  match Scan.slot ws x with
  | some k => if k < Img.slots ws then Img.bytes ws k else 4
  | none => 4

def anyWidth : Option Opd → Option Opd := fun o => o.map fun o => { o with w := .either }

/-- What it takes; the widths that a refused extension word would have given are not held against it. -/
def Scan.sig (ws : List Word) (x : Scan) (i : Instr) : Sig :=
  let g := sigOf (Scan.size ws x) i
  match Scan.instr x, i with
  | none, .cvt .. => { g with a := anyWidth g.a }
  | none, .atom .. | none, .red .. | none, .cas .. | none, .atomS .. => { g with b := anyWidth g.b, c := anyWidth g.c }
  | _, _ => g

/-- Index j is the extension word of an X-format instruction whose first word has been fetched. -/
def isExtension (ws : List Word) (all : List Scan) (have_ j : Nat) : Bool :=
  all.any fun x => x.ext && decide (x.idx + 1 = j) && decide (Img.instrAt ws x.idx < have_)

/-- A target from producer `src` (none: a read declaration) at word p is in order. `all` is the image as scanned, `xs` the instructions
whose words have been fetched whole; what a target names beyond those is left to a later chunk. A guard of the reserved mode 0b11 takes
a producer like any other: R37 forbids one only where there is no guard. -/
def targetOk (ws : List Word) (all xs : List Scan) (have_ : Nat) (src : Option Nat) (quad : Bool) (b : BitVec 9) : Bool :=
  let operand (i : BitVec 6) (k : Nat) : Bool :=
    let j := i.toNat
    let later := match src with | some s => decide (s < j) | none => true
    if !(decide (j < Img.n ws) && later) || quad then false
    else
      match xs.find? fun x => x.idx = j with
      | some x =>
        match Scan.consumer x with
        | some c => if k = 3 then decide (x.guardMode ≠ some .always) else (Scan.sig ws x c).takes k
        | none => true
      | none => !isExtension ws all have_ j && (decide (have_ ≤ Img.instrAt ws j) || all.any fun x => decide (x.idx = j))
  match Target.ofBits b with
  | some .none => !quad
  | some (.write w) => decide (w.toNat < Img.nwrites ws) && (!quad || decide (w.toNat + 1 < Img.nwrites ws))
  | some (.opA i) => operand i 0
  | some (.opB i) => operand i 1
  | some (.opC i) => operand i 2
  | some (.guard i) => operand i 3
  | none => false

def targetFailures (ws : List Word) (all xs : List Scan) (have_ : Nat) : List Failure :=
  (List.range (Img.nreads ws)).flatMap (fun k =>
    let d := Img.readWord ws k
    failIf (!targetOk ws all xs have_ none false (d.extractLsb' 13 9) || !targetOk ws all xs have_ none false (d.extractLsb' 4 9))
      (Img.readAt k) .target)
  ++ xs.flatMap fun x =>
      let quad := match Scan.instr x with | some i => Instr.isLoad128 ws i | none => false
      x.tgts.flatMap fun t => failIf (!targetOk ws all xs have_ (some x.idx) quad t.2) t.1 .target

/-- Tokens sent by every producer, each charged to the producer's first word; a refused producer's have a shape nothing is held
against, and a target that is itself out of order sends none. -/
def scanSent (ws : List Word) (all xs : List Scan) (have_ : Nat) : Sent :=
  xs.foldl (fun sent x =>
    let (r, quad) := match Scan.instr x with
      | some i => (resShape sent x.idx (sigOf (slotSize ws i) i), Instr.isLoad128 ws i)
      | none => (TShape.free, false)
    sent ++ (x.tgts.filter fun t => targetOk ws all xs have_ (some x.idx) quad t.2).flatMap fun t =>
      (tgtKeys quad t.2).map fun key => (key, Img.instrAt ws x.idx, r)) (readSent ws)

/-! ### Operands (15 R336, 02 R37, R479) -/

def KReq.admits (k : KReq) (t : TShape) : Bool :=
  t.null || (match k with | .any => true | .scal => !t.vec | .vec => t.vec)
def WReq.admits (w : WReq) (t : TShape) : Bool :=
  t.null || (match w with | .either => true | .w32 => !t.wide | .w64 => t.wide)

/-- The reason for an operand or guard of a kind the description excludes: OPERAND (15 R336), but TARGET for mma and its variants
(16, mma and its variants). -/
def kindReason : Instr → Reason
  | .mma .. | .mmaChk .. | .mmaGrp .. | .mmaSc .. => .target
  | _ => .operand

/-- The reason for an operand of a width that disagrees: OPERAND (15 R336), but SUB for pack (16 R396). -/
def widthReason : Instr → Reason
  | .pack .. => .sub
  | _ => .operand

/-- The failures of one operand, charged to the consumer's first word. -/
def operandFailures (sent : Sent) (p i k : Nat) (x : Instr) (o : Option Opd) : List Failure :=
  match o with
  | none => []
  | some o =>
    match sentTo sent (slotKey i k) with
    | [] => failIf (!o.opt) p .target
    | [e] => failIf (!o.k.admits e.2) p (kindReason x) ++ failIf (!o.w.admits e.2) p (widthReason x)
    | _ => [(p, .target)]

def guardFailures (sent : Sent) (p i : Nat) (g : Guard) (x : Instr) (k : KReq) : List Failure :=
  if g = .always then []
  else
    match sentTo sent (slotKey i 3) with
    | [e] => failIf (!k.admits e.2) p (kindReason x)
    | _ => [(p, .target)]

/-! ### Per instruction -/

/-- Sizes in bytes and the sign bit a slot instruction accepts (R35). -/
def acceptsAccess (x : Instr) (code : Nat) : Bool :=
  let n := 2 ^ (code % 8)
  let plain := decide (code < 8)
  match x with
  | .ldG .. | .ldS .. => plain || decide (n ≤ 2)
  | .stG .. | .stS .. => plain
  | .ldK .. | .atom .. | .red .. | .cas .. | .atomS .. => plain && (decide (n = 4) || decide (n = 8))
  | .stStep .. | .stp .. => plain && decide (n = 4)
  | _ => true

def isCopy : Instr → Bool
  | .cpG2s .. | .cpS2g .. | .cpG2g .. | .cpGth .. | .cpSct .. | .cpWin .. | .cpRed .. => true
  | _ => false

/-- An instruction a block holds at most once (15 R371, 07 R155), as a number. -/
def onceKey : Instr → Option Nat
  | .svc .. => some 0 | .brk .. => some 1 | .spush .. => some 2 | .spop .. => some 3
  | _ => none

/-- The instructions before index i. -/
def before (xs : List Scan) (i : Nat) : List Scan := xs.filter fun x => x.idx < i

/-- Slot checks (R40, R47, R35, R42). A slot out of range, doubly used or against R47 is charged to the instruction's first word, that of an
X-format atomic too, whose slot field stands in its extension word (log 31). -/
def slotFailures (ws : List Word) (xs : List Scan) (p : Nat) (y : Scan) (x : Instr) : List Failure :=
  match Scan.slot ws y with
  | none => []
  | some k =>
    let used := (before xs y.idx).any fun z => decide (Scan.slot ws z = some k)
    if Img.slots ws ≤ k ∨ used then [(p, .slot)]
    else
      failIf (!acceptsAccess x (Img.access ws k)) (Img.accessAt ws k) .declaration
      ++ failIf (y.isIrrev && (decide (k + 1 ≠ Img.slots ws) || !Img.irrev ws || (before xs y.idx).any Scan.isIrrev)) p .slot
      ++ (match Scan.instr y with
          | some (.atom _ _ _ op _ _ _) | some (.red _ op _ _ _) | some (.atomS _ _ _ op _ _ _) =>
            failIf (decide (op = .addF32) && decide (Img.bytes ws k = 8)) (p + 1) .sub
          | _ => [])

/-- Access rules of the system registers (R48). -/
def sysReadOk (v : MapEnv) (trap : Bool) (n : Nat) : Bool :=
  if n = 6 then trap else if n = 7 then v.debug else decide (n ≤ 8)
def sysWriteOk (v : MapEnv) (trap : Bool) (n : Nat) : Bool :=
  match n with
  | 0 | 1 | 2 | 8 => trap | 3 => true | 7 => v.debug | _ => false

/-- The checks of one instruction alone, with its block's header. -/
def loneFailures (v : MapEnv) (ws : List Word) (xs : List Scan) (p : Nat) (y : Scan) (x : Instr) : List Failure :=
  (match x.illFormed with | some r => [(p, r)] | none => [])
  ++ (match onceKey x with
      | some k => failIf ((before xs y.idx).any fun z => decide ((Scan.instr z).bind onceKey = some k)) p .operand
      | none => [])
  ++ (match x with
      | .exit _ imm => failIf (decide (Img.nexits ws ≤ imm.toNat)) p .operand
      | .svc _ _ => failIf (Img.trap ws) p .operand
      | .rgnDef _ _ _ num => failIf (!Nat.testBit (Img.rgnw ws) num.toNat) p .operand
      | .rdsr _ n _ => failIf (!sysReadOk v (Img.trap ws) n.toNat) p .sysreg
      | .wrsr _ n => failIf (!sysWriteOk v (Img.trap ws) n.toNat ||
          (before xs y.idx).any fun z => match Scan.instr z with | some (.wrsr _ m) => decide (m = n) | _ => false) p .sysreg
      | .trapret _ => failIf (!Img.trap ws) p .boundary
      | .gbar _ => failIf (Img.trap ws) p .boundary
      | _ => [])
  ++ failIf (y.isBoundary && (!Img.bnd ws || (before xs y.idx).any Scan.isBoundary)) p .boundary
  ++ failIf (y.usesStep && !Img.hasstep ws) p .boundary

/-! ### The reach of a returning atomic (07 R143) -/

/-- Operand k of the instruction must not depend on the block's atomic. -/
def guardedFrom (y : Scan) (x : Instr) (k : Nat) : Bool :=
  match slotOf x with
  | some _ => decide (k = 0)
  | none =>
    (match x with | .prf .. | .cwb .. | .cinv .. => decide (k = 0) | _ => false)
    || ((y.isBoundary || isCopy x || y.isGraph || (match x with | .launch .. | .qsig .. => true | _ => false)) && decide (k < 3))

/-- The instruction indices that the atomic's result reaches. -/
def reached (xs : List Scan) : List Nat :=
  xs.foldl (fun (hot : List Nat) x =>
    if x.isIrrev ∨ hot.contains x.idx then
      hot ++ (x.tgts.filterMap fun t => match Target.ofBits t.2 with
        | some (.opA j) | some (.opB j) | some (.opC j) | some (.guard j) => some j.toNat
        | _ => none)
    else hot) []

def reachFailures (ws : List Word) (xs : List Scan) : List Failure :=
  let hot := reached xs
  xs.flatMap fun x =>
    if x.isIrrev ∨ hot.contains x.idx then
      x.tgts.flatMap fun t =>
        let sends (j : BitVec 6) (k : Nat) : List Failure :=
          match xs.find? fun y => y.idx = j.toNat with
          | some y =>
            match Scan.instr y with
            | some c => failIf (guardedFrom y c k) (Img.instrAt ws j.toNat) .slot
            | none => []
          | none => []
        match Target.ofBits t.2 with
        | some (.opA j) => sends j 0
        | some (.opB j) => sends j 1
        | some (.opC j) => sends j 2
        | _ => []
    else []

/-! ### Write slots (R34, R37, 07 R137) -/

/-- A token's shape can land in a register. -/
def lands (t : TShape) (reg : Nat) : Bool :=
  t.null || (!(t.wide && (decide (reg % 2 ≠ 0) || decide (0x280 ≤ reg))) && !(t.vec && decide (0x100 ≤ reg) && decide (reg < 0x280)))

def slotLandFailures (ws : List Word) (sent : Sent) (partial_ : Bool) : List Failure :=
  (List.range (Img.nwrites ws)).flatMap fun k =>
    let ps := sentTo sent (writeKey k)
    let shape := slotShape sent k
    failIf (decide (ps.length = 0) && !partial_) (Img.writeAt ws k) .target
    ++ ps.flatMap fun e =>
      failIf (!e.2.null && (decide (e.2.vec ≠ shape.vec) || decide (e.2.wide ≠ shape.wide))) e.1 .operand
      ++ failIf (!lands e.2 (Img.writeId ws k)) e.1 .operand

/-! ### The whole image -/

def instrFailures (v : MapEnv) (ws : List Word) (xs : List Scan) (sent : Sent) : List Failure :=
  xs.flatMap fun x =>
    let p := Img.instrAt ws x.idx
    (match x.dec with
     | .error r => [(if r.inExt then p + 1 else p, r.why)]
     | .ok i => loneFailures v ws xs p x i)
    ++ (match Scan.consumer x with
        | none => []
        | some i =>
          let g := Scan.sig ws x i
          operandFailures sent p x.idx 0 i g.a ++ operandFailures sent p x.idx 1 i g.b ++ operandFailures sent p x.idx 2 i g.c
          ++ guardFailures sent p x.idx x.guard i g.guard ++ slotFailures ws xs p x i)

/-- What the header claims and the instructions do not hold (R26, R27, R40, R46, R47), and a block without an exit (R37, R479). The spec
names no word for the former: an unused slot is charged, like the other claims of header word 0, to that word (log 31). -/
def wholeFailures (ws : List Word) (xs : List Scan) : List Failure :=
  let slots := xs.filterMap (Scan.slot ws)
  failIf (Img.bnd ws && !xs.any Scan.isBoundary) 0 .boundary
  ++ failIf ((Img.irrev ws && !xs.any Scan.isIrrev) || (List.range (Img.slots ws)).any fun k => !slots.contains k) 0 .slot
  ++ failIf (Img.hasstep ws && !xs.any Scan.usesStep) 7 .boundary
  ++ failIf (!xs.any Scan.isExit) (Img.instrAt ws (Img.n ws - 1)) .target

def paddingFailures (ws : List Word) : List Failure :=
  (List.range (Img.total ws)).flatMap fun j =>
    failIf (decide (Img.instrAt ws (Img.n ws) ≤ j) && decide (Img.word ws j ≠ 0)) j .padding

/-- Validate the first `have_` words of an image; the whole of it where `have_` is its length. -/
def validatePart (v : MapEnv) (ws : List Word) (have_ : Nat) : Option Failure :=
  if wbits (Img.word ws 0) 31 26 ≠ 0b101101 then some (0, .signature)
  else
    let whole := decide (Img.total ws ≤ have_)
    let firstBad (x : Scan) : Bool := match x.dec with | .error ⟨false, _⟩ => true | _ => false
    let scanned := scan ws 64 0
    let xs := scanned.filter fun x =>
      decide (Img.instrAt ws x.idx < have_) && (!x.ext || firstBad x || decide (Img.instrAt ws x.idx + 1 < have_))
    let sent := scanSent ws scanned xs have_
    let all := headerFailures v ws ++ readFailures v ws ++ writeFailures v sent ws ++ accessFailures ws
      ++ targetFailures ws scanned xs have_ ++ instrFailures v ws xs sent ++ reachFailures ws xs ++ slotLandFailures ws sent (!whole)
      ++ failIf (decide (Img.gparts ws = 0) && xs.any Scan.isGraph) 7 .header
      ++ (if whole then wholeFailures ws xs else []) ++ paddingFailures ws
    worst (all.filter fun f => decide (f.1 < have_))

/-- Validation of a whole image. -/
def validate (v : MapEnv) (ws : List Word) : Option Failure := validatePart v ws (Img.total ws)

end Sys2Proof.Machine
end

