-- ==== Sys2Proof/Machine/Mapping.lean ====
section
/-!
DEFINITION. From the chosen handle to the firing block: BLOCK_FETCH (05 R97, 02 R50) and BLOCK_MAP (06 R117, 07 R130, R131) with the
validation of the image, the breakpoints of 18 R443, SPLIT_FILL raised by spop (07 R155), the read declarations (02 R30 to R32, 07 R134)
and the header prefetch (11 R239).
-/
namespace Sys2Proof.Machine

/-! ### Which warps may map -/

/-- Each in-flight counter leaves room for the 64 instructions of a block (11 R240). -/
def Warp.countersLow (w : Warp) : Bool :=
  decide (w.cntD.length ≤ 4031) && decide (w.cntX.length ≤ 4031) && decide (w.cntK.length ≤ 4031)

/-- The frame allocator may take the warp: ready, in a resident group that gstop has not ended, of a context that is not leaving the
cores (R117, 03 R66). -/
def mayMap (s : State) (w : Warp) : Bool :=
  decide (w.state = .ready) && !w.haltDue && w.stopDue.isNone && w.countersLow &&
    (match getGroup s w.gid, getCtx s w.ctx with
     | some g, some c => decide (g.state = .resident) && !g.stopped && decide (c.state = .resident) && c.leaving.isNone
     | _, _ => false)

/-- Of two warps of a core the frame allocator takes this one first: class, then ready age, then warp slot (R117). -/
def mapsBefore (a b : Warp) : Bool :=
  decide (a.cls < b.cls) || (decide (a.cls = b.cls) &&
    (decide (a.since.toNat < b.since.toNat) || (decide (a.since = b.since) && decide (a.slot < b.slot))))

/-- Frames of a core (01 R11). -/
def framesUsed (s : State) (core : Nat) : Nat := (s.warps.filter fun e => decide (e.2.core = core) && e.2.frame.isSome).length

/-- No fetched warp of the core goes before. -/
def firstToMap (s : State) (wid : Nat) (w : Warp) : Bool :=
  !s.warps.any fun e => decide (e.1 ≠ wid) && decide (e.2.core = w.core) && mayMap s e.2 && e.2.image.isSome && mapsBefore e.2 w

/-! ### BLOCK_FETCH -/

/-- Outcome of the fetch of one chunk: its words, or why none; `wait`: for a walk, or behind a retraining link. -/
inductive Chunk where
  | words (ws : List Word) (s : State)
  | fault (f : XFault) (s : State)
  | lost (va : Nat)
  | poison
  | cut
  | wait (s : State)

/-- The core's block cache holds the chunk. -/
def chunkHeld (s : State) (w : Warp) (cls : PageClass) (pa : Nat) : Bool :=
  decide (cls ≠ .U) && (lineOf s.cache.ic s w.core w.ctx (pa / 64)).isSome

/-- Fetch one chunk on the I path. On a cut die one that neither the block cache nor the die L2 holds, or whose translation misses the TLBs,
needs the hub (14 R316). -/
def fetchChunk (s : State) (w : Warp) (va : Nat) : Chunk :=
  let die := dieOf w.core
  match agentXlate s (some w.core) die w.ctx va accFetch with
  | (.bad f, s) => .fault f s
  | (.cut, _) => .cut
  | (.wait, s) => .wait s
  | (.lost, _) => .lost va
  | (.ok pa cls _, s) =>
    let cls := effClass s pa cls
    let near := chunkHeld s w cls pa || l2Serves s die (pa / 128) cls false
    if !near ∧ (linkDown s die ∨ !reaches s (some die) pa) then .lost va
    else if !near ∧ coreHeld s die pa cls false then .wait s
    else
      let ((bs, marks), s) := loadI s w.core w.ctx cls pa
      if badAt marks pa 64 then .poison else .words (wordsOf bs) s

/-- What a fetch answers: an image, whole or up to the chunk that fails validation, or why none. -/
inductive Fetched where
  | image (ws : List Word) (s : State)
  | segment (code : Nat)
  | fault (f : XFault) (s : State)
  | lost (va : Nat)
  | poison
  | cut
  | wait (s : State)

def mapEnv (w : Warp) (c : Context) : MapEnv := ⟨decide (w.cls = 0), c.desc.debug, w.gran, w.handle⟩

/-- The chunks after those already read; a fetch fault is reported only where every earlier chunk passes (R50). -/
def fetchRest (v : MapEnv) (w : Warp) (va : Nat) : Nat → State → List Word → Fetched
  | 0, s, ws => .image ws s
  | n + 1, s, ws =>
    match fetchChunk s w (va + 4 * ws.length) with
    | .words xs s => fetchRest v w va n s (ws ++ xs)
    | c =>
      if (validatePart v (ws ++ List.replicate (Img.total ws - ws.length) 0) ws.length).isSome then .image ws s
      else
        match c with
        | .fault f s => .fault f s
        | .lost a => .lost a
        | .poison => .poison
        | .wait s => .wait s
        | _ => .cut

/-- Fetch the image at the warp's handle (05 R97). Bit 31 of the handle plays no part here: it is left to the map of the target (02
R29). -/
def fetchImage (s : State) (w : Warp) (c : Context) : Fetched :=
  let slot := wbits w.handle 30 26
  let off := wbits w.handle 25 0
  match c.segs[slot]? with
  | none => .segment Code.segInvalid
  | some g =>
    if !g.valid then .segment Code.segInvalid
    else if g.size < off + 1 then .segment Code.segBound
    else
      let va := (g.base + 64 * off) % 2 ^ 64
      match fetchChunk s w va with
      | .fault f s => .fault f s
      | .lost a => .lost a
      | .poison => .poison
      | .cut => .cut
      | .wait s => .wait s
      | .words ws s =>
        let v := mapEnv w c
        if (validatePart v (ws ++ List.replicate (Img.total ws - 16) 0) 16).isSome then .image ws s
        else if g.size < off + Img.chunks ws then .segment Code.segBound
        else fetchRest v w va (Img.chunks ws - 1) s ws

/-- BLOCK_FETCH: the chunks of the chosen handle come into the block cache, or the fetch faults at the block's start. One that misses a page
whose walk is outstanding joins it (12 R260). -/
def execBlockFetch (wid : Nat) (s : State) : Out :=
  match getWarp s wid with
  | none => notDue "BLOCK_FETCH"
  | some w =>
    match getCtx s w.ctx with
    | none => notDue "BLOCK_FETCH"
    | some c =>
      if !mayMap s w ∨ w.image.isSome then notDue "BLOCK_FETCH"
      else
        match fetchImage s w c with
        | .image ws s => .next (modWarp s wid fun w => { w with image := some ws })
        | .segment code => .next (fatalGroup s wid w code (z32 w.handle) 0)
        | .fault f s => .next (warpFault s wid 1 0 f)
        | .lost va => .next (fatalGroup s wid w Code.linkLost (BitVec.ofNat 64 va) 0)
        | .poison => .next (fatalGroup s wid w Code.poison (z32 w.handle) 0)
        | .cut => .next (contextFault s w.ctx)
        | .wait t => if t.tlb.walks ≠ s.tlb.walks then .next t else notDue "BLOCK_FETCH"

/-! ### Chunk prefetch (05 R99) -/

/-- Fetch ahead up to n chunks from offset `off` of a segment, in units of 64 bytes; it stops at the segment bound, at a chunk that marks the
end of a kernel, and at one that no fetch could have without a fault or a wait. -/
def prefetchChunks (w : Warp) (g : Segment) : Nat → Nat → State → State
  | 0, _, s => s
  | n + 1, off, s =>
    if g.size ≤ off then s
    else
      match fetchChunk s w ((g.base + 64 * off) % 2 ^ 64) with
      | .words ws s => if ws.headD 0 = 0xFFFFFFFF then s else prefetchChunks w g n (off + 1) s
      | _ => s

/-- After a block is mapped the block cache may fetch up to 8 chunks that follow its image; how many it does is free. -/
def prefetchAfter (s : State) (w : Warp) (c : Context) (ws : List Word) : State :=
  match c.segs[wbits w.handle 30 26]? with
  | some g =>
    if g.valid then
      let t := prefetchChunks w g (Config.order s.tick w.core % 9) (wbits w.handle 25 0 + Img.chunks ws) s
      { s with cache := t.cache, tlb := t.tlb, counts := t.counts, ctxs := t.ctxs, mem := t.mem, poison := t.poison, groups := t.groups, copies := t.copies }
    else s
  | none => s

/-! ### Read declarations (02 R30 to R32, 07 R134) -/

/-- The token of a vector or predicate register; predicate p's poison is kept under register number 256 + p. -/
def vecToken (w : Warp) (entry : Mask) (wide : Bool) (poisAt : Nat) (f : Nat → DWord) : Token :=
  Token.vect wide entry f (maskOf fun l => entry.getLsbD l &&
    (w.vpois.contains (poisAt * 32 + l) || (wide && w.vpois.contains ((poisAt + 1) * 32 + l))))

/-- What a read declaration delivers. -/
def readToken (s : State) (w : Warp) (entry : Mask) (reg : Nat) (wide : Bool) : Token :=
  if reg < 0x100 then
    vecToken w entry wide reg fun l => if wide then vreg w (reg + 1) l ++ vreg w reg l else z32 (vreg w reg l)
  else if reg < 0x280 then
    let r := reg - 0x100
    Token.scal wide true (if wide then pair w r else z32 (sreg w r)) (w.spois.contains r || (wide && w.spois.contains (r + 1)))
  else if reg < 0x2C0 then
    vecToken w entry false (reg - 0x280 + 256) fun l => if (preg w (reg - 0x280)).getLsbD l then 1 else 0
  else if reg = 0x2C0 then Token.vect false entry fun l => BitVec.ofNat 64 l
  else if reg = 0x2C1 then Token.scal false true (BitVec.ofNat 64 w.rank)
  else if reg = 0x2C2 then Token.scal false true (z32 (rankWord s w.gid))
  else if reg = 0x2C3 then Token.scal false true (BitVec.ofNat 64 w.core)
  else if reg = 0x2C4 then Token.scal false true (BitVec.ofNat 64 (dieOf w.core))
  else Token.scal true true s.clk

/-- The frame of a block as it enters firing: its read tokens delivered. -/
def newFrame (s : State) (w : Warp) (c : Context) (ws : List Word) : Frame :=
  let entry := w.mask &&& ~~~w.deadm
  let f : Frame :=
    { handle := w.handle, words := ws, entry := entry, laneless := decide (entry = 0), toks := [], wtoks := [], fired := [], votes := []
      whole := none, slots := [], infl := [], cmds := [], flags := 0, causes := [], irrev := false
      stage := 0, fpn := c.fpn, dbgctl := if c.desc.debug then c.dbgctl else 0, mapped := s.clk }
  (List.range (Img.nreads ws)).foldl (fun f k =>
    let d := Img.readWord ws k
    let t := readToken s w entry (wbits d 31 22) (d.getLsbD 3)
    let send (f : Frame) (b : BitVec 9) : Frame :=
      match Target.ofBits b with | some x => deliver 64 f (x, t) | none => f
    send (send f (d.extractLsb' 13 9)) (d.extractLsb' 4 9)) f

/-! ### BLOCK_MAP -/

/-- The enabled breakpoint entry that the warp's handle equals (18 R443). -/
def matchEntry (c : Context) (w : Warp) : Option Nat :=
  if c.desc.debug && c.dbgctl.getLsbD 1 && !w.matched then
    (c.bps.zipIdx.find? fun e => decide (e.1 = w.handle) && decide (e.1 ≠ 0xFFFFFFFF)).map (·.2)
  else none

/-- The partitions a block names are not waiting to be restored (03 R71). -/
def partsHere (s : State) (ctx : Nat) (ws : List Word) : Bool :=
  !s.parts.any fun p => decide (p.2.ctx = ctx) && p.2.saved && Nat.testBit (Img.gparts ws) p.2.num

def illegalDetail (handle : Word) (word : Nat) (r : Reason) : DWord :=
  BitVec.ofNat 64 (handle.toNat + word * 2 ^ 32 + r.code * 2 ^ 40)

/-- Validation of the fetched image. A handle from a scalar with bit 31 set raises ILLEGAL at the map of its target (02 R29); the spec
names no word or reason for it: word 0 with reason HEADER, before the image's own checks (log 88). -/
def imageFailure (w : Warp) (c : Context) (ws : List Word) : Option (Nat × Reason) :=
  if w.handle.getLsbD 31 then some (0, .header)
  else validatePart (mapEnv w c) (ws ++ List.replicate (Img.total ws - ws.length) 0) ws.length

/-- The index of a block's spop, if it holds one. -/
def spopAt (ws : List Word) : Option Nat :=
  ((Img.all ws).find? fun e => match e.2 with | .spop .. => true | _ => false).map (·.1)

/-- A validated block enters firing: the header acquire, widened by what the warp has observed, refreshes the core's caches (09 R196), and the header prefetch issues unless a
replay has issued it (R132). -/
def enterFiring (s : State) (wid : Nat) (w : Warp) (c : Context) (ws : List Word) : State :=
  let s := if 2 ≤ max (Img.acq ws) (max w.acqDue w.acqHeld) then refreshL1 s w.core else s
  let s := prefetchAfter (setWarp s wid { w with state := .mapped, frame := some (newFrame s w c ws) }) w c ws
  if Img.pfen ws ∧ w.prefetched ≠ some w.handle then headerPrefetch s wid (Img.rgnr ws) (pair w (Img.pdesc ws)) (pair w (Img.pbar ws)) else s

/-- A validated block enters firing, unless its header prefetch has to wait. -/
def mapBlock (s : State) (wid : Nat) (w : Warp) (c : Context) (ws : List Word) : Out :=
  if Img.pfen ws ∧ w.prefetched ≠ some w.handle ∧ prefetchWaits s w (pair w (Img.pdesc ws)) (pair w (Img.pbar ws)) then notDue "BLOCK_MAP"
  else .next (enterFiring s wid w c ws)

/-- BLOCK_MAP: the core's frame allocator takes this warp; breakpoint, validation, SPLIT_FILL of spop, then the frame. An injected frame
error (18 R458) flushes the block, to be replayed. -/
def execBlockMap (wid : Nat) (s : State) : Out :=
  match getWarp s wid with
  | none => notDue "BLOCK_MAP"
  | some w =>
    match getCtx s w.ctx, w.image with
    | some c, some ws =>
      if !mayMap s w ∨ !firstToMap s wid w ∨ 16 ≤ framesUsed s w.core ∨ !partsHere s w.ctx ws then notDue "BLOCK_MAP"
      else
        match matchEntry c w with
        | some k => .next (stopOthers (stopWarp s wid .match_ w.handle 0 (BitVec.ofNat 32 k)) wid w)
        | none =>
          match imageFailure w c ws with
          | some (k, r) => .next (fatalGroup s wid w Code.illegal (illegalDetail w.handle k r) 0)
          | none =>
            if wbits w.fij 31 28 = 3 ∧ !w.fijTaken then
              let s := postMachineCheck s w.ctx 6 2 1 (BitVec.ofNat 64 (w.core * 2 ^ 16 + w.slot * 2 ^ 8))
              .next (setWarp (countFlush s w) wid ({ w with fijTaken := true }.ready s.clk))
            else
              match spopAt ws with
              | some i =>
                if w.count = 0 ∧ 0 < w.spilled then
                  if Img.trap ws then .next (fatalGroup s wid w Code.splitInTrap (BitVec.ofNat 64 (w.handle.toNat + i * 2 ^ 32)) i)
                  else .next (setWarp s wid ((w.takeTrap c.desc.trapSlot .splitFill 1 w.handle w.mask true).ready s.clk))
                else mapBlock s wid w c ws
              | none => mapBlock s wid w c ws
    | _, _ => notDue "BLOCK_MAP"

end Sys2Proof.Machine
end

