-- ==== Sys2Proof/Machine/Commit.lean ====
section
/-!
DEFINITION. The end of a block (07 R133, R144 to R155, R481, 18 R435, R482): when a frame is quiet, which cause of flush is reported,
and the commit sequence, with BLOCK_COMMIT, the commit of a trap handler's block (R154), and GBAR_ARRIVAL (06 R125).
-/
namespace Sys2Proof.Machine

/-! ### Quiet and resolved frames (R145) -/

/-- An access or a result of the frame is still to come by an event of its own. -/
def outstanding (f : Frame) : Bool :=
  decide (f.infl ≠ []) || f.slots.any fun q =>
    !q.2.translated || (q.2.kind.isLoad && !q.2.done && storesReady f q.1) ||
    (q.2.kind.isAtomic && !q.2.done && (q.2.issued || (decide (f.causes = []) && othersReady f q.1)))

/-- No instruction can fire, none is executing, no access is outstanding. -/
def Frame.quiet (f : Frame) : Bool := !outstanding f && !addrsDue f && (Img.all f.words).all fun e => !canFire f e.1

/-- Write slot k has gathered a token from each of its producers (R137). -/
def gathered (f : Frame) (sent : Sent) (k : Nat) : Bool :=
  decide ((f.wtoks.filter fun e => e.1 = k).length = (sentTo sent (writeKey k)).length)

/-- The boundary instructions (02 R46), and among them yield. -/
def isBoundary : Instr → Bool
  | .step .. | .barWait .. | .waitc .. | .yield .. | .trapret .. | .gbar .. => true
  | _ => false
def isYield : Instr → Bool
  | .yield .. => true
  | _ => false

/-- The block is resolved (R145). -/
def Frame.resolved (f : Frame) : Bool :=
  let sent := imageSent f.words
  (List.range (Img.nwrites f.words)).all (gathered f sent) &&
  (List.range (Img.slots f.words)).all (fun k => (tget f.slots k).any fun e => !e.held) &&
  (if f.laneless then f.whole.isSome else lanes32.all fun l => !f.entry.getLsbD l || f.votes.any fun v => decide (v.1 = l)) &&
  (Img.all f.words).all (fun e => !isBoundary e.2 || f.fired.contains e.1)

/-! ### The cause reported (R133) -/

def Cause.before (a b : Cause) : Bool := decide (a.rank < b.rank) || (decide (a.rank = b.rank) && decide (a.idx < b.idx))

/-- The first of several causes: by rank, then by instruction index, then in the order found. -/
def firstCause : List Cause → Option Cause
  | [] => none
  | c :: r =>
    match firstCause r with
    | some d => if d.before c then some d else some c
    | none => some c

/-- A command that needs the hub, on a cut die (14 R316): the address or handle involved. -/
def commandLost (f : Frame) (i : Nat) : Cmd → List Cause
  | .copy _ desc _ _ => [⟨3, i, Code.linkLost, BitVec.ofNat 64 desc, none⟩]
  | .launch _ record _ => [⟨3, i, Code.linkLost, record, none⟩]
  | .graph _ (.gload image) _ => [⟨3, i, Code.linkLost, image, none⟩]
  | .graph .. | .qsig .. => [⟨3, i, Code.linkLost, blockDetail f i, none⟩]
  | .chkStatus cell .. => if opSpad cell then [] else [⟨3, i, Code.linkLost, cell, none⟩]
  | _ => []

/-! ### The exit choice -/

/-- The target of exit k (R150): an indirect kind from its scalar before s6 is written, a return from s6 after. -/
def exitTarget (handle : Word) (w w' : Warp) (ws : List Word) (k : Nat) : Word :=
  let e := Img.exit ws k
  match exitKind e with
  | 0 | 2 =>
    let off : Int := (handle.toNat % 2 ^ 26 : Nat) + sextN (exitArg e) 29
    BitVec.ofNat 32 (handle.toNat / 2 ^ 26 * 2 ^ 26 + off.toNat % 2 ^ 26)
  | 1 | 3 => sreg w (exitArg e % 512)
  | 4 => sreg w' 6
  | _ => endHandle

/-- Exit k ends the lanes that take it: a lane-end exit, and a return, indirect or call-indirect exit with the end handle (R150, 05 R98). A
direct exit never does: its target is fetched, and the segment bound decides (02 R28). -/
def exitEnds (ws : List Word) (k : Nat) (target : Word) : Bool :=
  match exitKind (Img.exit ws k) with
  | 0 | 2 => false
  | 1 | 3 | 4 => decide (target = endHandle)
  | _ => true

/-- Which of four exits end their lanes. -/
def exitsEnd (ws : List Word) (targets : List Word) : List Bool :=
  targets.zipIdx.map fun e => decide (Img.nexits ws ≤ e.2) || exitEnds ws e.2 e.1

def exitTargets (handle : Word) (w w' : Warp) (ws : List Word) : List Word :=
  (List.range 4).map fun k => if k < Img.nexits ws then exitTarget handle w w' ws k else endHandle

/-- M0 to M3 (R150). -/
def exitMasks (f : Frame) : List Mask :=
  (List.range 4).map fun k => maskOf fun l => f.entry.getLsbD l && f.votes.any fun v => decide (v = (l, k))

/-- Some lane, or a lane-less block as a whole, goes to exit k. -/
def exitTaken (f : Frame) (k : Nat) : Bool := decide (f.whole = some k) || (!f.laneless && f.votes.any fun v => decide (v.2 = k))

/-- A call exit is taken (05 R103). -/
def callTaken (f : Frame) : Bool :=
  (List.range (Img.nexits f.words)).any fun k =>
    (decide (exitKind (Img.exit f.words k) = 2) || decide (exitKind (Img.exit f.words k) = 3)) && exitTaken f k

/-! ### Step 1: registers (02 R34, 07 R137, 15 R375, 08 R177) -/

def markIf (p : List Nat) (k : Nat) (bad : Bool) : List Nat := if bad then nins p k else p.filter (· ≠ k)

def landV (w : Warp) (r l : Nat) (x : Word) (bad : Bool) : Warp := { setV w r l x with vpois := markIf w.vpois (r * 32 + l) bad }
def landS (w : Warp) (r : Nat) (x : Word) (bad : Bool) : Warp :=
  { setS w r x with spois := markIf w.spois r bad }
/-- A token in a predicate register sets bit 0 of a lane; p0 takes nothing. -/
def landP (w : Warp) (r l : Nat) (x : Word) (bad : Bool) : Warp :=
  if r = 0 then w
  else
    let b : Mask := BitVec.ofNat 32 (2 ^ l)
    { setP w r (if x.getLsbD 0 then preg w r ||| b else preg w r &&& ~~~b) with vpois := markIf w.vpois ((256 + r) * 32 + l) bad }

/-- Lane l of a register takes a value. -/
def landLane (w : Warp) (reg l : Nat) (t : Token) : Warp :=
  let v := t.at l
  let bad := t.pois.getLsbD l
  if 0x280 ≤ reg then landP w (reg - 0x280) l (lo32 v) bad
  else
    let w := landV w reg l (lo32 v) bad
    if t.wide then landV w (reg + 1) l (hi32 v) bad else w

/-- A write slot lands (R137): each lane from its one valid producer; a lane with none, or with more than one (R481), keeps its value. A
scalar token fills every lane of the entry mask. -/
def landSlot (f : Frame) (w : Warp) (k : Nat) : Warp :=
  let toks := ((f.wtoks.filter fun e => e.1 = k).map fun e => e.2.2).filter fun t => !t.null
  let reg := Img.writeId f.words k
  if 0x100 ≤ reg ∧ reg < 0x280 then
    match toks.filter fun t => t.valid ≠ 0 with
    | [t] =>
      let r := reg - 0x100
      let bad := decide (t.pois ≠ 0)
      let w := landS w r (lo32 (t.at 0)) bad
      if t.wide then landS w (r + 1) (hi32 (t.at 0)) bad else w
    | _ => w
  else
    lanes32.foldl (fun w l =>
      match toks.filter fun t => t.valid.getLsbD l && f.entry.getLsbD l with
      | [t] => landLane w reg l t
      | _ => w) w

/-- A register window of the matrix unit lands, with the element an injection inverts (18 R458). -/
def landWindow (w : Warp) (ws : List (Nat × Word)) (bad : List Nat) (flip : Option (Nat × Nat)) : Warp :=
  (ws.zipIdx).foldl (fun w e =>
    let x := match flip with
      | some (k, b) => if k = e.2 then e.1.2 ^^^ BitVec.ofNat 32 (2 ^ b) else e.1.2
      | none => e.1.2
    landV w (e.1.1 / 32) (e.1.1 % 32) x (bad.contains e.1.1)) w

/-- Side of the shape of a product, for the instructions FIJ acts on. -/
def productSide : Instr → Option Nat
  | .mma _ s .. | .mmaSc _ s .. | .mmaChk _ s .. | .mmaGrp _ s .. => some (mshape s).side
  | _ => none

/-- The lowest-indexed product that fired with no null operand, and its side. -/
def firedProduct (f : Frame) : Option (Nat × Nat) :=
  ((Img.all f.words).filterMap fun e => (productSide e.2).map fun n => (e.1, n)).find? fun p =>
    f.cmds.any fun c => decide (c.1 = p.1) && (match c.2 with | .regs .. => true | _ => false)

/-- The element of its D that an injection of FIJ inverts: entry and bit, none outside the shape. -/
def flipOf (w : Warp) (f : Frame) (i : Nat) : Option (Nat × Nat) :=
  match firedProduct f with
  | some (j, side) =>
    let row := wbits w.fij 15 11
    let col := wbits w.fij 20 16
    if wbits w.fij 31 28 = 1 ∧ i = j ∧ row < side ∧ col < side then some (row * side + col, wbits w.fij 25 21) else none
  | none => none

/-- The commit consumes the injection (18 R458). -/
def fijConsumed (w : Warp) (f : Frame) : Bool :=
  match wbits w.fij 31 28 with
  | 1 => (firedProduct f).isSome
  | 2 => f.slots.any fun q => q.2.kind.isLoad && q.2.fired.getLsbD (wbits w.fij 20 16)
  | 3 => w.fijTaken
  | _ => false

/-- What a write of FIJ leaves (18 R457). -/
def fijWritten (v : Word) : Word :=
  if wbits v 31 28 > 3 ∨ wbits v 27 26 ≠ 0 ∨ wbits v 10 0 ≠ 0 then 0 else v

/-- What a write of SSP leaves (07 R149). -/
def sspWritten (v : Word) : Word := BitVec.ofNat 32 (wbits v 31 16 * 2 ^ 16 + min (wbits v 4 0) 16)

/-- A write of a warp's system register at step 1 (15 R375). -/
def writeSys (w : Warp) (n : Nat) (v : DWord) : Warp :=
  match n with
  | 0 => { w with ssp := sspWritten (lo32 v) }
  | 1 => { w with splb := BitVec.ofNat 64 (v.toNat / 64 * 64) }
  | 2 =>
    let fresh := lo32 v &&& ~~~w.deadm
    { (List.range w.count).foldl (fun w k => setS w (353 + 2 * k) (w.winMask k &&& ~~~fresh)) w with deadm := lo32 v }
  | 3 => { w with fpfl := BitVec.ofNat 32 (v.toNat % 64) }
  | 7 => { w with fij := fijWritten (lo32 v) }
  | _ => w

/-- What a write of DBGCTL leaves (18 R442): policy 0b11 leaves it unchanged, and the zero field reads as zero. -/
def dbgWritten (old v : Word) : Word := if wbits v 3 2 = 3 then old else BitVec.ofNat 32 (v.toNat % 32)

/-- Step 1 on the warp: windows and write slots land, system registers are written, FPFL gathers the block's flags, FIJ is consumed.
DESIGN CHOICE (log 108): where a 64-bit token's high register is named by another write slot too, which of the two stands is open (02
R34); here the slots land in slot order, so the higher one does. -/
def landAll (w : Warp) (f : Frame) : Warp :=
  let sent := imageSent f.words
  let w' := f.cmds.foldl (fun x c => match c.2 with | .regs ws bad => landWindow x ws bad (flipOf w f c.1) | _ => x) w
  let w' := (List.range (Img.nwrites f.words)).foldl (fun x k => if gathered f sent k then landSlot f x k else x) w'
  let w' := if fijConsumed w f then { w' with fij := 0, fijTaken := false } else w'
  let w' := f.cmds.foldl (fun x c => match c.2 with | .wrsr n v => writeSys x n v | _ => x) w'
  { w' with fpfl := w'.fpfl ||| BitVec.ofNat 32 (f.flags.toNat % 64) }

/-! ### Steps 2 and 3 -/

/-- The lines of a cwb or cinv's segments that the issuing die holds (09 R186). -/
def heldLines (s : State) (die : Nat) (segs : List (Nat × Nat)) : List Nat :=
  let held := (s.cache.l2.filter fun l => l.die = die).map (·.line) ++ (s.cache.l1.filter fun l => dieOf l.core = die).map (·.line)
  (held.filter fun l => segs.any fun g => decide (l * 128 < g.1 + g.2) && decide (g.1 < l * 128 + 128)).foldl nins []

def addJob (s : State) (wid : Nat) (w : Warp) (j : Job) : Nat × State :=
  let (id, s) := takeUid s
  (id, { s with jobs := tput s.jobs id ⟨wid, w.gid, w.ctx, id, j⟩ })

/-- Step 2 beyond the stores: stm, cwb and cinv. -/
def stepTwo (wid : Nat) (w : Warp) (s : State) (c : Nat × Cmd) : State :=
  match c.2 with
  | .stm bytes => modGroup s w.gid fun g => stmWrite g bytes
  | .cwb segs =>
    let (id, s) := addJob s wid w (.maint false (heldLines s (dieOf w.core) segs))
    modWarp s wid fun w => { w with cntD := w.cntD ++ [(id, false)] }
  | .cinv segs =>
    let (id, s) := addJob s wid w (.maint true (heldLines s (dieOf w.core) segs))
    modWarp s wid fun w => { w with cntD := w.cntD ++ [(id, false)] }
  | _ => s

/-- One command issues at step 3. -/
def stepThree (wid : Nat) (w : Warp) (f : Frame) (s : State) (c : Nat × Cmd) : State :=
  match c.2 with
  | .barInit cell .. | .barArv cell .. | .barExp cell .. | .barClear cell .. | .barInv cell | .chkStatus cell .. =>
    queueBar s wid f.handle cell c.2 0
  | .copy k desc ws bar => drainWarp (issueCopy s wid w (Img.rgnr f.words) k desc ws bar) wid
  | .graph p g bar =>
    let (id, s) := addJob s wid w (.graph p g bar)
    if bar = 0 then s
    else drainWarp (modWarp s wid fun w => { w with barq := w.barq ++ [⟨bar, id, c.2, 0, f.handle⟩] }) wid
  | .launch q record cell => (addJob s wid w (.launch q record cell none)).2
  | .pfence mask =>
    let (id, s) := addJob s wid w (.pfence mask [])
    modWarp s wid fun w => { w with
      cntD := if mask.getLsbD 0 then w.cntD ++ [(id, false)] else w.cntD
      cntK := if mask.getLsbD 1 then w.cntK ++ [(id, false)] else w.cntK
      cntX := if mask.getLsbD 3 then w.cntX ++ [(id, false)] else w.cntX }
  | .rgnDef num kind rule base size parts => applyRgnDef s wid w (blockDetail f c.1) num kind rule base size parts
  | .rgnFree num _ => applyRgnFree s wid w (blockDetail f c.1) num
  | .stepQ num gen =>
    -- the next arrival of a step that is complete follows its completion
    if arrivalHeld s w.gid num gen then (addJob s wid w (.stepArrive num gen (blockDetail f c.1))).2
    else applyArrival s wid w.gid num gen (blockDetail f c.1)
  | _ => s

def isQsig : Cmd → Bool
  | .qsig .. => true
  | _ => false

/-! ### Step 4: the boundary action -/

/-- bar.wait at step 4 (11 R243): no wait where the cell is dead or past the phase; a flip observed is an acquire at its scope. -/
def beginBarWait (s : State) (wid : Nat) (w : Warp) (cell : DWord) (phase : BitVec 4) : State :=
  let wait := modWarp s wid fun w => { w with state := .waiting, wait := .bar cell phase }
  match findCell s w.ctx (some w.gid) cell accRead with
  | .ok at_ =>
    let c := readCell s at_
    if c.live ∧ c.phase = phase.toNat then wait
    else if c.live then modWarp s wid fun w => { w with acqDue := max w.acqDue c.scope } else s
  | .error _ => wait

/-- The boundary action's arrival is made and its wait begins. -/
def stepFour (wid : Nat) (w : Warp) (f : Frame) (s : State) (c : Nat × Cmd) : State :=
  match c.2 with
  | .barWait cell phase => beginBarWait s wid w cell phase
  | .step num gen =>
    let k := match getGroup s w.gid with | some g => (getRegion g num).k | none => 0
    let (_, s) := addJob s wid w (.stepArrive num gen (blockDetail f c.1))
    modWarp s wid fun w => { w with state := .waiting, wait := .step num gen k }
  | .waitc p t =>
    modWarp s wid fun w =>
      if w.counter p ≤ t.toNat then { w with acqDue := max w.acqDue 4 } else { w with state := .waiting, wait := .waitc p t }
  | .yield n => modWarp s wid fun w => { w with state := .waiting, wait := .yield (s.clk + z32 n) }
  | .gbar =>
    let (_, s) := addJob s wid w .gbarArrive
    modWarp s wid fun w => { w with state := .waiting, wait := .gbar }
  | _ => s

/-! ### Step 5 -/

def cmdOf {α : Type} (f : Frame) (g : Cmd → Option α) : Option (Nat × α) :=
  match f.cmds.find? fun c => (g c.2).isSome with
  | some c => (g c.2).map fun a => (c.1, a)
  | none => none

def spopCmd : Cmd → Option Unit
  | .spop => some ()
  | _ => none
def spushCmd : Cmd → Option (Word × Word)
  | .spush h m => some (h, m)
  | _ => none
def trapretCmd : Cmd → Option Unit
  | .trapret => some ()
  | _ => none
def gstopCmd : Cmd → Option Word
  | .gstop v => some v
  | _ => none
def brkCmd : Cmd → Option (BitVec 12)
  | .brk n => some n
  | _ => none
def svcCmd : Cmd → Option (BitVec 12)
  | .svc n => some n
  | _ => none

/-- The redo that step 5 of this block would need (R153). -/
def redoOf (f : Frame) (targets : List Word) : Redo :=
  ⟨exitMasks f, targets, exitsEnd f.words targets, Img.word f.words 1, (cmdOf f spushCmd).map (·.2)⟩

/-- spop's removal, of the stack as the block's own wrsr left it (15 R379). -/
def popDue (f : Frame) (w : Warp) : Warp := if (cmdOf f spopCmd).isSome then w.drop else w

/-- SPLIT_IN_TRAP at commit (R154), a fault of kind A. -/
def splitInTrap (s : State) (wid : Nat) (f : Frame) (i : Nat) : State :=
  match getWarp s wid with
  | some w => fatalGroup s wid { w with handle := f.handle } Code.splitInTrap (blockDetail f i) i
  | none => s

/-- Step 5 of a block whose trap bit is 0. Traps do not nest: within a trap, a split trap of such a block is SPLIT_IN_TRAP (log 110). -/
def stepFiveNormal (s : State) (wid : Nat) (f : Frame) (targets : List Word) : State :=
  match getWarp s wid with
  | none => s
  | some w =>
    let w := popDue f w
    let r := redoOf f targets
    let trapped (w : Warp) (r : Redo) : State :=
      if w.trap.isSome then splitInTrap (setWarp s wid w) wid f 0 else setWarp s wid { w with redo := some r }
    match w.pushDue r with
    | none => trapped w r
    | some (w', r') =>
      match w'.stepFive r' with
      | .trap _ => trapped w' r'
      | c => applyChosen s wid w' r' c

/-- What a trap handler's block takes off the stack where it ends its trap without trapret (R154); none where it goes on. -/
def trapEnds (w : Warp) (f : Frame) (targets : List Word) : Option (Warp × Chosen) :=
  let ends :=
    if f.laneless then exitEnds f.words (f.whole.getD 0) (targets.getD (f.whole.getD 0) endHandle)
    else decide ((splitVotes w (redoOf f targets)).2 = [])
  let w := (if f.laneless then w else w.killLanes (splitVotes w (redoOf f targets)).1).abandonTrap
  if ends ∧ (cmdOf f trapretCmd).isNone then some (w, w.resume stackFuel) else none

/-- Step 5 of a trap handler's block (R154, 18 R482, 15 R377). A spop whose block itself emptied the stack removes nothing (R155, 15
R379): SPLIT_IN_TRAP for it is found at map. -/
def stepFiveTrap (s : State) (wid : Nat) (f : Frame) (targets : List Word) : State :=
  match getWarp s wid with
  | none => s
  | some w =>
    let w := popDue f w
    let badPush := match cmdOf f spushCmd with | some (i, _) => if w.count = 16 then some i else none | none => none
    let w' := match cmdOf f spushCmd with | some (_, h, m) => w.push h (m &&& ~~~w.deadm) | none => w
    match badPush with
    | some i => splitInTrap (setWarp s wid w) wid f i
    | none =>
      if (cmdOf f trapretCmd).isSome then
        match w'.trap with
        | some t => setWarp s wid (w'.leaveTrap t)
        | none => setWarp s wid w'
      else
        match trapEnds w' f targets with
        | some (w, c) => applyChosen s wid w Redo.resume c
        | none =>
          if f.laneless then setWarp s wid (w'.next (targets.getD (f.whole.getD 0) endHandle) 0)
          else
            match splitVotes w' (redoOf f targets) with
            | (dead, [(h, m)]) => setWarp s wid ((w'.killLanes dead).next h m)
            | _ => splitInTrap (setWarp s wid w') wid f 0

/-! ### After step 5 -/

/-- gstop with code 0 (06 R126): every warp ends, those in flight, and its own, once their blocks have settled. -/
def stopGroup (s : State) (gid wid : Nat) : State :=
  let s := modGroup s gid fun g => { g with stopped := true }
  (warpsOf s gid).foldl (fun s e => if e.1 ≠ wid ∧ e.2.frame.isNone ∧ e.2.state ≠ .ended then endWarp s e.1 else s) s

/-- gstop at the end of its block's commit; the first to reach the hub wins. A group that this commit's own step 5 left with no live warp
was resident when its stores were released (06 R126), so a nonzero code still halts it. -/
def takeGstop (s : State) (wid : Nat) (f : Frame) : State :=
  match cmdOf f gstopCmd, getWarp s wid with
  | some (i, v), some w =>
    match getGroup s w.gid with
    | some g0 =>
      let g := if g0.state = .retiring then { g0 with state := .resident } else g0
      if g.stopped ∨ g.state ≠ .resident then s
      else if v = 0 then stopGroup s w.gid wid
      else fatalGroup (setGroup s w.gid g) wid { w with handle := f.handle } Code.gstop (z32 v) i
    | none => s
  | _, _ => s

/-- Debug stops due after step 5: BRK, and STEP after the one block a step resume allowed (18 R443, 15 R373). -/
def takeStop (s : State) (wid : Nat) (f : Frame) : State :=
  match getWarp s wid with
  | none => s
  | some w =>
    if w.state = .ended ∨ w.haltDue then s
    else
      let debug := match getCtx s w.ctx with | some c => c.desc.debug && c.dbgctl.getLsbD 0 | none => false
      match (if debug then cmdOf f brkCmd else none) with
      | some (i, n) => stopOthers (stopWarp s wid .brk f.handle i (BitVec.ofNat 32 n.toNat)) wid w
      | none => if w.mode = .run then s else stopOthers (stopWarp s wid .step w.handle 0 0) wid w

/-- Traps that follow this commit: CLIPPED and SVC. A trap handler's block raises neither, and leaves those still due; those of an ordinary
block that runs within a trap follow them (log 110). -/
def dueTraps (s : State) (wid : Nat) (f : Frame) : State :=
  let clips := f.cmds.filterMap fun c => match c.2 with | .clipped n => some n | _ => none
  modWarp s wid fun w =>
    if w.state = .ended ∨ Img.trap f.words then w
    else
      let old (α : Type) (l : List α) : List α := if w.trap.isSome then l else []
      { w with clipDue := old _ w.clipDue ++ clips, svcDue := old _ w.svcDue ++ ((cmdOf f svcCmd).map (·.2)).toList }

/-- The acquire that the block's returning atomic makes for the next block (09 R198). -/
def acquires (f : Frame) : Nat :=
  (f.slots.filterMap fun q =>
    if q.2.kind.isAtomic && (decide (q.2.ord = .acquire) || decide (q.2.ord = .acqRel)) then some (Scope.num q.2.scope) else none).foldl max 0

/-- The widest acquire that the block's bar.tests make for every later block of the warp (11 R244). -/
def testAcquires (f : Frame) : Nat := (f.cmds.filterMap fun c => match c.2 with | .acquire n => some n | _ => none).foldl max 0

/-! ### The sequence (R146, R481) -/

/-- Counters of a commit (06 R120, 18 R454, R455). -/
def countCommit (s : State) (w : Warp) (f : Frame) : State :=
  let s := if (Img.all f.words).any fun e => isYield e.2 then s else { s with progress := sput 0 s.progress w.core s.clk.toNat }
  let s := modGroup s w.gid fun g => { g with lastCommit := s.clk }
  modCtx (countEvent s (dieOf w.core) w.ctx 0 1) w.ctx fun c => { c with acct := { c.acct with blocks := c.acct.blocks + 1 } }

/-- DBGCTL is the context's (18 R442). -/
def writeDbg (s : State) (w : Warp) (f : Frame) : State :=
  f.cmds.foldl (fun s c => match c.2 with
    | .wrsr 8 v => modCtx s w.ctx fun x => if x.desc.debug then { x with dbgctl := dbgWritten x.dbgctl (lo32 v) } else x
    | _ => s) s

/-- Step 2 (R146): the buffered stores but the reds of release order, then stm, cwb and cinv. -/
def stepTwoAll (s : State) (wid : Nat) (w : Warp) (f : Frame) : State := f.cmds.foldl (stepTwo wid w) (releaseStores s wid w f)

/-- An rgn.free or step.q of the block waits for the warp's own stores to its region, which perform at step 2 (10 R211, R220). -/
def freeWaits (s : State) (wid : Nat) (f : Frame) : Bool :=
  f.cmds.any fun c => match c.2 with | .rgnFree num _ | .stepQ num _ => storesBefore s wid s.uid (some num) | _ => false

/-- With its stores released, the block waits: its rgn.free or step.q, or its reds of release order for stores of their own block (09 R198). -/
def lateWaits (s : State) (wid : Nat) (f : Frame) : Bool :=
  freeWaits s wid f || (decide (redsLeft f true ≠ []) && !earlierDone s wid s.uid (lateScope f))

def isRgnFree : Cmd → Bool
  | .rgnFree .. | .stepQ .. => true
  | _ => false

/-- Step 2 goes on in a move of its own: a lane of a red that has others combines, or the stores are released and what is to follow them waits
for those that take their time (R428, 09 R198, 10 R211). None where what is left performs with the rest of the commit. -/
def stepTwoMove (s : State) (wid : Nat) (w : Warp) (f : Frame) : Option State :=
  let put (p : State × Frame) : State := modWarp p.1 wid fun w => { w with frame := some p.2 }
  if f.stage < 2 ∧ 1 < (redsLeft f false).length then some (put (redLane s wid w f false))
  else if redsLeft f true = [] ∧ !f.cmds.any (fun c => isRgnFree c.2) then none
  else
    let s' := if f.stage < 2 then stepTwoAll s wid w f else s
    if lateWaits s' wid f then
      if f.stage < 2 then some (put (s', { f.released with stage := 2 })) else none
    else if 1 < (redsLeft f true).length then
      let (s', f') := redLane s' wid w { f.released with stage := 2 } true
      some (put (s', f'))
    else none


/-- Steps 1 to 3. What the block itself acquired is acquired again for the next: one of its own loads may have met the release (09 R197). The queue actions of qsig, given as an argument, come after every launch (04 R89). -/
def commitThree (qsig : State → Nat → Warp → Word → Word → State) (s : State) (wid : Nat) (w : Warp) (f : Frame) (calls : Bool) : State :=
  let w1 := landAll w f
  let w2 := if calls && callTaken f then landS w1 6 (Img.word f.words 1) false else w1
  let s := setWarp s wid { w2 with
    frame := none
    image := none
    state := .ready
    since := s.clk
    prefetched := none
    acqDue := max (acquires f) (Img.acq f.words)
    acqHeld := max w2.acqHeld (testAcquires f) }
  let s := writeDbg (countCommit s w f) w f
  let s := releaseLate (if f.stage < 2 then stepTwoAll s wid w f else s) wid w f
  let s := f.cmds.foldl (stepThree wid w f) s
  f.cmds.foldl (fun s c => match c.2 with | .qsig q act => qsig s wid w q act | _ => s) s

/-- The commit of a resolved block. -/
def commitWhole (qsig : State → Nat → Warp → Word → Word → State) (s : State) (wid : Nat) (w : Warp) (f : Frame) : State :=
  let w1 := landAll w f
  let w2 := if callTaken f then landS w1 6 (Img.word f.words 1) false else w1
  let targets := exitTargets f.handle w1 w2 f.words
  let s := commitThree qsig s wid w f true
  let s := f.cmds.foldl (stepFour wid w f) s
  let s := if Img.trap f.words then stepFiveTrap s wid f targets else stepFiveNormal s wid f targets
  let s := dueTraps s wid f
  let s := takeGstop s wid f
  let s := if groupStopped s w.gid then endWarp s wid else s
  settle (takeStop s wid f) wid

/-- The commit of a block past its irrevocable point in which a fault was detected (R481): steps 4 and 5 are not performed, and the fault
is taken at the boundary. A gstop of the block has taken effect with its stores (06 R126). -/
def commitFaulty (qsig : State → Nat → Warp → Word → Word → State) (s : State) (wid : Nat) (w : Warp) (f : Frame) (c : Cause) : State :=
  let s := takeGstop (commitThree qsig s wid w f false) wid f
  match getWarp s wid with
  | some w => fatalGroup s wid w c.code c.detail c.idx
  | none => s

/-- The split-stack entries that step 5 would pop, poisoned (18 R440). -/
def popsPoison (w : Warp) (f : Frame) : Bool :=
  let w1 := popDue f (landAll w f)
  let targets := exitTargets f.handle w1 w1 f.words
  let r := redoOf f targets
  if Img.trap f.words then
    let w2 := match r.push with | some (h, m) => w1.push h (m &&& ~~~w1.deadm) | none => w1
    match trapEnds w2 f targets with | some (w3, c) => poppedPoison w3 c | none => false
  else
    match w1.pushDue r with
    | none => false
    | some (w2, r) => poppedPoison w2 (w2.stepFive r)

/-- The cause that a quiet frame reports, if it has one. -/
def quietCause (s : State) (w : Warp) (f : Frame) : Option Cause :=
  let cut := if linkDown s (dieOf w.core) then f.cmds.flatMap fun c => commandLost f c.1 c.2 else []
  let stack : List Cause := if f.causes = [] ∧ !f.irrev ∧ f.resolved ∧ popsPoison w f then [⟨2, 0, Code.poison, blockDetail f 0, none⟩] else []
  let stall : List Cause := if f.resolved then [] else [⟨6, 0, Code.blockStall, blockDetail f 0, none⟩]
  firstCause (f.causes ++ lostCauses s w f ++ cut ++ stack ++ stall)

/-- A frame flushed for its cause: a translation fault parks the warp, any other is a fatal group fault. -/
def flushFor (s : State) (wid : Nat) (w : Warp) (f : Frame) (c : Cause) : State :=
  match c.xlat with
  | some _ => flushOnFault s wid f
  | none => fatalGroup s wid w c.code c.detail c.idx

/-- The commit of a quiet block whose cause, if it has one, was detected past its irrevocable point. Header release of wide scope waits for
the warp's write-backs and stepped stores (09 R196), and what must cross a retraining link for the link (14 R315). -/
def commitMove (qsig : State → Nat → Warp → Word → Word → State) (s : State) (wid : Nat) (w : Warp) (f : Frame) (c : Option Cause) : Out :=
  if (f.stage = 0 ∧ !earlierDone s wid s.uid (Img.rel f.words)) ∨ storesHeld s w f ∨ (f.stage = 2 ∧ lateWaits s wid f) then notDue "BLOCK_COMMIT"
  else
    match stepTwoMove s wid w f, c with
    | some s, _ => .next s
    | none, some c => .next (commitFaulty qsig s wid w f c)
    | none, none => .next (commitWhole qsig s wid w f)

/-- A block's frame reaches its end: flushed for its cause, or committed; a commit once begun goes on (R146). -/
def blockCommit (qsig : State → Nat → Warp → Word → Word → State) (wid : Nat) (s : State) : Out :=
  match getWarp s wid with
  | none => notDue "BLOCK_COMMIT"
  | some w =>
    match w.frame with
    | none => notDue "BLOCK_COMMIT"
    | some f =>
      if w.state ≠ .mapped then notDue "BLOCK_COMMIT"
      else if f.xfaults ≠ [] ∧ !f.stays then .next (flushOnFault s wid f)
      else if !f.quiet then notDue "BLOCK_COMMIT"
      else
        match quietCause s w f with
        | some c => if !f.stays then .next (flushFor s wid w f c) else commitMove qsig s wid w f (if f.irrev then some c else none)
        | none => commitMove qsig s wid w f none

/-! ### GBAR_ARRIVAL (06 R125) -/

/-- Every store of the warp's committed blocks has performed at group scope: its arrival counts, and may release all. -/
def execGbarArrival (id : Nat) (s : State) : Out :=
  match tget s.jobs id with
  | some ⟨wid, gid, _, seq, .gbarArrive⟩ =>
    if storesBefore s wid seq none then notDue "GBAR_ARRIVAL"
    else .next (gbarCheck (modGroup (dropJob s id) gid fun g => { g with arrived := g.arrived + 1 }) gid)
  | _ => notDue "GBAR_ARRIVAL"

end Sys2Proof.Machine
end

