-- ==== Sys2Proof/Machine/Queue.lean ====
section
/-!
DEFINITION. Queues (04): the registers of the doorbell page and the events of R83, the reading and testing of a head record, acceptance,
launch commands and qsig; and BLOCK_COMMIT, whose commit may apply qsig.
-/
namespace Sys2Proof.Machine

/-! ### The hub's reads and writes through a context's pages -/

inductive HubRead where
  | ok (pa : Nat) (bs : List Byte) (bad : Bool)
  | bad (f : XFault)
  | cut
  | held
deriving DecidableEq, Repr

/-- Read n bytes within one page, and charge the walk and the read to the context (03 R58); bits 63 to 52 of the address drop (log 118). A place the hub cannot reach answers LINK_LOST as
its fault (log 44); one across a retraining link waits (14 R315). -/
def hubRead (s : State) (ctx va n : Nat) : HubRead × State :=
  if hubHeld s ctx va then (.held, s) else
  let t := chargeWalk s ctx va
  match hubXlate s ctx va accRead with
  | .bad f => (.bad f, t)
  | .cut => (.cut, t)
  | .ok pa _ e _ =>
    if hubCan s pa n then (.ok pa (s.mem.bytes pa n) (poisonedAt s pa n), hubUse t ctx pa n)
    else (.bad ⟨Code.linkLost, accRead, 0xF, e, va⟩, t)

/-- Write n bytes within one page for a launch copy: the fault, if it cannot. One lost to a link or port is counted there (14 R316, R319). -/
def hubPut (s : State) (ctx va : Nat) (bs : List Byte) (bad : Bool) : State × Option XFault :=
  let t := chargeWalk s ctx va
  match hubXlate s ctx va accWrite with
  | .bad f => (t, some f)
  | .cut => (contextFault t ctx, none)
  | .ok pa _ e _ =>
    (hubOwedFor t ctx pa bs bad, if hubCan s pa bs.length then none else some ⟨Code.linkLost, accWrite, 0xF, e, va⟩)

/-! ### Registers (R74, R76) -/

/-- A queue as context create leaves it: disabled. -/
def Queue.zero : Queue :=
  { base := 0, size := 0, devctl := false, devfed := false, wr := 0, rd := 0, state := .disabled, dberr := false, errCode := 0, errIdx := 0, tested := 0
    drop := 0, res := 0, written := [], failed := [] }

def getQ (c : Context) (q : Nat) : Queue := (tget c.queues q).getD Queue.zero
def setQ (s : State) (ctx q : Nat) (x : Queue) : State := modCtx s ctx fun c => { c with queues := tput c.queues q x }

/-- The state codes of R74. -/
def QState.code : QState → Nat
  | .disabled => 0 | .idle => 1 | .active => 2 | .blocked => 3 | .suspended => 4 | .error => 5

/-- QSTATE (R74). -/
def Queue.stateWord (x : Queue) : Word := BitVec.ofNat 32 (x.dberr.toNat * 2 ^ 16 + x.errCode.toNat * 2 ^ 8 + x.state.code)

/-- The word a host read finds at an offset of a queue's 64 bytes; what the table does not list there, and QCMD, reads as zero (R74). -/
def Queue.readWord (x : Queue) : Nat → Word
  | 0x00 => lo32 x.base
  | 0x04 => hi32 x.base
  | 0x08 => x.size
  | 0x0C => BitVec.ofNat 32 (x.devctl.toNat * 4 + x.devfed.toNat * 2 + (decide (x.state ≠ .disabled)).toNat)
  | 0x10 => x.wr
  | 0x14 => x.rd
  | 0x18 => x.stateWord
  | 0x1C => x.errIdx
  | 0x24 => x.drop
  | _ => 0

/-- The doorbell page answers the host where the module runs and the context number is in use; any other write is ignored (log 45, 21 R468). -/
def pageCtx (s : State) (ctx : Nat) : Option Context := if s.start.state = .ready then getCtx s ctx else none

/-- The word a host read of the doorbell window finds (R73): zero past the registers of a page's 64 queues, and in the page of a number no
context has; the window does not answer before the module is ready, nor after it has failed (21 R468). -/
def bar2Read (s : State) (off : Nat) : Word :=
  match pageCtx s (off / 65536) with
  | some c => if off % 65536 < 0x1000 then (getQ c (off % 65536 / 64)).readWord (off % 64) else 0
  | none => 0

/-- Entries of the ring (R75). -/
def Queue.entries (x : Queue) : Nat := 2 ^ x.size.toNat
def Queue.enabled (x : Queue) : Bool := decide (x.state ≠ .disabled)
/-- Virtual address of record k. -/
def Queue.slotVa (x : Queue) (k : Word) : Nat := (x.base.toNat + 64 * (k.toNat % x.entries)) % 2 ^ 64

/-- QWR advances over every slot written, in order (R76). -/
def Queue.publish (x : Queue) : Nat → Queue
  | 0 => x
  | n + 1 =>
    if x.written.contains x.wr then { x with wr := x.wr + 1, written := x.written.erase x.wr }.publish n else x

/-! ### The record (R78 to R81) -/

def launchOf (ws : List Word) : Launch :=
  let w (k : Nat) : Word := ws.getD k 0
  let d (k : Nat) : DWord := w (k + 1) ++ w k
  { ctl := w 0, entry := w 1, groups := w 2, shape := w 3, args := d 4, framebase := d 6, framestride := w 8, tag := w 9
    complrec := d 10, donebar := d 12, waitlist := d 14 }

namespace Launch
def kind (r : Launch) : Nat := wbits r.ctl 31 24
def prio (r : Launch) : Nat := wbits r.ctl 18 16
def nwait (r : Launch) : Nat := wbits r.ctl 15 13
def gran (r : Launch) : Nat := wbits r.ctl 5 0 + 1
/-- C, W and S of R111. -/
def C (r : Launch) : Nat := wbits r.shape 12 10 + 1
def W (r : Launch) : Nat := wbits r.shape 8 0 + 1
def S (r : Launch) : Nat := wbits r.shape 26 16 * 256
end Launch

/-- What kernel and marker records share of R79 and R80. `framebase`, which the table gives no alignment, is not tested (log 92). -/
def headMalformed (r : Launch) : Bool :=
  decide (wbits r.ctl 23 19 ≠ 0) || decide (wbits r.ctl 12 6 ≠ 0) || decide (4 < r.nwait) ||
  (decide (r.nwait = 0) != decide (r.waitlist = 0)) || decide (r.donebar.toNat % 32 ≠ 0) || decide (r.waitlist.toNat % 64 ≠ 0)

def markerMalformed (r : Launch) : Bool :=
  headMalformed r || decide (r.entry ≠ 0) || decide (r.groups ≠ 0) || decide (r.shape ≠ 0) || decide (r.args ≠ 0)
    || decide (r.framebase ≠ 0) || decide (r.framestride ≠ 0) || decide (r.complrec ≠ 0)

def kernelMalformed (r : Launch) : Bool :=
  headMalformed r || decide (r.groups = 0) || decide (wbits r.shape 31 27 ≠ 0) || decide (wbits r.shape 15 13 ≠ 0)
    || r.shape.getLsbD 9 || decide (64 * r.C < r.W) || decide (32 < r.gran)
    || decide (512 < (r.W + r.C - 1) / r.C * r.gran) || decide (1536 < wbits r.shape 26 16) || r.entry.getLsbD 31
    || decide (r.args.toNat % 8 ≠ 0) || decide (r.complrec.toNat % 64 ≠ 0)

/-- A wait-list entry: cell, failerr, phase, and whether it is well formed (R81). -/
structure WaitEntry where
  cell    : DWord
  failerr : Bool
  phase   : Nat
  ok      : Bool
deriving DecidableEq, Repr

def waitEntry (ws : List Word) : WaitEntry :=
  let w (k : Nat) : Word := ws.getD k 0
  ⟨w 1 ++ w 0, (w 2).getLsbD 4, wbits (w 2) 3 0, decide ((w 0).toNat % 32 = 0) && decide (wbits (w 2) 31 5 = 0) && decide (w 3 = 0)⟩

def waitEntries : List Word → List WaitEntry
  | a :: b :: c :: d :: r => waitEntry [a, b, c, d] :: waitEntries r
  | _ => []

/-- Outcome of the test of a record's waits. -/
inductive Waits where
  | unsatisfied
  | satisfied (bad : Option DWord)
  | malformed
  | fault (f : XFault)
  | cut
  | held
deriving DecidableEq, Repr

/-- Test the cells in list order: the first that cannot be read decides; failerr names the first satisfied cell in error. A cell address past
52 bits answers as a cell off a C-class page, BAR_OPERAND (log 93), and the poison of a cell is not looked at (log 94). -/
def testCells (s : State) (ctx : Nat) : List WaitEntry → Bool → Option DWord → Waits
  | [], sat, bad => if sat then .satisfied bad else .unsatisfied
  | e :: r, sat, bad =>
    if cellHeld s ctx e.cell then .held else
    match findCell s ctx none e.cell accRead with
    | .error (.xlat f) => .fault f
    | .error (.operand level entry) => .fault ⟨Code.barOperand, accRead, level, entry, e.cell.toNat⟩
    | .error (.cut _) => .cut
    | .ok at_ =>
      if cellCut s at_ then .fault ⟨Code.linkLost, accRead, 0xF, (cellLeaf s ctx e.cell).2, e.cell.toNat⟩
      else
        let c := readCell s at_
        if c.phase = e.phase then testCells s ctx r false bad
        else testCells s ctx r sat (if e.failerr && c.err && bad.isNone then some e.cell else bad)

/-- The cells a test reads are charged to the context: walk and cell (03 R58). -/
def chargeCells (s : State) (ctx : Nat) (es : List WaitEntry) : State :=
  es.foldl (fun s e =>
    match findCell s ctx none e.cell accRead with
    | .ok at_ => touchCell (walkCell s ctx e.cell) ctx at_
    | .error _ => s) s

def testWaits (s : State) (ctx : Nat) (l : Launch) : Waits × State :=
  if l.nwait = 0 then (.satisfied none, s)
  else
    match hubRead s ctx l.waitlist.toNat (16 * l.nwait) with
    | (.bad f, s) => (.fault f, s)
    | (.cut, s) => (.cut, s)
    | (.held, s) => (.held, s)
    | (.ok _ bs bad, s) =>
      if bad then (.fault ⟨Code.poison, accRead, 0xF, 0, l.waitlist.toNat⟩, s)
      else
        let es := waitEntries (wordsOf bs)
        if es.all (·.ok) then (testCells s ctx es true none, chargeCells s ctx es) else (.malformed, s)

/-! ### The head (R79 to R85, R87) -/

/-- The queue enters error at its head; a fault also posts a record of source 6 (R84). -/
def queueError (s : State) (ctx q : Nat) (x : Queue) (code : Nat) (f : Option XFault) : State :=
  let s := setQ s ctx q { x with state := .error, errCode := BitVec.ofNat 8 code, errIdx := x.rd }
  match f with
  | some f => (postFault s ctx ⟨6, 0xFFFFFFFF, 0xFFFFFFFF, 0, 0, x.base⟩ f none).1
  | none => s

/-- The head is accepted or skipped: QRD advances. -/
def advanceHead (s : State) (ctx q : Nat) (x : Queue) : State :=
  let rd := x.rd + 1
  setQ s ctx q { x with rd := rd, state := if rd = x.wr then .idle else .active }

/-- Acceptance of a kernel record (R85, R90): it enters queued with the next kernel id, and the hub invalidates its context's K and I
lines on every core (09 R183). -/
def acceptKernel (s : State) (ctx q : Nat) (l : Launch) (qdep : Bool) : State :=
  let k := s.nextKid
  let x : Kernel :=
    { ctx := ctx, queue := q, launch := l, state := .queued, entryHeld := false, qdep := qdep, code := 0, failGroup := 0xFFFFFFFF, detail := 0
      retired := 0, tstart := s.clk, tend := 0, nextRank := 0, killed := false, since := s.clk, aged := 0 }
  invalidatePaths { setKernel s k.toNat x with nextKid := k + 1 } ctx 0b00110

/-- A marker's donebar arrival (R79). One with code 0, whose count and detail the spec does not give, carries 0 in both (log 95). -/
def markerArrive (s : State) (ctx : Nat) (l : Launch) (bad : Option DWord) : State :=
  if l.donebar = 0 then s
  else
    match bad with
    | some cell => hubArrive s ctx 0xFFFFFFFF l.donebar Code.qdep 0 cell
    | none => hubArrive s ctx 0xFFFFFFFF l.donebar 0 0 0

/-- The context's queues accept records (R84): not once a context fault or a teardown has begun, nor after a thermal stop (21 R476). -/
def queuesRun (s : State) (c : Context) : Bool :=
  decide (s.start.state = .ready) && (decide (c.state = .ready) || decide (c.state = .resident)) &&
    (decide (c.leaving = none) || decide (c.leaving = some .suspend))

/-- Read and test the head record of an active or blocked queue. A test reads the ring record and the wait list again, so that a blocked
head may come out malformed, skipped or faulty (log 96). What must cross a retraining link is held: the queue stays as it is. -/
def testHead (s : State) (ctx q : Nat) : State :=
  match getCtx s ctx with
  | none => s
  | some c =>
    let x := getQ c q
    if !queuesRun s c || x.rd = x.wr || !(decide (x.state = .active) || decide (x.state = .blocked)) then s
    else
      match x.failed.find? fun e => e.1 = x.rd with
      | some e => queueError s ctx q x Code.qfault (some e.2)
      | none =>
        match hubRead s ctx (x.slotVa x.rd) 64 with
        | (.bad f, s) => queueError s ctx q x Code.qfault (some f)
        | (.cut, s) => contextFault s ctx
        | (.held, s) => s
        | (.ok _ bs bad, t) =>
          let l := launchOf (wordsOf bs)
          if bad then queueError t ctx q x Code.qfault (some ⟨Code.poison, accRead, 0xF, 0, x.slotVa x.rd⟩)
          else if l.kind = 0 then advanceHead t ctx q x
          else if (l.kind = 1 ∧ !kernelMalformed l) ∨ (l.kind = 2 ∧ !markerMalformed l) then
            match testWaits t ctx l with
            | (.malformed, s) => queueError s ctx q x Code.qrec none
            | (.fault f, s) => queueError s ctx q x Code.qfault (some f)
            | (.cut, s) => contextFault s ctx
            | (.held, _) => s
            | (.unsatisfied, s) => setQ s ctx q { x with state := .blocked, tested := s.clk }
            | (.satisfied bad, s) =>
              if l.kind = 1 then advanceHead (acceptKernel s ctx q l bad.isSome) ctx q x
              else advanceHead (markerArrive s ctx l bad) ctx q x
          else queueError t ctx q x Code.qrec none

/-- HEAD_TEST: the dispatcher reads the head of an active queue. -/
def execHeadTest (ctx : BitVec 8) (q : BitVec 6) (s : State) : Out :=
  match getCtx s ctx.toNat with
  | none => notDue "HEAD_TEST"
  | some c =>
    let x := getQ c q.toNat
    if queuesRun s c ∧ x.state = .active ∧ x.rd ≠ x.wr ∧ !hubHeld s ctx.toNat (x.slotVa x.rd) then .next (testHead s ctx.toNat q.toNat) else notDue "HEAD_TEST"

/-- One microsecond in cycles (00 R4: 2.25 GHz). -/
def oneUs : Nat := 2250

/-- BLOCKED_RETEST: the test of a blocked head one microsecond after its last (R84). -/
def execBlockedRetest (ctx : BitVec 8) (q : BitVec 6) (s : State) : Out :=
  match getCtx s ctx.toNat with
  | none => notDue "BLOCKED_RETEST"
  | some c =>
    let x := getQ c q.toNat
    if queuesRun s c ∧ x.state = .blocked ∧ oneUs ≤ (s.clk - x.tested).toNat then .next (testHead s ctx.toNat q.toNat) else notDue "BLOCKED_RETEST"

/-- Records have been published: an idle queue becomes active, a blocked head is tested again (R83, R84). -/
def published (s : State) (ctx q : Nat) : State :=
  match getCtx s ctx with
  | none => s
  | some c =>
    let x := getQ c q
    match x.state with
    | .idle => if x.rd = x.wr then s else setQ s ctx q { x with state := .active }
    | .blocked => testHead s ctx q
    | _ => s

/-! ### The events of R83 -/

/-- The state a queue goes on in: idle with nothing pending, else active. -/
def Queue.go (x : Queue) : Queue := { x with state := if x.rd = x.wr then .idle else .active }

def Queue.suspend (x : Queue) : Option Queue :=
  match x.state with
  | .idle | .active | .blocked => some { x with state := .suspended }
  | _ => none
def Queue.resume (x : Queue) : Option Queue := if x.state = .suspended then some x.go else none
def Queue.reset (x : Queue) : Option Queue :=
  if x.state = .error then
    some { x with rd := x.errIdx + 1, dberr := false, errCode := 0, failed := x.failed.filter fun e => e.1 ≠ x.errIdx }.go
  else none
def Queue.retry (x : Queue) : Option Queue :=
  if x.state = .error then
    some { x with rd := x.errIdx, dberr := false, errCode := 0, failed := x.failed.filter (fun e => e.1 ≠ x.errIdx), state := .active }
  else none

def setErr (s : State) (ctx q : Nat) (x : Queue) : State := setQ s ctx q { x with dberr := true }

/-- A write of QCMD: the event, or dberr where it is not allowed (R83). -/
def queueCommand (ctx : BitVec 8) (q : BitVec 6) (s : State) (f : Queue → Option Queue) : Out :=
  match pageCtx s ctx.toNat with
  | none => .next s
  | some c =>
    let x := getQ c q.toNat
    match f x with
    | some y => .next (setQ s ctx.toNat q.toNat y)
    | none => .next (setErr s ctx.toNat q.toNat x)

def execQueueSuspend (ctx : BitVec 8) (q : BitVec 6) (s : State) : Out := queueCommand ctx q s Queue.suspend
def execQueueResume (ctx : BitVec 8) (q : BitVec 6) (s : State) : Out := queueCommand ctx q s Queue.resume
def execQueueReset (ctx : BitVec 8) (q : BitVec 6) (s : State) : Out := queueCommand ctx q s Queue.reset
def execQueueRetry (ctx : BitVec 8) (q : BitVec 6) (s : State) : Out := queueCommand ctx q s Queue.retry

/-- QCMD_IGNORED: a value other than 1 to 4 sets dberr (R74). -/
def execQcmdIgnored (ctx : BitVec 8) (q : BitVec 6) (v : Word) (s : State) : Out :=
  if 1 ≤ v.toNat ∧ v.toNat ≤ 4 then notDue "QCMD_IGNORED" else queueCommand ctx q s fun _ => none

/-- QDROP_CLEAR. -/
def execQdropClear (ctx : BitVec 8) (q : BitVec 6) (s : State) : Out :=
  queueCommand ctx q s fun x => some { x with drop := 0 }

/-- DOORBELL: a host write of QWR (R77). The rule's formula decides: a v between QRD and QWR meets it and moves QWR back, which the sentence
below the rule denies (log 97). -/
def execDoorbell (ctx : BitVec 8) (q : BitVec 6) (v : Word) (s : State) : Out :=
  match pageCtx s ctx.toNat with
  | none => .next s
  | some c =>
    let x := getQ c q.toNat
    if x.enabled ∧ !x.devfed ∧ v ≠ x.wr ∧ (v - x.rd).toNat ≤ x.entries then
      .next (published (setQ s ctx.toNat q.toNat { x with wr := v, res := v }) ctx.toNat q.toNat)
    else .next (setErr s ctx.toNat q.toNat x)

/-- QUEUE_ENABLE: QCTL bit 0 from 0 to 1 (R76, R83). No queue of a context in building may be enabled (03 R60): the write then
sets dberr, as an event that is not allowed (log 45). -/
def execQueueEnable (ctx : BitVec 8) (q : BitVec 6) (ctl : Word) (s : State) : Out :=
  match pageCtx s ctx.toNat with
  | none => .next s
  | some c =>
    let x := getQ c q.toNat
    if x.enabled ∨ !ctl.getLsbD 0 then notDue "QUEUE_ENABLE"
    else if c.state = .building ∨ c.state = .tornDown ∨ c.state = .free then .next (setErr s ctx.toNat q.toNat x)
    else
      .next (setQ s ctx.toNat q.toNat
        { x with devctl := ctl.getLsbD 2, devfed := ctl.getLsbD 1, rd := x.wr, res := x.wr, state := .idle })

/-- The launch copies in progress on a queue. -/
def launchCopies (s : State) (ctx q : Nat) : List (Nat × Word) :=
  s.jobs.filterMap fun e => match e.2.job with
    | .launch n _ _ (some k) => if e.2.ctx = ctx ∧ n.toNat = q then some (e.1, k) else none
    | _ => none

/-- Disable a queue (R76, R83): launch copies in progress finish and their slots are published; pending records are discarded.
QSTATE's error code and QERRIDX keep their values (log 98). -/
def disableQueue (s : State) (ctx q : Nat) (devctl devfed : Bool) : State :=
  let cs := launchCopies s ctx q
  let s := cs.foldl (fun s e => dropJob s e.1) s
  modCtx s ctx fun c =>
    let x := getQ c q
    let x := { x with written := cs.map Prod.snd ++ x.written }
    let x := x.publish x.written.length
    let y := { x with state := .disabled, devctl := devctl, devfed := devfed, res := x.wr, written := [], failed := [] }
    { c with queues := tput c.queues q y }

/-- QUEUE_DISABLE: QCTL bit 0 from 1 to 0. -/
def execQueueDisable (ctx : BitVec 8) (q : BitVec 6) (ctl : Word) (s : State) : Out :=
  match pageCtx s ctx.toNat with
  | none => .next s
  | some c =>
    if !(getQ c q.toNat).enabled ∨ ctl.getLsbD 0 then notDue "QUEUE_DISABLE"
    else .next (disableQueue s ctx.toNat q.toNat (ctl.getLsbD 2) (ctl.getLsbD 1))

/-! ### qsig (R89) -/

def raiseDrop (s : State) (ctx q : Nat) : State :=
  modCtx s ctx fun c =>
    let x := getQ c q
    let y := { x with drop := if x.drop = 0xFFFFFFFF then x.drop else x.drop + 1 }
    { c with queues := tput c.queues q y }

/-- What qsig does to its queue. -/
def applyQsig (s : State) (ctx : Nat) (q act : Word) : State :=
  if 63 < q.toNat then raiseDrop s ctx 0
  else
    match getCtx s ctx with
    | none => s
    | some c =>
      let x := getQ c q.toNat
      let y : Option Queue := match act.toNat with
        | 1 => x.suspend | 2 => x.resume | 3 => if x.state = .blocked then some x else none | _ => none
      match (if x.devctl then y else none) with
      | some y =>
        let s := setQ s ctx q.toNat y
        if act = 3 then testHead s ctx q.toNat else s
      | none => raiseDrop s ctx q.toNat

/-- A queue command of the warp issued before has not yet taken effect. -/
def queueBefore (s : State) (wid seq : Nat) : Bool :=
  s.jobs.any fun e => decide (e.2.warp = wid) && decide (e.2.seq < seq) &&
    (match e.2.job with | .launch _ _ _ none | .qsig .. => true | _ => false)

/-- qsig issues at commit: at once, or behind the launches of its warp that still wait for stores (R87, R89). -/
def issueQsig (s : State) (wid : Nat) (w : Warp) (q act : Word) : State :=
  if queueBefore s wid s.uid then (addJob s wid w (.qsig q act)).2 else applyQsig s w.ctx q act

/-- The qsigs that a launch held back follow it. -/
def drainQsigs (s : State) (wid : Nat) : State :=
  s.jobs.foldl (fun s e =>
    match e.2.job with
    | .qsig q act => if e.2.warp = wid ∧ !queueBefore s wid e.2.seq then applyQsig (dropJob s e.1) e.2.ctx q act else s
    | _ => s) s

/-! ### launch (R87) -/

/-- The status arrival of a launch, or its count in QDROP (of queue 0 where the number is out of range). -/
def launchStatus (s : State) (ctx : Nat) (q : Word) (record cell : DWord) (code : Nat) (k : Word) : State :=
  if cell ≠ 0 then hubArrive s ctx 0xFFFFFFFF cell code k record
  else if code ≠ 0 then raiseDrop s ctx (if 63 < q.toNat then 0 else q.toNat)
  else s

/-- The copy of a prepared record into the slot reserved: a read that faults leaves a skip record, a write that faults marks the index
failed. -/
def launchCopy (s : State) (ctx : Nat) (x : Queue) (record : DWord) (k : Word) : State × Nat × List (Word × XFault) :=
  let (bs, bad, code, s) := match hubRead s ctx record.toNat 64 with
    | (.ok _ bs bad, s) => (bs, bad, 0, s)
    | (_, s) => (List.replicate 64 0, false, Code.qfault, s)
  match hubPut s ctx (x.slotVa k) bs bad with
  | (s, none) => (s, code, [])
  | (s, some f) => (s, Code.qfault, [(k, f)])

/-- LAUNCH_COMMAND: the stores of the block and of the warp's earlier ones have performed at device scope, those to S-class lines by their
write-back (09 R193), and its earlier queue commands are done; the launch reserves a slot and copies, or fails. -/
def execLaunchCommand (id : Nat) (s : State) : Out :=
  match tget s.jobs id with
  | some ⟨wid, gid, ctx, seq, .launch q record cell none⟩ =>
    if maintBefore s wid seq || storesBefore s wid seq none || owes s (.warp wid) || queueBefore s wid seq || warpHeld s wid
      || hubHeld s ctx record.toNat then notDue "LAUNCH_COMMAND"
    else
      match getCtx s ctx with
      | none => .next (dropJob s id)
      | some c =>
        let x := getQ c q.toNat
        let fail (code : Nat) : Out := .next (drainQsigs (launchStatus (dropJob s id) ctx q record cell code 0) wid)
        if 63 < q.toNat ∨ !x.enabled ∨ !x.devfed then fail Code.qperm
        else if record.toNat % 64 ≠ 0 then fail Code.qrec
        else if (x.res - x.rd).toNat = x.entries then fail Code.qfull
        else if hubHeld s ctx (x.slotVa x.res) then notDue "LAUNCH_COMMAND"
        else
          let k := x.res
          let (s, code, bad) := launchCopy s ctx x record k
          let s := modCtx s ctx fun c =>
            let x := getQ c q.toNat
            let y := { x with res := k + 1, failed := x.failed ++ bad }
            { c with queues := tput c.queues q.toNat y }
          let s := { s with jobs := tput s.jobs id ⟨wid, gid, ctx, seq, .launch q record cell (some k)⟩ }
          .next (drainQsigs (launchStatus s ctx q record cell code k) wid)
  | _ => notDue "LAUNCH_COMMAND"

/-- LAUNCH_COPY_DONE: the slot holds its record; QWR advances over every slot written in order. -/
def execLaunchCopyDone (id : Nat) (s : State) : Out :=
  match tget s.jobs id with
  | some ⟨_, _, ctx, _, .launch q _ _ (some k)⟩ =>
    let s := modCtx (dropJob s id) ctx fun c =>
      let x := getQ c q.toNat
      let x := { x with written := k :: x.written }
      { c with queues := tput c.queues q.toNat (x.publish x.written.length) }
    .next (published s ctx q.toNat)
  | _ => notDue "LAUNCH_COPY_DONE"

/-! ### BLOCK_COMMIT -/

/-- BLOCK_COMMIT (07 R146), with qsig as its queue action. -/
def execBlockCommit (wid : Nat) (s : State) : Out := blockCommit issueQsig wid s

end Sys2Proof.Machine
end

