-- ==== Sys2Proof/Machine/Kernel.lean ====
section
/-!
DEFINITION. Kernels and the placement of their groups: entry check, dispatch and aging (05 R90 to R95, 04 R86, 03 R58, R59, 06 R111, R112),
the registers a warp starts with (05 R101), the end of a group's drain (06 R114, R115, 05 R93) and the completion of a kernel.
-/
namespace Sys2Proof.Machine

/-! ### Contexts between ready and resident (03 R60) -/

/-- The group holds its cores. -/
def Group.placed (g : Group) : Bool :=
  match g.state with
  | .resident | .swapping | .halting | .retiring => true
  | _ => false

/-- The group's warps and scratchpad take room on its cores; a saved one that is halted takes none. -/
def Group.onCores (g : Group) : Bool := g.placed && !g.cores.isEmpty

/-- A context with no placed group and no partition is ready again. -/
def settleCtx (s : State) (ctx : Nat) : State :=
  match getCtx s ctx with
  | some c =>
    if c.state = .resident ∧ !(s.groups.any fun g => decide (g.2.ctx = ctx) && g.2.placed) ∧ !(s.parts.any fun p => decide (p.2.ctx = ctx) && !p.2.saved) then
      setCtx s ctx { c with state := .ready }
    else s
  | none => s

/-! ### Room on cores (01 R11, R12, 06 R112) -/

/-- A warp that holds a slot and granules. -/
def holdsCore (s : State) (w : Warp) : Bool :=
  decide (w.state ≠ .ended) && (match getGroup s w.gid with | some g => g.onCores | none => false)

def coreWarps (s : State) (core : Nat) : List Warp := (s.warps.map (·.2)).filter fun w => decide (w.core = core) && holdsCore s w
def freeSlots (s : State) (core : Nat) : Nat := 64 - (coreWarps s core).length
def freeGran (s : State) (core : Nat) : Nat := 512 - ((coreWarps s core).map (·.gran)).foldl (· + ·) 0
def freeSpad (s : State) (core : Nat) : Nat :=
  393216 - (((s.groups.map (·.2)).filter fun g => g.onCores && g.cores.contains core).map (·.S)).foldl (· + ·) 0

/-- Warps asked of core rank k (R111). -/
def rankWarps (W C k : Nat) : Nat := (W - k + C - 1) / C

/-- What a group asks for. -/
structure Need where
  C    : Nat
  W    : Nat
  S    : Nat
  gran : Nat
deriving DecidableEq, Repr

def coreFits (s : State) (n : Need) (core k : Nat) : Bool :=
  let m := if k < n.W then rankWarps n.W n.C k else 0
  decide (m ≤ freeSlots s core) && decide (m * n.gran ≤ freeGran s core) && decide (n.S ≤ freeSpad s core)

/-- Sets of n of some cores, in lexicographic order. -/
def combos : Nat → List Nat → List (List Nat)
  | 0, _ => [[]]
  | _ + 1, [] => []
  | n + 1, x :: r => (combos n r).map (x :: ·) ++ combos (n + 1) r

def setFits (s : State) (n : Need) (cs : List Nat) : Bool := cs.zipIdx.all fun e => coreFits s n e.1 e.2

def clusterCores (k : Nat) : List Nat := (List.range 8).map (· + 8 * k)

/-- Of a list the first element with the greatest measure. -/
def firstMax {α : Type} (f : α → Nat) : List α → Option α
  | [] => none
  | x :: r =>
    match firstMax f r with
    | some y => if f x < f y then some y else some x
    | none => some x

/-- The cores R112 takes: the cluster with most free warp slots, then the set with most free granules; ties go to the lower number. -/
def chooseCores (s : State) (n : Need) : Option (List Nat) :=
  let rooms := (List.range 32).filterMap fun k =>
    match (combos n.C (clusterCores k)).filter (setFits s n) with
    | [] => none
    | l => some (k, l)
  match firstMax (fun r => ((clusterCores r.1).map (freeSlots s)).foldl (· + ·) 0) rooms with
  | some r => firstMax (fun cs => (cs.map (freeGran s)).foldl (· + ·) 0) r.2
  | none => none

/-! ### Candidates (04 R86, 03 R59) -/

/-- A waiting group: one of a kernel not yet placed, or one swapped out or saved. -/
structure Cand where
  kid   : Nat
  ctx   : Nat
  rank  : Nat
  gid   : Option Nat
  prio  : Nat
  arb   : Nat
deriving DecidableEq, Repr

def arbOf (prio aged : Nat) : Nat := min 7 (prio + aged)

/-- The header of the block of a handle, as memory holds it; empty where the hub cannot read it. -/
def headerAt (s : State) (ctx : Nat) (h : Word) : List Word :=
  match (getCtx s ctx).bind fun c => c.segs[wbits h 30 26]? with
  | some g =>
    if g.valid ∧ wbits h 25 0 < g.size then
      match hubXlate s ctx ((g.base + 64 * wbits h 25 0) % 2 ^ 64) accFetch with
      | .ok pa _ _ _ => wordsOf (s.mem.bytes pa 64)
      | _ => []
    else []
  | none => []

/-- The block of a handle names in its gparts a partition of the context that waits to be restored. -/
def namesWaiting (s : State) (ctx : Nat) (h : Word) : Bool :=
  let waits := s.parts.filter fun p => p.2.saved && decide (p.2.ctx = ctx)
  !waits.isEmpty && waits.any fun p => Nat.testBit (Img.gparts (headerAt s ctx h)) p.2.num

/-- A warp of the group names, in the gparts of the block it enters next, a partition that waits to be restored: the group is not placed
until it is (03 R71, log 99). -/
def partsWaiting (s : State) (gid : Nat) : Bool :=
  (warpsOf s gid).any fun e => decide (e.2.state ≠ .ended) && namesWaiting s e.2.ctx e.2.handle

/-- The waiting groups of a kernel (06 R114): those swapped out or saved, and the lowest rank not yet placed. -/
def waitingGroups (s : State) (kid : Nat) (k : Kernel) : List Cand :=
  let saved := s.groups.filter fun g => decide (g.2.kid = kid) && decide (g.2.state = .waiting)
  let cands := if k.state = .dispatching ∨ k.state = .running then
      saved.map fun g => (⟨kid, k.ctx, g.2.rank, some g.1, k.launch.prio, arbOf k.launch.prio g.2.aged⟩ : Cand) else []
  if (k.state = .waiting ∨ k.state = .dispatching) ∧ k.nextRank < k.launch.groups.toNat then
    ⟨kid, k.ctx, k.nextRank, none, k.launch.prio, arbOf k.launch.prio k.aged⟩ :: cands else cands

/-- Those of them that no partition still to be restored holds back (03 R71): of a group not yet placed every warp enters the kernel's entry
block. -/
def kernelCands (s : State) (kid : Nat) (k : Kernel) : List Cand :=
  (waitingGroups s kid k).filter fun c =>
    match c.gid with
    | some g => !partsWaiting s g
    | none => !namesWaiting s k.ctx k.launch.entry

/-- The context takes new groups: its state, and the bandwidth and power budgets (R59). -/
def ctxOpen (s : State) (c : Context) : Bool :=
  queuesRun s c && c.leaving.isNone && (decide (c.desc.bwbud = 0) || decide (c.bwAvg < c.desc.bwbud))
    && (decide (c.desc.pwrbud = 0) || decide (c.pwrAvg < c.desc.pwrbud))

/-- The order in which candidates are tried: priority, then the context's turn, then acceptance, then rank. -/
def candBefore (s : State) (a b : Cand) : Bool :=
  let turn (c : Cand) : Nat := (c.ctx + 255 - s.turn) % 256
  let age (c : Cand) : Nat := (c.kid + 2 ^ 32 - s.nextKid.toNat) % 2 ^ 32
  decide (b.arb < a.arb) || (decide (a.arb = b.arb) && (decide (turn a < turn b) || (decide (turn a = turn b) &&
    (decide (age a < age b) || (decide (age a = age b) && decide (a.rank < b.rank))))))

def insertCand (s : State) (c : Cand) : List Cand → List Cand
  | [] => [c]
  | x :: r => if candBefore s c x then c :: x :: r else x :: insertCand s c r

def candidates (s : State) : List Cand :=
  (s.kernels.flatMap fun e =>
    match getCtx s e.2.ctx with
    | some c => if ctxOpen s c then kernelCands s e.1 e.2 else []
    | none => []).foldr (insertCand s) []

def needOf (s : State) (c : Cand) : Option Need :=
  match c.gid with
  | some g => (getGroup s g).map fun g => ⟨g.C, g.W, g.S, g.gran⟩
  | none => (getKernel s c.kid).map fun k => ⟨k.launch.C, k.launch.W, k.launch.S, k.launch.gran⟩

/-- Cores that hold a resident warp of the context (R58). -/
def ctxCores (s : State) (ctx : Nat) : List Nat :=
  (s.warps.filter fun e => decide (e.2.ctx = ctx) && holdsCore s e.2).foldl (fun l e => nins l e.2.core) []

/-- The core gate of R59. -/
def coresOpen (s : State) (ctx : Nat) (cs : List Nat) : Bool :=
  match getCtx s ctx with
  | some c => decide ((cs.foldl nins (ctxCores s ctx)).length ≤ c.desc.corebud)
  | none => false

/-- The first candidate that can be placed, with its cores. One that has aged to 7 and finds no room holds back all that come after. -/
def pick (s : State) : List Cand → Option (Cand × List Nat)
  | [] => none
  | c :: r =>
    match (needOf s c).bind (chooseCores s) with
    | some cs => if coresOpen s c.ctx cs then some (c, cs) else pick s r
    | none => if c.arb = 7 ∧ c.prio < 7 then none else pick s r

/-! ### PLACEMENT -/

/-- A free warp slot of a core: the spec does not say which of them a placed warp takes (log 66). -/
def freeSlot (s : State) (core : Nat) : Nat :=
  let l := (List.range 64).filter fun k => !(coreWarps s core).any fun w => decide (w.slot = k)
  l.getD (Config.order s.tick (core * 64 + l.length) % l.length) 0

/-- The frame pointer of a warp (04 R80). -/
def frameAt (l : Launch) (g : Nat) : DWord :=
  if l.framestride = 0 then 0 else BitVec.ofNat 64 (l.framebase.toNat + g * l.framestride.toNat * 65536)

/-- A warp at its kernel's first block (05 R101). -/
def newWarp (kid gid : Nat) (k : Kernel) (linktab : DWord) (grank rank core slot : Nat) (clk : DWord) : Warp :=
  let l := k.launch
  let cls := if 6 ≤ l.prio then 1 else 2
  let fp := frameAt l (grank * l.W + rank)
  let w : Warp :=
    { gid := gid, kid := kid, ctx := k.ctx, rank := rank, core := core, slot := slot, gran := l.gran, kclass := cls, cls := cls
      state := .ready, handle := l.entry, mask := ones32
      v := if 32 ≤ l.gran then lanes32.foldl (fun m t => sput 0 m (255 * 32 + t) 8192) [] else []
      s := [], p := [], vpois := [], spois := [], ssp := 0
      splb := if 5 ≤ l.framestride.toNat then fp + 0x48000 else 0
      deadm := 0, fpfl := 0, trapinf := 0, fij := 0, cntD := [], cntX := [], cntK := [], wait := .none, frame := none, image := none
      prefetched := none, redo := none, trap := none, clipDue := [], svcDue := [], stopDue := none, mode := .run, matched := false
      since := clk, acqDue := 5, acqHeld := 0, barq := [], killDue := 0, haltDue := false, fijTaken := false
      oddPend := [] }
  let w := setPair w 0 l.args
  let w := setS (setS w 2 (BitVec.ofNat 32 grank)) 3 (BitVec.ofNat 32 rank)
  let w := setPair w 4 fp
  let w := setS (setS w 6 endHandle) 319 0x48000
  setPair w 320 linktab

def newGroup (k : Kernel) (kid rank : Nat) (cores : List Nat) (clk : DWord) (born : Nat) : Group :=
  { kid := kid, ctx := k.ctx, rank := rank, state := .resident, cores := cores, C := k.launch.C, W := k.launch.W, S := k.launch.S
    gran := k.launch.gran, spad := [], spois := [], regions := List.replicate 8 Region.empty, arrived := 0, stopped := false
    since := clk, aged := 0, lastCommit := clk, dump := none, fatal := none, collision := none, lost := false, copyCells := [], born := born
    savedAt := none }

/-- The warps of a fresh group, rank w on core rank w mod C (R111). -/
def addWarps (kid gid : Nat) (k : Kernel) (linktab : DWord) (rank : Nat) (cores : List Nat) : Nat → Nat → State → State
  | 0, _, s => s
  | n + 1, w, s =>
    let core := cores.getD (w % k.launch.C) 0
    let (id, s) := takeUid s
    let s := setWarp s id (newWarp kid gid k linktab rank w core (freeSlot s core) s.clk)
    addWarps kid gid k linktab rank cores n (w + 1) s

def placeFresh (s : State) (c : Cand) (k : Kernel) (cores : List Nat) : State :=
  let linktab := match getCtx s c.ctx with | some x => x.desc.linktab | none => 0
  let (gid, s) := takeUid s
  let s := setGroup s gid (newGroup k c.kid c.rank cores s.clk (if s.sramUsed then s.tick + 1 else 0))
  let s := { s with sramUsed := true }
  let s := addWarps c.kid gid k linktab c.rank cores k.launch.W 0 s
  let next := k.nextRank + 1
  setKernel s c.kid { k with nextRank := next, state := if next = k.launch.groups.toNat then .running else .dispatching }

/-- PRIORITY_AGING: a full 2^22 cycles of waiting have passed for groups of a kernel (04 R86). -/
def execPriorityAging (kid : Nat) (s : State) : Out :=
  match getKernel s kid with
  | none => notDue "PRIORITY_AGING"
  | some k =>
    let full (since : DWord) : Nat := (s.clk - since).toNat / 2 ^ 22
    let waits (g : Group) : Bool := decide (g.kid = kid) && decide (g.state = .waiting)
    let fresh := decide (k.state = .waiting) || decide (k.state = .dispatching)
    if (fresh ∧ k.aged < full k.since) ∨ s.groups.any (fun g => waits g.2 && decide (g.2.aged < full g.2.since)) then
      let s := setKernel s kid { k with aged := if fresh then full k.since else k.aged }
      .next { s with groups := s.groups.map fun g => if waits g.2 then (g.1, { g.2 with aged := full g.2.since }) else g }
    else notDue "PRIORITY_AGING"

/-! ### Completion (05 R94, R95, 12 R480) -/

/-- Rights of the hub's own writes (R480). -/
def accHub : Acc := 3

/-- A write the hub owes through a context's pages (R480), to which its walk and its bytes are charged (03 R58). -/
def hubVwrite (s : State) (ctx va : Nat) (f : List Byte → List Byte) (n : Nat) (kid : Word) (object : DWord) : State :=
  let r := hubXlate s ctx va accHub
  let s := chargeWalk s ctx va
  match r with
  | .bad f => dropOwed s ctx kid f object
  | .cut => contextFault s ctx
  | .ok pa cls e level =>
    if effClass s pa cls ≠ .C then dropOwed s ctx kid ⟨Code.atomicClass, accHub, level, e, va⟩ object
    else hubOwedFor s ctx pa (f (hubBytes s pa n))

def KState.code : KState → Nat
  | .queued => 0 | .waiting => 1 | .dispatching => 2 | .running => 3 | .draining => 4 | .complete => 5 | .failed => 6
  | .failedPartial => 7 | .killed => 8

/-- The final state of a kernel (R91). -/
def Kernel.final (k : Kernel) : KState :=
  if k.killed then .killed
  else if k.code = 0 then .complete
  else if k.retired = 0 then .failed
  else .failedPartial

/-- The code of the completion record: KILLED for a kill with no earlier failure. -/
def Kernel.endCode (k : Kernel) : Nat := if k.code = 0 ∧ k.killed then Code.killed else k.code

/-- Bytes 0x04 to 0x3F of the completion record (R94). -/
def completionBytes (kid : Nat) (k : Kernel) (clk : DWord) : List Byte :=
  bytesOfWords [BitVec.ofNat 32 k.endCode, k.launch.tag, k.launch.groups, BitVec.ofNat 32 k.retired, k.failGroup,
    lo32 k.detail, hi32 k.detail, lo32 k.tstart, hi32 k.tstart, lo32 clk, hi32 clk, BitVec.ofNat 32 kid,
    BitVec.ofNat 32 (k.ctx * 256 + k.queue), 0, 0]

/-- A kernel ends: the record's bytes 0x04 on, then word 0, then the donebar arrival (R95); its table entry is freed. -/
def finishKernel (s : State) (kid : Nat) (k : Kernel) : State :=
  let fin := k.final
  let rec_ := k.launch.complrec
  let s :=
    if rec_ = 0 then s
    else
      let s := hubVwrite s k.ctx (rec_.toNat + 4) (fun _ => completionBytes kid k s.clk) 60 (kidWord kid) rec_
      hubVwrite s k.ctx rec_.toNat (fun _ => leBytes (2 ^ 31 + fin.code) 4) 4 (kidWord kid) rec_
  let s := if k.launch.donebar = 0 then s
    else hubArrive s k.ctx (kidWord kid) k.launch.donebar k.endCode (BitVec.ofNat 32 k.retired) rec_
  let s := setKernel s kid { k with state := fin, tend := s.clk, entryHeld := false }
  let s := modCtx s k.ctx fun c => { c with acct := { c.acct with kernels := c.acct.kernels + 1 } }
  let mine := (s.groups.filter fun g => decide (g.2.kid = kid)).map (·.1)
  let s := modCtx s k.ctx fun c => { c with swapped := c.swapped.filter fun e => !mine.contains e.1 }
  settleCtx { s with
    groups := s.groups.filter fun g => g.2.kid ≠ kid
    warps := s.warps.filter fun w => !mine.contains w.2.gid } k.ctx

/-- What the hub owes at a kernel's or a group's end lies across a retraining link: the record, the barrier cell (14 R315). -/
def endHeld (s : State) (ctx : Nat) (l : Launch) : Bool :=
  (decide (l.complrec ≠ 0) && hubHeld s ctx l.complrec.toNat) || (decide (l.donebar ≠ 0) && cellHeld s ctx l.donebar)

/-- The kernels of the context may go on in the hub: no fault, teardown or thermal stop has ended its work (03 R62, 21 R476). -/
def entriesRun (s : State) (c : Context) : Bool :=
  queuesRun s c || (decide (s.start.state = .ready) && decide (c.state = .suspended))

/-- ENTRY_CHECK: a queued kernel takes a free table entry, in the order of acceptance, and its entry handle is checked (R90, R92). One
whose failerr wait found its barrier in error fails at once (04 R81). -/
def execEntryCheck (kid : Nat) (s : State) : Out :=
  match getKernel s kid with
  | none => notDue "ENTRY_CHECK"
  | some k =>
    match getCtx s k.ctx with
    | none => notDue "ENTRY_CHECK"
    | some c =>
      if k.state ≠ .queued ∨ !entriesRun s c ∨ endHeld s k.ctx k.launch then notDue "ENTRY_CHECK"
      else if k.qdep then .next (finishKernel s kid { k with code := Code.qdep })
      else
        let age (i : Nat) : Nat := (i + 2 ^ 32 - s.nextKid.toNat) % 2 ^ 32
        let runs (c : Nat) : Bool := match getCtx s c with | some c => entriesRun s c | none => false
        if s.kernels.any (fun e => decide (e.2.state = .queued) && !e.2.qdep && decide (age e.1 < age kid) && runs e.2.ctx) ∨
            4096 ≤ (s.kernels.filter fun e => e.2.entryHeld).length then notDue "ENTRY_CHECK"
        else
          match c.segs[wbits k.launch.entry 30 26]? with
          | some g =>
            if g.valid then .next (setKernel s kid { k with state := .waiting, entryHeld := true, since := s.clk, aged := 0 })
            else .next (finishKernel s kid { k with code := Code.segInvalid, entryHeld := true })
          | none => .next (finishKernel s kid { k with code := Code.segInvalid, entryHeld := true })

/-! ### Drains (06 R114, R115, 05 R93) -/

/-- No frame of the group's warps, no copy, command or store of it is left; arrivals at a step or at the group barrier may be. -/
def drained (s : State) (gid : Nat) : Bool :=
  (warpsOf s gid).all (fun e => e.2.frame.isNone && decide (e.2.barq = [])) &&
  !(s.copies.any fun e => decide (e.2.gid = gid)) &&
  !(s.jobs.any fun e => decide (e.2.gid = gid) && (match e.2.job with | .stepArrive .. | .gbarArrive => false | _ => true))

def dropArrivals (s : State) (gid : Nat) : State := { s with jobs := s.jobs.filter fun e => e.2.gid ≠ gid }

/-- A group leaves its cores for good: its warps and contents go. -/
def freeGroup (s : State) (gid : Nat) (st : GState) : State :=
  let s := { s with warps := s.warps.filter fun w => w.2.gid ≠ gid }
  modGroup (dropArrivals s gid) gid fun g => { g with
    state := st, spad := [], spois := [], regions := [], cores := [], arrived := 0, savedAt := none }

/-- A link the group's retirement needs is down: its own die's, or one that its drain lost work to (14 R316, R317). -/
def retireLost (s : State) (g : Group) : Bool := g.lost || g.cores.any fun c => linkDown s (dieOf c)

/-- The context of the group is not being saved or ended; while it is, its groups are not retired or halted but by that. -/
def ctxOf (s : State) (g : Group) : Option Context := getCtx s g.ctx

/-- The bit of a retired group (R94). -/
def setBit (g : Nat) (bs : List Byte) : List Byte := bs.map fun b => b ||| BitVec.ofNat 8 (2 ^ (g % 8))

/-- GROUP_RETIREMENT: every warp has ended, the drain is complete and every store of the group has performed at device scope, S-class ones
by their write-backs (09 R193); the hub sets the group's bit. With the last one the kernel enters draining (R91). -/
def execGroupRetirement (gid : Nat) (s : State) : Out :=
  match getGroup s gid with
  | none => notDue "GROUP_RETIREMENT"
  | some g =>
    if g.state ≠ .retiring ∨ !drained s gid then notDue "GROUP_RETIREMENT"
    else if g.cores.any fun c => linkHeld s (dieOf c) then notDue "GROUP_RETIREMENT"
    else if retireLost s g then
      let s := failKernel s g.kid Code.linkLost (BitVec.ofNat 32 g.rank) 0
      .next (settleCtx (freeGroup s gid .halted) g.ctx)
    else if owes s (.group gid) || (warpsOf s gid).any (fun e => owes s (.warp e.1)) then notDue "GROUP_RETIREMENT"
    else
      match getKernel s g.kid with
      | none => .next (freeGroup s gid .retired)
      | some k =>
        let rec_ := k.launch.complrec
        if rec_ ≠ 0 ∧ hubHeld s g.ctx (rec_.toNat + 64 + g.rank / 8) then notDue "GROUP_RETIREMENT" else
        let s := if rec_ = 0 ∨ workLost s then s
          else hubVwrite s g.ctx (rec_.toNat + 64 + g.rank / 8) (setBit g.rank) 1 (kidWord g.kid) rec_
        let s := modKernel s g.kid fun k =>
          let n := k.retired + 1
          { k with retired := n, state := if k.state = .running ∧ n = k.launch.groups.toNat then .draining else k.state }
        .next (settleCtx (freeGroup s gid .retired) g.ctx)

/-- GROUP_HALT_COMPLETE: a halting group has drained, its dump, if any, written; its resources are freed and its bit stays clear (R93). -/
def execGroupHaltComplete (gid : Nat) (s : State) : Out :=
  match getGroup s gid with
  | none => notDue "GROUP_HALT_COMPLETE"
  | some g =>
    if g.state ≠ .halting ∨ !drained s gid ∨ g.dump.isSome then notDue "GROUP_HALT_COMPLETE"
    else .next (settleCtx (freeGroup s gid .halted) g.ctx)

/-- KERNEL_COMPLETION: a draining kernel with no group still on cores (R92, R95). In a teardown its fourth step completes it (03 R72). -/
def execKernelCompletion (kid : Nat) (s : State) : Out :=
  match getKernel s kid with
  | none => notDue "KERNEL_COMPLETION"
  | some k =>
    let torn : Bool := match getCtx s k.ctx with | some c => decide (c.state = .tornDown) | none => true
    if k.state ≠ .draining ∨ torn ∨ s.groups.any (fun g => decide (g.2.kid = kid) && g.2.placed) ∨ endHeld s k.ctx k.launch then notDue "KERNEL_COMPLETION"
    else .next (finishKernel s kid k)

end Sys2Proof.Machine
end

