-- ==== Sys2Proof/Machine/Command.lean ====
section
/-!
DEFINITION. The management function (14 R323 to R331): the register writes of R324, the command ring and the taking of an entry (R325),
completions (R326), and what every command shares: R327's refusals, the wait behind a save or teardown (03 R61), buffers.
-/
namespace Sys2Proof.Machine

/-! ### Completions (R326, R327) -/

/-- A command completes: its completion is owed, in order. -/
def complete (s : State) (tag : Word) (code status : Nat) (result : DWord) : State :=
  { s with mgmt := { s.mgmt with cpl := s.mgmt.cpl ++ [(tag, code, status, result)] } }

/-- Completion entry k lies at CPLBASE + 16 × (k mod 2^CPLSIZE). -/
def cplAddr (m : Mgmt) : Nat := m.cplbase.toNat + 16 * (m.cplwr.toNat % 2 ^ m.cplsize.toNat)

def cplRoom (m : Mgmt) : Bool := decide ((m.cplwr - m.cplrd).toNat + 1 ≤ 2 ^ m.cplsize.toNat)

/-! ### What commands share (R327, 03 R61) -/

/-- The command of a wrong argument completes with nothing changed. -/
def refuse (s : State) (tag : Word) (code status : Nat) : Out := .next (complete s tag code status 0)

/-- A command finishes with status 0. -/
def finish (s : State) (tag : Word) (code : Nat) : Out := .next (complete s tag code 0 0)

/-- A command that names a context (R327): behind a save or teardown one waits, any other completes with CTX_PENDING; one that the
context's state does not allow completes with CTX_STATE. A free context number has no entry. -/
def onContext (m : String) (i : Instr) (tag : Word) (ctx : BitVec 8) (s : State) (ok : CtxState → Bool) (f : Option Context → Out) : Out :=
  let code := commandCode i
  if s.start.state ≠ .ready then notDue m
  else
    match getCtx s ctx.toNat with
    | none => if ok .free then f none else refuse s tag code Code.ctxState
    | some c =>
      if c.leaving.isSome then
        if c.waiting.isSome then refuse s tag code Code.ctxPending
        else .next (setCtx s ctx.toNat { c with waiting := some i })
      else if ok c.state then f (some c)
      else refuse s tag code Code.ctxState

/-- The states in which a context's descriptor is valid and its work may be acted on (log 46). -/
def CtxState.live : CtxState → Bool
  | .ready | .resident | .suspended | .faulted => true
  | _ => false

/-- A module command (R327): its context field must be zero. -/
def onModule (m : String) (i : Instr) (tag : Word) (ctx : BitVec 8) (s : State) (f : Out) : Out :=
  if s.start.state ≠ .ready then notDue m
  else if ctx ≠ 0 then refuse s tag (commandCode i) Code.mgmtConf
  else f

/-- A buffer is physical, 64-byte aligned and of n bytes within one window (R328). -/
def bufferOk (s : State) (buf : DWord) (n : Nat) : Bool := decide (buf.toNat % 64 = 0) && inOneWindow s buf.toNat n

/-! ### Register writes (R324, R325) -/

/-- A write of a management register; in failed only START, the identity record and the DOE mailbox respond (21 R468), and it is ignored. -/
def mgmtWrite (s : State) (f : Mgmt → Mgmt) : Out :=
  if s.start.state = .failed then .next s else .next { s with mgmt := f s.mgmt }

/-- CMDWR_WRITE: accepted under R325, or ignored with MERR [0]. -/
def execCmdwrWrite (v : Word) (s : State) : Out :=
  mgmtWrite s fun m =>
    if m.cmdctl ∧ v ≠ m.cmdwr ∧ (v - m.cmdrd).toNat ≤ 2 ^ m.cmdsize.toNat then { m with cmdwr := v } else { m with merr := m.merr ||| 1 }

/-- CMDCTL_WRITE. -/
def execCmdctlWrite (v : Word) (s : State) : Out := mgmtWrite s fun m => { m with cmdctl := v.getLsbD 0 }
/-- CPLRD_WRITE. -/
def execCplrdWrite (v : Word) (s : State) : Out := mgmtWrite s fun m => { m with cplrd := v }
/-- EVCTL_WRITE. -/
def execEvctlWrite (v : Word) (s : State) : Out := mgmtWrite s fun m => { m with evctl := v.getLsbD 0 }
/-- EVRD_WRITE. -/
def execEvrdWrite (v : Word) (s : State) : Out := mgmtWrite s fun m => { m with evrd := v }
/-- EVLOST_CLEAR: any write clears. -/
def execEvlostClear (s : State) : Out := mgmtWrite s fun m => { m with evlost := 0 }
/-- MERR_CLEAR: a bit written 1 clears. -/
def execMerrClear (v : Word) (s : State) : Out := mgmtWrite s fun m => { m with merr := m.merr &&& ~~~(v.extractLsb' 0 2) }
/-- SMPRD_WRITE (18 R453). -/
def execSmprdWrite (v : Word) (s : State) : Out := mgmtWrite s fun m => { m with smprd := v }

/-- A ring base is 4 KiB aligned; its low bits are taken as zero (log 43). -/
def ringBase (v : DWord) : DWord := BitVec.ofNat 64 (v.toNat / 4096 * 4096)

def sizeOk (v : Word) (top : Nat) : Bool := decide (4 ≤ v.toNat) && decide (v.toNat ≤ top)

/-- A write of a base or size register of BAR0, or of a register that ignores writes. -/
def bar0Write (off : Nat) (v : DWord) (m : Mgmt) : Mgmt :=
  let merr := { m with merr := m.merr ||| 1 }
  let w := lo32 v
  match off with
  | 0x01000 => if m.cmdctl then merr else { m with cmdbase := ringBase v }
  | 0x01008 => if m.cmdctl ∨ !sizeOk w 12 then merr else { m with cmdsize := w }
  | 0x01020 => if m.cmdctl then merr else { m with cplbase := ringBase v }
  | 0x01028 => if m.cmdctl ∨ !sizeOk w 12 then merr else { m with cplsize := w }
  | 0x01040 => if m.evctl then merr else { m with evbase := ringBase v }
  | 0x01048 => if m.evctl ∨ !sizeOk w 16 then merr else { m with evsize := w }
  | _ => m

/-- A write of QBASE or QSIZE, accepted while the queue is disabled, or of QCTL with its enable bit unchanged (04 R74). Registers that
are read only, and offsets not listed, ignore writes. -/
def bar2Write (s : State) (ctx q reg : Nat) (v : DWord) : State :=
  match pageCtx s ctx with
  | none => s
  | some c =>
    let x := getQ c q
    match reg with
    | 0x00 => if x.enabled then setErr s ctx q x else setQ s ctx q { x with base := ringBase v }
    | 0x08 => if x.enabled ∨ !sizeOk (lo32 v) 16 then setErr s ctx q x else setQ s ctx q { x with size := lo32 v }
    | 0x0C => setQ s ctx q { x with devctl := v.getLsbD 2, devfed := v.getLsbD 1 }
    | _ => s

/-! ### What the host reads in BAR0 (R324) -/

/-- START as it reads (21 R467). -/
def Start.word (x : Start) : Word :=
  BitVec.ofNat 32 (x.result.toNat * 2 ^ 24 + x.state.code * 2 ^ 16 + x.ignored.toNat * 2 ^ 8 + x.clear.toNat * 4 + x.warm.toNat * 2)

/-- The part code in ASCII, padded with zeros. -/
def partCode (is768 : Bool) : List Byte :=
  if is768 then [0x47, 0x57, 0x2D, 0x48, 0x4E, 0x37, 0x2D, 0x37, 0x36, 0x38, 0, 0, 0, 0, 0, 0]
  else [0x47, 0x57, 0x2D, 0x48, 0x4E, 0x37, 0x2D, 0x31, 0x30, 0x32, 0x34, 0, 0, 0, 0, 0]

/-- The identity record (21 R473): the installed capacity is 64 GiB a stack (01 R19). -/
def Ident.bytes (x : Ident) : List Byte :=
  partCode x.is768 ++ leBytes x.serial.toNat 8 ++ leBytes ((hbmStacks x.is768).foldl (fun n k => n + 2 ^ k) 0) 4
    ++ leBytes (stackCount x.is768 * 64) 4 ++ leBytes x.version.toNat 4 ++ List.replicate 28 0

/-- The management registers as they read; an offset not listed reads as zero. -/
def Mgmt.readWord (m : Mgmt) : Nat → Word
  | 0x01000 => lo32 m.cmdbase
  | 0x01004 => hi32 m.cmdbase
  | 0x01008 => m.cmdsize
  | 0x0100C => BitVec.ofNat 32 m.cmdctl.toNat
  | 0x01010 => m.cmdwr
  | 0x01014 => m.cmdrd
  | 0x01020 => lo32 m.cplbase
  | 0x01024 => hi32 m.cplbase
  | 0x01028 => m.cplsize
  | 0x0102C => m.cplwr
  | 0x01030 => m.cplrd
  | 0x01040 => lo32 m.evbase
  | 0x01044 => hi32 m.evbase
  | 0x01048 => m.evsize
  | 0x0104C => BitVec.ofNat 32 m.evctl.toNat
  | 0x01050 => m.evwr
  | 0x01054 => m.evrd
  | 0x01058 => m.evlost
  | 0x01060 => m.smpwr
  | 0x01064 => m.smprd
  | 0x01068 => m.merr.setWidth 32
  | _ => 0

/-- The word a host read of BAR0 finds at an offset. In failed what does not respond reads as zero (log 100). -/
def bar0Read (s : State) (off : Nat) : Word :=
  if off = 0x00100 then s.start.word
  else if 0x00200 ≤ off ∧ off < 0x00240 then word4 ((s.ident.bytes.drop (off - 0x00200)).take 4)
  else if s.start.state = .failed then 0
  else if off = 0 then 0x00010000
  else s.mgmt.readWord off

/-! ### Taking a command (R325) -/

/-- The codes of the commands that name a context (R328). -/
def namesCtx (code : Nat) : Bool := decide (code < 0x12) || (decide (0x30 ≤ code) && decide (code < 0x40))

/-- A command taken waits for a retraining link. -/
def park (s : State) (ctx : Option Nat) (i : Instr) : State := { s with mgmt := { s.mgmt with pending := s.mgmt.pending ++ [(ctx, i)] } }

/-- A command of the context waits already: commands that name one context begin in ring order (R327). -/
def parked (s : State) (code ctx : Nat) : Bool := namesCtx code && s.mgmt.pending.any fun p => decide (p.1 = some ctx)

/-- A command that reads or writes back memory itself begins when no die link that it may cross is retraining (R315); others go on beside it. -/
def heldCommand (s : State) (ctx : Option (BitVec 8)) (i : Instr) (f : Out) : Out :=
  if s.start.state = .ready ∧ anyHeld s then .next (park s (ctx.map (·.toNat)) i) else f

/-- The entry the hub takes next, if the ring is enabled, holds one and it can be read: across a retraining link it waits (R313). -/
def headCommand (s : State) : Option (List Word) :=
  let m := s.mgmt
  let a := m.cmdbase.toNat + 64 * (m.cmdrd.toNat % 2 ^ m.cmdsize.toNat)
  if s.start.state = .ready ∧ m.cmdctl ∧ m.cmdwr ≠ m.cmdrd ∧ hubCan s a 64 ∧ !spanHeld s a 64 then some (wordsOf (s.mem.bytes a 64)) else none

/-- The hub takes the entry: CMDRD advances, and the command begins; an unassigned code, or a nonzero field that is zero, completes with
MGMT_CONF (R327). -/
def takeCommand (s : State) : Option (State × Option Instr) :=
  match headCommand s with
  | none => none
  | some ws =>
    let op := ws.getD 0 0
    let tag := ws.getD 1 0
    let s := { s with mgmt := { s.mgmt with cmdrd := s.mgmt.cmdrd + 1 } }
    match decodeCommand (wbits op 15 0) (BitVec.ofNat 8 (wbits op 23 16)) tag (ws.drop 2) with
    | some i =>
      if wbits op 31 24 = 0 then
        if parked s (wbits op 15 0) (wbits op 23 16) then some (park s (some (wbits op 23 16)) i, none) else some (s, some i)
      else some (complete s tag (wbits op 15 0) Code.mgmtConf 0, none)
    | none => some (complete s tag (wbits op 15 0) Code.mgmtConf 0, none)

end Sys2Proof.Machine
end

