-- ==== Sys2Proof/Machine/Record.lean ====
section
/-!
DEFINITION. The records of the save area and of a dump (03 R63 to R65, R69): their bytes, with the poison each carries, and their writing
to physical memory; and a warp read back from its record (18 R444).
-/
namespace Sys2Proof.Machine

/-- A byte of a record and whether it is poisoned (R69). -/
abbrev RByte := Byte × Bool

def clean (bs : List Byte) : List RByte := bs.map fun b => (b, false)
def recWord (w : Word) (bad : Bool) : List RByte := (leBytes w.toNat 4).map fun b => (b, bad)
def recWords (ws : List Word) : List RByte := clean (bytesOfWords ws)

/-- n bytes the spec gives no contents (log 9): free, from an offset on. -/
def openBytes (s : State) (off n : Nat) : List RByte := clean ((List.range n).map fun k => Config.freeByte s.tick (off + k))

/-- The 16-byte record header (R64). -/
def recHead (kind len : Nat) (a b : Word) : List RByte :=
  recWords [BitVec.ofNat 32 (kind * 2 ^ 24), BitVec.ofNat 32 len, a, b]

/-! ### The warp record (R65) -/

def Warp.waitKind (w : Warp) : Nat :=
  match w.state with
  | .faultWait => 2
  | .stopped => 3
  | _ => match w.wait with | .none | .yield _ => 0 | _ => 1

/-- The wait operand (R65), its fields in the order the rule names them, one word for all but the address; what they leave is open (log 9). -/
def Warp.waitWords (w : Warp) : List Word :=
  match w.wait with
  | .bar cell phase => [lo32 cell, hi32 cell, phase.setWidth 32]
  | .step num _ _ => [BitVec.ofNat 32 num]
  | .waitc p t => [(ClsCw.toBits p).setWidth 32, t]
  | _ => []

/-- Word 0x060. -/
def Warp.flagWord (w : Warp) : Word :=
  let atMap := match w.trap with | some t => t.atMap | none => false
  BitVec.ofNat 32 (w.kclass * 64 + atMap.toNat * 32 + w.redo.isSome.toNat * 16 + w.trap.isSome.toNat * 8 + w.prefetched.isSome.toNat)

/-- Bit k of a lane's predicate bytes holds pk. -/
def predLane (w : Warp) (l : Nat) : Nat :=
  (List.range 64).foldl (fun n k => if (preg w k).getLsbD l then n + 2 ^ k else n) 0

/-- The register number that holds pk's poison, lane by lane (Machine/Commit.lean). -/
def predBad (w : Warp) (l : Nat) : Bool := (List.range 64).any fun k => w.vpois.contains ((256 + k) * 32 + l)

def recPreds (w : Warp) : List RByte := lanes32.flatMap fun l => (leBytes (predLane w l) 8).map fun b => (b, predBad w l)
def recScalars (w : Warp) : List RByte := (List.range 384).flatMap fun r => recWord (sreg w r) (w.spois.contains r)
def recVectors (w : Warp) : List RByte :=
  (List.range (8 * w.gran)).flatMap fun r => lanes32.flatMap fun l => recWord (vreg w r l) (w.vpois.contains (r * 32 + l))

/-- The trap's resume handle and mask; open with no trap. -/
def recTrap (s : State) (w : Warp) : List RByte :=
  match w.trap with
  | some t => recWords [t.handle, t.mask]
  | none => openBytes s 0x64 8

/-- Votes, targets and join handle of a redo; open with none due. -/
def recRedo (s : State) (w : Warp) : List RByte :=
  match w.redo with
  | some r => recWords (r.votes ++ ((r.targets.zip r.ends).map fun t => if t.2 then 0x7FFFFFFF else t.1) ++ [r.join])
  | none => openBytes s 0x70 36

def Warp.recordLen (w : Warp) : Nat := 2048 + w.gran * 1024

/-- The whole record of a warp. -/
def warpRecord (s : State) (w : Warp) : List RByte :=
  recHead 2 w.recordLen (kidWord w.kid) (rankWord s w.gid) ++
  recWords [w.handle, w.mask, w.ssp, w.deadm, lo32 w.splb, hi32 w.splb, w.fpfl, lo32 w.trapinf, hi32 w.trapinf,
    BitVec.ofNat 32 w.cls, BitVec.ofNat 32 w.gran, BitVec.ofNat 32 w.waitKind] ++
  recWords w.waitWords ++ openBytes s (0x40 + 4 * w.waitWords.length) (16 - 4 * w.waitWords.length) ++
  recWords [BitVec.ofNat 32 w.cntD.length, BitVec.ofNat 32 w.cntX.length, BitVec.ofNat 32 w.cntK.length] ++
  openBytes s 0x5C 4 ++ recWords [w.flagWord] ++ recTrap s w ++ recWords [0] ++ recRedo s w ++
  clean (List.replicate 108 0) ++ recPreds w ++ recScalars w ++ recVectors w

/-! ### The other records (R64) -/

/-- The group record: its contents in the order R64 names them, each count a word, the descriptors eight words each (10 R205), the group
barrier's arrivals and whether gstop has ended the group a word each; the rest is open (log 9). -/
def groupRecord (s : State) (g : Group) : List RByte :=
  recHead 1 1024 (kidWord g.kid) (BitVec.ofNat 32 g.rank) ++
  recWords ([BitVec.ofNat 32 g.W, BitVec.ofNat 32 g.C] ++ (List.range 8).flatMap (fun k => (getRegion g k).words k) ++
    [BitVec.ofNat 32 g.S, BitVec.ofNat 32 g.stopped.toNat, BitVec.ofNat 32 g.arrived]) ++ openBytes s 0x124 732

/-- One core's share of the group scratchpad. -/
def spadRecord (g : Group) (core : Nat) : List RByte :=
  recHead 3 (16 + g.S) (kidWord g.kid) (BitVec.ofNat 32 g.rank) ++
  (List.range g.S).map fun k => (spadByte g (core * 2 ^ 19 + k), g.spois.contains ((core * 2 ^ 19 + k) / 4))

def endRecord : List RByte := recHead 0 16 0 0

/-- Warps of a group that have not ended, by rank. -/
def rankedPairs (s : State) (gid W : Nat) : List (Nat × Warp) :=
  (List.range W).filterMap fun r => (warpsOf s gid).find? fun e => decide (e.2.rank = r) && decide (e.2.state ≠ .ended)

def rankedWarps (s : State) (gid W : Nat) : List Warp := (rankedPairs s gid W).map (·.2)

/-- The records of a group: its own, its warps', its scratchpad's by core rank. -/
def groupRecords (s : State) (gid : Nat) (g : Group) : List (List RByte) :=
  [groupRecord s g] ++ (rankedWarps s gid g.W).map (warpRecord s) ++ (List.range g.C).map (spadRecord g)

/-! ### Writing -/

/-- Bytes of a record rounded up to the next multiple of 64. -/
def round64 (n : Nat) : Nat := (n + 63) / 64 * 64

/-- Write record bytes sector by sector; a sector with a poisoned byte is marked (R69, 18 R440). -/
def putMarked (s : State) (pa : Nat) : Nat → List RByte → State
  | 0, _ => s
  | n + 1, bs =>
    match bs with
    | [] => s
    | _ =>
      let c := bs.take 32
      putMarked (hubOwed s pa (c.map (·.1)) (c.any (·.2))) (pa + 32) n (bs.drop 32)

/-- Write a record, and charge its bytes to the context (R58). -/
def putRecord (s : State) (ctx pa : Nat) (r : List RByte) : State := putMarked (hubUse s ctx pa r.length) pa (r.length + 1) r

/-- The first address, by sectors, at which n bytes cannot be written, if any: outside every window, behind a down link, or in a sector that an
uncorrectable error has hit and of which only a part is written (18 R440, R452). -/
def writeFault (s : State) (pa n : Nat) : Option Nat :=
  ((List.range ((n + 31) / 32)).map fun k => pa + 32 * k).find? fun a =>
    let len := min 32 (pa + n - a)
    !hubCan s a len || (decide (len < 32) && poisonedAt s a len)

/-- Write records packed from an address, each 64-byte aligned; false at the first that cannot be written, which is counted where a link lost it
(14 R319). -/
def putRecords (s : State) (ctx pa : Nat) : List (List RByte) → State × Bool
  | [] => (s, true)
  | r :: rs =>
    match writeFault s pa r.length with
    | none => putRecords (putRecord s ctx pa r) ctx (pa + round64 r.length) rs
    | some a => (countLoss s a, false)

/-- The 4 KiB header of the save area (R64). -/
def putHeader (s : State) (ctx base count : Nat) : State :=
  hubOwedFor s ctx base (bytesOfWords [0x48435458, BitVec.ofNat 32 count, 4096] ++ List.replicate 4084 0)

/-- Smallest savesize (R63), in bytes. -/
def CtxDesc.saveMin (d : CtxDesc) : Nat := (4 + d.corebud * 1088 + d.pairlim * 193) * 1024

/-! ### A warp read back (18 R444) -/

/-- Words of a record read from memory, with poison by byte. -/
structure RecIn where
  bytes : List Byte
  bad   : Nat → Bool

def RecIn.word (r : RecIn) (off : Nat) : Word := word4 ((r.bytes.drop off).take 4)
def RecIn.dword (r : RecIn) (off : Nat) : DWord := r.word (off + 4) ++ r.word off

/-- A counter set to n: an operation in flight beyond n is no longer counted; a count without an operation stays (log 48). -/
def setCounter (l : List (Nat × Bool)) (n : Nat) : List (Nat × Bool) :=
  l.drop (l.length - n) ++ List.replicate (n - l.length) (0, false)

def markBit (l : List Nat) (k : Nat) (bad : Bool) : List Nat := if bad then nins l k else l.filter (· ≠ k)

def loadScalars (r : RecIn) (w : Warp) : Warp :=
  (List.range 384).foldl (fun w k =>
    { setS w k (r.word (0x200 + 4 * k)) with spois := markBit w.spois k (r.bad (0x200 + 4 * k)) }) w

def loadVectors (r : RecIn) (w : Warp) : Warp :=
  (List.range (8 * w.gran * 32)).foldl (fun w k =>
    { setV w (k / 32) (k % 32) (r.word (0x800 + 4 * k)) with vpois := markBit w.vpois k (r.bad (0x800 + 4 * k)) }) w

def loadPreds (r : RecIn) (w : Warp) : Warp :=
  (List.range 64).foldl (fun w k =>
    let w := setP w k (maskOf fun l => (r.dword (0x100 + 8 * l)).getLsbD k)
    { w with vpois := lanes32.foldl (fun v l => markBit v ((256 + k) * 32 + l) (r.bad (0x100 + 8 * l))) w.vpois }) w

def trapOfCode (n : Nat) : Option TrapCode :=
  [TrapCode.splitSpill, .splitFill, .svc, .clipped].find? fun c => decide (c.num = n)

/-- The trap and the redo that the flags of 0x060 say are active; bit 31 of their handles is kept (log 116). -/
def loadTrap (r : RecIn) (w : Warp) : Warp :=
  let fl := r.word 0x60
  let trap : Option Trap :=
    if fl.getLsbD 3 then (trapOfCode (wbits (r.word 0x30) 31 24)).map fun c => ⟨c, r.word 0x64, r.word 0x68, fl.getLsbD 5⟩ else none
  let four (off : Nat) : List Word := (List.range 4).map fun k => r.word (off + 4 * k)
  let push := match w.redo with | some x => x.push | none => none
  let old (k : Nat) : Bool := match w.redo with | some x => decide (x.targets.getD k 0 = endHandle) && !x.ends.getD k true | none => false
  let ends := (four 0x80).zipIdx.map fun t => decide (t.1 = endHandle) && !old t.2
  let redo : Option Redo := if fl.getLsbD 4 then some ⟨four 0x70, four 0x80, ends, r.word 0x90, push⟩ else none
  { w with trap := trap, redo := redo, prefetched := if fl.getLsbD 0 then some w.handle else none }

/-- A stopped warp written from a record: the class, granule count and wait fields are ignored (R444), and the zero fields of the registers
read as zero (00 R3). -/
def loadWarp (r : RecIn) (w : Warp) : Warp :=
  let w := { w with
    handle := r.word 0x10 &&& 0x7FFFFFFF
    mask := r.word 0x14
    ssp := BitVec.ofNat 32 (wbits (r.word 0x18) 31 16 * 2 ^ 16 + min (wbits (r.word 0x18) 4 0) 16)
    deadm := r.word 0x1C
    splb := BitVec.ofNat 64 ((r.dword 0x20).toNat / 64 * 64)
    fpfl := BitVec.ofNat 32 ((r.word 0x28).toNat % 64)
    trapinf := r.dword 0x2C &&& 0xFFFFF0007FFFFFFF
    cntD := setCounter w.cntD ((r.word 0x50).toNat % 4096)
    cntX := setCounter w.cntX ((r.word 0x54).toNat % 4096)
    cntK := setCounter w.cntK ((r.word 0x58).toNat % 4096)
    image := none
    matched := false }
  loadVectors r (loadScalars r (loadPreds r (loadTrap r w)))

/-! ### A group read back (R67, R69, R71) -/

/-- Records packed from an address, each with its place. -/
def recPlaces (pa : Nat) : List (List RByte) → List (Nat × List RByte)
  | [] => []
  | r :: rs => (pa, r) :: recPlaces (pa + round64 r.length) rs

/-- A record can be read back: its bytes are within reach, and no sector of it is poisoned that holds no value saved with poison (an
uncorrectable error in the save area, 18 R439). -/
def recSound (s : State) (p : Nat × List RByte) : Bool :=
  hubCan s p.1 p.2.length &&
  (List.range ((p.2.length + 31) / 32)).all fun k =>
    !poisonedAt s (p.1 + 32 * k) 32 || ((p.2.drop (32 * k)).take 32).any (·.2)

/-- The hub reads records back for a context (R58). -/
def readRecords (s : State) (ctx : Nat) (ps : List (Nat × List RByte)) : State := ps.foldl (fun s p => hubUse s ctx p.1 p.2.length) s

/-- A record in memory; a value saved with poison has it still while its sector is marked (R69). -/
def recBack (s : State) (p : Nat × List RByte) : RecIn :=
  ⟨s.mem.bytes p.1 p.2.length, fun k => poisonedAt s (p.1 + k) 1 && (p.2.getD k (0, false)).2⟩

/-- A wait with its operand from the record; what the warp waits on, and the definition of the region, are the hub's (log 9). -/
def restoreWait (r : RecIn) : Wait → Wait
  | .bar _ _ => .bar (r.dword 0x40) ((r.word 0x48).setWidth 4)
  | .step num gen k => if (r.word 0x40).toNat < 8 then .step (r.word 0x40).toNat gen k else .step num gen k
  | .waitc p _ => .waitc ((ClsCw.ofBits ((r.word 0x40).setWidth 3)).getD p) (r.word 0x44)
  | x => x

/-- A warp from its record; its granules, the state its wait kind tells of and what it waits on are the hub's (log 9). A lane's predicates
stand in one dword: of those of a poisoned one, the ones saved with poison have it (R69). -/
def restoreWarp (r : RecIn) (w : Warp) : Warp :=
  let x := loadWarp r w
  { x with
    handle := r.word 0x10
    cls := if 2 < (r.word 0x34).toNat then w.cls else (r.word 0x34).toNat
    kclass := if wbits (r.word 0x60) 7 6 = 3 then w.kclass else wbits (r.word 0x60) 7 6
    wait := restoreWait r w.wait
    vpois := x.vpois.filter fun k => decide (k < 8192) || w.vpois.contains k
    matched := w.matched }

/-- A group from its group record: the descriptors and the barrier-wait state; its shape is its kernel's. -/
def restoreShape (r : RecIn) (g : Group) : Group :=
  { g with
    regions := g.regions.zipIdx.map fun e => e.1.ofWords ((List.range 8).map fun j => r.word (0x18 + 32 * e.2 + 4 * j))
    stopped := (r.word 0x11C).getLsbD 0
    arrived := (r.word 0x120).toNat }

/-- One core's share of the scratchpad from its record. -/
def restoreShare (r : RecIn) (core : Nat) (g : Group) : Group :=
  let base := core * 2 ^ 19
  let old := g.spois.filter fun k => decide (base ≤ 4 * k) && decide (4 * k < base + g.S)
  let g := spadWrite g base (r.bytes.drop 16)
  { g with spois := (old.filter fun k => r.bad (16 + (4 * k - base))).foldl nins g.spois }

/-- A saved group from its records; none where one cannot be read, a context fault (R62, 14 R318). -/
def restoreGroup (s : State) (gid : Nat) (g : Group) : Option State :=
  match g.savedAt with
  | none => some s
  | some pa =>
    let ps := recPlaces pa (groupRecords s gid g)
    if !ps.all (recSound s) then none
    else
      let ws := rankedPairs s gid g.W
      let t := (ws.zip (ps.drop 1)).foldl (fun t e => setWarp t e.1.1 (restoreWarp (recBack s e.2) e.1.2)) (readRecords s g.ctx ps)
      let shares := (List.range g.C).zip (ps.drop (1 + ws.length))
      let g0 (g : Group) : Group := match ps.head? with | some p => restoreShape (recBack s p) g | none => g
      let back (g : Group) : Group := shares.foldl (fun g e => restoreShare (recBack s e.2) e.1 g) (g0 g)
      some (modGroup t gid fun g => { back g with savedAt := none })

/-- A warp of a saved group as its record has it, with the record's place. -/
def savedWarp (s : State) (wid : Nat) (w : Warp) : Option (Nat × Warp) :=
  match getGroup s w.gid with
  | none => none
  | some g =>
    match g.savedAt with
    | none => none
    | some pa =>
      let ps := (rankedPairs s w.gid g.W).zip ((recPlaces pa (groupRecords s w.gid g)).drop 1)
      (ps.find? fun e => decide (e.1.1 = wid)).map fun e => (e.2.1, if recSound s e.2 then restoreWarp (recBack s e.2) w else w)

end Sys2Proof.Machine
end

