-- ==== Sys2Proof/Machine/Fabric.lean ====
section
/-!
DEFINITION. Graph images (13 R288 to R290, R483): their reading on the G path, the records parsed, the placement of Finaris macros (R300), where
the ports of elements lead (R273, R275, R276, R465), and the first of gload's checks: GRAPH_IMAGE and LATENCY (R291, R292).
-/
namespace Sys2Proof.Machine

/-! ### Reading on the G path (09 R181, R185) -/

/-- How a fabric access of global memory ends: an address, a fault of translation, an address out of the pages' range (R298), a place
behind a cut link (14 R316), poison (18 R440), a walk behind a cut link, or a wait on the page's walk or a retraining link. -/
inductive GBad where
  | xlat (f : XFault) | range (a : Int) | lost (a : Nat) | poison (a : Nat) | cut | wait
deriving DecidableEq, Repr

/-- What a fabric access answers, with the state its translation and its line leave. -/
abbrev GRes (α : Type) := Except GBad α × State

/-- Translate a fabric access from a die, by the die's TLB or a walk (12 R259, R260). -/
def gXlate (s : State) (ctx die : Nat) (a : Int) (acc : Acc) : GRes (Nat × PageClass) :=
  if a < 0 ∨ 2 ^ 52 ≤ a then (.error (.range a), s)
  else if linkDown s die then (.error (.lost a.toNat), s)
  else
    match agentXlate s none die ctx a.toNat acc with
    | (.bad f, s) => (.error (.xlat f), s)
    | (.cut, s) => (.error .cut, s)
    | (.wait, s) => (.error .wait, s)
    | (.lost, s) => (.error (.lost a.toNat), s)
    | (.ok pa cls _, s) =>
      if !reaches s (some die) pa then (.error (.lost a.toNat), s)
      else if linkHeld s die || crossesHeld s (some die) pa then (.error .wait, s)
      else (.ok (pa, effClass s pa cls), s)

/-- Read n bytes within one sector, as the G path of a die reads them. -/
def gRead (s : State) (ctx die : Nat) (a : Int) (n : Nat) : GRes (List Byte) :=
  match gXlate s ctx die a accRead with
  | (.error e, s) => (.error e, s)
  | (.ok (pa, cls), s) =>
    let ((bs, bad), s) := xRead s die ctx cls pa n
    (if bad then .error (.poison a.toNat) else .ok bs, s)

/-- Read k sectors from a 32-byte aligned address. -/
def gReads (ctx die : Nat) : State → Nat → Nat → GRes (List Byte)
  | s, _, 0 => (.ok [], s)
  | s, va, k + 1 =>
    match gRead s ctx die va 32 with
    | (.error e, s) => (.error e, s)
    | (.ok bs, s) =>
      match gReads ctx die s (va + 32) k with
      | (.error e, s) => (.error e, s)
      | (.ok r, s) => (.ok (bs ++ r), s)

/-- Read n bytes from an 8-byte aligned address, by the sectors that hold them. -/
def gBytes (s : State) (ctx die va n : Nat) : GRes (List Byte) :=
  match gReads ctx die s (va / 32 * 32) ((va + n + 31) / 32 - va / 32) with
  | (.error e, s) => (.error e, s)
  | (.ok bs, s) => (.ok ((bs.drop (va % 32)).take n), s)

/-! ### Fields of records -/

def byteAt (bs : List Byte) (k : Nat) : Nat := (bs.getD k 0).toNat
def halfAt (bs : List Byte) (k : Nat) : Nat := leNat ((bs.drop k).take 2)
def wordAt (bs : List Byte) (k : Nat) : Nat := leNat ((bs.drop k).take 4)
def dwordAt (bs : List Byte) (k : Nat) : Nat := leNat ((bs.drop k).take 8)
def zeros (bs : List Byte) : Bool := bs.all fun b => decide (b = 0)

/-- The fields of an element context word (R279). -/
structure EWord where
  op : Nat
  sa : Nat
  sha : Int
  na : Bool
  sb : Nat
  shb : Int
  nb : Bool
  ports : Nat
  dreg : Nat
  we : Bool
  fold : Nat
  W : Nat
  frac : Nat
  sat : Bool
  marks : Bool
  k : Int
deriving DecidableEq, Repr

def eword (b : BitVec 128) : EWord :=
  let n := b.toNat
  let f (hi lo : Nat) : Nat := bitsOf n hi lo
  { op := f 3 0, sa := f 8 4, sha := sextN (f 14 9) 6, na := b.getLsbD 15, sb := f 20 16, shb := sextN (f 26 21) 6, nb := b.getLsbD 27
    ports := f 31 28, dreg := f 36 32, we := b.getLsbD 37, fold := f 40 38 + 1, W := f 45 41 + 1, frac := f 50 46, sat := b.getLsbD 51
    marks := b.getLsbD 52, k := sextN (f 87 64) 24 }

def ElemRec.w (e : ElemRec) : EWord := eword e.word

/-- pass, relu, abs, addc and cond take one operand. -/
def EWord.single (e : EWord) : Bool := [4, 7, 8, 9, 10].contains e.op
/-- The source codes an op uses. -/
def EWord.srcs (e : EWord) : List Nat := if e.op = 0 then [] else if e.single then [e.sa] else [e.sa, e.sb]

/-- The context word obeys R279, but for source 21's place. -/
def ewordOk (b : BitVec 128) : Bool :=
  let e := eword b
  let n := b.toNat
  if e.op = 0 then decide (n = 0) || decide (n = 2 ^ 52)
  else
    decide (bitsOf n 127 88 = 0) && decide (bitsOf n 63 53 = 0) && [1, 2, 4, 5, 6, 7, 8, 9, 10].contains e.op
      && decide (e.sa ≤ 22) && decide (e.sb ≤ 22) && decide (e.sha ≠ -32) && decide (e.shb ≠ -32)
      && decide (e.dreg ≤ 15) && (e.we || decide (e.dreg = 0))
      && (!e.single || (decide (e.sb = 22) && decide (e.shb = 0) && !e.nb))

/-- A generator block (R483). -/
def genOf (bs : List Byte) : GenRec :=
  { role := byteAt bs 0, arg := byteAt bs 1
    levels := (List.range (byteAt bs 2)).map fun l => (leNat ((bs.drop (8 + 7 * l)).take 3) + 1, sextN (wordAt bs (11 + 7 * l)) 32) }

/-- The block's layout; one whose level count is 0 is unused and all zero. -/
def genOk (bs : List Byte) : Bool :=
  let n := byteAt bs 2
  if n = 0 then zeros bs
  else decide (n ≤ 8) && zeros ((bs.drop 3).take 5) && zeros (bs.drop (8 + 7 * n)) && decide (byteAt bs 0 ≤ 3)
    && decide (byteAt bs 1 ≤ (if byteAt bs 0 = 0 ∨ byteAt bs 0 = 3 then 15 else 0))

/-- The elements of a generator; an unused block has none. -/
def GenRec.total (g : GenRec) : Nat := if g.levels = [] then 0 else (g.levels.map (·.1)).foldl (· * ·) 1
/-- The element's offset, and its end-of-dimension mark (11 R233). -/
def GenRec.off (g : GenRec) (e : Nat) : Int := dotI (tupleOf (g.levels.map (·.1)) e) (g.levels.map (·.2))
def GenRec.mark (g : GenRec) (e : Nat) : Nat :=
  let cs := g.levels.map (·.1)
  ((tupleOf cs e).zip cs).takeWhile (fun p => decide (p.1 + 1 = p.2)) |>.length

/-! ### Records (R290) -/

def recSizes : List Nat := [64, 32, 320, 32, 96, 8]

/-- A phase as read: where it lies, its bytes, and the counts and offsets of its record kinds. -/
structure PhaseIn where
  base  : Nat
  bytes : List Byte
deriving DecidableEq, Repr

def PhaseIn.count (x : PhaseIn) (kind : Nat) : Nat := wordAt x.bytes (8 * kind)
def PhaseIn.off (x : PhaseIn) (kind : Nat) : Nat := wordAt x.bytes (8 * kind + 4)
def PhaseIn.addr (x : PhaseIn) (kind i : Nat) : Nat := x.base + x.off kind + recSizes.getD kind 0 * i
def PhaseIn.rec_ (x : PhaseIn) (kind i : Nat) : List Byte :=
  (x.bytes.drop (x.off kind + recSizes.getD kind 0 * i)).take (recSizes.getD kind 0)
def PhaseIn.recs (x : PhaseIn) (kind : Nat) : List (List Byte) := (List.range (x.count kind)).map (x.rec_ kind)

/-- The 64-byte header of a phase record. -/
def PhaseIn.headOk (x : PhaseIn) : Bool :=
  let len := x.bytes.length
  decide (64 ≤ len) && zeros ((x.bytes.drop 52).take 12) && decide (1 ≤ x.count 0) && decide (x.count 0 ≤ 4)
    && decide (wordAt x.bytes 48 = x.count 0) && (decide (x.count 5 = 0) || decide (x.count 5 = x.count 1))
    && (List.range 6).all fun k =>
      if x.count k = 0 then decide (x.off k = 0)
      else decide (x.off k % 8 = 0) && decide (64 ≤ x.off k) && decide (x.off k + x.count k * recSizes.getD k 0 ≤ len)

def regionRecOf (bs : List Byte) : RegionRec :=
  { num := byteAt bs 0, init := byteAt bs 1, succs := halfAt bs 2, drain := wordAt bs 4, slots := (bs.drop 32).take 32 }

def elemRecOf (bs : List Byte) : ElemRec :=
  let w := wordAt bs 0
  { row := bitsOf w 7 4, col := bitsOf w 3 0, ey := bitsOf w 13 11, ex := bitsOf w 10 8, ctx := bitsOf w 18 14, region := bitsOf w 20 19
    word := BitVec.ofNat 128 (leNat ((bs.drop 16).take 16)) }

def tileRecOf (bs : List Byte) : TileRec :=
  { row := byteAt bs 0 / 16, col := byteAt bs 0 % 16, region := byteAt bs 1, mode := byteAt bs 2, buffers := byteAt bs 3
    lines := halfAt bs 4, bits := byteAt bs 6, close := byteAt bs 7, ports := BitVec.ofNat 64 (dwordAt bs 8)
    gens := ((List.range 4).map fun g => genOf ((bs.drop (64 + 64 * g)).take 64)).filter fun g => !g.levels.isEmpty }

def convOf (bs : List Byte) : ConvRec := ⟨byteAt bs 0, byteAt bs 1, byteAt bs 2, byteAt bs 3, byteAt bs 4, byteAt bs 5⟩

def xferOf (bs : List Byte) : XferRec :=
  ⟨byteAt bs 0, byteAt bs 1, byteAt bs 2, byteAt bs 3, byteAt bs 4, byteAt bs 5, genOf ((bs.drop 8).take 64)⟩

/-- The records as they stand in the image. -/
def PhaseIn.phase (x : PhaseIn) : Phase :=
  { regions := (x.recs 0).map regionRecOf, elems := (x.recs 1).map elemRecOf, tiles := (x.recs 2).map tileRecOf, convs := (x.recs 3).map convOf
    xfers := (x.recs 4).map xferOf
    nodes := (x.recs 5).map fun r => (BitVec.ofNat 32 (wordAt r 0), BitVec.ofNat 32 (wordAt r 4)) }

/-! ### Placement of Finaris macros (R300) -/

def mirrorSrc (c : Nat) : Nat := if c = 1 then 3 else if c = 3 then 1 else c

/-- E and W exchange in srcA, srcB and the port mask. -/
def mirrorWord (b : BitVec 128) : BitVec 128 :=
  let e := eword b
  if e.op = 0 then b
  else
    let p := e.ports % 2 + 2 * (e.ports / 8 % 2) + 4 * (e.ports / 4 % 2) + 8 * (e.ports / 2 % 2)
    BitVec.ofNat 128 (b.toNat - e.sa * 2 ^ 4 - e.sb * 2 ^ 16 - e.ports * 2 ^ 28
      + mirrorSrc e.sa * 2 ^ 4 + mirrorSrc e.sb * 2 ^ 16 + p * 2 ^ 28)

/-- The east and west side-port settings exchange: 16 bits each at 16 and 48. The ports of the north and south sides, whose index is an element's
ex, are stitched in the reverse order. -/
def mirrorPorts (p : DWord) : DWord :=
  let f (k : Nat) : Nat := bitsOf p.toNat (16 * k + 15) (16 * k)
  let r (k : Nat) : Nat := (List.range 8).foldl (fun n i => n + bitsOf p.toNat (16 * k + 2 * i + 1) (16 * k + 2 * i) * 2 ^ (2 * (7 - i))) 0
  BitVec.ofNat 64 (r 0 + f 3 * 2 ^ 16 + r 2 * 2 ^ 32 + f 1 * 2 ^ 48)

/-- A Finaris phase placed on an origin row of odd parity, where the parity of every row differs from the image's: every macro is mirrored, and the
loader places the macros and stitches their edges as the mirror image of the whole extent of `ew` columns has them, with the die edges its
streams use, so that each edge still joins the macros it joined (log 49). -/
def Phase.mirror (p : Phase) (ew : Nat) : Phase :=
  let col (c : Nat) : Nat := if c < ew then ew - 1 - c else c
  let conv (n : Nat) : Nat := if n / 32 % 2 = 0 then n + 32 else n - 32
  { p with
    elems := p.elems.map fun e => { e with col := col e.col, ex := 7 - e.ex, word := mirrorWord e.word }
    tiles := p.tiles.map fun t => { t with col := col t.col, ports := mirrorPorts t.ports }
    convs := p.convs.map fun c => { c with num := conv c.num, pair := conv c.pair }
    xfers := p.xfers.map fun x => { x with side := if x.side = 0 then 1 else if x.side = 1 then 0 else x.side } }

/-! ### Where an image stands -/

/-- The partition and the image's extent. -/
structure Place where
  j0 : Nat
  y0 : Nat
  w : Nat
  h : Nat
  ew : Nat
  eh : Nat
  finaris : Bool
deriving DecidableEq, Repr

/-- Parity of a pair row on the die (R273). -/
def Place.par (p : Place) (row : Nat) : Nat := (p.y0 + row) % 2
def Place.within (p : Place) (row col : Int) : Bool := decide (0 ≤ row) && decide (row < p.h) && decide (0 ≤ col) && decide (col < p.w)
/-- Column of a pair's compute tile, relative to the partition: its memory tile lies east in even rows, west in odd. -/
def Place.ctile (p : Place) (row col : Nat) : Nat := 2 * col + p.par row
/-- Direction (N 0, E 1, S 2, W 3) from a compute tile to its own memory tile. -/
def Place.own (p : Place) (row : Nat) : Nat := if p.par row = 0 then 1 else 3
/-- The element column that faces the memory tile. -/
def Place.face (p : Place) (row : Nat) : Nat := if p.par row = 0 then 7 else 0

def dirX (d : Nat) : Int := if d = 1 then 1 else if d = 3 then -1 else 0
def dirY (d : Nat) : Int := if d = 0 then -1 else if d = 2 then 1 else 0
def back (d : Nat) : Nat := (d + 2) % 4

/-- The pair column of the die's edge on a side, relative to the partition. -/
def Place.edgeCol (p : Place) (side : Nat) : Int := (if side = 1 then 15 else 0) - (p.j0 : Int)
/-- The edge tile of a side and row is a memory tile: odd rows west, even rows east (R278). -/
def Place.edgeMem (p : Place) (side row : Nat) : Bool := decide (p.par row = 1 - side % 2)

def Phase.tile (p : Phase) (row col : Int) : Option TileRec :=
  p.tiles.find? fun t => decide ((t.row : Int) = row) && decide ((t.col : Int) = col)

/-- The setting of a side port. -/
def TileRec.port (t : TileRec) (side idx : Nat) : Nat := bitsOf t.ports.toNat (2 * (8 * side + idx) + 1) (2 * (8 * side + idx))

/-- Where a value leads that leaves an element by a port. -/
inductive Dest where
  | elem (row col ey ex dir dist : Nat)
  | write (row col port : Nat)
  | edge (side row port : Nat)
  | bad
deriving DecidableEq, Repr

/-- The die's edge lies beyond this absolute tile column. -/
def offDie (p : Place) (tc : Int) : Option Nat :=
  if 2 * (p.j0 : Int) + tc < 0 then some 0 else if 31 < 2 * (p.j0 : Int) + tc then some 1 else none

/-- Follow port d of the element at (row, col, ey, ex) (R275). -/
def route (p : Place) (ph : Phase) (row col ey ex d : Nat) : Dest :=
  let nx := (ex : Int) + dirX d
  let ny := (ey : Int) + dirY d
  if 0 ≤ nx ∧ nx < 8 ∧ 0 ≤ ny ∧ ny < 8 then .elem row col ny.toNat nx.toNat (back d) 1
  else
    let idx := if d % 2 = 1 then ey else ex
    let tc := (p.ctile row col : Int) + dirX d
    match offDie p tc with
    | some side => .edge side row idx
    | none =>
      let r' := (row : Int) + dirY d
      match ph.tile r' (tc / 2) with
      | none => .bad
      | some t =>
        match t.port (back d) idx with
        | 1 =>
          let tc2 := tc + dirX d
          match offDie p tc2 with
          | some side => .edge side row idx
          | none =>
            let r2 := r' + dirY d
            if p.within r2 (tc2 / 2) then .elem r2.toNat (tc2 / 2).toNat (ny % 8).toNat (nx % 8).toNat (back d) 3 else .bad
        | 2 => .write t.row t.col idx
        | _ => .bad

/-- The memory tile whose side port lies in direction d of an element at its tile's edge. -/
def portTile (p : Place) (ph : Phase) (row col ey ex d : Nat) : Option TileRec :=
  let nx := (ex : Int) + dirX d
  let ny := (ey : Int) + dirY d
  let tc := (p.ctile row col : Int) + dirX d
  if (0 ≤ nx ∧ nx < 8 ∧ 0 ≤ ny ∧ ny < 8) ∨ (offDie p tc).isSome then none else ph.tile ((row : Int) + dirY d) (tc / 2)

/-- The edge in direction d of an element runs through a memory tile in FIFO mode (R300). -/
def byFifo (p : Place) (ph : Phase) (row col ey ex d : Nat) : Bool :=
  match portTile p ph row col ey ex d with | some t => decide (t.mode = 1) | none => false

/-- A converter's side, row and direction (R276). -/
def ConvRec.side (c : ConvRec) : Nat := bitsOf c.num 5 5
def ConvRec.row (c : ConvRec) : Nat := bitsOf c.num 4 1
def ConvRec.isOut (c : ConvRec) : Bool := decide (c.num % 2 = 1)

def Phase.conv (ph : Phase) (side row : Nat) (out : Bool) : Option ConvRec :=
  ph.convs.find? fun c => decide (c.side = side) && decide (c.row = row) && (c.isOut == out)
def Phase.xfer (ph : Phase) (side row : Nat) : Option XferRec :=
  ph.xfers.find? fun x => decide (x.side = side) && decide (x.row = row)

/-- A die-edge port that values leave by is served by an output converter at that port, or by a transfer unit: stream-out at a compute
edge tile, gather or scatter at a memory edge tile. -/
def Phase.servesOut (ph : Phase) (p : Place) (side row idx : Nat) : Bool :=
  match ph.conv side row true with
  | some c => decide (c.port = idx)
  | none =>
    match ph.xfer side row with
    | some x => if p.edgeMem side row then decide (2 ≤ x.mode) else decide (x.mode = 1)
    | none => false

/-- What feeds input direction d of an element. -/
inductive Feed where
  | elem (row col ey ex port dist : Nat)
  | conv (num : Nat)
  | stream (side row : Nat)
  | nothing
deriving DecidableEq, Repr

/-- A die-edge port that an input converter, or a stream-in transfer unit at a compute edge tile, feeds. -/
def edgeFeed (p : Place) (ph : Phase) (side row idx : Nat) : Feed :=
  match ph.conv side row false with
  | some c => if c.port = idx then .conv c.num else .nothing
  | none =>
    match ph.xfer side row with
    | some x => if x.mode = 0 ∧ !p.edgeMem side row then .stream side row else .nothing
    | none => .nothing

def feedOf (p : Place) (ph : Phase) (row col ey ex d : Nat) : Feed :=
  let nx := (ex : Int) + dirX d
  let ny := (ey : Int) + dirY d
  if 0 ≤ nx ∧ nx < 8 ∧ 0 ≤ ny ∧ ny < 8 then .elem row col ny.toNat nx.toNat (back d) 1
  else
    let idx := if d % 2 = 1 then ey else ex
    let tc := (p.ctile row col : Int) + dirX d
    match offDie p tc with
    | some side => edgeFeed p ph side row idx
    | none =>
      let r' := (row : Int) + dirY d
      match ph.tile r' (tc / 2) with
      | none => .nothing
      | some t =>
        if t.port (back d) idx ≠ 1 then .nothing
        else
          let tc2 := tc + dirX d
          match offDie p tc2 with
          | some side => edgeFeed p ph side row idx
          | none =>
            let r2 := r' + dirY d
            if p.within r2 (tc2 / 2) then .elem r2.toNat (tc2 / 2).toNat (ny % 8).toNat (nx % 8).toNat (back d) 3 else .nothing

/-! ### Regions' slots and schedules (R284) -/

def RegionRec.slotLen (r : RegionRec) (c : Nat) : Nat := (r.slots.getD c 0).toNat % 8 + 1
def RegionRec.slotSched (r : RegionRec) (c : Nat) : Nat := bitsOf (r.slots.getD c 0).toNat 4 3
/-- start(c): the lengths of the schedule's earlier slots. -/
def RegionRec.start (r : RegionRec) (c : Nat) : Nat :=
  (List.range c).foldl (fun n k => if r.slotSched k = r.slotSched c then n + r.slotLen k else n) 0
/-- The initiation interval of a schedule. -/
def RegionRec.II (r : RegionRec) (k : Nat) : Nat := (List.range 32).foldl (fun n c => if r.slotSched c = k then n + r.slotLen c else n) 0
def RegionRec.owns (r : RegionRec) (k : Nat) : Bool := (List.range 32).any fun c => decide (r.slotSched c = k)
/-- Successor of schedule k on true and on false. -/
def RegionRec.succ (r : RegionRec) (k : Nat) (taken : Bool) : Nat := r.succs / 4 ^ (2 * k + (!taken).toNat) % 4

def Phase.region (ph : Phase) (n : Nat) : Option RegionRec := ph.regions.find? fun r => decide (r.num = n)

/-- Schedule and start of a context. -/
def Phase.sched (ph : Phase) (e : ElemRec) : Nat := match ph.region e.region with | some r => r.slotSched e.ctx | none => 0
def Phase.start (ph : Phase) (e : ElemRec) : Nat := match ph.region e.region with | some r => r.start e.ctx | none => 0

/-! ### GRAPH_IMAGE checks (R275, R278, R279, R286, R288 to R290, R300) -/

/-- The slots of one schedule are contiguous (R284). -/
def contiguous : List Nat → List Nat → Bool
  | _, [] => true
  | seen, k :: r =>
    match seen with
    | [] => contiguous [k] r
    | last :: old => if k = last then contiguous seen r else !old.contains k && contiguous (k :: last :: old) r

def regionRecOk (bs : List Byte) (r : RegionRec) (earlier : List RegionRec) : Bool :=
  decide (r.num ≤ 3) && !(earlier.any fun o => decide (o.num = r.num)) && zeros ((bs.drop 8).take 24)
    && r.slots.all (fun b => decide (b.toNat < 32)) && contiguous [] ((List.range 32).map r.slotSched)
    && r.owns r.init
    && (List.range 4).all fun k =>
      if r.owns k then r.owns (r.succ k true) && r.owns (r.succ k false) else decide (r.succ k true = 0) && decide (r.succ k false = 0)

/-- Tile lines in use, without exponent lines. -/
def TileRec.plain (t : TileRec) : Nat := if t.mode = 0 then t.lines * t.buffers else t.lines

def elemOk (p : Place) (ph : Phase) (bs : List Byte) (e : ElemRec) (earlier : List ElemRec) : Bool :=
  let w := e.w
  decide (bitsOf (wordAt bs 0) 31 21 = 0) && zeros ((bs.drop 4).take 12) && decide (e.row < p.eh) && decide (e.col < p.ew)
    && (ph.region e.region).isSome && ewordOk e.word && (!w.srcs.contains 21 || decide (e.ex = p.face e.row))
    && !(earlier.any fun o => decide (o.row = e.row) && decide (o.col = e.col) && decide (o.ey = e.ey) && decide (o.ex = e.ex)
      && decide (o.ctx = e.ctx))
    && (!p.finaris || w.srcs.all fun c =>
      if 4 ≤ c then true
      else
        match feedOf p ph e.row e.col e.ey e.ex c with
        | .elem r k .. => (decide (r = e.row) && decide (k = e.col)) || byFifo p ph e.row e.col e.ey e.ex c
        | .conv _ | .stream .. => byFifo p ph e.row e.col e.ey e.ex c
        | .nothing => true)
    && (List.range 4).all fun d =>
      if w.ports / 2 ^ d % 2 = 0 then true
      else
        match route p ph e.row e.col e.ey e.ex d with
        | .elem r c .. => !p.finaris || (decide (r = e.row) && decide (c = e.col)) || byFifo p ph e.row e.col e.ey e.ex d
        | .write r c _ =>
          !p.finaris || (decide (r = e.row) && decide (c = e.col) && (match ph.tile r c with | some t => decide (t.mode = 1) | none => false))
        | .edge side row idx => ph.servesOut p side row idx && (!p.finaris || byFifo p ph e.row e.col e.ey e.ex d)
        | .bad => false

/-- Records of a tile in the image's layout, and its side ports. -/
def tileOk (p : Place) (ph : Phase) (bs : List Byte) (t : TileRec) (earlier : List TileRec) : Bool :=
  decide (t.row < p.eh) && decide (t.col < p.ew) && (ph.region t.region).isSome && decide (t.mode ≤ 2)
    && decide (1 ≤ t.buffers) && decide (t.buffers ≤ 4) && decide (1 ≤ t.lines) && [8, 16, 32].contains t.bits && decide (t.close ≤ 8)
    && zeros ((bs.drop 16).take 48) && (List.range 4).all (fun g => genOk ((bs.drop (64 + 64 * g)).take 64))
    && !(earlier.any fun o => decide (o.row = t.row) && decide (o.col = t.col))
    && (List.range 32).all (fun i =>
      match t.port (i / 8) (i % 8) with
      | 0 => true
      | 1 => decide (t.port (back (i / 8)) (i % 8) = 1)
      | 2 => decide (i / 8 = back (p.own t.row))
      | _ => false)
    && (!p.finaris || (decide (t.plain ≤ 512) && decide (t.gens.length ≤ 2)))

/-- The edge pair of a converter or transfer unit has a memory-tile record or an element record. -/
def edgeHeld (p : Place) (ph : Phase) (side row : Nat) : Bool :=
  let c := p.edgeCol side
  (ph.tile row c).isSome || ph.elems.any fun e => decide (e.row = row) && decide ((e.col : Int) = c)

def convOk (p : Place) (ph : Phase) (bs : List Byte) (c : ConvRec) : Bool :=
  decide (c.num ≤ 63) && [8, 9, 12, 13].contains c.fmt && decide (c.port ≤ 7) && decide (c.lag ≤ 15) && decide (c.pair ≤ 63)
    && decide (c.scale ≤ 15) && zeros (bs.drop 6) && decide (c.row < p.eh) && edgeHeld p ph c.side c.row

def xferOk (p : Place) (ph : Phase) (bs : List Byte) (x : XferRec) : Bool :=
  let g := (bs.drop 8).take 64
  let t := ph.tile x.row (p.edgeCol x.side)
  let conv := (ph.conv x.side x.row (decide (x.mode = 1))).isSome
  decide (x.side ≤ 1) && decide (x.row < p.eh) && decide (x.mode ≤ 3) && decide (x.esize ≤ 4) && decide (x.base ≤ 15)
    && decide (x.bound ≤ 15) && zeros ((bs.drop 6).take 2) && zeros (bs.drop 72) && genOk g
    && decide (byteAt g 0 = 0) && decide (byteAt g 1 = 0) && edgeHeld p ph x.side x.row
    && (if x.mode ≤ 1 then conv || !p.edgeMem x.side x.row || t.isSome
        else p.edgeMem x.side x.row && (match t with | some t => decide (t.mode = 1) | none => false))

/-- The first of the records of one kind that fails a test, given with the records before it. -/
def firstBadRec {α : Type} (ok : α → List α → Bool) : List α → List α → Nat → Option Nat
  | [], _, _ => none
  | a :: r, earlier, i => if ok a earlier then firstBadRec ok r (earlier ++ [a]) (i + 1) else some i

def firstSome {α : Type} : List (Option α) → Option α
  | [] => none
  | some a :: _ => some a
  | none :: r => firstSome r

/-- The first GRAPH_IMAGE failure of a phase: kind and index of the record (R291). `raw` is the phase as the image holds it. -/
def imageFault (p : Place) (x : PhaseIn) (ph : Phase) : Option (Nat × Nat) :=
  let zipR {α : Type} (k : Nat) (l : List α) : List (List Byte × α) := (x.recs k).zip l
  firstSome
    [ (firstBadRec (fun a e => regionRecOk a.1 a.2 (e.map (·.2))) (zipR 0 ph.regions) [] 0).map fun i => (0, i),
      (firstBadRec (fun a e => elemOk p ph a.1 a.2 (e.map (·.2))) (zipR 1 ph.elems) [] 0).map fun i => (1, i),
      (firstBadRec (fun a e => tileOk p ph a.1 a.2 (e.map (·.2))) (zipR 2 ph.tiles) [] 0).map fun i => (2, i),
      (firstBadRec (fun a _ => convOk p ph a.1 a.2) (zipR 3 ph.convs) [] 0).map fun i => (3, i),
      (firstBadRec (fun a _ => xferOk p ph a.1 a.2) (zipR 4 ph.xfers) [] 0).map fun i => (4, i) ]

/-! ### LATENCY (R292) -/

def sameElem (a b : ElemRec) : Bool :=
  decide (a.row = b.row) && decide (a.col = b.col) && decide (a.ey = b.ey) && decide (a.ex = b.ex)

/-- Contexts whose results enter direction d of an element, with the distance. -/
def senders (p : Place) (ph : Phase) (e : ElemRec) (d : Nat) : List (ElemRec × Nat) :=
  match feedOf p ph e.row e.col e.ey e.ex d with
  | .elem row col ey ex port dist =>
    (ph.elems.filter fun o => decide (o.row = row) && decide (o.col = col) && decide (o.ey = ey) && decide (o.ex = ex)
      && decide (o.w.ports / 2 ^ port % 2 = 1)).map fun o => (o, dist)
  | _ => []

def lastBy {α : Type} (f : α → Nat) : List α → Option α
  | [] => none
  | a :: r =>
    match lastBy f r with
    | some b => if f b < f a then some a else some b
    | none => some a

/-- The producer of a link input: the one value that arrives last before the read, with every sub-vector the consumer takes. A context of
another region sends at no fixed beat of the round, so its value may come between (log 50). -/
def linkProducer (p : Place) (ph : Phase) (q : ElemRec) (d : Nat) : Option ElemRec :=
  let all := senders p ph q d
  if all.any fun o => decide (o.1.region ≠ q.region) then none
  else
    let mine := all.filter fun o => decide (ph.sched o.1 = ph.sched q) && decide (ph.start o.1 + o.2 ≤ ph.start q)
    match lastBy (fun o => ph.start o.1 + o.2) mine with
    | none => none
    | some (a, dist) =>
      if a.w.fold < q.w.fold ∨ 1 < (mine.filter fun o => decide (ph.start o.1 + o.2 = ph.start a + dist)).length then none else some a

/-- How many round boundaries lie between the last write of a rotating register by a context and its read: 0 to 15, or 16 where the
write of the same round comes too late. -/
def regDistance (ph : Phase) (a q : ElemRec) (reg : Nat) : Nat :=
  let m := (reg + 16 - a.w.dreg) % 16
  if m = 0 ∧ ph.start q ≤ ph.start a then 16 else m

/-- The producer of a rotating register: the most recent write of the own schedule, or of another where no context of the own one
writes it; with the rounds between. None where another write may come between: one of a context of another region, which keeps no fixed
round, or of another schedule in a round after the producer's (log 50). -/
def regProducer (ph : Phase) (q : ElemRec) (reg : Nat) : Option (ElemRec × Nat) :=
  let ws := ph.elems.filter fun a => sameElem a q && a.w.we
  if ws.any fun a => decide (a.region ≠ q.region) then none else
  let mine := (ws.filter fun a => decide (ph.sched a = ph.sched q)).map fun a => (a, regDistance ph a q reg)
  let other := (ws.filter fun a => decide (ph.sched a ≠ ph.sched q)).map fun a => (a, (reg + 16 - a.w.dreg) % 16)
  let pick (l : List (ElemRec × Nat)) : Option (ElemRec × Nat) := lastBy (fun o => (16 - o.2) * 512 + ph.start o.1) l
  let ok (o : ElemRec × Nat) : Bool := decide (q.w.fold ≤ o.1.w.fold)
  match pick (mine.filter fun o => decide (o.2 < 16)) with
  | some o => if ok o && !other.any (fun x => decide (1 ≤ x.2) && decide (x.2 < o.2)) then some o else none
  | none =>
    match pick (other.filter fun o => decide (1 ≤ o.2)) with
    | some o => if ok o then some o else none
    | none => none

/-- What a source of a context depends on. -/
inductive Source where
  | from_ (e : ElemRec) (rounds : Nat)
  | conv (num : Nat)
  | stream (bits : Nat)
  | tile (t : TileRec)
  | const (k : Int)
  | none
deriving DecidableEq, Repr

/-- Bits of a stream's elements, as they enter the fabric. -/
def XferRec.bits (x : XferRec) : Nat := min 32 (8 * 2 ^ x.esize)

def sourceOf (p : Place) (ph : Phase) (q : ElemRec) (src : Nat) : Source :=
  if src < 4 then
    match feedOf p ph q.row q.col q.ey q.ex src with
    | .elem .. => match linkProducer p ph q src with | some a => .from_ a 0 | none => .none
    | .conv n => .conv n
    | .stream side row => match ph.xfer side row with | some x => .stream x.bits | none => .none
    | .nothing => .none
  else if src < 20 then
    match regProducer ph q (src - 4) with
    | some (a, m) => .from_ a m
    | none => .none
  else if src = 20 then .const q.w.k
  else if src = 21 then
    match ph.tile q.row q.col with
    | some t => if t.gens.any fun g => decide (g.role = 1) then .tile t else .none
    | none => .none
  else .const 0

/-- An edge whose producer lies outside the partition. -/
def Source.outside (p : Place) : Source → Bool
  | .from_ e _ => decide (p.h ≤ e.row) || decide (p.w ≤ e.col)
  | _ => false

/-- The first context whose edges break R292. -/
def latencyFault (p : Place) (ph : Phase) : Option Nat :=
  ph.elems.findIdx? fun q =>
    let w := q.w
    (match ph.region q.region with | some r => decide (r.slotLen q.ctx < w.fold) | none => true)
      || w.srcs.any fun c => let x := sourceOf p ph q c; decide (x = .none) || x.outside p

end Sys2Proof.Machine
end

