-- ==== Sys2Proof/Machine/GraphCheck.lean ====
section
/-!
DEFINITION. The rest of gload's checks (13 R291, R293 to R295): WIDTH, CONVERTER and CAPACITY; and the reading of an image's header and of one
phase with all its checks (R288, R290, R297, R304).
-/
namespace Sys2Proof.Machine

/-! ### WIDTH (R293) -/

/-- An interval of exact values. -/
abbrev Range := Int × Int

def shiftInt (x sh : Int) (neg : Bool) : Int :=
  let y : Int := if 0 ≤ sh then x * 2 ^ sh.toNat else x / 2 ^ (-sh).toNat
  if neg then -y else y

def shiftRange (r : Range) (sh : Int) (neg : Bool) : Range :=
  let a := shiftInt r.1 sh neg
  let b := shiftInt r.2 sh neg
  (min a b, max a b)

/-- The range of an op over its operands, exactly. -/
def opRange (w : EWord) (a b : Range) : Range :=
  match w.op with
  | 1 => (a.1 + b.1, a.2 + b.2)
  | 2 => (a.1 - b.2, a.2 - b.1)
  | 5 => (max a.1 b.1, max a.2 b.2)
  | 6 => (min a.1 b.1, min a.2 b.2)
  | 7 => (max a.1 0, max a.2 0)
  | 8 => (if a.1 ≤ 0 ∧ 0 ≤ a.2 then 0 else min (a.1.natAbs : Int) a.2.natAbs, max (a.1.natAbs : Int) a.2.natAbs)
  | 9 => (a.1 + w.k, a.2 + w.k)
  | 10 => (if 0 ≤ a.1 then 1 else 0, if 0 ≤ a.2 then 1 else 0)
  | _ => a

def bitsRange (n : Nat) : Range := (-(2 ^ (n - 1) : Nat), (2 ^ (n - 1) : Nat) - 1)

/-- Index of a context among a phase's element records. -/
def Phase.index (ph : Phase) (e : ElemRec) : Nat := ph.elems.findIdx fun o => decide (o = e)

/-- A source with its producer by index. -/
inductive WSrc where
  | fixed (r : Range) | from_ (i : Nat)
deriving DecidableEq, Repr

def widthSrc (p : Place) (ph : Phase) (q : ElemRec) (c : Nat) : WSrc :=
  match sourceOf p ph q c with
  | .from_ a _ => .from_ (ph.index a)
  | .conv _ => .fixed (bitsRange 16)
  | .stream n => .fixed (bitsRange n)
  | .tile t => .fixed (bitsRange t.bits)
  | .const k => .fixed (k, k)
  | .none => .fixed (0, 0)

/-- A context as the passes use it: its index, its word, its sources. -/
structure WNode where
  idx  : Nat
  w    : EWord
  srcs : List WSrc
deriving DecidableEq, Repr

def insertBy {α : Type} (le : α → α → Bool) (a : α) : List α → List α
  | [] => [a]
  | b :: r => if le a b then a :: b :: r else b :: insertBy le a r

/-- The contexts in beat order over one round: by region, start and index. -/
def beatOrder (p : Place) (ph : Phase) : List WNode :=
  let es := (ph.elems.zipIdx.filter fun e => decide (e.1.w.op ≠ 0)).map fun e => (e.1.region * 512 + ph.start e.1, e.2, e.1)
  let sorted := es.foldr (insertBy fun a b => decide (a.1 < b.1 ∨ (a.1 = b.1 ∧ a.2.1 ≤ b.2.1))) []
  sorted.map fun e => ⟨e.2.1, e.2.2.w, e.2.2.w.srcs.map (widthSrc p ph e.2.2)⟩

/-- The ranges found so far, by context; with `seed`, a context not reached yet counts as [0, 0] (log 51). -/
def srcRange (rs : List (Option Range)) (seed : Bool) : WSrc → Option Range
  | .fixed r => some r
  | .from_ i => match rs.getD i none with | some r => some r | none => if seed then some (0, 0) else none

/-- One context of a pass: its output's range, none where an operand has none yet; or a failure. -/
def widthNode (rs : List (Option Range)) (seed : Bool) (n : WNode) : Except Unit (Option Range) :=
  match srcRange rs seed (n.srcs.getD 0 (.fixed (0, 0))), srcRange rs seed (n.srcs.getD 1 (.fixed (0, 0))) with
  | some a, some b =>
    let a := shiftRange a n.w.sha n.w.na
    let b := shiftRange b n.w.shb n.w.nb
    let far (r : Range) : Bool := decide (r.1 < -(2 ^ 39)) || decide (2 ^ 39 < r.2)
    if far a || far b then .error ()
    else
      let v := opRange n.w a b
      let t := bitsRange n.w.W
      let clip (x : Int) : Int := max t.1 (min t.2 x)
      if t.1 ≤ v.1 ∧ v.2 ≤ t.2 then .ok (some v)
      else if n.w.sat then .ok (some (clip v.1, clip v.2))
      else .error ()
  | _, _ => .ok none

/-- A pass: the ranges and the indices whose range changed, or the failing context. -/
def widthPass (seed : Bool) : List WNode → List (Option Range) → List Nat → Except Nat (List (Option Range) × List Nat)
  | [], rs, ch => .ok (rs, ch)
  | n :: r, rs, ch =>
    match widthNode rs seed n with
    | .error _ => .error n.idx
    | .ok none => widthPass seed r rs ch
    | .ok (some v) =>
      let old := rs.getD n.idx none
      let new := match old with | some o => (min o.1 v.1, max o.2 v.2) | none => v
      if old = some new then widthPass seed r rs ch else widthPass seed r (setAt rs n.idx (some new)) (ch ++ [n.idx])

/-- Up to 64 passes; the failing element record, if any. -/
def widthRun (ns : List WNode) : Nat → Bool → List (Option Range) → List Nat → Option Nat
  | 0, _, _, ch => if ch = [] then none else some (ch.foldl min (ch.headD 0))
  | n + 1, seed, rs, _ =>
    match widthPass seed ns rs [] with
    | .error i => some i
    | .ok (rs', []) => if seed then none else widthRun ns n true rs' []
    | .ok (rs', ch) => widthRun ns n seed rs' ch

def widthFault (p : Place) (ph : Phase) : Option Nat := widthRun (beatOrder p ph) 64 false (ph.elems.map fun _ => none) []

/-! ### CONVERTER (R294) -/

/-- What a value depends on: nothing but constants, an integer stream, or one input converter's vectors so many rounds back (`none` where
the values pass through a memory tile, which keeps no fixed distance); or a mixture, which R294 forbids, with the input converters in it. -/
inductive Dep where
  | none_ | int | conv (c : Nat) (d : Option Nat) | mixed (cs : List Nat)
deriving DecidableEq, Repr

/-- The input converters a value depends on. -/
def Dep.convs : Dep → List Nat
  | .conv c _ => [c]
  | .mixed cs => cs
  | _ => []

def Dep.join (x y : Dep) : Dep :=
  match x, y with
  | .none_, y => y
  | x, .none_ => x
  | .int, .int => .int
  | .conv c d, .conv c' d' => if c = c' ∧ d = d' then .conv c d else .mixed (nins [c] c')
  | x, y => .mixed (y.convs.foldl nins x.convs)

def Dep.after (m : Nat) : Dep → Dep
  | .conv c (some d) => .conv c (some (d + m))
  | x => x

/-- The contexts that write into a tile. -/
def tileWriters (p : Place) (ph : Phase) (t : TileRec) : List ElemRec :=
  ph.elems.filter fun e => (List.range 4).any fun d =>
    decide (e.w.ports / 2 ^ d % 2 = 1) && (match route p ph e.row e.col e.ey e.ex d with
      | .write r c _ => decide (r = t.row) && decide (c = t.col)
      | _ => false)

def tileDep (p : Place) (ph : Phase) (ds : List Dep) (t : TileRec) : Dep :=
  let fills := t.gens.any (fun g => decide (g.role = 0)) || ph.xfers.any fun x =>
    decide (x.row = t.row) && decide (p.edgeCol x.side = t.col) && (decide (x.mode = 2) ||
      (decide (x.mode = 0) && p.edgeMem x.side x.row && (ph.conv x.side x.row false).isNone))
  (tileWriters p ph t).foldl (fun d e => d.join (match ds.getD (ph.index e) .none_ with | .conv c _ => .conv c none | x => x))
    (if fills then .int else .none_)

/-- The dependence of a context, from those found so far. -/
def nodeDep (p : Place) (ph : Phase) (ds : List Dep) (q : ElemRec) : Dep :=
  (q.w.srcs.map fun c =>
    match sourceOf p ph q c with
    | .from_ a m => (ds.getD (ph.index a) .none_).after m
    | .conv n => .conv n (some 0)
    | .stream _ => .int
    | .tile t => tileDep p ph ds t
    | _ => .none_).foldl Dep.join .none_

/-- Passes over the contexts: a mixture, once found, stays. -/
def depPasses (p : Place) (ph : Phase) : Nat → List Dep → List Dep
  | 0, ds => ds
  | n + 1, ds =>
    let ds' := ph.elems.zipIdx.map fun e => (ds.getD e.2 .none_).join (nodeDep p ph ds e.1)
    if ds' = ds then ds else depPasses p ph n ds'

def depsOf (p : Place) (ph : Phase) : List Dep := depPasses p ph (2 * ph.elems.length + 2) (ph.elems.map fun _ => .none_)

def ConvRec.bytes (c : ConvRec) : Nat := if c.fmt = 8 ∨ c.fmt = 9 then 2 else 1

/-- A converter record lies on an edge tile of the partition, is served by its transfer unit and, for output, matches what its port's results
depend on. -/
def convFine (p : Place) (ph : Phase) (ds : List Dep) (c : ConvRec) : Bool :=
  decide (c.row < p.h) && decide (0 ≤ p.edgeCol c.side) && decide (p.edgeCol c.side < p.w)
  && (match ph.xfer c.side c.row with
   | some x => decide (x.mode = c.isOut.toNat) && decide (2 ^ x.esize = c.bytes)
   | none => false)
  && (!c.isOut ||
    ph.elems.zipIdx.all fun e => (List.range 4).all fun d =>
      if e.1.w.ports / 2 ^ d % 2 = 0 then true
      else
        match route p ph e.1.row e.1.col e.1.ey e.1.ex d with
        | .edge side row idx =>
          if side ≠ c.side ∨ row ≠ c.row ∨ idx ≠ c.port then true
          else
            match ds.getD e.2 .none_ with
            | .conv n dist => decide (n = c.pair) && (match dist with | some k => decide (k = c.lag) | none => true)
            | .none_ => true
            | _ => false
        | _ => true)

/-- The first record that breaks R294: the converter record involved, which for a mixture is one of the input converters in it; an element
record where no converter record is (R291). -/
def converterFault (p : Place) (ph : Phase) : Option (Nat × Nat) :=
  let ds := depsOf p ph
  let mixes (c : ConvRec) : Bool := ds.any fun d => match d with | .mixed cs => cs.contains c.num | _ => false
  let loose (d : Dep) : Bool := match d with | .mixed cs => !ph.convs.any fun c => cs.contains c.num | _ => false
  match ds.findIdx? loose with
  | some i => some (1, i)
  | none => (ph.convs.findIdx? fun c => mixes c || !convFine p ph ds c).map fun i => (3, i)

/-! ### CAPACITY (R295) -/

/-- Lines of a tile, with the exponent lines of buffers that hold BFX16 vectors (R282). -/
def tileLines (p : Place) (ph : Phase) (ds : List Dep) (t : TileRec) : Nat :=
  let bfx := decide (t.bits = 16) && (match tileDep p ph ds t with | .conv .. => true | _ => false)
  t.plain + (if bfx then (if t.mode = 0 then t.buffers else 1) * ((t.lines + 127) / 128) else 0)

def capacityFault (p : Place) (ph : Phase) : Option (Nat × Nat) :=
  let ds := depsOf p ph
  let elemFine (e : ElemRec) (earlier : List ElemRec) : Bool :=
    decide (e.row < p.h) && decide (e.col < p.w) && !(decide (e.w.op = 10) && earlier.any fun o =>
      decide (o.w.op = 10) && decide (o.region = e.region) && decide (ph.sched o = ph.sched e) && !sameElem o e)
  let tileFine (t : TileRec) (_ : List TileRec) : Bool :=
    decide (t.row < p.h) && decide (t.col < p.w) && decide (tileLines p ph ds t ≤ 1024)
  firstSome
    [ (firstBadRec elemFine ph.elems [] 0).map fun i => (1, i),
      (firstBadRec tileFine ph.tiles [] 0).map fun i => (2, i),
      (firstBadRec (fun c e => !(e.any fun o => decide (o.num = c.num))) ph.convs [] 0).map fun i => (3, i),
      (firstBadRec (fun x e => !(e.any fun o => decide (o.side = x.side) && decide (o.row = x.row))) ph.xfers [] 0).map fun i => (4, i) ]

/-! ### A phase and an image (R288, R291) -/

/-- All checks of a phase whose header holds: the failing status and the record's address. -/
def phaseFault (p : Place) (x : PhaseIn) (ph : Phase) : Option (Nat × Nat) :=
  let at_ (r : Nat × Nat) : Nat := x.addr r.1 r.2
  match imageFault p x ph with
  | some r => some (Code.graphImage, at_ r)
  | none =>
    match latencyFault p ph with
    | some i => some (Code.latency, at_ (1, i))
    | none =>
      match widthFault p ph with
      | some i => some (Code.width, at_ (1, i))
      | none =>
        match converterFault p ph with
        | some r => some (Code.converter, at_ r)
        | none => (capacityFault p ph).map fun r => (Code.capacity, at_ r)

/-- How a load fails: a status with an address and, for a failed check, the phase; the context meets a cut link; or it waits to read. -/
inductive LoadBad where
  | status (code : Nat) (phase : Option Nat) (addr : Nat) | cut | wait
deriving DecidableEq, Repr

/-- The status of a read that fails (R304, 14 R316, 18 R440). -/
def GBad.load : GBad → LoadBad
  | .xlat f => .status Code.addr none f.va
  | .range a => .status Code.addr none (a % 2 ^ 64).toNat
  | .lost a => .status Code.linkLost none a
  | .poison a => .status Code.poison none a
  | .cut => .cut
  | .wait => .wait

/-- What a part of a load answers, with the state its reads leave. -/
abbrev LRes (α : Type) := Except LoadBad α × State

/-- The header's fields. -/
structure Header where
  finaris : Bool
  phases  : Nat
  ew      : Nat
  eh      : Nat
  argmask : Nat
  length  : Nat
deriving DecidableEq, Repr

def headerOf (bs : List Byte) : Header :=
  let ctl := wordAt bs 4
  let ext := wordAt bs 8
  { finaris := decide (bitsOf ctl 8 8 = 1), phases := bitsOf ctl 7 4 + 1, ew := bitsOf ext 3 0 + 1, eh := bitsOf ext 7 4 + 1
    argmask := wordAt bs 12, length := wordAt bs 16 }

def headerOk (bs : List Byte) : Bool :=
  let h := headerOf bs
  decide (wordAt bs 0 = 0x6A7F0E01) && decide (bitsOf (wordAt bs 4) 31 9 = 0) && decide (bitsOf (wordAt bs 4) 3 0 = 0)
    && decide (bitsOf (wordAt bs 8) 31 8 = 0) && decide (h.argmask < 2 ^ 16) && decide (h.length % 64 = 0)
    && decide (64 + 16 * h.phases ≤ h.length) && zeros ((bs.drop 20).take 44)

/-- Read and check the header. -/
def readHeader (s : State) (ctx die image : Nat) : LRes Header :=
  match gBytes s ctx die image 64 with
  | (.error e, s) => (.error e.load, s)
  | (.ok bs, s) => (if headerOk bs then .ok (headerOf bs) else .error (.status Code.graphImage (some 0) image), s)

/-- Read phase k's record and check it; the records come back as they are placed. -/
def readPhase (s : State) (ctx die image : Nat) (p : Place) (h : Header) (k : Nat) : LRes Phase :=
  let ent := image + 64 + 16 * k
  match gBytes s ctx die ent 16 with
  | (.error e, s) => (.error e.load, s)
  | (.ok bs, s) =>
    let off := dwordAt bs 0
    let len := wordAt bs 8
    if off % 64 ≠ 0 ∨ off < 64 ∨ h.length < off + len ∨ !zeros (bs.drop 12) then (.error (.status Code.graphImage (some k) ent), s)
    else
      match gBytes s ctx die (image + off) len with
      | (.error e, s) => (.error e.load, s)
      | (.ok rec_, s) =>
        let x : PhaseIn := ⟨image + off, rec_⟩
        if !x.headOk then (.error (.status Code.graphImage (some k) x.base), s)
        else
          let ph := if p.finaris ∧ p.y0 % 2 = 1 then x.phase.mirror h.ew else x.phase
          match phaseFault p x ph with
          | some (code, at_) => (.error (.status code (some k) at_), s)
          | none => (.ok ph, s)

/-- Read and check every phase from k on (R291). -/
def readPhases (ctx die image : Nat) (p : Place) (h : Header) : Nat → Nat → State → LRes (List Phase)
  | 0, _, s => (.ok [], s)
  | n + 1, k, s =>
    match readPhase s ctx die image p h k with
    | (.error e, s) => (.error e, s)
    | (.ok ph, s) =>
      match readPhases ctx die image p h n (k + 1) s with
      | (.error e, s) => (.error e, s)
      | (.ok r, s) => (.ok (ph :: r), s)

/-! ### Alignment of arguments (R305) -/

/-- The largest element size of the records that name an argument as a global base. -/
def Phase.alignOf (ph : Phase) (a : Nat) : Nat :=
  let g := ph.tiles.flatMap fun t => (t.gens.filter fun g => (decide (g.role = 0) || decide (g.role = 3)) && decide (g.arg = a)).map
    fun _ => t.bits / 8
  let x := (ph.xfers.filter fun x => decide (x.base = a)).map fun x => 2 ^ x.esize
  (g ++ x).foldl max 1

def alignMap (phs : List Phase) : Smap Nat :=
  (List.range 16).foldl (fun m a => sput 1 m a ((phs.map fun ph => ph.alignOf a).foldl max 1)) []

end Sys2Proof.Machine
end

