-- ==== Sys2Proof/Machine/FabricRun.lean ====
section
/-!
DEFINITION. The run of a phase (13 R276 to R287, R297 to R299, R465): elements, input entries and rotating registers, memory tiles and
their generators, converters and transfer units, stalls and freezes, round boundaries and aborts; and the meanings of FABRIC_BEAT and
FABRIC_ROUND_BOUNDARY.
-/
namespace Sys2Proof.Machine

/-! ### Partitions -/

def partKey (ctx num : Nat) : Nat := ctx * 4 + num
def getPart (s : State) (k : Nat) : Option Partition := tget s.parts k
def setPart (s : State) (k : Nat) (p : Partition) : State := { s with parts := tput s.parts k p }

def Partition.place (p : Partition) : Place := ⟨p.j0, p.y0, p.w, p.h, 16, 16, p.finaris⟩

/-- Words and double words the spec gives no value (log 53): free, by tick. -/
def openWord (s : State) (k : Nat) : Word := word4 ((List.range 4).map fun i => Config.freeByte s.tick (4 * k + i))
def openDWord (s : State) (k : Nat) : DWord := openWord s (k + 1) ++ openWord s k

/-- Record the last status code of a partition number (R309). -/
def noteStatus (s : State) (ctx num code : Nat) : State :=
  modCtx s ctx fun c => { c with gstatus := setAt c.gstatus num (BitVec.ofNat 32 code) }

/-- A status and a completion of m sectors on a command's cell, in one operation (R301). -/
def graphDone (s : State) (ctx : Nat) (gid : Nat) (bar : DWord) (m code : Nat) (count : Word) (detail : DWord) : State :=
  if bar = 0 then s
  else onOperand s ctx (some gid) bar fun c => (c.report code count detail).sectors m (openDWord s 40)

/-! ### Streams' sizes -/

def XferRec.esz (x : XferRec) : Nat := 2 ^ x.esize

/-- The edge tile of a transfer unit is the memory tile it fills or spills itself: no converter stands between. -/
def tileSide (p : Place) (ph : Phase) (x : XferRec) : Bool :=
  p.edgeMem x.side x.row && (ph.conv x.side x.row (decide (x.mode = 1))).isNone

/-- Index of the memory tile at a transfer unit's edge. -/
def edgeTile (p : Place) (ph : Phase) (x : XferRec) : Option Nat :=
  ph.tiles.findIdx? fun t => decide (t.row = x.row) && decide ((t.col : Int) = p.edgeCol x.side)

/-- The region a transfer unit's stream belongs to (R278). -/
def xferRegion (p : Place) (ph : Phase) (x : XferRec) : Nat :=
  match ph.tile x.row (p.edgeCol x.side) with
  | some t => t.region
  | none =>
    match ph.elems.find? fun e => decide (e.row = x.row) && decide ((e.col : Int) = p.edgeCol x.side) with
    | some e => e.region
    | none => 0

/-- Bytes of the phase's output written so far, sector by sector of each stream: the completed output sectors (R298). -/
def outSectors (p : Partition) : Nat :=
  let t := (p.cur.tiles.zip p.tiles).flatMap fun x => (x.1.gens.zip x.2.genPos).map fun g =>
    if g.1.role = 3 then g.2 * (x.1.bits / 8) / 32 else 0
  let x := (p.cur.xfers.zip p.streams).map fun x => if x.1.mode = 1 ∨ x.1.mode = 3 then x.2.pos * x.1.esz / 32 else 0
  (t ++ x).foldl (· + ·) 0

/-! ### Memory tiles (R282, R283, R465) -/

def TileRec.epl (t : TileRec) : Nat := 1024 / t.bits
def TileRec.size (t : TileRec) : Nat := t.lines * t.epl

def signedOf (v : Int) (n : Nat) : Int := sextN (v % 2 ^ n).toNat n

/-- Clear the elements of a run of positions. -/
def clearRun (m : Smap Int) (base n : Nat) : Smap Int := m.filter fun e => e.1 < base || base + n ≤ e.1

/-- Elements of the roles in `rs` that the tile's generators have moved. -/
def movedBy (t : TileRec) (f : FTile) (role : Nat) : Nat :=
  ((t.gens.zip f.genPos).map fun g => if g.1.role = role then g.2 else 0).foldl (· + ·) 0

/-- Elements of one width to a 4-byte word. -/
def TileRec.perWord (t : TileRec) : Nat := 32 / t.bits

/-- A clean element is written at a position: a poisoned word all of whose elements the beat writes loses its mark (18 R440). -/
def FTile.put (t : TileRec) (f : FTile) (q : Nat) (v : Int) : FTile :=
  let k := q / t.perWord
  let f := { f with data := sput 0 f.data q v }
  if !f.pois.contains k then f
  else
    let anew := nins f.anew q
    if (List.range t.perWord).all fun i => anew.contains (k * t.perWord + i) then { f with pois := f.pois.filter (· ≠ k), anew := anew }
    else { f with anew := anew }

/-- Write element A of a stream: a buffer of an operand store is full once as many elements as it holds have been written. None where the line or buffer is still full. `last` ends the stream, `mk` is the take generator's mark. -/
def FTile.write (t : TileRec) (f : FTile) (A : Nat) (last : Bool) (mk : Nat) (v : Int) : Option FTile :=
  let v := signedOf v t.bits
  match t.mode with
  | 0 =>
    let q := A % t.size
    if f.full.contains f.wbuf then none
    else
      let f := f.put t (f.wbuf * t.size + q) v
      if f.wlines + 1 = t.size ∨ last ∨ (t.close ≠ 0 ∧ t.close ≤ mk) then
        some { f with full := nins f.full f.wbuf, wbuf := (f.wbuf + 1) % t.buffers, wlines := 0 }
      else some { f with wlines := f.wlines + 1 }
  | 1 =>
    let q := A % t.size
    if f.full.contains (q / t.epl) then none
    else
      let f := f.put t q v
      some (if (q + 1) % t.epl = 0 ∨ last then { f with full := nins f.full (q / t.epl) } else f)
  | _ =>
    let q := A % t.size
    let f := f.put t q v
    if (q + 1) % t.epl = 0 then some { f with wlines := max f.wlines (A / t.epl + 1) }
    else if last then
      some { f with data := clearRun f.data (q + 1) (t.epl - 1 - q % t.epl), wlines := max f.wlines (A / t.epl + 1) }
    else some f

/-- Read element A of a stream: none where its line or buffer is empty. `fin` is the last read of an operand-store buffer. -/
def FTile.read (t : TileRec) (f : FTile) (A : Nat) (fin : Bool) : Option (Int × FTile) :=
  let q := A % t.size
  match t.mode with
  | 0 =>
    if !f.full.contains f.rbuf then none
    else
      let v := sget 0 f.data (f.rbuf * t.size + q)
      some (v, if fin then
          { f with
            full := f.full.filter (· ≠ f.rbuf)
            data := clearRun f.data (f.rbuf * t.size) t.size
            rbuf := (f.rbuf + 1) % t.buffers }
        else f)
  | 1 =>
    let line := q / t.epl
    if !f.full.contains line then none
    else
      let v := sget 0 f.data q
      some (v, if (q + 1) % t.epl = 0 then
          { f with full := f.full.filter (· ≠ line), data := clearRun f.data (line * t.epl) t.epl } else f)
  | _ => if A / t.epl < f.wlines then some (sget 0 f.data q, f) else none

/-- The word that holds an element is poisoned. -/
def FTile.bad (t : TileRec) (f : FTile) (A : Nat) : Bool :=
  let q := (if t.mode = 0 then f.rbuf * t.size else 0) + A % t.size
  f.pois.contains (q / t.perWord)

/-- The element a feed or take generator addresses: within the window of a line buffer as it stands, otherwise within the tile's lines. -/
def GenRec.tileAt (g : GenRec) (t : TileRec) (e : Nat) : Nat := if t.mode = 2 then (g.off e).toNat else (g.off e % (t.size : Int)).toNat

def GenRec.isRole (g : GenRec) (r : Nat) : Bool := decide (g.role = r)

/-- Every stream that writes into a tile has delivered its last element; a gather whose generator block is unused states no last one. -/
def writersEnded (p : Partition) (ti : Nat) : Bool :=
  match p.cur.tiles[ti]?, p.tiles[ti]? with
  | some t, some f =>
    (t.gens.zip f.genPos).all (fun g => !(g.1.isRole 0 || g.1.isRole 2) || decide (g.1.total ≤ g.2))
      && (p.cur.xfers.zip p.streams).all fun x =>
        !(decide (edgeTile p.place p.cur x.1 = some ti) && (decide (x.1.mode = 2) || (decide (x.1.mode = 0) && tileSide p.place p.cur x.1)))
          || (decide (x.1.gen.total ≤ x.2.pos) && !(decide (x.1.mode = 2) && decide (x.1.gen.total = 0)))
  | _, _ => true

/-- The generator that moves next of those of a role, which follow one another in index order (log 101): the first not at its end. -/
def turnOf (t : TileRec) (f : FTile) (role : Nat) : Option Nat :=
  (t.gens.zip f.genPos).findIdx? fun g => g.1.isRole role && decide (g.2 < g.1.total)

/-- The next element of a tile's feed stream with its mark; none stalls. Past the stream's end it is 0 with no mark (R465). The levels of
an operand-store feed count one buffer's reads and begin again with the next. -/
def feedNext (t : TileRec) (ended : Bool) (f : FTile) : Option (Int × Nat × FTile) :=
  match turnOf t f 1 with
  | none => some (0, 0, f)
  | some gi =>
    let g := t.gens.getD gi ⟨0, 0, []⟩
    let e := f.genPos.getD gi 0
    let A := g.tileAt t e
    if t.mode = 0 then
      if !f.full.contains f.rbuf ∧ ended ∧ f.full = [] then some (0, 0, f)
      else
        let here := setAt f.genPos gi (e + 1)
        let fin := (turnOf t { f with genPos := here } 1).isNone
        let pos := if fin then (t.gens.zip here).map fun x => if x.1.isRole 1 then 0 else x.2 else here
        (f.read t A fin).map fun r => (r.1, g.mark e, { r.2 with genPos := pos })
    else (f.read t A false).map fun r => (r.1, g.mark e, { r.2 with genPos := setAt r.2.genPos gi (e + 1) })

/-- Eight elements of the feed stream as lanes 0 to 7. -/
def feedLanes (t : TileRec) (ended : Bool) : Nat → FTile → Option (List Int × Nat × FTile)
  | 0, f => some ([], 0, f)
  | n + 1, f =>
    match feedNext t ended f with
    | none => none
    | some (v, m, f) => (feedLanes t ended n f).map fun r => (v :: r.1, max m r.2.1, r.2.2)

/-- The exponent in the slot of the line that the feed reads next. -/
def feedExp (t : TileRec) (f : FTile) : Option Nat :=
  match (if t.bits = 16 then turnOf t f 1 else none) with
  | none => none
  | some gi =>
    let A := (t.gens.getD gi ⟨0, 0, []⟩).tileAt t (f.genPos.getD gi 0) % t.size
    tget f.exps (((if t.mode = 0 then f.rbuf * t.size else 0) + A) / t.epl)

/-- The feed's next element lies in a poisoned word. -/
def feedPoisoned (t : TileRec) (f : FTile) : Bool :=
  match turnOf t f 1 with
  | none => false
  | some gi =>
    let g := t.gens.getD gi ⟨0, 0, []⟩
    let e := f.genPos.getD gi 0
    (List.range 8).any fun k => decide (e + k < g.total) && f.bad t (g.tileAt t (e + k))

/-- A value taken by the write ports: the take stream's next element, discarded where there is none. -/
def takeNext (t : TileRec) (f : FTile) (v : Int) : Option FTile :=
  match turnOf t f 2 with
  | none => some f
  | some gi =>
    let g := t.gens.getD gi ⟨0, 0, []⟩
    let e := f.genPos.getD gi 0
    (f.write t (g.tileAt t e) (decide (e + 1 = g.total)) (g.mark e) v).map fun f => { f with genPos := setAt f.genPos gi (e + 1) }

def takeAll (t : TileRec) : List Int → FTile → Option FTile
  | [], f => some f
  | v :: r, f => match takeNext t f v with | some f => takeAll t r f | none => none

/-! ### Movement of generators, transfer units and converters -/

/-- What stops a movement: a translation fault of source 3 or 4 (R262), an abort with a status and a detail, a context fault, or a wait. -/
inductive GStop where
  | freeze (source : Nat) (f : XFault) | abort (code : Nat) (detail : DWord) | cut | wait
deriving DecidableEq, Repr

def GBad.stop (source : Nat) : GBad → GStop
  | .xlat f => .freeze source f
  | .range a => .abort Code.addr (BitVec.ofInt 64 a)
  | .lost a => .abort Code.linkLost (BitVec.ofNat 64 a)
  | .poison a => .abort Code.poison (BitVec.ofNat 64 a)
  | .cut => .cut
  | .wait => .wait

/-- A movement in progress. -/
structure Mv where
  s    : State
  p    : Partition
  stop : Option GStop

/-- Read n bytes, byte by byte where they cross a page. -/
def gReadAny (s : State) (ctx die : Nat) (a : Int) (n : Nat) : GRes (List Byte) :=
  if a % 65536 + n ≤ 65536 then gRead s ctx die a n
  else
    (List.range n).foldl (fun (r : GRes (List Byte)) (k : Nat) =>
      match r with
      | (.error e, s) => (.error e, s)
      | (.ok bs, s) => match gRead s ctx die (a + (k : Int)) 1 with | (.error e, s) => (.error e, s) | (.ok b, s) => (.ok (bs ++ b), s)) (.ok [], s)

/-- Write bytes through the context's pages, split where they cross a line. -/
def gWriteGo (ctx die : Nat) (who : Debt) : State → Int → List Byte → GRes Unit
  | s, _, [] => (.ok (), s)
  | s, a, b :: r =>
    match gXlate s ctx die a accWrite with
    | (.error e, s) => (.error e, s)
    | (.ok (pa, cls), s) => gWriteGo ctx die who (storeDie s die ctx who cls pa [b] false) (a + 1) r

def gWrite (s : State) (ctx die : Nat) (who : Debt) (a : Int) (bs : List Byte) : GRes Unit :=
  if a % 128 + bs.length ≤ 128 then
    match gXlate s ctx die a accWrite with
    | (.error e, s) => (.error e, s)
    | (.ok (pa, cls), s) => (.ok (), storeDie s die ctx who cls pa bs false)
  else gWriteGo ctx die who s a bs

/-- The n little-endian bytes of a value. -/
def valBytes (v : Int) (n : Nat) : List Byte := leBytes (v % 2 ^ (8 * n)).toNat n

def argOf (p : Partition) (k : Nat) : Int := (sget 0 p.args k).toNat

def Mv.fail (m : Mv) (e : GStop) : Mv := { m with stop := some e }
def Mv.at (m : Mv) (s : State) : Mv := { m with s := s }

/-- Memory as a partition's movement reads and writes it; its writes are owed to the partition (09 R193). -/
def Mv.read (m : Mv) (a : Int) (n : Nat) : GRes (List Byte) := gReadAny m.s m.p.ctx m.p.die a n
def Mv.write (m : Mv) (a : Int) (bs : List Byte) : GRes Unit := gWrite m.s m.p.ctx m.p.die (.part (partKey m.p.ctx m.p.num)) a bs
def Mv.tile (m : Mv) (ti : Nat) (f : FTile) : Mv :=
  { m with s := spend m.s m.p.die m.p.ctx 13 1, p := { m.p with tiles := setAt m.p.tiles ti f } }
def Mv.stream (m : Mv) (xi : Nat) (f : FStream) : Mv := { m with p := { m.p with streams := setAt m.p.streams xi f } }

/-- Elements that streams have written into a tile in sequence: by fill generators and by a transfer unit. -/
def seqIn (p : Partition) (ti : Nat) (t : TileRec) (f : FTile) : Nat :=
  movedBy t f 0 + ((p.cur.xfers.zip p.streams).map fun x =>
    if edgeTile p.place p.cur x.1 = some ti ∧ (x.1.mode = 2 ∨ (x.1.mode = 0 ∧ tileSide p.place p.cur x.1)) then x.2.pos else 0).foldl (· + ·) 0

def seqOut (p : Partition) (ti : Nat) (t : TileRec) (f : FTile) : Nat :=
  movedBy t f 3 + ((p.cur.xfers.zip p.streams).map fun x =>
    if edgeTile p.place p.cur x.1 = some ti ∧ x.1.mode = 1 ∧ tileSide p.place p.cur x.1 then x.2.pos else 0).foldl (· + ·) 0

/-- Where a sequential writer's next element goes: in an operand store, the next place of the buffer. -/
def seqA (p : Partition) (ti : Nat) (t : TileRec) (f : FTile) : Nat := if t.mode = 0 then f.wlines else seqIn p ti t f

/-- One element of a fill generator. -/
def fillOne (m : Mv) (ti gi : Nat) : Mv :=
  match m.stop, m.p.cur.tiles[ti]?, m.p.tiles[ti]? with
  | none, some t, some f =>
    let g := t.gens.getD gi ⟨0, 0, []⟩
    let e := f.genPos.getD gi 0
    let A := seqA m.p ti t f
    let last := decide (e + 1 = g.total)
    if g.total ≤ e ∨ (f.write t A last 0 0).isNone then m
    else
      match m.read (argOf m.p g.arg + g.off e) (t.bits / 8) with
      | (.error b, s) => (m.at s).fail (b.stop 3)
      | (.ok bs, s) =>
        match f.write t A last 0 (leNat bs) with
        | some f => (m.at s).tile ti { f with genPos := setAt f.genPos gi (e + 1) }
        | none => m.at s
  | _, _, _ => m

/-- One element of a spill generator. -/
def spillOne (m : Mv) (ti gi : Nat) : Mv :=
  match m.stop, m.p.cur.tiles[ti]?, m.p.tiles[ti]? with
  | none, some t, some f =>
    let g := t.gens.getD gi ⟨0, 0, []⟩
    let e := f.genPos.getD gi 0
    let A := seqOut m.p ti t f
    if g.total ≤ e then m
    else
      match f.read t A (decide ((A + 1) % t.size = 0) || decide (e + 1 = g.total)) with
      | none => m
      | some (v, f') =>
        if f.bad t A then m.fail (.abort Code.poison 0)
        else
          match m.write (argOf m.p g.arg + g.off e) (valBytes v (t.bits / 8)) with
          | (.error b, s) => (m.at s).fail (b.stop 3)
          | (.ok _, s) => (m.at s).tile ti { f' with genPos := setAt f'.genPos gi (e + 1) }
  | _, _, _ => m

/-- One element a transfer unit streams from memory into its edge tile (mode 0), or out of it (mode 1). -/
def streamTile (m : Mv) (xi ti : Nat) (x : XferRec) : Mv :=
  match m.stop, m.p.cur.tiles[ti]?, m.p.tiles[ti]?, m.p.streams[xi]? with
  | none, some t, some f, some st =>
    let a := argOf m.p x.base + x.gen.off st.pos
    let last := decide (st.pos + 1 = x.gen.total)
    if x.gen.total ≤ st.pos then m
    else if x.mode = 0 then
      let A := seqA m.p ti t f
      if (f.write t A last 0 0).isNone then m
      else
        match m.read a x.esz with
        | (.error b, s) => (m.at s).fail (b.stop 4)
        | (.ok bs, s) =>
          match f.write t A last 0 (signedOf (leNat bs) (8 * x.esz)) with
          | some f => ((m.at s).tile ti f).stream xi { st with pos := st.pos + 1 }
          | none => m.at s
    else
      let A := seqOut m.p ti t f
      match f.read t A (decide ((A + 1) % t.size = 0) || last) with
      | none => m
      | some (v, f') =>
        if f.bad t A then m.fail (.abort Code.poison 0)
        else
          match m.write a (valBytes v x.esz) with
          | (.error b, s) => (m.at s).fail (b.stop 4)
          | (.ok _, s) => ((m.at s).tile ti f').stream xi { st with pos := st.pos + 1 }
  | _, _, _, _ => m

/-- The bound of a gather or scatter index (R278). -/
def boundBad (p : Partition) (x : XferRec) (v : Nat) : Bool := decide (argOf p x.bound ≤ v)

/-- One waiting gather request: its response enters the edge tile. -/
def gatherOne (m : Mv) (xi ti : Nat) (x : XferRec) : Mv :=
  match m.stop, m.p.cur.tiles[ti]?, m.p.tiles[ti]?, m.p.streams[xi]? with
  | none, some t, some f, some st =>
    match st.queue with
    | [] => m
    | (q, _, _) :: r =>
      let v := (q % 2 ^ 32).toNat
      let a := argOf m.p x.base + (v * x.esz : Nat)
      let A := seqA m.p ti t f
      let last := decide (st.pos + 1 = x.gen.total)
      if boundBad m.p x v then m.fail (.abort Code.addr (BitVec.ofInt 64 a))
      else if (f.write t A last 0 0).isNone then m
      else
        match m.read a x.esz with
        | (.error b, s) => (m.at s).fail (b.stop 4)
        | (.ok bs, s) =>
          match f.write t A last 0 (signedOf (leNat bs) (8 * x.esz)) with
          | some f =>
            ((m.at s).tile ti f).stream xi { st with
              pos := st.pos + 1
              queue := r }
          | none => m.at s
  | _, _, _, _ => m

/-- One waiting scatter request, an index and its data. -/
def scatterOne (m : Mv) (xi : Nat) (x : XferRec) : Mv :=
  match m.stop, m.p.streams[xi]? with
  | none, some st =>
    match st.queue with
    | (q, _, _) :: (dat, _, _) :: r =>
      let v := (q % 2 ^ 32).toNat
      let a := argOf m.p x.base + (v * x.esz : Nat)
      if boundBad m.p x v then m.fail (.abort Code.addr (BitVec.ofInt 64 a))
      else
        match m.write a (valBytes dat x.esz) with
        | (.error b, s) => (m.at s).fail (b.stop 4)
        | (.ok _, s) => (m.at s).stream xi { st with
            pos := st.pos + 1
            queue := r }
    | _ => m
  | _, _ => m

/-- The formats of a converter (02 R43). -/
def convFmt (c : ConvRec) : Fmt := if c.fmt = 8 then fF16 else if c.fmt = 9 then fBF16 else if c.fmt = 12 then fE4M3 else fE5M2

/-- floor(log2) of a positive dyadic, and the larger of two magnitudes. -/
def Num.top : Num → Option Int
  | .fin _ n e => if n = 0 then none else some (n.log2 + e)
  | _ => none

/-- The exponent of a BFX16 vector (08 R173). -/
def bfxExp (xs : List Num) : Nat :=
  match xs.foldl (fun (t : Option Int) x =>
    match x.top, t with
    | some a, some b => some (max a b)
    | some a, none => some a
    | none, t => t) none with
  | none => 1
  | some t => (max 1 (t + 127)).toNat

/-- A mantissa: round(x × 2^(141 − e), RNE); 0 for an infinity or NaN. -/
def bfxMant (e : Nat) : Num → Int
  | .fin neg n x =>
    let r := (roundAt .rne neg n (x + 141 - e)).1
    if neg then -(r : Int) else r
  | _ => 0

/-- Elements of a stream read from memory, up to n of them. -/
def readElems (p : Partition) (st : FStream) (x : XferRec) : Nat → Nat → State → GRes (List Nat)
  | 0, _, s => (.ok [], s)
  | n + 1, k, s =>
    if x.gen.total ≤ st.pos + k then (.ok [], s)
    else
      match gReadAny s p.ctx p.die (argOf p x.base + x.gen.off (st.pos + k)) x.esz with
      | (.error e, s) => (.error e, s)
      | (.ok bs, s) => match readElems p st x n (k + 1) s with | (.error e, s) => (.error e, s) | (.ok r, s) => (.ok (leNat bs :: r), s)

/-- A stream-in unit of a die-edge port fetches what its ports next give: a vector of 64 for its converter, or eight elements, each entering a
32-bit lane, up to what all eight ports of the edge tile take in a beat. -/
def streamPort (m : Mv) (xi : Nat) (x : XferRec) : Mv :=
  match m.stop, m.p.streams[xi]? with
  | none, some st =>
    let conv := m.p.cur.conv x.side x.row false
    if (if conv.isSome then 8 else 64) ≤ st.queue.length ∨ x.gen.total ≤ st.pos then m
    else
      let mark (k : Nat) : Nat := x.gen.mark (st.pos + k)
      match conv with
      | some c =>
        (match readElems m.p st x 64 0 m.s with
         | (.error e, s) => (m.at s).fail (e.stop 4)
         | (.ok bs, s) =>
           let F := convFmt c
           let xs := bs.map F.num
           let e := bfxExp xs
           let ms := xs.zipIdx.map fun x => (bfxMant e x.1, mark x.2, e)
           let pad := List.replicate (64 - ms.length) ((0 : Int), 0, e)
           let m := { m with
             s := s
             p := { m.p with nonfin := m.p.nonfin + (xs.filter fun (y : Num) => !y.finite).length } }
           m.stream xi { st with
             pos := st.pos + bs.length
             queue := st.queue ++ ms ++ pad })
      | none =>
        match readElems m.p st x 8 0 m.s with
        | (.error e, s) => (m.at s).fail (e.stop 4)
        | (.ok bs, s) =>
          (m.at s).stream xi { st with
            pos := st.pos + bs.length
            queue := st.queue ++ bs.zipIdx.map fun v => (signedOf (v.1 : Int) (min 32 (8 * x.esz)), mark v.2, 0) }
  | _, _ => m

/-- The converted output element k (08 R174, R277): none of its flags are kept. -/
def convOut (c : ConvRec) (v : Int) (frac e : Nat) (scale : Nat) : Nat :=
  let F := convFmt c
  let x : Num := .fin (decide (v < 0)) v.natAbs ((e : Int) - 141 - frac)
  match fF32.num scale with
  | .fin s n d => if n = 0 ∨ v = 0 then 0 else (F.round .rne true (x.mul (.fin s n d))).1
  | _ => F.canon

/-- One element a stream-out unit writes from its port. -/
def streamOut (m : Mv) (xi : Nat) (x : XferRec) : Mv :=
  match m.stop, m.p.streams[xi]? with
  | none, some st =>
    match st.queue with
    | [] => m
    | (v, frac, e) :: r =>
      let a := argOf m.p x.base + x.gen.off st.pos
      let bytes : GRes (List Byte) :=
        match m.p.cur.conv x.side x.row true with
        | none => (.ok (valBytes v x.esz), m.s)
        | some c =>
          let n0 := (x.gen.levels.getD 0 (1, 0)).1
          match m.read (argOf m.p c.scale + (4 * (st.pos % n0) : Nat)) 4 with
          | (.error b, s) => (.error b, s)
          | (.ok bs, s) => (.ok (leBytes (convOut c v frac e (leNat bs)) x.esz), s)
      match bytes with
      | (.error b, s) => (m.at s).fail (b.stop 4)
      | (.ok bs, s) =>
        match (m.at s).write a bs with
        | (.error b, s) => (m.at s).fail (b.stop 4)
        | (.ok _, s) => (m.at s).stream xi { st with
            pos := st.pos + 1
            queue := r }
  | _, _ => m

def times (f : Mv → Mv) : Nat → Mv → Mv
  | 0, m => m
  | n + 1, m => times f n (f m)

/-- What a transfer unit moves in one beat: the spec states no rate but scatter's four requests (log 54). -/
def moveXfer (input : Bool) (m : Mv) (xi : Nat) (x : XferRec) : Mv :=
  let ti := edgeTile m.p.place m.p.cur x
  match x.mode with
  | 0 =>
    if !input then m
    else if tileSide m.p.place m.p.cur x then (match ti with | some ti => times (fun m => streamTile m xi ti x) 8 m | none => m)
    else streamPort m xi x
  | 1 =>
    if tileSide m.p.place m.p.cur x then (match ti with | some ti => times (fun m => streamTile m xi ti x) 8 m | none => m)
    else times (fun m => streamOut m xi x) 64 m
  | 2 => (match ti with | some ti => times (fun m => gatherOne m xi ti x) 8 m | none => m)
  | _ => times (fun m => scatterOne m xi x) 4 m

/-- Movement for one region: its tiles' fills and spills, and its transfer units with their converters. Input moves only where it may. -/
def moveRegion (input : Bool) (reg : Nat) (m : Mv) : Mv :=
  let m := m.p.cur.tiles.zipIdx.foldl (fun m t =>
    if t.1.region ≠ reg then m
    else t.1.gens.zipIdx.foldl (fun m g =>
      if g.1.isRole 0 ∧ input then times (fun m => fillOne m t.2 g.2) 8 m
      else if g.1.isRole 3 then times (fun m => spillOne m t.2 g.2) 8 m
      else m) m) m
  m.p.cur.xfers.zipIdx.foldl (fun m x => if xferRegion m.p.place m.p.cur x.1 = reg then moveXfer input m x.2 x.1 else m) m

/-! ### Aborts and freezes (R298, R306) -/

/-- The region has stopped, or stands at its boundary: of a faulted object it moves no more (R298). -/
def FRegion.idle (p : Partition) (r : FRegion) : Bool := decide (p.state = .faulted) && (r.done || decide (r.beat = 0))

/-- A phase aborts (R298): the object is faulted, region `ri` stops and the others stop at their next round boundary; all stop where none is
named. The statuses follow at PHASE_END, after every write (R301, R311). `count` is given for a phase that fails its checks; the detail of
POISON is not stated (log 53). A region of a faulted object only stops. -/
def abortPhase (s : State) (k : Nat) (ri : Option Nat) (code : Nat) (count : Option Nat) (detail : DWord) : State :=
  match getPart s k with
  | none => s
  | some p =>
    let quit (r : FRegion) (i : Nat) : FRegion :=
      if r.frozen.isSome ∨ ri = none ∨ ri = some i then { r with frozen := none, done := true } else r
    let q := { p with state := .faulted, regions := p.regions.zipIdx.map fun r => quit r.1 r.2 }
    if p.state = .faulted then setPart s k q
    else
      noteStatus (setPart s k { q with abort := some (code, count, if code = Code.poison then openDWord s 44 else detail) }) p.ctx p.num code

/-- The statuses of an abort (R298, R306): every phase not run completes its sector. -/
def endAbort (s : State) (k : Nat) : State :=
  match getPart s k with
  | some p =>
    (match p.abort with
     | some (code, count, detail) =>
       graphDone (setPart s k { p with abort := none }) p.ctx p.barGid p.bar (p.phases - p.phase) code
         (BitVec.ofNat 32 (count.getD (outSectors p))) detail
     | none => s)
  | none => s

/-- What stopped a movement takes effect: a region frozen on its record, or the phase aborted. -/
def applyStop (s : State) (k ri : Nat) : GStop → State
  | .abort code detail => abortPhase s k (some ri) code none detail
  | .cut => match getPart s k with | some p => contextFault s p.ctx | none => s
  | .wait => s
  | .freeze source f =>
    match getPart s k with
    | none => s
    | some p =>
      let reg := (p.cur.regions.getD ri ⟨0, 0, 0, 0, []⟩).num
      let (s, i) := postFault s p.ctx ⟨source, 0xFFFFFFFF, 0xFFFFFFFF, 0, 0, BitVec.ofNat 64 (reg * 256 + p.num)⟩ f (some (.region k ri))
      match getPart s k, p.regions[ri]? with
      | some q, some r => setPart s k { q with regions := setAt q.regions ri { r with frozen := some i, frozenVa := f.va } }
      | _, _ => s

/-! ### Elements (R279 to R281) -/

def elemKey (row col ey ex : Nat) : Nat := ((row * 16 + col) * 8 + ey) * 8 + ex
def ElemRec.key (e : ElemRec) : Nat := elemKey e.row e.col e.ey e.ex
def entryKey (elem dir j : Nat) : Nat := elem * 32 + dir * 8 + j
/-- Rotating register q of a region that has completed n rounds, sub-vector j. -/
def regKey (elem q n j : Nat) : Nat := (elem * 16 + (q + 16 * n - n) % 16) * 8 + j

/-- What an entry or a rotating register holds before its first value: nothing the spec states (log 53). -/
def openLane (born key l : Nat) : Int :=
  sextN (leNat ((List.range 4).map fun i => Config.freeByte born ((key * 8 + l) * 4 + i))) 32
def openBeat (born key : Nat) : Beat := ⟨(List.range 8).map (openLane born key), 0, none⟩

def zeroBeat : Beat := ⟨List.replicate 8 0, 0, none⟩

/-- A context due in a beat: its index, record, word and sub-vector. -/
structure Due where
  idx : Nat
  e   : ElemRec
  w   : EWord
  j   : Nat
deriving DecidableEq, Repr

def dueOf (ph : Phase) (reg : RegionRec) (sched beat : Nat) : List Due :=
  ph.elems.zipIdx.filterMap fun e =>
    let w := e.1.w
    let st := reg.start e.1.ctx
    if e.1.region = reg.num ∧ w.op ≠ 0 ∧ reg.slotSched e.1.ctx = sched ∧ st ≤ beat ∧ beat < st + w.fold then
      some ⟨e.2, e.1, w, beat - st⟩
    else none

/-- Values pulled for a beat: context index and source code, with the value. -/
abbrev Pulls := List (Nat × Nat × Beat)

/-- A read due: at a tile's read port or a die-edge port, in increasing port order (R465). -/
inductive PullAt where
  | tile (ti : Nat) | stream (xi : Nat)
deriving DecidableEq, Repr

def pullsDue (p : Partition) (ds : List Due) : List (Nat × Nat × Nat × PullAt) :=
  let l := ds.flatMap fun d => (d.w.srcs.eraseDups).filterMap fun c =>
    if c = 21 then
      (p.cur.tiles.findIdx? fun t => decide (t.row = d.e.row) && decide (t.col = d.e.col)).map fun ti => (d.e.ey, d.idx, c, PullAt.tile ti)
    else if c < 4 then
      let side (f : Feed) : Option Nat :=
        match f with
        | .conv n => p.cur.xfers.findIdx? fun x => decide (x.side = bitsOf n 5 5) && decide (x.row = bitsOf n 4 1)
        | .stream sd row => p.cur.xfers.findIdx? fun x => decide (x.side = sd) && decide (x.row = row)
        | _ => none
      (side (feedOf p.place p.cur d.e.row d.e.col d.e.ey d.e.ex c)).map fun xi => (d.e.ey, d.idx, c, PullAt.stream xi)
    else none
  l.foldr (insertBy fun a b => decide (a.1 ≤ b.1)) []

/-- The next eight values of a stream's port; none stalls. -/
def streamNext (x : XferRec) (st : FStream) (rounds : Nat) : Option (Beat × FStream) :=
  if st.queue.length < 8 ∧ st.pos < x.gen.total then none
  else
    let c := st.queue.take 8
    let vs := c.map (·.1) ++ List.replicate (8 - c.length) 0
    let mk := (c.map (·.2.1)).foldl max 0
    let exps := match c with
      | (_, _, e) :: _ => if st.exps.any (fun r => decide (r.1 = rounds)) then st.exps else (rounds, e) :: st.exps.take 15
      | [] => st.exps
    some (⟨vs, mk, match c with | (_, _, e) :: _ => if e = 0 then none else some e | [] => none⟩, { st with
      queue := st.queue.drop 8
      exps := exps })

/-- Make the pulls of a beat, in order; a region that has stopped issuing input gets zeros (R307; log 55). -/
def makePulls (noInput : Bool) (rounds : Nat) : List (Nat × Nat × Nat × PullAt) → Partition → Option (Pulls × Partition)
  | [], p => some ([], p)
  | (_, i, c, at_) :: r, p =>
    if noInput then (makePulls noInput rounds r p).map fun x => ((i, c, zeroBeat) :: x.1, x.2)
    else
      match at_ with
      | .tile ti =>
        (match p.cur.tiles[ti]?, p.tiles[ti]? with
         | some t, some f =>
           let e := feedExp t f
           match feedLanes t (writersEnded p ti) 8 f with
           | none => none
           | some (vs, m, f) =>
             (makePulls noInput rounds r { p with tiles := setAt p.tiles ti f }).map fun x => ((i, c, ⟨vs, m, e⟩) :: x.1, x.2)
         | _, _ => none)
      | .stream xi =>
        match p.cur.xfers[xi]?, p.streams[xi]? with
        | some x, some st =>
          (match streamNext x st rounds with
           | none => none
           | some (b, st) =>
             (makePulls noInput rounds r { p with streams := setAt p.streams xi st }).map fun x => ((i, c, b) :: x.1, x.2))
        | _, _ => none

/-- The value of a source for a due context. -/
def srcBeat (p : Partition) (rounds : Nat) (ps : Pulls) (d : Due) (c : Nat) : Beat :=
  match ps.find? fun x => decide (x.1 = d.idx) && decide (x.2.1 = c) with
  | some x => x.2.2
  | none =>
    let el := d.e.key
    if c < 4 then
      let k := entryKey el c d.j
      (tget p.entries k).getD (openBeat p.born k)
    else if c < 20 then
      let k := regKey el (c - 4) rounds d.j
      (tget p.regs k).getD (openBeat p.born (2 ^ 24 + k))
    else if c = 20 then ⟨List.replicate 8 d.w.k, 0, none⟩
    else zeroBeat

/-- One lane (R280). -/
def elemLane (w : EWord) (a b : Int) : Int :=
  let a := shiftInt a w.sha w.na
  let b := shiftInt b w.shb w.nb
  let v : Int := match w.op with
    | 1 => a + b
    | 2 => a - b
    | 5 => max a b
    | 6 => min a b
    | 7 => max a 0
    | 8 => a.natAbs
    | 9 => a + w.k
    | 10 => if 0 ≤ a then 1 else 0
    | _ => a
  let t := bitsRange w.W
  signedOf (if w.sat then max t.1 (min t.2 v) else v) w.W

/-- A context's result with its mark, and with the exponent of its operands' vector (R294: they have no two). -/
def elemBeat (w : EWord) (a b : Beat) : Beat :=
  ⟨(List.range 8).map fun l => elemLane w (a.lanes.getD l 0) (b.lanes.getD l 0), if w.marks then max a.mark b.mark else 0, a.exp.or b.exp⟩

/-- The result of a due context. -/
def dueBeat (p : Partition) (rounds : Nat) (ps : Pulls) (d : Due) : Beat :=
  let src (k : Nat) : Beat := match d.w.srcs[k]? with | some c => srcBeat p rounds ps d c | none => zeroBeat
  elemBeat d.w (src 0) (src 1)

/-- Where a result goes by each port. -/
def duePorts (p : Partition) (d : Due) : List Dest :=
  ((List.range 4).filter fun k => decide (d.w.ports / 2 ^ k % 2 = 1)).map fun k => route p.place p.cur d.e.row d.e.col d.e.ey d.e.ex k

/-- Values that reach a tile's write ports in a beat, in increasing port order. -/
def writesTo (p : Partition) (rs : List (Due × Beat)) (t : TileRec) : List Int :=
  let l := rs.flatMap fun r => (duePorts p r.1).filterMap fun
    | .write row col port => if row = t.row ∧ col = t.col then some (port, r.2) else none
    | _ => none
  (l.foldr (insertBy fun a b => decide (a.1 ≤ b.1)) []).flatMap fun x => x.2.lanes

/-- Values that leave by the die-edge ports of a transfer unit in a beat, with the producer's fraction bits. -/
def outsTo (p : Partition) (rs : List (Due × Beat)) (x : XferRec) : List (Int × Nat) :=
  let only := (p.cur.conv x.side x.row true).map (·.port)
  let l := rs.flatMap fun r => (duePorts p r.1).filterMap fun
    | .edge side row port =>
      if side = x.side ∧ row = x.row ∧ (only = none ∨ only = some port) then some (port, r) else none
    | _ => none
  (l.foldr (insertBy fun a b => decide (a.1 ≤ b.1)) []).flatMap fun y => y.2.2.lanes.map fun v => (v, y.2.1.w.frac)

/-- The exponent of the vector that an input converter delivered so many rounds earlier. -/
def convExp (p : Partition) (num back rounds : Nat) : Option Nat :=
  match p.cur.xfers.findIdx? fun x => decide (x.side = bitsOf num 5 5) && decide (x.row = bitsOf num 4 1) with
  | some xi => ((p.streams.getD xi ⟨0, [], []⟩).exps.find? fun (r : Nat × Nat) => decide (r.1 + back = rounds)).map Prod.snd
  | none => none

/-- The exponent an output converter uses: of its pair's vector, lag rounds earlier (R277); free where there is none. -/
def pairExp (p : Partition) (c : ConvRec) (rounds : Nat) : Nat :=
  (convExp p c.pair c.lag rounds).getD (Config.freeByte p.born (2 ^ 28 + c.num * 65536 + rounds)).toNat

/-- The lines of a tile into which n elements of mantissas are written take the exponent of their vector into the slots paired with them (08
R172). -/
def slotExp (p : Partition) (rs : List (Due × Beat)) (t : TileRec) (n : Nat) (before f : FTile) : FTile :=
  if t.bits ≠ 16 then f
  else
    let e := firstSome (rs.map fun r =>
      if (duePorts p r.1).any fun x => match x with | .write row col _ => decide (row = t.row) && decide (col = t.col) | _ => false then
        r.2.exp else none)
    match e, turnOf t before 2 with
    | some e, some gi =>
      (List.range n).foldl (fun f k =>
        let A := (t.gens.getD gi ⟨0, 0, []⟩).tileAt t (before.genPos.getD gi 0 + k) % t.size
        { f with exps := tput f.exps (((if t.mode = 0 then before.wbuf * t.size else 0) + A) / t.epl) e }) f
    | _, _ => f

/-- Values leave by a transfer unit's ports: those past a stream-out's end are discarded (R465), and a unit that still holds values makes the
region wait. A scatter takes lane pairs, a gather lane values, each a request (R278). -/
def sendOut (p : Partition) (rounds : Nat) (x : XferRec) (st : FStream) (vs : List (Int × Nat)) : Option FStream :=
  if vs = [] then some st
  else if x.mode = 1 ∧ x.gen.total ≤ st.pos then some st
  else if st.queue ≠ [] then none
  else
    let e := match p.cur.conv x.side x.row true with | some c => pairExp p c rounds | none => 0
    some { st with queue := ((if x.mode = 1 then vs.take (x.gen.total - st.pos) else vs).map fun v => (v.1, v.2, e)) }

/-- Apply results to tiles, none where a target is full. The tiles are tested as they stood before the beat's reads. -/
def putTiles (p : Partition) (rs : List (Due × Beat)) (before : List FTile) :
    List (TileRec × Nat) → List FTile → Option (List FTile)
  | [], ts => some ts
  | (t, ti) :: r, ts =>
    let vs := writesTo p rs t
    if vs = [] then putTiles p rs before r ts
    else
      match (before[ti]?).bind (takeAll t vs), ts[ti]?, (ts[ti]?).bind (takeAll t vs) with
      | some _, some g, some f => putTiles p rs before r (setAt ts ti (slotExp p rs t vs.length g f))
      | _, _, _ => none

def putStreams (p : Partition) (rounds : Nat) (rs : List (Due × Beat)) : List (XferRec × Nat) → List FStream → Option (List FStream)
  | [], ss => some ss
  | (x, xi) :: r, ss =>
    match ss[xi]? with
    | none => none
    | some st =>
      let vs := if x.mode = 0 then [] else outsTo p rs x
      match sendOut p rounds x st vs with
      | none => none
      | some st => putStreams p rounds rs r (setAt ss xi st)

/-- Values in flight that have arrived land in their entries. -/
def landed (p : Partition) (r : FRegion) (tick : Nat) : Table Beat :=
  (r.flight.filter fun f => decide (f.1 ≤ tick)).foldl (fun t f => tput t f.2.1 f.2.2) p.entries

/-- Values that a due context sends to the transfer unit of a side and row. -/
def dueSends (p : Partition) (d : Due) (x : XferRec) : Bool :=
  decide (x.mode ≠ 0) && (duePorts p d).any fun e => match e with | .edge side row _ => decide (side = x.side) && decide (row = x.row) | _ => false

/-- A port access of a stream that belongs to region ri, due in another region's beat, cannot be made: it holds region ri's beat counter
(R278, R285), and with it the region whose context makes it (log 102). -/
def foreignStall (p : Partition) (ri : Nat) : Bool :=
  (p.cur.regions.zip p.regions).zipIdx.any fun g =>
    if g.2 = ri ∨ g.1.2.done ∨ g.1.2.halted then false
    else
      let ds := dueOf p.cur g.1.1 g.1.2.sched g.1.2.beat
      let mine (x : XferRec) : Bool := decide ((p.cur.regions[ri]?).map (·.num) = some (xferRegion p.place p.cur x))
      let pulls := !g.1.2.noInput && (pullsDue p ds).any fun q =>
        match q.2.2.2 with
        | .stream xi => (match p.cur.xfers[xi]?, p.streams[xi]? with
          | some x, some st => mine x && (streamNext x st g.1.2.rounds).isNone
          | _, _ => false)
        | .tile _ => false
      pulls || (p.cur.xfers.zip p.streams).any fun x =>
        mine x.1 && decide (x.2.queue ≠ []) && !(decide (x.1.mode = 1) && decide (x.1.gen.total ≤ x.2.pos)) && ds.any fun d => dueSends p d x.1

/-- The beat of region ri, if nothing stalls it (R285): landings, reads, results, writes. -/
def tryBeat (p : Partition) (ri : Nat) : Option Partition :=
  if foreignStall p ri then none else
  match p.cur.regions[ri]?, p.regions[ri]? with
  | some reg, some r =>
    let p1 := { p with entries := landed p r r.tick }
    let ds := dueOf p.cur reg r.sched r.beat
    match makePulls r.noInput r.rounds (pullsDue p1 ds) p1 with
    | none => none
    | some (ps, p2) =>
      let rs := ds.map fun d => (d, dueBeat p2 r.rounds ps d)
      match putTiles p2 rs p.tiles p2.cur.tiles.zipIdx p2.tiles, putStreams p2 r.rounds rs p2.cur.xfers.zipIdx p2.streams with
      | some ts, some ss =>
        let fl := rs.flatMap fun x => (duePorts p2 x.1).filterMap fun
          | .elem row col ey ex dir dist => some (r.tick + dist, entryKey (elemKey row col ey ex) dir x.1.j, x.2)
          | _ => none
        let regs := rs.foldl (fun t x => if x.1.w.we then tput t (regKey x.1.e.key x.1.w.dreg r.rounds x.1.j) x.2 else t) p2.regs
        let cond := rs.foldl (fun c x => if x.1.w.op = 10 then some (x.1.idx, decide (x.2.lanes.getD 0 0 = 1)) else c) r.cond
        let r' := { r with
          beat := r.beat + 1
          tick := r.tick + 1
          cond := cond
          flight := r.flight.filter (fun f => decide (r.tick < f.1)) ++ fl }
        some { p2 with
          tiles := ts
          streams := ss
          regs := regs
          regions := setAt p2.regions ri r' }
      | _, _ => none
  | _, _ => none

/-! ### Milestones of the phase log (R297) -/

def Partition.stampAt (p : Partition) (clk : DWord) (f : Nat) : Partition :=
  { p with
    cycles := sput 0 p.cycles (p.phase * 4 + f) (clk - p.stamp)
    stamp := clk
    mile := f + 1 }

/-- Every output stream of the phase has written. -/
def outputsWriting (p : Partition) : Bool :=
  (p.cur.tiles.zip p.tiles).all (fun x => (x.1.gens.zip x.2.genPos).all fun g => !g.1.isRole 3 || decide (0 < g.2))
    && (p.cur.xfers.zip p.streams).all fun x => !(decide (x.1.mode = 1) || decide (x.1.mode = 3)) || decide (0 < x.2.pos)

/-! ### FABRIC_BEAT (R285) -/

def running (p : Partition) : Bool := (decide (p.state = .streaming) || decide (p.state = .draining) || decide (p.state = .faulted)) && !p.saved

/-- The context runs: it is neither leaving nor out. -/
def ctxRuns (s : State) (ctx : Nat) : Bool :=
  match getCtx s ctx with
  | some c => (decide (c.state = .resident) || decide (c.state = .ready)) && c.leaving.isNone
  | none => false

/-- The context is on its way out: each region finishes its round, then moves output only (R299). -/
def ctxLeaves (s : State) (ctx : Nat) : Bool :=
  match getCtx s ctx with
  | some c => c.leaving.isSome
  | none => false

/-- The active schedule's initiation interval of a region. -/
def regionII (p : Partition) (ri : Nat) : Nat :=
  match p.cur.regions[ri]?, p.regions[ri]? with
  | some reg, some r => reg.II r.sched
  | _, _ => 0

/-- The feed a due context reads next is poisoned (18 R440). -/
def beatPoisoned (p : Partition) (ri : Nat) : Bool :=
  match p.cur.regions[ri]?, p.regions[ri]? with
  | some reg, some r =>
    !r.noInput && (pullsDue p (dueOf p.cur reg r.sched r.beat)).any fun x =>
      match x.2.2.2 with
      | .tile ti => (match p.cur.tiles[ti]?, p.tiles[ti]? with | some t, some f => feedPoisoned t f | _, _ => false)
      | .stream _ => false
  | _, _ => false

/-- A beat's work is counted: the shift-adds of its contexts, one a lane (18 R454, event 14; R456, entry 12), and the accesses of memory tiles by
read ports and write ports (entry 13). -/
def countBeat (s : State) (p : Partition) (ri : Nat) : State :=
  match p.cur.regions[ri]?, p.regions[ri]? with
  | some reg, some r =>
    let ds := dueOf p.cur reg r.sched r.beat
    let reads := (pullsDue p ds).countP fun x => match x.2.2.2 with | .tile _ => !r.noInput | .stream _ => false
    let writes := (ds.flatMap (duePorts p)).countP fun | .write .. => true | _ => false
    let n := 8 * ds.length
    spend (spend (countEvent s p.die p.ctx 14 n) p.die p.ctx 12 n) p.die p.ctx 13 (reads + writes)
  | _, _ => s

/-- FABRIC_BEAT: region r of partition p moves its generators, transfer units and converters by a beat, and runs the sub-vectors due, or
stalls. -/
def execFabricBeat (k : Nat) (rn : BitVec 2) (s : State) : Out :=
  match getPart s k with
  | none => notDue "FABRIC_BEAT"
  | some p =>
    match p.cur.regions.findIdx? fun g => decide (g.num = rn.toNat) with
    | none => notDue "FABRIC_BEAT"
    | some ri =>
      match p.regions[ri]? with
      | none => notDue "FABRIC_BEAT"
      | some r =>
        let leaves := ctxLeaves s p.ctx
        if !running p ∨ r.idle p ∨ (r.halted ∧ !leaves) ∨ !(ctxRuns s p.ctx || leaves) ∨ (!r.done ∧ regionII p ri ≤ r.beat) then notDue "FABRIC_BEAT"
        else
          let rest := r.done || (leaves && decide (r.beat = 0))
          let p := if p.mile = 0 ∧ !rest then p.stampAt s.clk 0 else p
          let stall (s : State) (p : Partition) : State := countEvent (setPart s k { p with stalls := p.stalls + 1 }) p.die p.ctx 13 1
          if r.frozen.isSome then .next (stall s p)
          else
            let m := moveRegion (!rest && !r.noInput) rn.toNat ⟨s, { p with tiles := p.tiles.map fun f => { f with anew := [] } }, none⟩
            let p := if m.p.mile = 1 ∧ outputsWriting m.p then m.p.stampAt s.clk 1 else m.p
            match m.stop with
            | some e => .next (applyStop (if rest then setPart m.s k p else stall m.s p) k ri e)
            | none =>
              if rest then .next (setPart m.s k p)
              else if beatPoisoned p ri then .next (abortPhase (setPart m.s k p) k (some ri) Code.poison none 0)
              else
                match tryBeat p ri with
                | some q => .next (countBeat (setPart m.s k q) p ri)
                | none => .next (stall m.s p)

/-! ### FABRIC_ROUND_BOUNDARY (R286, R287, R296, R307, R446) -/

/-- Every input generator and transfer unit has reached its last element, or no region issues input any more. -/
def inputsDone (p : Partition) : Bool :=
  p.regions.all (fun r => r.noInput) ||
    ((p.cur.tiles.zip p.tiles).zipIdx.all (fun x => (x.1.1.gens.zip x.1.2.genPos).all fun g =>
        if g.1.isRole 0 then decide (g.1.total ≤ g.2)
        else if g.1.isRole 1 then
          (if x.1.1.mode = 0 then writersEnded p x.2 && decide (x.1.2.full = []) else decide (g.1.total ≤ g.2))
        else true)
      && (p.cur.xfers.zip p.streams).all fun x => decide (x.1.mode ≠ 0) || (decide (x.1.gen.total ≤ x.2.pos) && decide (x.2.queue = [])))

/-- The record of a region's debug stop (R446). -/
def fabricStop (s : State) (p : Partition) (reg : Nat) (rounds : Nat) (cond : Option Nat) (code : Nat) : State :=
  let node := match cond with | some i => p.cur.nodes.getD i (0xFFFFFFFF, 0) | none => (0xFFFFFFFF, 0)
  let wh := BitVec.ofNat 32 (p.phase * 4096 + reg * 256 + p.num)
  postEvent s [BitVec.ofNat 32 (p.ctx * 2 ^ 24 + code % 256 * 2 ^ 16 + 4 * 4096), node.1, lo32 s.clk, hi32 s.clk, wh, 0xFFFFFFFF, node.2,
    BitVec.ofNat 32 rounds] 256

/-- The region after its boundary: rounds, schedule, drain. -/
def boundaryRegion (reg : RegionRec) (drain fin : Bool) (r : FRegion) : FRegion :=
  let sched := if drain then r.sched else match r.cond with | some (_, t) => reg.succ r.sched t | none => r.sched
  let noInput := r.noInput || drain
  let fin := fin || noInput
  let drains := if !fin then r.drains else match r.drains with | none => some reg.drain | some n => some (n - 1)
  { r with
    beat := 0
    rounds := r.rounds + 1
    sched := sched
    cond := none
    noInput := noInput
    drains := drains
    done := r.done || decide (drains = some 0) }

/-- FABRIC_ROUND_BOUNDARY: the beat counter of region r wraps. A schedule changes once every value in flight has been consumed, so those
of the old schedule land first. -/
def execFabricRoundBoundary (k : Nat) (rn : BitVec 2) (s : State) : Out :=
  match getPart s k with
  | none => notDue "FABRIC_ROUND_BOUNDARY"
  | some p =>
    match p.cur.regions.findIdx? fun g => decide (g.num = rn.toNat) with
    | none => notDue "FABRIC_ROUND_BOUNDARY"
    | some ri =>
      match p.cur.regions[ri]?, p.regions[ri]? with
      | some reg, some r =>
        if !running p ∨ r.halted ∨ r.done ∨ r.frozen.isSome ∨ r.beat < reg.II r.sched ∨ !(ctxRuns s p.ctx || ctxLeaves s p.ctx) then
          notDue "FABRIC_ROUND_BOUNDARY"
        else
          let fin := inputsDone p
          let r' := boundaryRegion reg p.drainReq fin r
          let switched := decide (r'.sched ≠ r.sched)
          let ctl := match getCtx s p.ctx with | some c => c.dbgctl | none => 0
          let why := if switched ∧ ctl.getLsbD 4 then some Code.cstop else if r.stop then some Code.dstop else none
          let entries := if switched then r.flight.foldl (fun t f => tput t f.2.1 f.2.2) p.entries else p.entries
          let r' := { r' with
            done := r'.done || decide (p.state = .faulted)
            flight := if switched then [] else r'.flight
            halted := why.isSome
            stop := if why.isSome then false else r.stop }
          let q := { p with regions := setAt p.regions ri r', entries := entries }
          let all := inputsDone q
          let q := if all ∧ q.state = .streaming then
              let q := if q.mile = 1 then q.stampAt s.clk 1 else q
              { q.stampAt s.clk 2 with state := .draining }
            else q
          let s := setPart s k q
          .next (match why with
            | some code => fabricStop s p rn.toNat r'.rounds (r.cond.map (·.1)) code
            | none => s)
      | _, _ => notDue "FABRIC_ROUND_BOUNDARY"

/-- Every region stands at a boundary and nothing of its output is left to move (R299, R306). -/
def outputsIdle (s : State) (k : Nat) (p : Partition) : Bool :=
  let m := p.cur.regions.foldl (fun m g => moveRegion false g.num m) ⟨s, p, none⟩
  decide (m.p = p) && m.stop.isNone && k == partKey p.ctx p.num

/-- The writes of a partition have performed at the scope of the cell that its grun names (09 R193, R199): at device or system scope the
S-class ones by their write-backs. -/
def partPerformed (s : State) (k : Nat) (p : Partition) : Bool :=
  !owes s (.part k) || decide (p.bar = 0) ||
    (match findCell s p.ctx (some p.barGid) p.bar accRead with
     | .ok at_ => decide ((readCell s at_).scope < 4)
     | .error _ => true)

end Sys2Proof.Machine
end

