-- ==== Sys2Proof/Machine/Graph.lean ====
section
/-!
DEFINITION. Graph objects and their commands (13 R296 to R309, R311): the graph instructions, and the meanings of GRAPH_COMMAND_APPLY,
GLOAD_COMPLETE and PHASE_END; partitions held and restored (R302, R303, 03 R71).
-/
namespace Sys2Proof.Machine

/-! ### The instructions (R301) -/

def gpart (x : Fire) : Nat := (x.aw x.low).toNat

/-- The checks every graph instruction makes, then its own. -/
def graphCode (x : Fire) (own : Bool) : Option Nat :=
  if 3 < gpart x then some Code.graphOperand
  else if !Nat.testBit (Img.gparts x.f.words) (gpart x) then some Code.graphAccess
  else if own then some Code.graphOperand
  else none

/-- A graph command: the checks, the barrier operand if it has one, and the command for commit. -/
def fireGraph (m : String) (st : State) (g : Guard) (need : List Nat) (bar : Fire → DWord) (bad : Fire → Bool) (cmd : Fire → GCmd) : Out :=
  let wait (x : Fire) : Bool := (graphCode x false).isNone && decide (bar x ≠ 0) && cellWaits st x (bar x)
  fireHeld m st g need [] wait fun x =>
    if !x.any then Fired.now st Effects.none
    else
      match graphCode x false with
      | some c => Fired.now st { Effects.none with causes := [fireCause x c] }
      | none =>
        let k : CellCheck := if bar x = 0 then ⟨none, [], st⟩ else checkCell st x (bar x) cellRW
        let cs := k.causes ++ (if k.causes = [] ∧ bad x then [fireCause x Code.graphOperand] else [])
        Fired.now k.st { Effects.none with causes := cs, cmds := if cs = [] then [.graph (gpart x) (cmd x) (bar x)] else [] }

def execGload (g : Guard) (st : State) : Out :=
  fireGraph "GLOAD" st g [0, 1, 2] (fun x => x.cv x.low) (fun x => decide ((x.bv x.low).toNat % 64 ≠ 0)) fun x => .gload (x.bv x.low)
def execGrun (g : Guard) (st : State) : Out :=
  fireGraph "GRUN" st g [0, 1] (fun x => x.bv x.low) (fun _ => false) fun _ => .grun
def execGarg (g : Guard) (st : State) : Out :=
  fireGraph "GARG" st g [0, 1, 2] (fun _ => 0) (fun x => decide (15 < (x.bw x.low).toNat)) fun x => .garg (x.bw x.low).toNat (x.cv x.low)
def execGdrain (g : Guard) (st : State) : Out :=
  fireGraph "GDRAIN" st g [0] (fun _ => 0) (fun _ => false) fun _ => .gdrain
def execGrel (g : Guard) (st : State) : Out :=
  fireGraph "GREL" st g [0, 1] (fun x => x.bv x.low) (fun _ => false) fun _ => .grel
def execGfree (g : Guard) (st : State) : Out :=
  fireGraph "GFREE" st g [0, 1] (fun x => x.bv x.low) (fun _ => false) fun _ => .gfree

/-- A galloc shape (R302). -/
structure Shape where
  any : Bool
  die : Nat
  j0  : Nat
  y0  : Nat
  w   : Nat
  h   : Nat
deriving DecidableEq, Repr

def shapeOf (v : Word) : Shape := ⟨v.getLsbD 18, wbits v 17 16, wbits v 3 0, wbits v 11 8, wbits v 7 4 + 1, wbits v 15 12 + 1⟩

def shapeBad (v : Word) : Bool :=
  let q := shapeOf v
  decide (wbits v 31 19 ≠ 0) || (!q.any && (decide (16 < q.j0 + q.w) || decide (16 < q.y0 + q.h)))

def execGalloc (g : Guard) (st : State) : Out :=
  fireGraph "GALLOC" st g [0, 1, 2] (fun x => x.cv x.low) (fun x => shapeBad (x.bw x.low)) fun x => .galloc (x.bw x.low)

def GObj.code : GObj → Nat
  | .empty => 0 | .validated => 1 | .resident => 2 | .armed => 3 | .streaming => 4 | .draining => 5 | .drained => 6 | .faulted => 7

def maxRounds (p : Partition) : Nat := (p.regions.map (·.rounds)).foldl max 0

/-- The snapshot gstat reads (R309). -/
def gstatValue (s : State) (ctx num sel : Nat) : DWord :=
  let last : Word := match getCtx s ctx with | some c => c.gstatus.getD num 0 | none => 0
  match getPart s (partKey ctx num) with
  | none => if sel = 0 then last ++ (15 : Word) else 0
  | some p =>
    if sel = 0 then
      last ++ BitVec.ofNat 32 (p.w * p.h * 65536 + p.finaris.toNat * 4096 + (p.phases - 1) * 256 + p.phase * 16 + p.state.code)
    else if sel ≤ 64 then sget 0 p.cycles (sel - 1)
    else if sel = 65 then BitVec.ofNat 64 (maxRounds p)
    else if sel = 66 then BitVec.ofNat 64 p.stalls
    else BitVec.ofNat 64 p.nonfin

def execGstat (g : Guard) (ta tb : Target) (st : State) : Out :=
  fire "GSTAT" st g [0, 1] [] fun x =>
    let sel := (x.bw x.low).toNat
    let cs := if !x.any then [] else match graphCode x (decide (67 < sel)) with | some c => [fireCause x c] | none => []
    Fired.now st { Effects.none with
      toks := both ta tb (x.scalRes true (gstatValue st x.w.ctx (gpart x) sel))
      causes := cs }

/-! ### Pairs (R302, R303, 03 R71) -/

def overlaps (a0 an b0 bn : Nat) : Bool := decide (a0 < b0 + bn) && decide (b0 < a0 + an)

/-- A rectangle of pairs is held by no partition. A saved partition holds none. -/
def pairsFree (s : State) (die j0 y0 w h : Nat) : Bool :=
  !(s.parts.any fun e => !e.2.saved && decide (e.2.die = die) && overlaps e.2.j0 e.2.w j0 w && overlaps e.2.y0 e.2.h y0 h)

def ctxPairs (s : State) (ctx : Nat) : Nat :=
  ((s.parts.filter fun e => decide (e.2.ctx = ctx)).map fun e => e.2.w * e.2.h).foldl (· + ·) 0

/-- Where a galloc is placed: the lowest die, then y0, then j0 that fits, or the place it names. -/
def findPairs (s : State) (q : Shape) : Option (Nat × Nat × Nat) :=
  let all := if q.any then
      (List.range 4).flatMap fun d => (List.range (17 - q.h)).flatMap fun y => (List.range (17 - q.w)).map fun j => (d, y, j)
    else [(q.die, q.y0, q.j0)]
  all.find? fun c => pairsFree s c.1 c.2.2 c.2.1 q.w q.h

/-- An empty partition. -/
def Partition.empty (ctx num die j0 y0 w h : Nat) : Partition :=
  { ctx := ctx, num := num, die := die, j0 := j0, y0 := y0, w := w, h := h, state := .empty, image := 0, finaris := false, phases := 0
    phase := 0, argmask := 0, args := [], bound := 0, align := [], bar := 0, barGid := 0, loading := none, cur := ⟨[], [], [], [], [], []⟩
    born := 0, cycles := [], stamp := 0, mile := 0, stalls := 0, nonfin := 0, regions := [], entries := [], regs := [], tiles := []
    streams := [], drainReq := false, saved := false, savedAt := 0, abort := none }

def Partition.clear (p : Partition) : Partition := Partition.empty p.ctx p.num p.die p.j0 p.y0 p.w p.h

/-- A context that comes to hold pairs is resident (03 R60). -/
def holdPairs (s : State) (ctx : Nat) : State :=
  modCtx s ctx fun c => if c.state = .ready then { c with state := .resident } else c

/-- At other pairs of the die a partition's configuration means the same: the sides of its memory tiles and the die edges it touches do not
change (R273); an empty one means nothing, and one of Finaris macros keeps the loader's placement (03 R71, log 105). -/
def samePlace (p : Partition) (j y : Nat) : Bool :=
  let inner (j : Nat) : Bool := decide (0 < j) && decide (j + p.w < 16)
  decide (p.state = .empty) || (!p.finaris && decide (y % 2 = p.y0 % 2) && (decide (j = p.j0) || (inner j && inner p.j0)))

/-- Where a saved partition is restored: on its own pairs if they are free, else on the first free pairs of its die that will do. -/
def restorePlace (s : State) (p : Partition) : Option (Nat × Nat) :=
  if pairsFree s p.die p.j0 p.y0 p.w p.h then some (p.j0, p.y0)
  else ((List.range (17 - p.h)).flatMap fun y => (List.range (17 - p.w)).map fun j => (j, y)).find? fun c =>
    samePlace p c.1 c.2 && pairsFree s p.die c.1 c.2 p.w p.h

/-! ### The records of a partition (03 R64, kind 4). The spec does not lay their contents out: they stand in this order (log 113) -/

/-- What the record of a tile pair holds: an element context word, a sub-vector of a rotating register or of an input entry, a value in flight to
an entry, the image of the memory tile with its generators; and, in the record of the partition's first pair, the schedule state of each region
and the stream of each transfer unit. -/
inductive PairField where
  | word (i : Nat) | reg (k : Nat) | entry (k : Nat) | flight (r i : Nat) | tile (t : Nat) | region (r : Nat) | stream (x : Nat)
deriving DecidableEq, Repr

def pairFields (p : Partition) (row col : Nat) : List PairField :=
  let here (elem : Nat) : Bool := decide (elem / 64 = row * 16 + col)
  let first := decide (row = 0) && decide (col = 0)
  ((p.cur.elems.zipIdx.filter fun e => here e.1.key).map fun e => .word e.2) ++
  ((p.regs.filter fun e => here (e.1 / 128)).map fun e => .reg e.1) ++ ((p.entries.filter fun e => here (e.1 / 32)).map fun e => .entry e.1) ++
  (p.regions.zipIdx.flatMap fun r => (r.1.flight.zipIdx.filter fun f => here (f.1.2.1 / 32)).map fun f => .flight r.2 f.2) ++
  ((p.cur.tiles.zipIdx.filter fun t => decide (t.1.row = row) && decide (t.1.col = col)).map fun t => .tile t.2) ++
  (if first then (List.range p.regions.length).map PairField.region ++ (List.range p.streams.length).map .stream else [])

/-- A count, in 8 bytes. -/
def recNat (n : Nat) : List RByte := clean (leBytes n 8)
def RecIn.nat (r : RecIn) (off : Nat) : Nat := (r.dword off).toNat
def RecIn.int (r : RecIn) (off n : Nat) : Int := sextN (leNat ((r.bytes.drop off).take n)) (8 * n)

/-- A value of 8 lanes: a word a lane, then its mark and exponent. -/
def beatBytes (b : Beat) : List RByte :=
  recWords ((List.range 8).map (fun l => BitVec.ofInt 32 (b.lanes.getD l 0)) ++ [BitVec.ofNat 32 (b.mark % 256 + 256 * b.exp.getD 0)])
def beatBack (r : RecIn) (off : Nat) : Beat :=
  let n := (r.word (off + 32)).toNat
  ⟨(List.range 8).map fun l => r.int (off + 4 * l) 4, n % 256, if n / 256 = 0 then none else some (n / 256)⟩

/-- Elements of a tile's image, and its lines. -/
def TileRec.image (t : TileRec) : Nat := t.size * if t.mode = 0 then t.buffers else 1
def TileRec.imageLines (t : TileRec) : Nat := t.image / t.epl

/-- The elements of the image with their poison, the exponent and the full bit of each line (of an operand store of each buffer), then the counts
of its generators. -/
def tileBytes (t : TileRec) (f : FTile) : List RByte :=
  let n := t.bits / 8
  (List.range t.image).flatMap (fun q => (leBytes (sget 0 f.data q % 2 ^ t.bits).toNat n).map fun b => (b, f.pois.contains (q / t.perWord))) ++
  (List.range t.imageLines).flatMap (fun k => clean [BitVec.ofNat 8 (sget 0 f.exps k), BitVec.ofNat 8 (f.full.contains k).toNat]) ++
  ([f.wbuf, f.rbuf, f.wlines] ++ f.genPos).flatMap recNat

def tileBack (r : RecIn) (off : Nat) (t : TileRec) (f : FTile) : FTile :=
  let n := t.bits / 8
  let at_ := off + n * t.image
  let gen := at_ + 2 * t.imageLines
  { f with
    data := (List.range t.image).foldl (fun m q => sput 0 m q (r.int (off + n * q) n)) f.data
    pois := f.pois.filter fun k => r.bad (off + 4 * k)
    exps := (List.range t.imageLines).foldl (fun m k => sput 0 m k (byteAt r.bytes (at_ + 2 * k))) f.exps
    full := (List.range t.imageLines).filter fun k => decide (byteAt r.bytes (at_ + 2 * k + 1) ≠ 0)
    wbuf := r.nat gen
    rbuf := r.nat (gen + 8)
    wlines := r.nat (gen + 16)
    genPos := (List.range f.genPos.length).map fun g => r.nat (gen + 24 + 8 * g) }

/-- A region's schedule state: beats, schedule, rounds, drain rounds left, its condition's outcome, whether it is done and takes input. -/
def regionBytes (r : FRegion) : List RByte :=
  [r.beat, r.tick, r.sched, r.rounds, match r.drains with | some n => n + 1 | none => 0,
    match r.cond with | some (i, t) => 2 * i + t.toNat + 2 | none => 0, r.done.toNat + 2 * r.noInput.toNat].flatMap recNat

def regionBack (r : RecIn) (off : Nat) (x : FRegion) : FRegion :=
  let n (k : Nat) : Nat := r.nat (off + 8 * k)
  { x with
    beat := n 0
    tick := n 1
    sched := n 2
    rounds := n 3
    drains := if n 4 = 0 then none else some (n 4 - 1)
    cond := if n 5 = 0 then none else some ((n 5 - 2) / 2, decide ((n 5 - 2) % 2 = 1))
    done := decide (n 6 % 2 = 1)
    noInput := decide (n 6 / 2 % 2 = 1) }

/-- A stream: elements moved, the values waiting, and the exponents delivered. -/
def streamBytes (x : FStream) : List RByte :=
  recNat x.pos ++ x.queue.flatMap (fun q => recNat (q.1 % 2 ^ 64).toNat ++ recNat q.2.1 ++ recNat q.2.2) ++
  x.exps.flatMap fun e => recNat e.1 ++ recNat e.2

def streamBack (r : RecIn) (off : Nat) (x : FStream) : FStream :=
  let q (k j : Nat) : Nat := off + 8 + 24 * k + 8 * j
  let e (k j : Nat) : Nat := r.nat (off + 8 + 24 * x.queue.length + 16 * k + 8 * j)
  { pos := r.nat off
    queue := (List.range x.queue.length).map fun k => (r.int (q k 0) 8, r.nat (q k 1), r.nat (q k 2))
    exps := (List.range x.exps.length).map fun k => (e k 0, e k 1) }

def fieldBytes (p : Partition) : PairField → List RByte
  | .word i => (match p.cur.elems[i]? with | some e => clean (leBytes e.word.toNat 16) | none => [])
  | .reg k => (match tget p.regs k with | some b => beatBytes b | none => [])
  | .entry k => (match tget p.entries k with | some b => beatBytes b | none => [])
  | .flight r i => (match (p.regions[r]?).bind fun g => g.flight[i]? with | some f => beatBytes f.2.2 | none => [])
  | .tile t => (match p.cur.tiles[t]?, p.tiles[t]? with | some x, some f => tileBytes x f | _, _ => [])
  | .region r => (match p.regions[r]? with | some g => regionBytes g | none => [])
  | .stream x => (match p.streams[x]? with | some f => streamBytes f | none => [])

/-- A field read back from an offset of its record. -/
def fieldBack (r : RecIn) (off : Nat) (p : Partition) : PairField → Partition
  | .word i =>
    (match p.cur.elems[i]? with
     | some e =>
       let w := BitVec.ofNat 128 (leNat ((r.bytes.drop off).take 16))
       { p with cur := { p.cur with elems := setAt p.cur.elems i { e with word := w } } }
     | none => p)
  | .reg k => { p with regs := tput p.regs k (beatBack r off) }
  | .entry k => { p with entries := tput p.entries k (beatBack r off) }
  | .flight g i =>
    (match p.regions[g]? with
     | some x =>
       (match x.flight[i]? with
        | some f => { p with regions := setAt p.regions g { x with flight := setAt x.flight i (f.1, f.2.1, beatBack r off) } }
        | none => p)
     | none => p)
  | .tile t => (match p.cur.tiles[t]?, p.tiles[t]? with | some x, some f => { p with tiles := setAt p.tiles t (tileBack r off x f) } | _, _ => p)
  | .region g => (match p.regions[g]? with | some x => { p with regions := setAt p.regions g (regionBack r off x) } | none => p)
  | .stream x => (match p.streams[x]? with | some f => { p with streams := setAt p.streams x (streamBack r off f) } | none => p)

def pairRecord (p : Partition) (row col : Nat) : List RByte :=
  let body := (pairFields p row col).flatMap (fieldBytes p)
  recHead 4 (16 + body.length) (BitVec.ofNat 32 p.num) 0 ++ body

/-- The pairs of a partition, in the order of their records. -/
def Partition.pairs (p : Partition) : List (Nat × Nat) := (List.range p.h).flatMap fun row => (List.range p.w).map fun col => (row, col)

def partRecords (p : Partition) : List (List RByte) := p.pairs.map fun c => pairRecord p c.1 c.2

/-- A pair read back from its record. -/
def pairBack (r : RecIn) (p q : Partition) (row col : Nat) : Partition :=
  ((pairFields p row col).foldl (fun (a : Nat × Partition) f => (a.1 + (fieldBytes p f).length, fieldBack r a.1 a.2 f)) (16, q)).2

/-- A saved partition from its records; none where one cannot be read, a context fault (03 R62). -/
def partBack (s : State) (p : Partition) : Option (State × Partition) :=
  let ps := recPlaces p.savedAt (partRecords p)
  if !ps.all (recSound s) then none
  else some (readRecords s p.ctx ps, (p.pairs.zip ps).foldl (fun q e => pairBack (recBack s e.2) p q e.1.1 e.1.2) { p with saved := false })

/-- Saved partitions of running contexts return to free pairs (03 R71). Their records may cross every link: they wait for one that retrains (14
R315). -/
def restoreParts (s : State) : State :=
  if anyHeld s then s
  else
    s.parts.foldl (fun s e =>
      match getPart s e.1 with
      | some p =>
        if p.saved && ctxRuns s p.ctx then
          match restorePlace s p with
          | some (j, y) =>
            (match partBack s p with
             | some (s, q) => holdPairs (setPart s e.1 { q with j0 := j, y0 := y }) p.ctx
             | none => contextFault s p.ctx)
          | none => s
        else s
      | none => s) s

/-! ### Configuration (R296, R297) -/

def FRegion.fresh (r : RegionRec) : FRegion :=
  { beat := 0, tick := 0, sched := r.init, rounds := 0, drains := none, done := false, halted := false, stop := false, noInput := false
    frozen := none, frozenVa := 0, cond := none, flight := [] }

def FTile.fresh (t : TileRec) : FTile :=
  { data := [], pois := [], anew := [], exps := [], full := [], genPos := t.gens.map fun _ => 0, wbuf := 0, rbuf := 0, wlines := 0 }

/-- Write a phase into the elements and tiles. -/
def configure (s : State) (p : Partition) (k : Nat) (ph : Phase) : Partition :=
  { p with
    phase := k
    cur := ph
    born := s.tick
    stamp := s.clk
    mile := 0
    stalls := 0
    nonfin := 0
    regions := ph.regions.map FRegion.fresh
    entries := []
    regs := []
    tiles := ph.tiles.map FTile.fresh
    streams := ph.xfers.map fun _ => ⟨0, [], []⟩
    cycles := p.cycles.filter fun e => e.1 / 4 ≠ k }

/-- A phase is read again, checked and loaded, and the object streams; a failure aborts it (R297, R306). -/
def startPhase (s : State) (key : Nat) (p : Partition) (k : Nat) : State :=
  let p := { p with phase := k }
  match readHeader s p.ctx p.die p.image with
  | (.error e, s) => bad s p e
  | (.ok h, s) =>
    match readPhase s p.ctx p.die p.image { p.place with ew := h.ew, eh := h.eh } h k with
    | (.error e, s) => bad s p e
    | (.ok ph, s) => setPart s key { configure s p k ph with state := .streaming }
where
  bad (s : State) (p : Partition) : LoadBad → State
    | .cut => contextFault (setPart s key p) p.ctx
    | .wait => s
    | .status code n addr =>
      let q := { p with regions := [], tiles := [], streams := [], cur := ⟨[], [], [], [], [], []⟩ }
      abortPhase (setPart s key q) key none code n (BitVec.ofNat 64 addr)

/-- The read of a phase waits for a walk or a retraining link, and what loads it is held (12 R260, 14 R315). -/
def phaseWaits (s : State) (p : Partition) (k : Nat) : Bool :=
  match readHeader s p.ctx p.die p.image with
  | (.error e, _) => decide (e = .wait)
  | (.ok h, s) =>
    match (readPhase s p.ctx p.die p.image { p.place with ew := h.ew, eh := h.eh } h k).1 with
    | .error e => decide (e = .wait)
    | .ok _ => false

/-! ### GRAPH_COMMAND_APPLY (R301 to R308) -/

/-- A command completes its one sector with a status. -/
def endCommand (s : State) (id ctx gid num : Nat) (bar : DWord) (code : Nat) (count : Word) (detail : DWord) : State :=
  dropJob (graphDone (noteStatus s ctx num code) ctx gid bar 1 code count detail) id

/-- A status whose count and detail the spec does not state (log 53). -/
def endOpen (s : State) (id ctx gid num : Nat) (bar : DWord) (code : Nat) : State :=
  endCommand s id ctx gid num bar code (openWord s 48) (openDWord s 49)

def applyGalloc (s : State) (id ctx gid num : Nat) (bar : DWord) (shape : Word) : State :=
  let q := shapeOf shape
  let lim := match getCtx s ctx with | some c => c.desc.pairlim | none => 0
  if (getPart s (partKey ctx num)).isSome then endOpen s id ctx gid num bar Code.graphState
  else if lim < ctxPairs s ctx + q.w * q.h then endOpen s id ctx gid num bar Code.fabNoroom
  else
    match findPairs s q with
    | none => endOpen s id ctx gid num bar Code.fabNoroom
    | some (d, y, j) =>
      let s := holdPairs (setPart s (partKey ctx num) (Partition.empty ctx num d j y q.w q.h)) ctx
      endCommand s id ctx gid num bar 0 (BitVec.ofNat 32 (d * 256 + y * 16 + j)) 0

def applyGarg (s : State) (id gid : Nat) (p : Partition) (n : Nat) (v : DWord) : State :=
  let key := partKey p.ctx p.num
  if p.state ≠ .resident ∧ p.state ≠ .armed ∧ p.state ≠ .drained then endOpen s id p.ctx gid p.num 0 Code.graphState
  else if v.toNat % sget 1 p.align n ≠ 0 then endOpen s id p.ctx gid p.num 0 Code.graphArg
  else
    let bound := p.bound ||| BitVec.ofNat 32 (2 ^ n)
    let q := { p with
      args := sput 0 p.args n v
      bound := bound
      state := if p.state = .resident ∧ p.argmask &&& ~~~bound = 0 then .armed else p.state }
    endOpen (setPart s key q) id p.ctx gid p.num 0 0

/-- grun is accepted: the cell's pending sectors rise by phases − 1 first (R301, R306). -/
def applyGrun (s : State) (id gid : Nat) (p : Partition) (bar : DWord) : State :=
  let key := partKey p.ctx p.num
  if p.state ≠ .armed ∧ p.state ≠ .drained then endOpen s id p.ctx gid p.num bar Code.graphState
  else
    let s := if bar = 0 ∨ p.phases ≤ 1 then s else onOperand s p.ctx (some gid) bar fun c => c.issue (p.phases - 1)
    let q := { p with
      bar := bar
      barGid := gid
      drainReq := false }
    let s := dropJob (noteStatus s p.ctx p.num 0) id
    if p.state = .armed then setPart s key { q with state := .streaming } else startPhase (setPart s key q) key q 0

def applyGrel (s : State) (id gid : Nat) (p : Partition) (bar : DWord) : State :=
  if p.state = .streaming ∨ p.state = .draining then endOpen s id p.ctx gid p.num bar Code.graphState
  else endOpen (setPart s (partKey p.ctx p.num) p.clear) id p.ctx gid p.num bar 0

def applyGfree (s : State) (id gid : Nat) (p : Partition) (bar : DWord) : State :=
  if p.state ≠ .empty then endOpen s id p.ctx gid p.num bar Code.graphState
  else
    let s := endOpen s id p.ctx gid p.num bar 0
    restoreParts (settleCtx { s with parts := tdel s.parts (partKey p.ctx p.num) } p.ctx)

/-- The hub applies one command to a partition that exists. -/
def applyTo (s : State) (id gid : Nat) (p : Partition) (bar : DWord) : GCmd → State
  | .gload image =>
    if p.state ≠ .empty then endOpen s id p.ctx gid p.num bar Code.graphState
    else setPart s (partKey p.ctx p.num) { p with
      loading := some id
      image := image.toNat
      stamp := s.clk }
  | .grun => applyGrun s id gid p bar
  | .garg n v => applyGarg s id gid p n v
  | .gdrain =>
    dropJob (if p.state = .streaming ∨ p.state = .draining then setPart s (partKey p.ctx p.num) { p with drainReq := true } else s) id
  | .grel => applyGrel s id gid p bar
  | .galloc _ => endOpen s id p.ctx gid p.num bar Code.graphState
  | .gfree => applyGfree s id gid p bar

/-- A command is held back (R301, 09 R184): by an older command of its warp, an older pfence, its own issue on the cell, a load of the
partition or an abort whose statuses are still to come, its die's retraining link, or the wait of the phase it would load. -/
def graphHeld (s : State) (id w seq ctx num : Nat) (c : GCmd) : Bool :=
  pfenceBefore s w seq (fun _ => true) || warpHeld s w
  || s.jobs.any (fun e => decide (e.2.warp = w) && decide (e.2.seq < seq) && (match e.2.job with | .graph .. => true | _ => false))
  || (match getWarp s w with | some x => x.barq.any fun o => decide (o.seq = id) | none => false)
  || (match getPart s (partKey ctx num) with
      | some p => p.loading.isSome || p.saved || p.abort.isSome || (decide (c = .grun) && decide (p.state = .drained) && phaseWaits s p 0)
      | none => false)

/-- GRAPH_COMMAND_APPLY. -/
def execGraphCommandApply (id : Nat) (s : State) : Out :=
  match tget s.jobs id with
  | some ⟨w, gid, ctx, seq, .graph num c bar⟩ =>
    if graphHeld s id w seq ctx num c then notDue "GRAPH_COMMAND_APPLY"
    else
      match getPart s (partKey ctx num), c with
      | some p, c => .next (applyTo s id gid p bar c)
      | none, .galloc shape => .next (applyGalloc s id ctx gid num bar shape)
      | none, .gdrain => .next (dropJob s id)
      | none, _ => .next (endOpen s id ctx gid num bar Code.graphState)
  | _ => notDue "GRAPH_COMMAND_APPLY"

/-! ### GLOAD_COMPLETE (R291, R304) -/

/-- The image is read and every phase checked. -/
def checkImage (s : State) (p : Partition) : LRes (Header × List Phase) :=
  match readHeader s p.ctx p.die p.image with
  | (.error e, s) => (.error e, s)
  | (.ok h, s) =>
    match readPhases p.ctx p.die p.image ⟨p.j0, p.y0, p.w, p.h, h.ew, h.eh, h.finaris⟩ h h.phases 0 s with
    | (.error e, s) => (.error e, s)
    | (.ok phs, s) => (.ok (h, phs), s)

/-- GLOAD_COMPLETE: first the checks, which leave the object validated or end the command with a status; then phase 0 is written and the
command ends with status 0. -/
def execGloadComplete (k : Nat) (s : State) : Out :=
  match getPart s k with
  | none => notDue "GLOAD_COMPLETE"
  | some p =>
    match p.loading with
    | none => notDue "GLOAD_COMPLETE"
    | some id =>
      match tget s.jobs id with
      | some ⟨_, gid, _, _, .graph _ _ bar⟩ =>
        if p.state = .empty then
          match checkImage s p with
          | (.error .wait, _) => notDue "GLOAD_COMPLETE"
          | (.error .cut, s) => .next (contextFault (dropJob (setPart s k p.clear) id) p.ctx)
          | (.error (.status code n addr), s) =>
            let count := match n with | some n => BitVec.ofNat 32 n | none => openWord s 48
            .next (endCommand (setPart s k p.clear) id p.ctx gid p.num bar code count (if code = Code.poison then openDWord s 44 else BitVec.ofNat 64 addr))
          | (.ok (h, phs), s) =>
            .next (setPart s k { p with
              state := .validated
              finaris := h.finaris
              phases := h.phases
              argmask := BitVec.ofNat 32 h.argmask
              align := alignMap phs
              cur := phs.headD ⟨[], [], [], [], [], []⟩ })
        else
          let q := configure s p 0 p.cur
          let q := { q with
            loading := none
            stamp := p.stamp
            state := if p.argmask = 0 then .armed else .resident }
          .next (endOpen (setPart s k q) id p.ctx gid p.num bar 0)
      | _ => notDue "GLOAD_COMPLETE"

/-! ### PHASE_END (R296, R306, R307) -/

/-- PHASE_END: the phase has drained and its writes have performed; its status and sector, then the next phase, or the end of the run. Of an
aborted phase every region has stopped, and its statuses are written (R298, R311). A debug stop at the last boundary holds the phase until
it is resumed (18 R446). -/
def execPhaseEnd (k : Nat) (s : State) : Out :=
  match getPart s k with
  | none => notDue "PHASE_END"
  | some p =>
    if p.abort.isSome then
      if !p.regions.all (fun r => r.idle p) ∨ p.saved ∨ !partPerformed s k p then notDue "PHASE_END" else .next (endAbort s k)
    else if p.state ≠ .draining ∨ p.saved ∨ !p.regions.all (fun r => r.done && r.frozen.isNone && !r.halted) ∨ !ctxRuns s p.ctx
        ∨ !outputsIdle s k p ∨ !partPerformed s k p ∨ (p.phase + 1 < p.phases ∧ !p.drainReq ∧ phaseWaits s p (p.phase + 1)) then
      notDue "PHASE_END"
    else
      let p := p.stampAt s.clk 3
      let s := noteStatus (setPart s k p) p.ctx p.num 0
      let s := graphDone s p.ctx p.barGid p.bar 1 0 (BitVec.ofNat 32 (maxRounds p)) (BitVec.ofNat 64 p.image)
      let rest := p.phases - p.phase - 1
      if rest = 0 ∨ p.drainReq then
        let s := if rest = 0 ∨ p.bar = 0 then s else onOperand s p.ctx (some p.barGid) p.bar fun c => c.sectors rest (openDWord s 40)
        .next (setPart s k { p with
          state := .drained
          drainReq := false })
      else .next (startPhase s k p (p.phase + 1))

end Sys2Proof.Machine
end

