-- ==== Sys2Proof/Machine/Context.lean ====
section
/-!
DEFINITION. The life of a context (03): create, commit and its checks (R56, R57, R60, R61), switching out and in (R66 to R71), teardown
(R72), the commands on its registers, segments, kernels and accounts (06 R119, 05 R93, R100, 18 R455), forward-progress swaps (06 R120,
R121, R63), and the budget windows (R58).
-/
namespace Sys2Proof.Machine

/-! ### Create and commit (R56, R57, R61) -/

/-- A context just created: building, nothing of it in use. -/
def Context.fresh (desc : Nat) : Context :=
  { state := .building, descAddr := desc, desc := CtxDesc.zero, leaving := none, waiting := none, endTag := none, fpn := 0, dbgctl := 0
    bps := List.replicate 8 0xFFFFFFFF, segs := List.replicate 32 ⟨false, 0, 0⟩, fqWr := 0, openRecs := [], queues := []
    acct := ⟨0, 0, 0, 0, 0, 0⟩, bwAvg := 0, pwrAvg := 0, bwNow := [], pwrNow := [], bwAcc := 0, pwrAcc := 0, swapped := []
    dumping := none, gstatus := List.replicate 4 0 }

/-- CREATE: a free context number enters building; its descriptor address is 128-byte aligned. -/
def execCreate (tag : Word) (ctx : BitVec 8) (desc : DWord) (s : State) : Out :=
  onContext "CREATE" (.create tag ctx desc) tag ctx s (fun st => decide (st = .free)) fun _ =>
    if desc.toNat % 128 ≠ 0 then refuse s tag 1 Code.mgmtConf
    else finish (setCtx s ctx.toNat (Context.fresh desc.toNat)) tag 1

def descOf (bs : List Byte) : CtxDesc :=
  let w (k : Nat) : Nat := wordAt bs k
  let d (k : Nat) : Nat := dwordAt bs k
  { ptroot := d 0, segtab := d 8, linktab := BitVec.ofNat 64 (d 16), faultq := d 24, savebase := d 32, savesize := d 40, dumpbase := d 48
    corebud := w 56, bwbud := w 60, pwrbud := w 64, fpn := BitVec.ofNat 32 (w 68), pairlim := w 72, flags := BitVec.ofNat 32 (w 76) }

/-- The checks of R57; a savesize that is no multiple of 64 KiB (R56) counts with them (log 106). -/
def descriptorOk (s : State) (bs : List Byte) : Bool :=
  let d := descOf bs
  decide (d.ptroot % 65536 = 0) && decide (d.savebase % 65536 = 0) && decide (d.savesize % 65536 = 0)
    && decide (d.segtab % 64 = 0) && decide (d.linktab.toNat % 64 = 0) && decide (d.faultq % 64 = 0)
    && decide (wbits d.flags 31 8 = 0) && zeros ((bs.drop 80).take 48)
    && decide (1 ≤ d.corebud) && decide (d.corebud ≤ 256) && decide (d.pairlim ≤ 1024) && decide (wbits d.flags 6 5 ≠ 3)
    && decide (d.saveMin ≤ d.savesize)
    && inOneWindow s d.ptroot 32768 && inOneWindow s d.segtab 512 && inOneWindow s d.faultq (64 + 262144)
    && inOneWindow s d.savebase d.savesize

def segOf (bs : List Byte) : Segment := ⟨decide (wordAt bs 12 % 2 = 1), dwordAt bs 0, wordAt bs 8⟩

/-- A segment-table entry obeys R96; a base or an end past 2^52 is no breach (log 119). -/
def segOk (bs : List Byte) : Bool :=
  let g := segOf bs
  decide (wordAt bs 12 < 2) && decide (g.base % 64 = 0)
    && (if g.valid then decide (1 ≤ g.size) && decide (g.size ≤ 2 ^ 26 - 2) else decide (g.base = 0) && decide (g.size = 0))

/-- The segment table and the fault queue's header can be read: within reach (14 R318) and free of an uncorrectable error (R62). -/
def tablesOk (s : State) (d : CtxDesc) : Bool :=
  hubCan s d.segtab 512 && !poisonedAt s d.segtab 512 && hubCan s d.faultq 64 && !poisonedAt s d.faultq 32

/-- COMMIT: the descriptor is read and checked (R57); the hub takes its copy, FPN its first value (06 R119), and the segment table is
read (05 R96). Where that or the fault queue cannot be read, the context is ready and takes a context fault (log 104). -/
def execCommit (tag : Word) (ctx : BitVec 8) (s : State) : Out :=
  heldCommand s (some ctx) (.commit tag ctx) <| onContext "COMMIT" (.commit tag ctx) tag ctx s (fun st => decide (st = .building)) fun
    | none => refuse s tag 2 Code.ctxState
    | some c =>
      let bs := s.mem.bytes c.descAddr 128
      let d := descOf bs
      if !hubCan s c.descAddr 128 ∨ poisonedAt s c.descAddr 128 ∨ !descriptorOk s bs then refuse s tag 2 Code.ctxDesc
      else
        let ok := tablesOk s d
        let segs := if ok then (List.range 32).map fun k => segOf (s.mem.bytes (d.segtab + 16 * k) 16) else c.segs
        let t := setCtx s ctx.toNat { c with
          state := .ready
          desc := d
          fpn := if d.fpn = 0 then 0x100000 else d.fpn
          segs := segs
          fqWr := if ok then hubWord s d.faultq else 0
          acct := ⟨0, 0, 0, 0, 0, 0⟩ }
        finish (if ok then t else contextFault t ctx.toNat) tag 2

/-! ### Leaving and coming back (R61, R66, R71) -/

/-- SUSPEND: a switch out begins. -/
def execSuspend (tag : Word) (ctx : BitVec 8) (s : State) : Out :=
  onContext "SUSPEND" (.suspend tag ctx) tag ctx s (fun st => decide (st = .ready) || decide (st = .resident)) fun _ =>
    let s := preemptAll s (fun _ w => decide (w.ctx = ctx.toNat)) id
    .next (modCtx (leaveCtx s ctx.toNat .suspend) ctx.toNat fun c => { c with endTag := some (tag, 3) })

/-- RESUME: the context is ready, its saved groups wait for placement, its partitions for their pairs. -/
def execResume (tag : Word) (ctx : BitVec 8) (s : State) : Out :=
  onContext "RESUME" (.resume tag ctx) tag ctx s (fun st => decide (st = .suspended)) fun _ =>
    let s := modCtx s ctx.toNat fun c => { c with state := .ready }
    finish (restoreParts s) tag 4

/-- Every queue of a context is disabled (R72 step 1). -/
def disableQueues (s : State) (ctx : Nat) : State :=
  match getCtx s ctx with
  | some c => c.queues.foldl (fun s q => if q.2.enabled then disableQueue s ctx q.1 q.2.devctl q.2.devfed else s) s
  | none => s

/-- DESTROY: the first steps of R72; TEARDOWN_COMPLETE makes the last. Nothing of the context starts any more, and its kernels are
killed. -/
def execDestroy (tag : Word) (ctx : BitVec 8) (s : State) : Out :=
  onContext "DESTROY" (.destroy tag ctx) tag ctx s (fun st => decide (st ≠ .free)) fun _ =>
    let n := ctx.toNat
    let s := leaveCtx (disableQueues s n) n .destroy
    let s := modCtx s n fun c => { c with
      state := .tornDown
      endTag := some (tag, 5) }
    .next { s with kernels := s.kernels.map fun k =>
      if k.2.ctx = n ∧ !k.2.state.final then (k.1, { k.2 with
        killed := true
        state := .draining }) else k }

/-- The tag of a save or teardown that ends is completed, and the command that waits behind it runs next (R61). -/
def leaveDone (s : State) (c : Context) (status : Nat) : State :=
  let s := match c.endTag with | some (tag, code) => complete s tag code status 0 | none => s
  match c.waiting with
  | some i => { s with agenda := .event i :: s.agenda }
  | none => s

/-! ### The save (R63 to R70) -/

/-- No block of the context is in a frame, no operation of its warps is in progress, and no step is due (10 R221); copies that wait on a
fault record block a suspend only, for nothing answers the record of a context that ends (12 R264). -/
def quiet (s : State) (ctx : Nat) (all : Bool) : Bool :=
  !(s.warps.any fun e => decide (e.2.ctx = ctx) && (e.2.frame.isSome || decide (e.2.barq ≠ [])))
    && !(s.jobs.any fun e => decide (e.2.ctx = ctx))
    && !(s.copies.any fun e => decide (e.2.ctx = ctx) && (all || e.2.paused.isNone))
    && !(s.groups.any fun g => decide (g.2.ctx = ctx) && g.2.placed && g.2.stepDue)

/-- No group of the context is on its way to its end. -/
def groupsSettled (s : State) (ctx : Nat) : Bool :=
  !(s.groups.any fun g => decide (g.2.ctx = ctx) && (decide (g.2.state = .halting) || decide (g.2.state = .retiring)))

/-- A partition has reached a boundary in every region but the frozen ones, and the output of those regions is performed (R66 step 5,
R68). A region that an abort has stopped moves nothing more; the abort's statuses come first (13 R298). -/
def partQuiet (s : State) (p : Partition) : Bool :=
  p.loading.isNone && p.abort.isNone && p.regions.all (fun r => r.frozen.isSome || r.done || r.idle p || decide (r.beat = 0)) &&
    (p.saved || !running p || (
      let m := (p.cur.regions.zip p.regions).foldl
        (fun m g => if g.2.frozen.isSome ∨ g.2.idle p then m else moveRegion false g.1.num m) (⟨s, p, none⟩ : Mv)
      decide (m.p = p) && m.stop.isNone))

def partsQuiet (s : State) (ctx : Nat) : Bool := s.parts.all fun e => decide (e.2.ctx ≠ ctx) || partQuiet s e.2

/-- Every dirty line of every die is written back: all stores of the context have performed at system scope (R70). -/
def writeBackAll (s : State) : State := s.cache.l2.foldl (fun s l => if l.dirty = 0 then s else writeBack s l.die l.line) s

/-- A warp as it leaves its core: what the record does not hold is gone; a yield is over, and the warp enters ready (R65, R67, 06 R127). -/
def Warp.saved (clk : DWord) (w : Warp) : Warp :=
  let wait := match w.wait with | .yield _ => Wait.none | x => x
  let w := { w with
    image := none
    fij := 0
    fijTaken := false
    wait := wait }
  if w.state = .waiting ∧ wait = .none then w.ready clk else w

/-- Bytes of records as they are packed (R63). -/
def recBytes (rs : List (List RByte)) : Nat := (rs.map fun r => round64 r.length).foldl (· + ·) 0

/-- Bytes of a group's records (R63, R64). -/
def swapBytes (s : State) (gid : Nat) (g : Group) : Nat := recBytes (groupRecords s gid g)

/-- A group leaves its cores with its records saved: it waits, its arbitration time from zero (06 R121). -/
def saveGroup (s : State) (gid pa : Nat) : State :=
  let s := mapWarps s (fun _ w => decide (w.gid = gid)) (Warp.saved s.clk)
  modGroup s gid fun g => { g with
    state := .waiting
    savedAt := some pa
    cores := []
    since := s.clk
    aged := 0 }

/-- A group of a cut die cannot be saved: it ends halted with LINK_LOST (14 R318). -/
def loseGroup (s : State) (gid : Nat) : State :=
  match getGroup s gid with
  | some g => freeGroup (failKernel s g.kid Code.linkLost (BitVec.ofNat 32 g.rank) 0) gid .halted
  | none => s

/-- The placed groups of a context. -/
def placedGroups (s : State) (ctx : Nat) : List (Nat × Group) := s.groups.filter fun g => decide (g.2.ctx = ctx) && g.2.placed

def ctxParts (s : State) (ctx : Nat) : List (Nat × Partition) := s.parts.filter fun e => decide (e.2.ctx = ctx)

/-- The records of a group swapped out lie in the swap reserve still: group, offset and bytes (R63). -/
def liveSwaps (s : State) (c : Context) : List (Nat × Nat × Nat) :=
  c.swapped.filter fun e =>
    match getGroup s e.1 with
    | some g => decide (g.state = .waiting) && decide (g.savedAt = some (c.desc.savebase + e.2.1))
    | none => false

/-- What a save writes in one piece: the records of a group, those of a partition, or the end record. -/
structure SaveItem where
  gid  : Option Nat
  part : Option Nat
  recs : List (List RByte)
deriving DecidableEq, Repr

/-- Records that an earlier save packed, of a group that has not been placed since or a partition not restored, as they lie in memory. -/
def storedRecords (s : State) (pa : Nat) (rs : List (List RByte)) : List (List RByte) :=
  (recPlaces pa rs).map fun p => (s.mem.bytes p.1 p.2.length).zipIdx.map fun e => (e.1, poisonedAt s (p.1 + e.2) 1)

/-- The records of a save, in order: groups, tile pairs, end. The groups are those on cores and those still packed in the save area by an
earlier save; one in the swap reserve stays there (log 104). -/
def saveItems (s : State) (ctx : Nat) (c : Context) : List SaveItem :=
  (s.groups.filterMap fun g =>
    if g.2.ctx ≠ ctx then none
    else if g.2.placed then some ⟨some g.1, none, groupRecords s g.1 g.2⟩
    else
      match g.2.savedAt with
      | some pa =>
        if g.2.state = .waiting ∧ !(liveSwaps s c).any (fun e => decide (e.1 = g.1)) then
            some ⟨some g.1, none, storedRecords s pa (groupRecords s g.1 g.2)⟩ else none
      | none => none)
    ++ (ctxParts s ctx).map (fun p =>
      ⟨none, some p.1, if p.2.saved then storedRecords s p.2.savedAt (partRecords p.2) else partRecords p.2⟩) ++ [⟨none, none, [endRecord]⟩]

/-- The owner of records that have been written leaves its cores or pairs. -/
def saveOwner (s : State) (x : SaveItem) (pa : Nat) : State :=
  match x.gid, x.part with
  | some gid, _ =>
    (match getGroup s gid with
     | some g => if g.placed then saveGroup s gid pa else setGroup s gid { g with savedAt := some pa }
     | none => s)
  | none, some k => { s with parts := s.parts.map fun e => if e.1 = k then (e.1, { e.2 with saved := true, savedAt := pa }) else e }
  | none, none => s

/-- Write the items packed from an offset of the save area; what could not be written is left: past its end, over records in the swap reserve,
or where a write fails (R69). -/
def packItems (ctx : Nat) (c : Context) (live : List (Nat × Nat × Nat)) : List SaveItem → Nat → State → State × List SaveItem
  | [], _, s => (s, [])
  | x :: r, off, s =>
    let n := recBytes x.recs
    if c.desc.savesize < off + n ∨ live.any (fun e => decide (e.2.1 < off + n) && decide (off < e.2.1 + e.2.2)) then (s, x :: r)
    else
      match putRecords s ctx (c.desc.savebase + off) x.recs with
      | (s, true) => packItems ctx c live r (off + n) (saveOwner s x (c.desc.savebase + off))
      | (s, false) => (s, x :: r)

/-- A group that could not be saved is halted where it stands (R69). -/
def haltUnsaved (s : State) (x : SaveItem) : State :=
  match x.gid with
  | some gid =>
    (match getGroup s gid with
     | some g => if g.placed then mapWarps s (fun _ w => decide (w.gid = gid)) fun w => { w with haltDue := true } else s
     | none => s)
  | none => s

/-- The save itself: the groups of a cut die are lost (14 R318), every store performs at system scope, the records are written, and the context
is suspended, or faulted where anything was lost or could not be written (R62, R66, R69). -/
def saveAll (s : State) (ctx : Nat) (c : Context) : State :=
  let gone := (placedGroups s ctx).filter fun g => g.2.cores.any fun k => linkDown s (dieOf k)
  let s := writeBackAll (gone.foldl (fun s g => loseGroup s g.1) s)
  let live := liveSwaps s c
  let items := saveItems s ctx c
  let base := c.desc.savebase
  let count := ((items.map fun x => x.recs.length).foldl (· + ·) 0)
  let (s, left) := if hubCan s base 4096 then packItems ctx c live items 4096 (putHeader s ctx base count) else (countLoss s base, items)
  let s := left.foldl haltUnsaved s
  let fault := decide (left ≠ []) || decide (gone ≠ []) || decide (c.leaving = some .fault)
  let s := { s with copies := s.copies.filter fun e => e.2.ctx ≠ ctx }
  let s := modCtx s ctx fun c => { c with
    state := if fault then .faulted else .suspended
    leaving := none
    waiting := none
    endTag := none
    swapped := live }
  leaveDone (restoreParts s) c (if fault then Code.ctxState else 0)

/-- SAVE_COMPLETE: the work in flight has ended; kills due are made (07 R152), and the context is saved. The records cross every die link, so
it waits for one that retrains. -/
def execSaveComplete (ctx : BitVec 8) (s : State) : Out :=
  let n := ctx.toNat
  match getCtx s n with
  | none => notDue "SAVE_COMPLETE"
  | some c =>
    if (c.leaving ≠ some .suspend ∧ c.leaving ≠ some .fault) ∨ !quiet s n (decide (c.leaving = some .suspend)) ∨ !groupsSettled s n
        ∨ c.dumping.isSome ∨ !partsQuiet s n ∨ anyHeld s then notDue "SAVE_COMPLETE"
    else
      let s := settleKills s fun _ w => decide (w.ctx = n)
      .next (if groupsSettled s n then saveAll s n c else s)

/-- TEARDOWN_COMPLETE: the operations of the context have ended; its kernels are completed as killed, but lost where a start request ends the
context (21 R470), its translations removed, and the number is free (R72). -/
def execTeardownComplete (ctx : BitVec 8) (s : State) : Out :=
  let n := ctx.toNat
  match getCtx s n with
  | none => notDue "TEARDOWN_COMPLETE"
  | some c =>
    if c.leaving ≠ some .destroy ∨ !quiet s n false ∨ !groupsSettled s n ∨ c.dumping.isSome ∨ !partsQuiet s n
        ∨ anyHeld s ∨ (!workLost s && s.kernels.any fun k => decide (k.2.ctx = n) && !k.2.state.final && endHeld s n k.2.launch) then notDue "TEARDOWN_COMPLETE"
    else
      let mine := s.kernels.filter fun k => decide (k.2.ctx = n) && !k.2.state.final
      let s := if !workLost s then mine.foldl (fun s k => finishKernel s k.1 k.2) s
        else { s with kernels := s.kernels.filter fun k => k.2.ctx ≠ n }
      let s := shootdown s n 0 (2 ^ 52)
      let s := { s with
        tlb := { s.tlb with walks := s.tlb.walks.filter fun w => w.ctx ≠ n }
        cache := { s.cache with
          kc := s.cache.kc.filter fun l => l.ctx ≠ n
          ic := s.cache.ic.filter fun l => l.ctx ≠ n }
        parts := s.parts.filter fun e => e.2.ctx ≠ n
        copies := s.copies.filter fun e => e.2.ctx ≠ n
        groups := s.groups.filter fun e => e.2.ctx ≠ n
        warps := s.warps.filter fun e => e.2.ctx ≠ n
        ctxs := tdel s.ctxs n }
      .next (leaveDone (restoreParts s) c 0)

/-! ### Commands on a live context -/

/-- FPNSET (06 R119). -/
def execFpnset (tag : Word) (ctx : BitVec 8) (v : Word) (s : State) : Out :=
  onContext "FPNSET" (.fpnset tag ctx v) tag ctx s CtxState.live fun _ =>
    finish (modCtx s ctx.toNat fun c => { c with fpn := v }) tag 6

/-- SEGSET (05 R100): entry k is read again; a good one replaces what every core held and discards unmapped chunks. -/
def execSegset (tag : Word) (ctx : BitVec 8) (k : Word) (s : State) : Out :=
  heldCommand s (some ctx) (.segset tag ctx k) <| onContext "SEGSET" (.segset tag ctx k) tag ctx s CtxState.live fun
    | none => refuse s tag 7 Code.ctxState
    | some c =>
      if 31 < k.toNat then refuse s tag 7 Code.mgmtConf
      else
        let a := c.desc.segtab + 16 * k.toNat
        let bs := s.mem.bytes a 16
        if !hubCan s a 16 ∨ poisonedAt s a 16 then refuse (contextFault s ctx.toNat) tag 7 Code.segDesc
        else if !segOk bs then refuse s tag 7 Code.segDesc
        else
          let s := setCtx s ctx.toNat { c with segs := setAt c.segs k.toNat (segOf bs) }
          let s := mapWarps s (fun _ w => decide (w.ctx = ctx.toNat) && decide (wbits w.handle 30 26 = k.toNat)) fun w => { w with image := none }
          finish { s with cache := { s.cache with ic := s.cache.ic.filter fun l => l.ctx ≠ ctx.toNat } } tag 7

/-- KILL (05 R92, R93): of a kernel in any state but a final one, whatever the state of its context. -/
def execKill (tag : Word) (ctx : BitVec 8) (kid : Word) (s : State) : Out :=
  onContext "KILL" (.kill tag ctx kid) tag ctx s (fun st => decide (st ≠ .free)) fun _ =>
      match getKernel s kid.toNat with
      | none => refuse s tag 8 Code.kstate
      | some k =>
        if k.ctx ≠ ctx.toNat ∨ k.state.final then refuse s tag 8 Code.kstate
        else
          let s := setKernel s kid.toNat { k with
            killed := true
            state := .draining }
          finish (haltKernel s kid.toNat) tag 8

/-- One µJ in units of 2^-8 pJ. -/
def microJoule : Nat := 256 * 10 ^ 6

def acctBytes (a : Acct) : List Byte :=
  [a.coreCycles, a.pairCycles, a.bytes, a.blocks, a.kernels, a.energy / microJoule].flatMap fun n => leBytes n 8

/-- CTXACCT (18 R455). -/
def execCtxacct (tag : Word) (ctx : BitVec 8) (buf : DWord) (s : State) : Out :=
  onContext "CTXACCT" (.ctxacct tag ctx buf) tag ctx s CtxState.live fun
    | none => refuse s tag 9 Code.ctxState
    | some c =>
      if !bufferOk s buf 48 then refuse s tag 9 Code.mgmtConf
      else finish (hubOwed s buf.toNat (acctBytes c.acct)) tag 9

/-! ### Forward progress (06 R120, R121, 03 R63) -/

/-- Commit-free cycles before a swap (06 R119). -/
def fpnCycles (v : Word) : Option Nat := if v = 0 then none else some (max v.toNat 65536)

/-- The group is blocked. -/
def blocked (s : State) (gid : Nat) (g : Group) : Bool :=
  decide (g.state = .resident) && (
    let ws := (warpsOf s gid).filter fun e => decide (e.2.state ≠ .ended)
    !ws.isEmpty && ws.all fun e => decide (e.2.state = .waiting) && decide (e.2.cls ≠ 0))

/-- Some group of a kernel of the context waits (R114), whether it can be placed or not. -/
def hasWaiting (s : State) (ctx : Nat) : Bool := s.kernels.any fun k => decide (k.2.ctx = ctx) && !(waitingGroups s k.1 k.2).isEmpty

/-- The blocked group a core chooses: of a context whose FPN its counter has reached and which has a waiting group, the one with the
oldest last commit; of several with one last commit, the first in the table of groups (log 120). -/
def swapChoice (s : State) (core : Nat) : Option (Nat × Group) :=
  let count := s.clk.toNat - sget 0 s.progress core
  let ok (e : Nat × Group) : Bool :=
    e.2.cores.contains core && blocked s e.1 e.2 && hasWaiting s e.2.ctx &&
      (match getCtx s e.2.ctx with
       | some c => c.leaving.isNone && (match fpnCycles c.fpn with | some n => decide (n ≤ count) | none => false)
       | none => false)
  (s.groups.filter ok).foldl (fun (b : Option (Nat × Group)) e =>
    match b with | some x => if e.2.lastCommit.toNat < x.2.lastCommit.toNat then some e else b | none => some e) none

/-- The swap reserve is in use there: a group swapped out, or on its way out, has its records there (R63). -/
def reserved (s : State) (c : Context) : List (Nat × Nat × Nat) :=
  liveSwaps s c ++ c.swapped.filter fun e => match getGroup s e.1 with | some g => decide (g.state = .swapping) | none => false

/-- The lowest place in the swap reserve where n bytes fit. -/
def reserveFit (s : State) (c : Context) (n : Nat) : Option Nat :=
  let used := reserved s c
  let cands := c.desc.saveMin :: used.map fun e => e.2.1 + e.2.2
  let ok (o : Nat) : Bool := decide (o + n ≤ c.desc.savesize) && used.all fun e => decide (o + n ≤ e.2.1) || decide (e.2.1 + e.2.2 ≤ o)
  (cands.filter ok).foldl (fun (b : Option Nat) o => match b with | some x => some (min x o) | none => some o) none

/-- The group lies on a cut die: it is neither swapped nor saved, and ends halted with LINK_LOST (14 R316, R318). -/
def Group.cut (s : State) (g : Group) : Bool := g.cores.any fun k => linkDown s (dieOf k)

/-- FORWARD_PROGRESS_SWAP: the core's counter reaches FPN; the group chosen is halted for a swap, or the lack of room recorded. -/
def execForwardProgressSwap (core : BitVec 8) (s : State) : Out :=
  match swapChoice s core.toNat with
  | none => notDue "FORWARD_PROGRESS_SWAP"
  | some (gid, g) =>
    match getCtx s g.ctx with
    | none => notDue "FORWARD_PROGRESS_SWAP"
    | some c =>
      let s := { s with progress := sput 0 s.progress core.toNat s.clk.toNat }
      let n := swapBytes s gid g
      if g.cut s then .next (haltGroup (failKernel s g.kid Code.linkLost (BitVec.ofNat 32 g.rank) 0) gid)
      else
      match reserveFit s c n with
      | some off =>
        let s := setCtx s g.ctx { c with swapped := reserved s c ++ [(gid, off, n)] }
        .next (setGroup s gid { g with state := .swapping })
      | none =>
        if c.openRecs.any fun o => decide (o.source = 7) then .next s
        else
          .next (postFault s g.ctx ⟨7, kidWord g.kid, BitVec.ofNat 32 g.rank, 0, 0, BitVec.ofNat 64 n⟩
            ⟨Code.swapRoom, 0, 0, 0, 0⟩ none).1

/-- The dirty S-class lines of the dies of a group are written back: wherever its warps next run, they see their own stores and never an older value
than they have read (09 R195). -/
def writeBackGroup (s : State) (g : Group) : State :=
  s.cache.l2.foldl (fun s l => if l.dirty ≠ 0 ∧ (g.cores.any fun k => decide (dieOf k = l.die)) then writeBack s l.die l.line else s) s

/-- SWAP_COMPLETE: the group has drained, no step of it is due, and kills due are made; its records are written into the reserve and it waits
for placement. -/
def execSwapComplete (gid : Nat) (s : State) : Out :=
  match getGroup s gid with
  | none => notDue "SWAP_COMPLETE"
  | some g =>
    match getCtx s g.ctx with
    | none => notDue "SWAP_COMPLETE"
    | some c =>
      if g.state ≠ .swapping ∨ c.leaving.isSome ∨ !drained s gid ∨ s.jobs.any (fun e => decide (e.2.gid = gid)) ∨ g.stepDue ∨ anyHeld s then
        notDue "SWAP_COMPLETE"
      else
        let s := settleKills s fun _ w => decide (w.gid = gid)
        match getGroup s gid, c.swapped.find? fun e => decide (e.1 = gid) with
        | some g, some e =>
          if g.state ≠ .swapping then .next s
          else if g.cut s then .next (settleCtx (loseGroup s gid) g.ctx)
          else
            let pa := c.desc.savebase + e.2.1
            (match putRecords (writeBackGroup s g) g.ctx pa (groupRecords s gid g) with
             | (t, true) => .next (settleCtx (saveGroup t gid pa) g.ctx)
             | (t, false) => .next (contextFault t g.ctx))
        | _, _ => .next s

/-! ### BUDGET_WINDOW_REFRESH (R58) -/

def sumNat (l : List Nat) : Nat := l.foldl (· + ·) 0

/-- The averages of the last 64 samples, one a microsecond; energy is counted in units of 2^-8 pJ, of which one mW takes 256,000 a
microsecond. -/
def Context.refresh (c : Context) : Context :=
  let bw := (c.bwAcc :: c.bwNow).take 64
  let pw := (c.pwrAcc :: c.pwrNow).take 64
  { c with
    bwNow := bw
    pwrNow := pw
    bwAvg := sumNat bw / 64
    pwrAvg := sumNat pw / 64 / 256000
    bwAcc := 0
    pwrAcc := 0 }

/-- BUDGET_WINDOW_REFRESH: every 1 µs the averages are refreshed; a microsecond that CLK shows past is sampled by a refresh of its own. -/
def execBudgetWindowRefresh (s : State) : Out :=
  if s.start.state ≠ .ready ∨ (s.clk - s.windowClk).toNat < oneUs then notDue "BUDGET_WINDOW_REFRESH"
  else .next { s with
    windowClk := s.windowClk + BitVec.ofNat 64 oneUs
    ctxs := s.ctxs.map fun e => (e.1, e.2.refresh) }

/-! ### Placement (04 R86, 06 R112; 03 R67, R71) -/

/-- A die gives up its S-class lines, which may be older than what the warps placed on it have stored or read elsewhere (09 R195). -/
def evictDie (s : State) (die : Nat) : State := (s.cache.l2.filter fun l => decide (l.die = die)).foldl (fun s l => evictS s l.die l.line) s

/-- A restored group: its warps get their cores and slots again (03 R67, R71), and the first block of each acts as if its header acquire
scope were system (R70). A ready one is of age zero there (06 R117); one that waits tests its condition afresh. -/
def placeAgain (s : State) (gid : Nat) (cores : List Nat) : State :=
  match getGroup s gid with
  | none => s
  | some g =>
    let s := ((cores.map dieOf).eraseDups).foldl evictDie s
    let s := setGroup s gid { g with state := .resident, cores := cores, lastCommit := s.clk }
    let s := modCtx s g.ctx fun c => { c with swapped := c.swapped.filter fun e => e.1 ≠ gid }
    (warpsOf s gid).foldl (fun s e =>
      if e.2.state = .ended then s
      else
        let core := cores.getD (e.2.rank % g.C) 0
        let slot := freeSlot { s with warps := tdel s.warps e.1 } core
        setWarp s e.1 { e.2 with
          core := core
          slot := slot
          acqDue := 5
          image := none
          since := s.clk }) s

/-- Test the wait of a waiting warp afresh. -/
def retestWait (s : State) (wid : Nat) : State :=
  match getWarp s wid with
  | none => s
  | some w =>
    if w.state ≠ .waiting then s
    else
      match w.wait with
      | .bar cell phase =>
        (match findCell s w.ctx (some w.gid) cell accRead with
         | .ok at_ =>
           let c := readCell s at_
           let s := touchCell (walkCell s w.ctx cell) w.ctx at_
           if c.live ∧ c.phase = phase.toNat then s else wakeWarp s wid c.scope
         | .error (.cut _) => contextFault s w.ctx
         | .error _ => s)
      | .waitc p t => if w.counter p ≤ t.toNat then wakeWarp s wid 4 else s
      | .step num gen k =>
        (match getGroup s w.gid with
         | some g => let r := getRegion g num; if r.gen = gen ∧ r.k ≠ k then wakeWarp s wid 2 else s
         | none => s)
      | _ => s

/-- A placed warp stands at its boundary again: kills and debug stops that came while it was saved (06 R123), what is due, and its wait. -/
def atBoundary (s : State) (wid : Nat) : State := retestWait (settle s wid) wid

/-- A group to be placed stands in records, and a die link that some of them cross is retraining (14 R315). -/
def placeHeld (s : State) (gid : Option Nat) : Bool :=
  match gid.bind (getGroup s) with | some g => g.savedAt.isSome && anyHeld s | none => false

/-- PLACEMENT: the dispatcher places one group (04 R86, 06 R112). -/
def execPlacement (s : State) : Out :=
  match pick s (candidates s) with
  | none => notDue "PLACEMENT"
  | some (c, cores) =>
    if placeHeld s c.gid then notDue "PLACEMENT"
    else
    let s := { modCtx s c.ctx fun x => { x with state := .resident } with turn := c.ctx }
    match c.gid, getKernel s c.kid with
    | none, some k => .next (placeFresh s c k cores)
    | some gid, _ =>
      (match getGroup s gid with
       | some g =>
         match restoreGroup s gid g with
         | none => .next (contextFault s c.ctx)
         | some s =>
           let s := placeAgain s gid cores
           .next ((warpsOf s gid).foldl (fun s e => atBoundary s e.1) s)
       | none => notDue "PLACEMENT")
    | none, none => notDue "PLACEMENT"

end Sys2Proof.Machine
end

