-- ==== Sys2Proof/Machine/Address.lean ====
section
/-!
DEFINITION. The management commands on translation and memory (12): tlbinv (R268), fltdone (R264), memwb (R269) and memsplit (R253).
-/
namespace Sys2Proof.Machine

/-! ### TLBINV (R268) -/

/-- The physical frames of the entries a shootdown removes from the TLBs of the selected dies. -/
def removedFrames (s : State) (ctx base len : Nat) (on : Nat → Bool) : List (Nat × Nat) :=
  let hit (die : Nat) (t : TlbEntry) : Bool := on die && decide (t.ctx = ctx) && inRange base len t.base t.size
  ((s.tlb.core.filter fun t => hit (t.holder / 64) t) ++ s.tlb.die.filter fun t => hit t.holder t).map fun t => (pteAddr t.entry, t.size)

def inFrames (fs : List (Nat × Nat)) (pa n : Nat) : Bool := fs.any fun g => decide (pa < g.1 + g.2) && decide (g.1 < pa + n)

/-- The frame translated an access through the range: of a slot, or of an address that a fired instruction's scalar operand names, a barrier
cell or a descriptor; or its cwb or cinv found lines in the frames removed. -/
def frameUsed (f : Frame) (base len : Nat) (fs : List (Nat × Nat)) : Bool :=
  let hit (a : Nat) : Bool := inRange base len (a / 65536 * 65536) 65536
  (f.slots.any fun e => e.2.kind.isGlobal && e.2.accs.any fun a => a.pa.isSome && hit a.addr)
    || (f.fired.any fun i => (List.range 3).any fun k =>
        match tget f.toks (slotKey i k) with | some t => !t.vec && t.wide && hit (t.vals.getD 0 0).toNat | none => false)
    || f.cmds.any fun c => match c.2 with | .cwb segs | .cinv segs => segs.any fun g => inFrames fs g.1 g.2 | _ => false

/-- The S-class lines that a block stores to. -/
def frameLines (f : Frame) : List Nat :=
  f.slots.flatMap fun e =>
    if e.2.kind.isGlobal ∧ e.2.kind ≠ .ldG ∧ e.2.kind ≠ .ldK then
      e.2.accs.flatMap fun a => match a.pa with | some pa => if a.cls = .S then linesOf pa e.2.size else [] | none => []
    else []

/-- What was under way on the selected dies through the entries to be removed: blocks past their irrevocable point, with the lines they store
to, and write-backs. -/
def shootUsers (s : State) (x : Shoot) (on : Nat → Bool) : Shoot :=
  let fs := removedFrames s x.ctx x.base x.len on
  let mine := s.warps.filterMap fun e =>
    match e.2.frame with
    | some f => if e.2.ctx = x.ctx ∧ on (dieOf e.2.core) ∧ f.stays ∧ frameUsed f x.base x.len fs then some (e.1, e.2.core, f) else none
    | none => none
  let busy := s.jobs.filter fun e =>
    decide (e.2.ctx = x.ctx) && (match e.2.job with | .maint _ ls => ls.any fun l => inFrames fs (l * 128) 128 | _ => false)
  { x with
    users := x.users ++ mine.map fun e => (e.1, e.2.2.mapped)
    lines := x.lines ++ mine.flatMap fun e => (frameLines e.2.2).map fun l => (dieOf e.2.1, l)
    jobs := x.jobs ++ busy.map (·.1) }

/-- Remove the translations of a shootdown on the selected dies, the context's unmapped chunks there, and flush the blocks that used one, whose
warps take the kills due at their boundary (07 R152, R156). -/
def invalidateRange (s : State) (x : Shoot) (on : Nat → Bool) : State :=
  let fs := removedFrames s x.ctx x.base x.len on
  let mine (w : Warp) : Bool := decide (w.ctx = x.ctx) && on (dieOf w.core)
  let s := shootDies s x.ctx x.base x.len on
  let s := { s with cache := { s.cache with ic := s.cache.ic.filter fun l => !(decide (l.ctx = x.ctx) && on (dieOf l.core)) } }
  let s := mapWarps s (fun _ w => mine w) fun w => { w with image := none }
  let used (w : Warp) : Bool := match w.frame with | some f => frameUsed f x.base x.len fs | none => false
  let s := preemptAll s (fun _ w => mine w && used w) id
  settleKills s fun _ w => mine w

/-- A tlbinv takes effect on the dies that it reaches now; a cut die takes no part (14 R334), and one whose link retrains is reached later (14
R315). -/
def reachDies (s : State) (x : Shoot) : State × Shoot :=
  let on (d : Nat) : Bool := x.dies.contains d && !linkDown s d && !linkHeld s d
  if [0, 1, 2, 3].any on then (invalidateRange s x on, { shootUsers s x on with dies := x.dies.filter (linkHeld s) })
  else (s, { x with dies := x.dies.filter (linkHeld s) })

/-- What was under way through the entries removed has performed, but for the write-back of its stores, which no retraining link holds. -/
def Shoot.over (s : State) (x : Shoot) : Bool :=
  x.dies.isEmpty &&
    x.users.all (fun u => match (getWarp s u.1).bind (·.frame) with | some f => !f.stays || decide (f.mapped ≠ u.2) | none => true) &&
    x.jobs.all (fun j => (tget s.jobs j).isNone) &&
    x.lines.all fun l => !linkHeld s l.1 && !crossesHeld s (some l.1) (l.2 * 128)

/-- A tlbinv completes if nothing it waits for is left: the stores of the blocks that went on perform at device scope, by their write-back (09
R193); else it stays under way. -/
def landShoot (s : State) (x : Shoot) : State :=
  let (s, x) := reachDies s x
  if x.over s then complete (x.lines.foldl (fun s l => writeBack s l.1 l.2) s) x.tag 0x10 0 0
  else { s with mgmt := { s.mgmt with shoots := s.mgmt.shoots ++ [x] } }

/-- TLBINV: the hub's walk cache is cleared and the dies are reached at once, and other commands go on beside it (14 R327). A walk in
progress translates afresh when it completes, so none is left that read an old entry. -/
def execTlbinv (tag : Word) (ctx : BitVec 8) (base len : DWord) (all : Word) (s : State) : Out :=
  let go (base len : Nat) : Out :=
    .next (landShoot (shootDies s ctx.toNat base len fun _ => false) ⟨tag, ctx.toNat, base, len, [0, 1, 2, 3], [], [], []⟩)
  onContext "TLBINV" (.tlbinv tag ctx base len all) tag ctx s CtxState.live fun _ =>
    if 1 < all.toNat then refuse s tag 0x10 Code.mgmtConf
    else if all = 1 then go 0 (2 ^ 52)
    else if base.toNat % 65536 ≠ 0 ∨ len.toNat % 65536 ≠ 0 ∨ 2 ^ 52 < base.toNat + len.toNat then refuse s tag 0x10 Code.shootRange
    else go base.toNat len.toNat

/-- The tlbinv commands under way that can go on do. -/
def landShoots (s : State) : State := s.mgmt.shoots.foldl landShoot { s with mgmt := { s.mgmt with shoots := [] } }

/-- COMMAND_COMPLETION: the hub writes the first completion owed, then CPLWR, and raises vector 257; without room it waits, with MERR [1]
set. With none owed, what is under way goes on. -/
def execCommandCompletion (s : State) : Out :=
  if s.start.state ≠ .ready then notDue "COMMAND_COMPLETION"
  else
    match s.mgmt.cpl with
    | [] => if landShoots s = s then notDue "COMMAND_COMPLETION" else .next (landShoots s)
    | (tag, code, status, result) :: r =>
      if cplRoom s.mgmt then
        let what := BitVec.ofNat 32 (code * 65536 + status)
        let t := hubOwed s (cplAddr s.mgmt) (bytesOfWords [tag, what, lo32 result, hi32 result])
        let t := { t with mgmt := { t.mgmt with
          cpl := r
          cplwr := s.mgmt.cplwr + 1 } }
        .next (raiseVec t 257)
      else if s.mgmt.merr.getLsbD 1 then notDue "COMMAND_COMPLETION"
      else .next { s with mgmt := { s.mgmt with merr := s.mgmt.merr ||| 2 } }

/-! ### FLTDONE (R264) -/

/-- What a retry does to a waiter of record k; one that has gone away, or waits on another record, is skipped. -/
def retryWaiter (s : State) (k : Word) : Waiter → State
  | .warp w _ => readyAgain s w
  | .copy c => match tget s.copies c with | some x => if x.paused = some k then setCopy s c { x with paused := none } else s | none => s
  | .region key ri =>
    match getPart s key with
    | some p =>
      match p.regions[ri]? with
      | some r => if r.frozen = some k then setPart s key { p with regions := setAt p.regions ri { r with frozen := none } } else s
      | none => s
    | none => s

/-- What an unserviceable answer does to a waiter: a fatal group fault with the record's code and address, COPY_FAULT, or an abort with ADDR;
the last two at the address the waiter itself met (11 R237, 13 R298). -/
def endWaiter (s : State) (o : OpenRec) : Waiter → State
  | .warp w idx =>
    match getWarp s w with
    | some x => if x.state = .faultWait then fatalGroup (setWarp s w (x.ready s.clk)) w (x.ready s.clk) o.code (BitVec.ofNat 64 o.vaddr) idx else s
    | none => s
  | .copy c =>
    match tget s.copies c with
    | some x => if x.paused = some o.index then endCopy s c { x with paused := none } Code.copyFault x.done.length (BitVec.ofNat 64 x.pauseVa) else s
    | none => s
  | .region k ri =>
    match getPart s k with
    | some p =>
      match p.regions[ri]? with
      | some r => if r.frozen = some o.index then abortPhase s k (some ri) Code.addr none (BitVec.ofNat 64 r.frozenVa) else s
      | none => s
    | none => s

/-- The record is closed: the open count falls by one (R261). -/
def closeRec (s : State) (ctx : Nat) (c : Context) (k : Word) : State :=
  let left := c.openRecs.filter fun o => o.index ≠ k
  let s := setCtx s ctx { c with openRecs := left }
  hubOwedFor s ctx (c.desc.faultq + 8) (leBytes left.length 4)

/-- The answer to a record: FLT_STATE where it is not open or the action is reserved. -/
def answerRecord (s : State) (tag : Word) (ctx : Nat) (c : Context) (k action : Word) : Out :=
  match c.openRecs.find? fun o => decide (o.index = k) with
  | none => refuse s tag 0x11 Code.fltState
  | some o =>
    if 1 < action.toNat then refuse s tag 0x11 Code.fltState
    else
      let s := closeRec s ctx c k
      finish (o.waiters.foldl (fun s w => if action = 0 then retryWaiter s o.index w else endWaiter s o w) s) tag 0x11

/-- A copy waits on the record: a save in progress waits for its answer (R250). -/
def holdsSave (s : State) (c : Context) (k : Word) : Bool :=
  decide (c.leaving = some .suspend) && (c.openRecs.any fun o => decide (o.index = k) && o.waiters.any fun
    | .copy x => (match tget s.copies x with | some y => decide (y.paused = some k) | none => false)
    | _ => false)

/-- FLTDONE: accepted in a live context, a suspended one too (R264); during a save at once where a copy that the save waits for waits on the
record (11 R250, log 70), as any other command behind it otherwise (03 R61). -/
def execFltdone (tag : Word) (ctx : BitVec 8) (k action : Word) (s : State) : Out :=
  match getCtx s ctx.toNat with
  | some c =>
    if s.start.state = .ready ∧ holdsSave s c k then answerRecord s tag ctx.toNat c k action
    else
      onContext "FLTDONE" (.fltdone tag ctx k action) tag ctx s CtxState.live fun _ => answerRecord s tag ctx.toNat c k action
  | none => onContext "FLTDONE" (.fltdone tag ctx k action) tag ctx s CtxState.live fun _ => refuse s tag 0x11 Code.ctxState

/-! ### MEMWB and MEMSPLIT (R269, R253) -/

/-- Write back and discard every die's copy of the lines of a physical range, and recall its C-class lines, with the marks of those held
exclusively. -/
def memWriteBack (s : State) (base len : Nat) : State :=
  let hit (line : Nat) : Bool := decide (base < line * 128 + 128) && decide (line * 128 < base + len)
  let s := s.cache.l2.foldl (fun s l => if hit l.line then writeBack s l.die l.line else s) s
  let s := giveBack s fun d => hit d.line && !linkDown s d.die
  { s with cache := { s.cache with
      l2 := s.cache.l2.filter fun l => !hit l.line
      l1 := s.cache.l1.filter fun l => !hit l.line
      dir := s.cache.dir.filter fun d => !hit d.line } }

/-- MEMWB. -/
def execMemwb (tag : Word) (ctx : BitVec 8) (base len : DWord) (s : State) : Out :=
  heldCommand s none (.memwb tag ctx base len) <| onModule "MEMWB" (.memwb tag ctx base len) tag ctx s
    (if base.toNat % 128 ≠ 0 ∨ len.toNat % 128 ≠ 0 then refuse s tag 0x12 Code.mgmtConf
     else finish (memWriteBack s base.toNat len.toNat) tag 0x12)

/-- Device memory whose contents are undefined: every byte of it is free, host memory keeps its own. -/
def Memory.undefined (m : Memory) : Memory := ⟨m.cells.filter fun c => decide (2 ^ 51 ≤ c.1), m.epoch + 1⟩

/-- MEMSPLIT: accepted while every context is free. -/
def execMemsplit (tag : Word) (ctx : BitVec 8) (m : Word) (s : State) : Out :=
  onModule "MEMSPLIT" (.memsplit tag ctx m) tag ctx s
    (if !s.ctxs.isEmpty then refuse s tag 0x13 Code.ctxState
     else if 64 < m.toNat then refuse s tag 0x13 Code.mgmtConf
     else finish { s with
       split := m.toNat
       mem := s.mem.undefined
       poison := []
       cache := ⟨[], [], [], [], [], [], []⟩ } tag 0x13)

end Sys2Proof.Machine
end

