-- ==== Sys2Proof/Machine/Debug.lean ====
section
/-!
DEFINITION. The debugger's commands (18 R442 to R447, 14 R328) and the dump of a faulted group (18 R448 to R452).
-/
namespace Sys2Proof.Machine

/-! ### What debug commands share (R444) -/

/-- A debug command: its context has debug enable set. -/
def onDebug (m : String) (i : Instr) (tag : Word) (ctx : BitVec 8) (s : State) (f : Context → Out) : Out :=
  onContext m i tag ctx s CtxState.live fun
    | some c => if c.desc.debug then f c else refuse s tag (commandCode i) Code.ctxState
    | none => refuse s tag (commandCode i) Code.ctxState

/-- The group of a kernel of the context with a group rank. -/
def findGroup (s : State) (ctx : Nat) (kid grank : Word) : Option Nat :=
  (s.groups.find? fun g => decide (g.2.ctx = ctx) && decide (g.2.kid = kid.toNat) && decide (g.2.rank = grank.toNat)).map (·.1)

/-- The warp that three words name (R328), if it has not ended. -/
def findWarp (s : State) (ctx : Nat) (kid grank wrank : Word) : Option (Nat × Warp) :=
  match findGroup s ctx kid grank with
  | some g => s.warps.find? fun w => decide (w.2.gid = g) && decide (w.2.rank = wrank.toNat) && decide (w.2.state ≠ .ended)
  | none => none

/-- The context's fabric regions change. -/
def mapRegions (s : State) (ctx : Nat) (f : FRegion → FRegion) : State :=
  { s with parts := s.parts.map fun p => if p.2.ctx = ctx then (p.1, { p.2 with regions := p.2.regions.map f }) else p }

/-- Stopped regions run on (log 61). -/
def resumeRegions (s : State) (ctx : Nat) : State := mapRegions s ctx fun r => { r with halted := false, stop := false }

/-! ### DBGCTL and breakpoints -/

/-- The reserved bits of a DBGCTL value are zero and its policy is not 0b11 (R442). -/
def dbgctlOk (v : Word) : Bool := decide (wbits v 31 5 = 0) && decide (wbits v 3 2 ≠ 3)

/-- DBGSET. Clearing what stopped fabric regions lets them run on (log 61). -/
def execDbgset (tag : Word) (ctx : BitVec 8) (v : Word) (s : State) : Out :=
  onDebug "DBGSET" (.dbgset tag ctx v) tag ctx s fun c =>
    if !dbgctlOk v then refuse s tag 0x30 Code.mgmtConf
    else
      let s := setCtx s ctx.toNat { c with dbgctl := v }
      finish (if v.getLsbD 4 ∨ wbits v 3 2 = 2 then s else resumeRegions s ctx.toNat) tag 0x30

/-- DBGBP: all ones disables the entry; any other handle has bit 31 zero (02 R29). -/
def execDbgbp (tag : Word) (ctx : BitVec 8) (entry handle : Word) (s : State) : Out :=
  onDebug "DBGBP" (.dbgbp tag ctx entry handle) tag ctx s fun c =>
    if 8 ≤ entry.toNat ∨ (handle.getLsbD 31 ∧ handle ≠ 0xFFFFFFFF) then refuse s tag 0x31 Code.mgmtConf
    else finish (setCtx s ctx.toNat { c with bps := setAt c.bps entry.toNat handle }) tag 0x31

/-! ### Stops and resumes -/

/-- Stop the warps a test names, and those that the policy stops with them (R442, R443). -/
def stopNamed (s : State) (ctx pol : Nat) (p : Nat → Warp → Bool) : State :=
  let groups := (s.warps.filter fun e => p e.1 e.2).map (·.2.gid)
  let s := (fun s => gbarAll s ctx) <| stopAll s fun i w => p i w || (decide (pol = 1) && groups.contains w.gid) ||
    (decide (pol = 2) && !groups.isEmpty && decide (w.ctx = ctx))
  if pol = 2 ∧ groups ≠ [] then mapRegions s ctx fun r => { r with stop := true } else s

/-- DBGSTOP: one group's warps, every group's of a kernel, or every warp of the context. -/
def execDbgstop (tag : Word) (ctx : BitVec 8) (kid grank flags : Word) (s : State) : Out :=
  onDebug "DBGSTOP" (.dbgstop tag ctx kid grank flags) tag ctx s fun c =>
    let n := ctx.toNat
    let pol := wbits c.dbgctl 3 2
    let kernelHere : Bool := match getKernel s kid.toNat with | some k => decide (k.ctx = n) | none => false
    if wbits flags 31 2 ≠ 0 then refuse s tag 0x32 Code.mgmtConf
    else if flags.getLsbD 0 then finish (stopNamed s n pol fun _ w => decide (w.ctx = n)) tag 0x32
    else if !kernelHere then refuse s tag 0x32 Code.mgmtConf
    else if flags.getLsbD 1 then finish (stopNamed s n pol fun _ w => decide (w.ctx = n) && decide (w.kid = kid.toNat)) tag 0x32
    else
      match findGroup s n kid grank with
      | some g => finish (stopNamed s n pol fun _ w => decide (w.gid = g)) tag 0x32
      | none => refuse s tag 0x32 Code.mgmtConf

def runMode (v : Word) : Option RunMode :=
  match v.toNat with
  | 0 => some .run | 1 => some .step | 2 => some .serial | _ => none

/-- A stopped warp runs on: a wait it stood in is tested again (R443). -/
def resumeWarp (s : State) (wid : Nat) (w : Warp) (mode : RunMode) : State :=
  if w.wait = .none then settle (setWarp s wid ({ w with mode := mode }.ready s.clk)) wid
  else retestWait (setWarp s wid { w with mode := mode, state := .waiting }) wid

/-- DBGRESUME. -/
def execDbgresume (tag : Word) (ctx : BitVec 8) (kid grank wrank : Word) (mode : Word) (s : State) : Out :=
  onDebug "DBGRESUME" (.dbgresume tag ctx kid grank wrank mode) tag ctx s fun _ =>
    match runMode mode, findWarp s ctx.toNat kid grank wrank with
    | some m, some (i, w) =>
      if w.state = .stopped then finish (resumeWarp (resumeRegions s ctx.toNat) i w m) tag 0x33 else refuse s tag 0x33 Code.mgmtConf
    | _, _ => refuse s tag 0x33 Code.mgmtConf

/-! ### A warp's state -/

/-- The bytes of a record in memory, with the poison of their sectors. -/
def recordIn (s : State) (pa n : Nat) : RecIn := ⟨s.mem.bytes pa n, fun k => poisonedAt s (pa + k) 1⟩

/-- A warp written by the debugger; one that is saved is written in its record too (log 9). -/
def writeWarp (s : State) (wid : Nat) (w : Warp) (held : Option (Nat × Warp)) : State :=
  match held with
  | some p =>
    let s := setWarp s wid w
    if hubCan s p.1 w.recordLen then putRecord s w.ctx p.1 (warpRecord s w) else hubOwed s p.1 []
  | none => setWarp s wid w

/-- DBGWARP: the stopped warp's record goes to the buffer, or comes from it. -/
def execDbgwarp (tag : Word) (ctx : BitVec 8) (kid grank wrank : Word) (buf : DWord) (wr : Word) (s : State) : Out :=
  onDebug "DBGWARP" (.dbgwarp tag ctx kid grank wrank buf wr) tag ctx s fun _ =>
    match findWarp s ctx.toNat kid grank wrank with
    | some (i, w) =>
      let held := savedWarp s i w
      let w := match held with | some p => p.2 | none => w
      let n := w.recordLen
      if w.state ≠ .stopped ∨ !bufferOk s buf n ∨ 1 < wr.toNat ∨ (wr = 1 ∧ !hubCan s buf.toNat n) then refuse s tag 0x34 Code.mgmtConf
      else if wr = 0 then finish (if hubCan s buf.toNat n then putRecord s w.ctx buf.toNat (warpRecord s w) else hubOwed s buf.toNat []) tag 0x34
      else finish (writeWarp s i (loadWarp (recordIn s buf.toNat n) w) held) tag 0x34
    | none => refuse s tag 0x34 Code.mgmtConf

/-- DBGKILL: lanes die at the warp's boundary (07 R152); a warp that stands at one loses them at once. -/
def execDbgkill (tag : Word) (ctx : BitVec 8) (kid grank wrank : Word) (lanes : Word) (s : State) : Out :=
  onDebug "DBGKILL" (.dbgkill tag ctx kid grank wrank lanes) tag ctx s fun _ =>
    match findWarp s ctx.toNat kid grank wrank with
    | some (i, w) =>
      let s := setWarp s i { w with killDue := w.killDue ||| lanes }
      let s := if w.state = .mapped then s else if w.state = .ready then settle s i else gbarCheck (applyKills s i) w.gid
      finish s tag 0x35
    | none => refuse s tag 0x35 Code.mgmtConf

/-! ### The token of an instruction (R445) -/

/-- The token a fired instruction delivered, at the first of its targets that it reached. -/
def producedToken (f : Frame) (i : Nat) : Option Token :=
  let ts := match (Img.all f.words).find? fun e => decide (e.1 = i) with | some e => targetsOf e.2 | none => []
  let at_ (t : Target) : Option Token :=
    match t with
    | .opA j => tget f.toks (slotKey j.toNat 0)
    | .opB j => tget f.toks (slotKey j.toNat 1)
    | .opC j => tget f.toks (slotKey j.toNat 2)
    | .guard j => tget f.toks (slotKey j.toNat 3)
    | .write k => (f.wtoks.find? fun e => decide (e.1 = k.toNat) && decide (e.2.1 = i)).map fun e => e.2.2
    | .none => none
  if f.fired.contains i then (ts.filterMap at_).head? else none

/-- The 320 bytes of dbgtok: a scalar's value stands in every lane (07 R134). -/
def tokenRecord (t : Token) : List RByte :=
  let v (l : Nat) : DWord := if t.vec then t.vals.getD l 0 else t.vals.getD 0 0
  lanes32.flatMap (fun l => (leBytes (v l).toNat 8).map fun b => (b, t.pois.getLsbD l)) ++
  recWords [t.valid, BitVec.ofNat 32 (t.wide.toNat * 2 + (!t.vec).toNat)] ++ clean (List.replicate 56 0)

/-- DBGTOK. -/
def execDbgtok (tag : Word) (ctx : BitVec 8) (kid grank wrank : Word) (idx : Word) (buf : DWord) (s : State) : Out :=
  onDebug "DBGTOK" (.dbgtok tag ctx kid grank wrank idx buf) tag ctx s fun _ =>
    match findWarp s ctx.toNat kid grank wrank with
    | some (_, w) =>
      (match w.frame with
       | some f =>
         (match producedToken f idx.toNat with
          | some t =>
            if w.mode ≠ .serial ∨ !bufferOk s buf 320 then refuse s tag 0x36 Code.mgmtConf
            else finish (if hubCan s buf.toNat 320 then putRecord s ctx.toNat buf.toNat (tokenRecord t) else hubOwed s buf.toNat []) tag 0x36
          | none => refuse s tag 0x36 Code.mgmtConf)
       | none => refuse s tag 0x36 Code.mgmtConf)
    | none => refuse s tag 0x36 Code.mgmtConf

/-! ### The node table (R447) -/

/-- The position word of dbgnode has no reserved bit set. -/
def nodePosOk (pos : Word) : Bool := decide (wbits pos 31 20 = 0) && decide (wbits pos 11 11 = 0) && decide (wbits pos 7 3 = 0)

/-- The 32 bytes of dbgnode: the context word of an element's slot, zero where no record names it, and its node record. -/
def nodeBytes (p : Partition) (pos slot : Nat) : List Byte :=
  let hit (e : ElemRec) : Bool :=
    decide (e.row = bitsOf pos 19 16) && decide (e.col = bitsOf pos 15 12) && decide (e.ey = bitsOf pos 10 8) &&
      decide (e.ex = bitsOf pos 2 0) && decide (e.ctx = slot)
  let k := p.cur.elems.findIdx hit
  let word : Nat := match p.cur.elems[k]? with | some e => e.word.toNat | none => 0
  let node := p.cur.nodes.getD k (0xFFFFFFFF, 0)
  leBytes word 16 ++ bytesOfWords [node.1, node.2, 0, 0]

/-- DBGNODE. -/
def execDbgnode (tag : Word) (ctx : BitVec 8) (part pos slot : Word) (buf : DWord) (s : State) : Out :=
  onDebug "DBGNODE" (.dbgnode tag ctx part pos slot buf) tag ctx s fun _ =>
    match getPart s (partKey ctx.toNat part.toNat) with
    | some p =>
      if 4 ≤ part.toNat ∨ !nodePosOk pos ∨ p.h ≤ wbits pos 19 16 ∨ p.w ≤ wbits pos 15 12 ∨ 32 ≤ slot.toNat ∨ !bufferOk s buf 32 then
        refuse s tag 0x37 Code.mgmtConf
      else finish (hubOwed s buf.toNat (nodeBytes p pos.toNat slot.toNat)) tag 0x37
    | none => refuse s tag 0x37 Code.mgmtConf

/-! ### DUMP_WRITE (R448 to R452) -/

/-- A dump as it is written: the state, the next section's place, sections and bytes written, and the address of a failure. -/
structure Dumping where
  st       : State
  off      : Nat
  sections : Nat
  bytes    : Nat
  failed   : Option Nat

/-- Write one section, whole or up to the address that fails (R452), where the write lost is counted if a link lost it (14 R319). -/
def dumpSection (base : Nat) (d : Dumping) (r : List RByte) : Dumping :=
  if d.failed.isSome then d
  else
    match writeFault d.st (base + d.off) r.length with
    | none =>
      { st := putMarked d.st (base + d.off) (r.length + 1) r
        off := d.off + round64 r.length
        sections := d.sections + 1
        bytes := d.off + r.length
        failed := none }
    | some a =>
      let n := a - (base + d.off)
      { st := putMarked (countLoss d.st a) (base + d.off) (n + 1) (r.take n)
        off := d.off
        sections := if n = 0 then d.sections else d.sections + 1
        bytes := if n = 0 then d.bytes else d.off + n
        failed := some a }

/-- An entry of the barrier-state record (R451): the operand, the cell with its poison, and the slot with the relation. -/
def cellEntry (s : State) (ctx gid : Nat) (op : DWord) (slot rel : Nat) : List RByte :=
  let cell : List RByte :=
    match findCell s ctx (some gid) op accRead with
    | .ok at_ =>
      let bad := match at_ with
        | .glob pa => poisonedAt s pa 32
        | .spad g a => match getGroup s g with | some g => spadPoisoned g a 32 | none => false
      (bytesOfWords (readCell s at_).toWords).map fun b => (b, bad)
    | .error _ => openBytes s op.toNat 32
  recWords [lo32 op, hi32 op] ++ cell ++ recWords [BitVec.ofNat 32 (slot * 256 + rel), 0]

/-- The cells that warps of the group wait on, each once, with the slot of the lowest such warp; then those its copies named. -/
def barrierRecord (s : State) (gid : Nat) (g : Group) : List RByte :=
  let waits := (rankedWarps s gid g.W).filterMap fun w => match w.wait with | .bar op _ => some (op, w.slot) | _ => none
  let once := waits.foldl (fun (l : List (DWord × Nat)) e => if l.any fun x => decide (x.1 = e.1) then l else l ++ [e]) []
  let body := once.flatMap (fun e => cellEntry s g.ctx gid e.1 e.2 1) ++ g.copyCells.flatMap fun op => cellEntry s g.ctx gid op 0xFF 2
  recHead 5 (16 + body.length) (kidWord g.kid) (BitVec.ofNat 32 g.rank) ++ body

/-- The sections of a dump, in order (R450 step 4). -/
def dumpSections (s : State) (gid : Nat) (g : Group) : List (List RByte) :=
  (rankedWarps s gid g.W).map (warpRecord s) ++ (List.range g.C).map (spadRecord g) ++ [barrierRecord s gid g]

/-- Bytes 0x04 to 0x3F of the dump header (R448). -/
def dumpHeader (g : Group) (j : DumpJob) (d : Dumping) : List Byte :=
  bytesOfWords [BitVec.ofNat 32 d.sections, BitVec.ofNat 32 j.lost, kidWord g.kid, BitVec.ofNat 32 g.rank, BitVec.ofNat 32 j.code]
    ++ leBytes j.detail.toNat 8 ++ leBytes (d.failed.getD 0) 8 ++ leBytes d.bytes 8 ++ leBytes j.clk.toNat 8
    ++ bytesOfWords [j.where_, j.handle]

/-- The header's state word: valid, with truncated and DUMP_FAULT where a write failed. -/
def dumpState (d : Dumping) : Word := if d.failed.isSome then 0xC0000003 else 0x80000000

/-- DUMP_WRITE: the group halts and its work has ended; the dump is written, charged to its context (03 R58), and its kernel fails (R435,
R450). -/
def execDumpWrite (gid : Nat) (s : State) : Out :=
  match getGroup s gid with
  | none => notDue "DUMP_WRITE"
  | some g =>
    match g.dump, getCtx s g.ctx with
    | some j, some c =>
      if g.state ≠ .halting ∨ !drained s gid ∨ anyHeld s then notDue "DUMP_WRITE"
      else
        let base := c.desc.dumpbase
        let can := hubCan s base 64
        let s := hubOwed s base (leBytes 0 4)
        let d := (dumpSections s gid g).foldl (dumpSection base) ⟨s, 64, 0, 64, none⟩
        let s := hubOwed d.st (base + 4) (dumpHeader g j d)
        let s := hubOwed s base (leBytes (dumpState d).toNat 4)
        let s := if can then hubUse s g.ctx base d.bytes else s
        let s := modCtx s g.ctx fun c => { c with dumping := none }
        let s := modGroup s gid fun g => { g with dump := none }
        .next (failKernel s g.kid j.code (BitVec.ofNat 32 g.rank) j.detail)
    | _, _ => notDue "DUMP_WRITE"

end Sys2Proof.Machine
end

