-- ==== Sys2Proof/Machine/Link.lean ====
section
/-!
DEFINITION. Die links, the host port and the peer ports (14 R313 to R322, R332 to R334): their states and event records, a die link that
goes down, the linkstat and peerset commands, and the accesses of the host and of peers.
-/
namespace Sys2Proof.Machine

/-! ### State changes and their records (R319) -/

/-- The commands that waited for the links begin, in order. -/
def runPending (s : State) : State :=
  if anyHeld s then s
  else { s with
    mgmt := { s.mgmt with pending := [] }
    agenda := (s.mgmt.pending.map fun p => Action.event p.2) ++ s.agenda }

/-- A link has left retraining: the writes held behind it are made or lost, a tlbinv goes on, saved partitions whose records lay behind it
are placed again, and commands that waited begin (R313, R315). -/
def afterRetraining (s : State) : State := runPending (restoreParts (landShoots (releaseHeld s)))

/-- A die link changes state; its record is written. -/
def setLink (s : State) (d : Nat) (new : LinkState) (lanes : Nat) : State :=
  match s.links[d]? with
  | none => s
  | some l =>
    let s := postLink { s with links := setAt s.links d { l with state := new, lanes := lanes } } 0 d new.code l.state.code lanes l.lost l.kernels
    if l.state = .retraining ∧ new ≠ .retraining then afterRetraining s else s

/-- The host port changes state. -/
def setHost (s : State) (new : HostState) (lanes rate : Nat) : State :=
  postLink { s with host := { s.host with state := new, lanes := lanes, rate := rate } } 1 0 new.code s.host.state.code lanes s.host.lost
    s.host.kernels

/-- Lanes of a peer port, which the spec does not number (log 62): free while it is up, none otherwise. -/
def peerLanes (s : State) (st : PortState) : Nat := if st = .up then (openWord s 48).toNat % 256 else 0

def setPeer (s : State) (p : Nat) (new : PortState) : State :=
  let old := s.peers.getD p .disabled
  postLink { s with peers := setAt s.peers p new } 2 p (portCode new) (portCode old) (peerLanes s new) (s.peerLost.getD p 0)
    (s.peerKernels.getD p 0)

/-! ### Retraining (R314) -/

/-- Cycles of 10 ms. -/
def tenMs : Nat := 22500000

/-- Retrainings entered within the last 10 ms. -/
def DieLink.recent (l : DieLink) (clk : DWord) : List DWord := l.trained.filter fun t => decide ((clk - t).toNat < tenMs)

def dieLink (s : State) (d : Nat) : DieLink := s.links.getD d DieLink.reset

/-- Die links run on their own once the module has trained. -/
def linksRun (s : State) : Bool := decide (s.start.state ≠ .off) && decide (s.start.state ≠ .training)

/-- Cycles of 40 µs, within which a retraining ends (R314). -/
def fortyUs : Nat := 90000

/-- RETRAINING_TRIGGER: an up or degraded link enters retraining; no flit crosses, and what crosses is held (R315). The entries of the 10 ms
before this one are kept with it. -/
def execRetrainingTrigger (d : BitVec 2) (s : State) : Out :=
  let l := dieLink s d.toNat
  if linksRun s ∧ (l.state = .up ∨ l.state = .degraded) then
    let s := setLink s d.toNat .retraining 0
    .next { s with links := setAt s.links d.toNat { dieLink s d.toNat with trained := s.clk :: l.recent s.clk } }
  else notDue "RETRAINING_TRIGGER"

/-- The retraining in progress fails: fewer than 4 sublinks pass, or it was entered as the fourth within 10 ms. -/
def retrainFails (s : State) (d good : Nat) : Bool := decide (good < 4) || decide (4 ≤ (dieLink s d).trained.length)

/-- The link entered retraining no more than 40 µs ago. -/
def inTime (s : State) (d : Nat) : Bool :=
  match (dieLink s d).trained with | t :: _ => decide ((s.clk - t).toNat ≤ fortyUs) | [] => false

/-- RETRAINING_ENDS: within 40 µs, every sublink that passes is kept. -/
def execRetrainingEnds (d : BitVec 2) (good : BitVec 4) (s : State) : Out :=
  if linksRun s ∧ (dieLink s d.toNat).state = .retraining ∧ good.toNat ≤ 8 ∧ !retrainFails s d.toNat good.toNat ∧ inTime s d.toNat then
    .next (setLink s d.toNat (if good = 8 then .up else .degraded) good.toNat)
  else notDue "RETRAINING_ENDS"

/-- Every C-class line that a die's L2 holds exclusively is marked poisoned in the hub's copy (R316); the die's own copy is as it was. -/
def poisonExclusive (s : State) (d : Nat) : State :=
  (s.cache.dir.filter fun e => decide (e.die = d) && e.excl).foldl
    (fun s e => setMarks s e.line ((List.range 4).map (· + 4 * e.line))) s

/-- The partitions of a cut die whose phase runs abort it with LINK_LOST (R316). -/
def abortCut (s : State) (d : Nat) : State :=
  (s.parts.filter fun p => decide (p.2.die = d) && (decide (p.2.state = .streaming) || decide (p.2.state = .draining)) && !p.2.saved).foldl
    (fun s p => abortPhase s p.1 none Code.linkLost none 0) s

/-- RETRAINING_FAILS: the link enters down, and the hub and the die each act on their own side of the cut (R316). What needs the link
later meets LINK_LOST where it does. -/
def execRetrainingFails (d : BitVec 2) (good : BitVec 4) (s : State) : Out :=
  if linksRun s ∧ (dieLink s d.toNat).state = .retraining ∧ good.toNat ≤ 8 ∧ retrainFails s d.toNat good.toNat then
    .next (abortCut (poisonExclusive (setLink s d.toNat .down 0) d.toNat) d.toNat)
  else notDue "RETRAINING_FAILS"

/-! ### The host port and the peer ports (R320, R332) -/

def HostState.carries : HostState → Bool
  | .up | .degraded => true
  | _ => false

/-- HOST_LINK_LOSS: the module runs on; host-window accesses meet LINK_LOST. -/
def execHostLinkLoss (s : State) : Out :=
  if s.host.state.carries ∧ s.start.state ≠ .off then .next (setHost s .down 0 0) else notDue "HOST_LINK_LOSS"

/-- A port that lost its link enters training again before it is up (R320). -/
def hostTrains (s : State) : State := if s.host.state = .training then s else setHost s .training 0 0

/-- HOST_LINK_TRAINED: up at x16 and 64 GT/s, degraded below either (R319). -/
def execHostLinkTrained (width rate : BitVec 8) (s : State) : Out :=
  let w := width.toNat
  let r := rate.toNat
  if s.start.state = .off ∨ s.host.state.carries ∨ s.host.state = .disabled ∨ !([16, 8, 4].contains w && [64, 32, 16].contains r) then
    notDue "HOST_LINK_TRAINED"
  else .next (setHost (hostTrains s) (if w = 16 ∧ r = 64 then .up else .degraded) w r)

/-- PEER_PORT_CHANGE. -/
def execPeerPortChange (p : BitVec 3) (st : PortState) (s : State) : Out :=
  if s.start.state = .off ∨ s.peers[p.toNat]? = some st then notDue "PEER_PORT_CHANGE" else .next (setPeer s p.toNat st)

/-- HOST_ACCESS: through the HDM decoder, at the hub at system scope (R321). -/
def execHostAccess (op : BusOp) (s : State) : Out :=
  if s.host.state.carries then busAccess addF32 op "HOST_ACCESS" s else notDue "HOST_ACCESS"

/-- PEER_ACCESS: a trained peer's access has the effect and ordering of a host access (R332). -/
def execPeerAccess (p : BitVec 3) (op : BusOp) (s : State) : Out :=
  if s.peers[p.toNat]? = some .up then busAccess addF32 op "PEER_ACCESS" s else notDue "PEER_ACCESS"

/-! ### Commands (R328, R333) -/

def linkResult (rate lanes code retrains : Nat) : DWord := BitVec.ofNat 64 (retrains * 2 ^ 32 + rate * 2 ^ 16 + lanes * 2 ^ 8 + code)

/-- LINKSTAT. -/
def execLinkstat (tag : Word) (ctx : BitVec 8) (which : Word) (s : State) : Out :=
  let n := wbits which 11 8
  let bad := refuse s tag 0x20 Code.mgmtConf
  onModule "LINKSTAT" (.linkstat tag ctx which) tag ctx s
    (if wbits which 31 16 ≠ 0 ∨ wbits which 7 0 ≠ 0 then bad
     else
       match wbits which 15 12 with
       | 0 =>
         if 4 ≤ n then bad
         else let l := dieLink s n; .next (complete s tag 0x20 0 (linkResult 0 l.lanes l.state.code (l.recent s.clk).length))
       | 1 => if n ≠ 0 then bad else .next (complete s tag 0x20 0 (linkResult s.host.rate s.host.lanes s.host.state.code 0))
       | 2 =>
         if 8 ≤ n then bad
         else
           let st := s.peers.getD n .disabled
           let rate := if st = .up then (openWord s 49).toNat % 65536 else 0
           .next (complete s tag 0x20 0 (linkResult rate (peerLanes s st) (portCode st) 0))
       | _ => bad)

/-- Two ranges share an address. -/
def rangesMeet (a n b m : Nat) : Bool := decide (a < b + m) && decide (b < a + n)

/-- PEERSET: bases and sizes are multiples of 1 GiB within the host window; enabled apertures do not overlap. -/
def execPeerset (tag : Word) (ctx : BitVec 8) (ap en : Word) (base size : DWord) (s : State) : Out :=
  let b := base.toNat
  let n := size.toNat
  let k := ap.toNat
  let clash := en.getLsbD 31 && s.apertures.zipIdx.any fun a => a.1.enabled && decide (a.2 ≠ k) && rangesMeet b n a.1.base a.1.size
  onModule "PEERSET" (.peerset tag ctx ap en base size) tag ctx s
    (if 8 ≤ k ∨ wbits en 30 3 ≠ 0 then refuse s tag 0x21 Code.mgmtConf
     else if b % gib ≠ 0 ∨ n % gib ≠ 0 ∨ b < 2 ^ 51 ∨ 2 ^ 52 < b + n ∨ clash then refuse s tag 0x21 Code.linkConf
     else finish { s with apertures := setAt s.apertures k ⟨en.getLsbD 31, wbits en 2 0, b, n⟩ } tag 0x21)

end Sys2Proof.Machine
end

