-- ==== Sys2Proof/Machine/Start.lean ====
section
/-!
DEFINITION. Starting, securing and powering the module (21): starts and their states (R467 to R471), firmware slots (R472), SPDM (R474),
the power limit and telemetry (R475, R476, 14 R329); and the writes of the host to BAR0 and BAR2 as they come (14 R324, 04 R74).
-/
namespace Sys2Proof.Machine

/-! ### Requests (R468, R470, R471) -/

/-- Every start request clears the rings' enables and indices and discards commands (14 R327). -/
def Mgmt.restart (m : Mgmt) : Mgmt :=
  { m with
    cmdctl := false
    cmdwr := 0
    cmdrd := 0
    cplwr := 0
    cplrd := 0
    evctl := false
    evwr := 0
    evrd := 0
    smpwr := 0
    smprd := 0
    cpl := []
    shoots := []
    pending := [] }

/-- A context ends as if by destroy (R470): its queues close, its blocks are flushed but for those past their irrevocable point, which commit, and
its asynchronous operations complete (03 R72). No dump of it goes on, and no command waits for its end. -/
def endCtx (s : State) (n : Nat) : State :=
  let s := leaveCtx (disableQueues s n) n .destroy
  let s := { s with groups := s.groups.map fun g => if g.2.ctx = n then (g.1, { g.2 with dump := none }) else g }
  modCtx s n fun c => { c with
    state := .tornDown
    waiting := none
    endTag := none
    dumping := none }

/-- Every context ends; the kernels in flight are lost, with no completion record and no arrival. Commands taken are discarded (14 R327). -/
def endAll (s : State) : State :=
  let s := s.ctxs.foldl (fun s c => endCtx s c.1) s
  { s with
    kernels := s.kernels.map fun k => if k.2.state.final then k else (k.1, { k.2 with
      killed := true
      state := .draining })
    counts := []
    samp := { s.samp with on := false }
    agenda := s.agenda.filter fun a => match a with | .event i => decide (commandCode i = 0) | _ => true }

/-- A start begins. A die link is locked when it is up with eight sublinks at a warm request (R469). -/
def beginStart (s : State) (warm clear : Bool) : State :=
  let s := { s with
    start := { s.start with
      state := .verifying
      ignored := 0
      clear := clear
      warm := warm
      hbmStacks := if warm then s.start.hbmStacks else 0 }
    links := s.links.map fun l => { l with locked := warm && decide (l.state = .up) && decide (l.lanes = 8) } }
  let s := postStart s 1 0
  endAll { s with mgmt := s.mgmt.restart }

/-- START_REQUEST: go written 1. While a start is in progress the request is ignored; off is left by a cold request only. -/
def execStartRequest (warm clear : Bool) (s : State) : Out :=
  match s.start.state with
  | .off => .next (if warm then s else beginStart s false clear)
  | .ready | .failed => .next (beginStart s warm clear)
  | .verifying | .training | .clearing =>
    let n := satAdd s.start.ignored.toNat 1 255
    .next (postStart { s with start := { s.start with ignored := BitVec.ofNat 8 n } } 0 n)

/-! ### Register writes (14 R324, 04 R74) -/

/-- A write of BAR0: of START with go 1 a request, of a register whose write is an event that event, else by the register's access rule. -/
def bar0Event (off : Nat) (v : DWord) (s : State) : Out :=
  let w := lo32 v
  match off with
  | 0x00100 => if w.getLsbD 0 then execStartRequest (w.getLsbD 1) (w.getLsbD 2) s else .next s
  | 0x0100C => execCmdctlWrite w s
  | 0x01010 => execCmdwrWrite w s
  | 0x01030 => execCplrdWrite w s
  | 0x0104C => execEvctlWrite w s
  | 0x01054 => execEvrdWrite w s
  | 0x01058 => execEvlostClear s
  | 0x01064 => execSmprdWrite w s
  | 0x01068 => execMerrClear w s
  | _ => mgmtWrite s (bar0Write off v)

/-- The queue is enabled. -/
def queueOn (s : State) (ctx q : Nat) : Bool := match getCtx s ctx with | some c => (getQ c q).enabled | none => false

/-- A write of a register of a queue: the event that it is, else by the register's access rule. -/
def queueEvent (ctx : BitVec 8) (q : BitVec 6) (reg : Nat) (v : DWord) (s : State) : Out :=
  let w := lo32 v
  match reg with
  | 0x0C =>
    if queueOn s ctx.toNat q.toNat = w.getLsbD 0 then .next (bar2Write s ctx.toNat q.toNat reg v)
    else if w.getLsbD 0 then execQueueEnable ctx q w s
    else execQueueDisable ctx q w s
  | 0x10 => execDoorbell ctx q w s
  | 0x20 =>
    (match w.toNat with
     | 1 => execQueueSuspend ctx q s
     | 2 => execQueueResume ctx q s
     | 3 => execQueueReset ctx q s
     | 4 => execQueueRetry ctx q s
     | _ => execQcmdIgnored ctx q w s)
  | 0x24 => execQdropClear ctx q s
  | _ => .next (bar2Write s ctx.toNat q.toNat reg v)

/-- REGISTER_WRITE: a write of the host to an offset of BAR0 or of the doorbell window; past a page's 64 queues it is ignored (04 R73). -/
def execRegisterWrite (bar : Bar) (off : BitVec 24) (v : DWord) (s : State) : Out :=
  let o := off.toNat
  match bar with
  | .bar0 => bar0Event o v s
  | .bar2 =>
    if o % 65536 < 0x1000 then queueEvent (BitVec.ofNat 8 (o / 65536)) (BitVec.ofNat 6 (o % 65536 / 64)) (o % 64) v s else .next s

/-- POWER_ON: the module is off, whatever it was; its identity, its firmware slots and the host's memory remain. -/
def execPowerOn (s : State) : Out :=
  .next { State.reset with
    ident := s.ident
    fw := s.fw
    mem := ⟨s.mem.cells.filter fun c => decide (2 ^ 51 ≤ c.1), 0⟩
    agenda := s.agenda
    tick := s.tick }

/-! ### Verification (R472) -/

/-- What the digest of an image is of: its bytes and its security version (log 114). -/
def fwBytes (i : FwImage) : List Byte := i.body ++ leBytes i.version.toNat 4

/-- An image is accepted: its key is the one whose hash is fused and its signature over the digest verifies against it, the digest matches the
image, and the security version is at least the fused minimum. -/
def imageOk (f : Firmware) : Option FwImage → Bool
  | some i =>
    decide (keyDigest i.key = f.keyHash) && ecdsaVerify i.key i.digest i.sig && decide (sha256 (fwBytes i) = i.digest)
      && decide (f.minimum.toNat ≤ i.version.toNat)
  | none => false

/-- The slot marked active is tried, then the other. -/
def chosenImage (f : Firmware) : Option FwImage :=
  let first := if f.activeB then f.slotB else f.slotA
  let other := if f.activeB then f.slotA else f.slotB
  if imageOk f first then first else if imageOk f other then other else none

/-- A start fails with a result. -/
def failStart (s : State) (result : Byte) : State :=
  postStart { s with start := { s.start with state := .failed, result := result } } 2 0

/-- Links that are not locked train again; the host port of a warm start keeps its link (R469). -/
def beginTraining (s : State) : State :=
  let s := (List.range 4).foldl (fun s d =>
    if (dieLink s d).locked ∨ (dieLink s d).state = .retraining then s else setLink s d .retraining 0) s
  if (s.start.warm ∧ s.host.state.carries) ∨ s.host.state = .training then s else setHost s .training 0 0

/-- VERIFICATION_DONE: the contexts have ended by then (R470, log 115). -/
def execVerificationDone (s : State) : Out :=
  if s.start.state ≠ .verifying ∨ s.ctxs ≠ [] then notDue "VERIFICATION_DONE"
  else
    match chosenImage s.fw with
    | some i =>
      .next (beginTraining { s with
        start := { s.start with state := .training }
        ident := { s.ident with
          version := i.version
          digest := i.digest } })
    | none => .next (failStart s 1)

/-- FIRMWARE_UPDATE: written to the inactive slot, which becomes active once the image has been verified. -/
def execFirmwareUpdate (image : FwImage) (s : State) : Out :=
  let f := if s.fw.activeB then { s.fw with slotA := some image } else { s.fw with slotB := some image }
  .next { s with fw := { f with activeB := if imageOk f (some image) then !f.activeB else f.activeB } }

/-! ### Training and clearing (R468, R469) -/

/-- A link's training ends: up with eight good sublinks, degraded with 4 to 7, down with fewer. -/
def trainLink (s : State) (d good : Nat) : State :=
  if (dieLink s d).locked then s
  else
    let s := setLink s d (if 8 ≤ good then .up else if 4 ≤ good then .degraded else .down) (if good < 4 then 0 else min good 8)
    { s with links := setAt s.links d { dieLink s d with trained := [] } }

/-- Every populated stack position is in the mask. -/
def stacksTrained (s : State) : Bool := (hbmStacks s.ident.is768).all fun k => s.start.hbmStacks.getLsbD k

/-- TRAINING_DONE: a stack or a die link that fails fails the start. -/
def execTrainingDone (stk : BitVec 16) (sub0 sub1 sub2 sub3 : BitVec 4) (hostUp : Bool) (s : State) : Out :=
  if s.start.state ≠ .training then notDue "TRAINING_DONE"
  else
    let s := { s with start := { s.start with hbmStacks := s.start.hbmStacks ||| stk } }
    let s := trainLink (trainLink (trainLink (trainLink s 0 sub0.toNat) 1 sub1.toNat) 2 sub2.toNat) 3 sub3.toNat
    let s := if hostUp ∧ !s.host.state.carries then setHost s .up 16 64 else s
    if !stacksTrained s ∨ s.links.any fun l => decide (l.state = .down) then .next (failStart s 2)
    else .next { s with start := { s.start with state := .clearing } }

/-- Device memory reads zero, and its poison marks are gone; host memory stays. -/
def clearMemory (s : State) : State :=
  { s with
    mem := ⟨s.mem.cells.filter fun c => decide (2 ^ 51 ≤ c.1), 0⟩
    poison := s.poison.filter fun k => decide (2 ^ 46 ≤ k) }

/-- What a cold start sets (R469). -/
def coldValues (s : State) : State := { s with split := 64, clk := 0, weights := (List.range 16).map Config.calibration }

/-- Every core's progress counter stands at zero (06 R120). -/
def freshProgress (clk : DWord) : Smap Nat := if clk = 0 then [] else (List.range 256).map fun c => (c, clk.toNat)

/-- CLEARING_DONE: SRAM always; HBM4E on a cold start or when clear is 1. -/
def execClearingDone (ok : Bool) (s : State) : Out :=
  if s.start.state ≠ .clearing then notDue "CLEARING_DONE"
  else if !ok then .next (failStart s 3)
  else
    let s := { s with
      cache := ⟨[], [], [], [], [], [], []⟩
      tlb := ⟨[], [], [], []⟩
      sramUsed := false }
    let s := if s.start.warm ∧ !s.start.clear then s else clearMemory s
    let s := if s.start.warm then s else coldValues s
    .next (postStart { s with
      start := { s.start with
        state := .ready
        result := 0 }
      windowClk := s.clk
      progress := freshProgress s.clk } 2 0)

/-! ### SPDM_REQUEST (R474) -/

/-- The certificate chain of the identity key: it ends in the Gwemir root's (R473). -/
def certChain : List (List Byte) := Config.certificates ++ [Config.gwemirRoot]

/-- The fuse block: the fused key hash and the least security version (R472, log 114). -/
def fuseBytes (f : Firmware) : List Byte := beBytes f.keyHash.toNat 32 ++ leBytes f.minimum.toNat 4

/-- The signature of the identity key over the hash of the messages, with a fresh nonce. -/
def identitySign (s : State) (messages : BitVec 256) : Signature := ecdsaSign Config.identityKey messages (Config.spdmWord s.tick 1).toNat

/-- The answer to a supported request: SPDM 1.2; ECDSA P-256 with SHA-256 alone; the digest of the certificate chain, and the chain; signatures
of the identity key; the digests of the active firmware image, the fuse block and the identity record. -/
def spdmAnswer (s : State) : SpdmReq → SpdmAnswer
  | .getVersion => .version 0x1200
  | .getCapabilities => .capabilities ((Config.spdmWord s.tick 0).setWidth 32)
  | .negotiateAlgorithms => .algorithms 0x10 0x1
  | .getDigests => .digests (sha256 certChain.flatten)
  | .getCertificate => .certificate certChain
  | .challenge => let m := Config.spdmWord s.tick 0; .challengeAuth m (identitySign s m)
  | .getMeasurements => .measurements s.ident.digest (sha256 (fuseBytes s.fw)) (sha256 s.ident.bytes)
  | .keyExchange => let m := Config.spdmWord s.tick 0; .keyExchange m (pubKeyOf (Config.spdmWord s.tick 2).toNat) (identitySign s m)
  | .other => .unsupported

/-- SPDM_REQUEST: BUSY before training; an answered key exchange sets up the integrity and encryption keys of the host port (14 R320). -/
def execSpdmRequest (req : SpdmReq) (s : State) : Out :=
  if s.start.state = .off ∨ s.start.state = .verifying then .next { s with spdm := { s.spdm with last := some (req, .busy) } }
  else
    .next { s with spdm :=
      { last := some (req, spdmAnswer s req)
        linkKeys := if req = .keyExchange then some (Config.spdmWord s.tick 3, Config.spdmWord s.tick 4) else s.spdm.linkKeys } }

/-! ### Power and telemetry (R475, R476) -/

/-- PWRLIM. -/
def execPwrlim (tag : Word) (ctx : BitVec 8) (watts : Word) (s : State) : Out :=
  onModule "PWRLIM" (.pwrlim tag ctx watts) tag ctx s
    (if watts.toNat < 600 ∨ 2600 < watts.toNat then refuse s tag 0x50 Code.mgmtConf else finish { s with pwrLimit := watts } tag 0x50)

/-- The 64 bytes of pwrstat (14 R329). -/
def telemetryBytes (t : Telemetry) : List Byte :=
  bytesOfWords ([t.power] ++ t.dies ++ [t.hottest, t.inlet, t.outlet, t.withheld, lo32 t.clk, hi32 t.clk, 0, 0, 0, 0])

/-- PWRSTAT. -/
def execPwrstat (tag : Word) (ctx : BitVec 8) (buf : DWord) (s : State) : Out :=
  onModule "PWRSTAT" (.pwrstat tag ctx buf) tag ctx s
    (if !bufferOk s buf 64 then refuse s tag 0x51 Code.mgmtConf else finish (hubOwed s buf.toNat (telemetryBytes s.telem)) tag 0x51)

/-- Every context takes a context fault, and the state becomes failed with result 4 (R476). -/
def thermalStop (s : State) (hottest : Word) : State :=
  let s := s.ctxs.foldl (fun s c => contextFault s c.1) s
  postStart { s with start := { s.start with state := .failed, result := 4 } } 6 hottest.toNat

/-- TELEMETRY_SAMPLE: the sample is taken, of a power within the limit (R475), and what it shows reported: withholding begun or ended, a
junction past 95 °C, the stop at 110 °C. -/
def execTelemetrySample (t : Sensors) (s : State) : Out :=
  if s.start.state ≠ .ready ∨ 1000 * s.pwrLimit.toNat < t.power.toNat then notDue "TELEMETRY_SAMPLE"
  else
    let hot := decide (950 < t.hottest.toInt)
    let limit := s.pwrLimit.toNat
    let began := t.withholding && !s.withholding
    let ended := !t.withholding && s.withholding
    let warm := hot && !s.warned
    let s := { s with
      telem := ⟨t.power, (List.range 5).map fun k => t.dies.getD k 0, t.hottest, t.inlet, t.outlet, t.withheld, s.clk⟩
      withholding := t.withholding
      warned := hot }
    let s := if began then postStart s 3 limit else if ended then postStart s 4 limit else s
    let s := if warm then postStart s 5 t.hottest.toNat else s
    .next (if 1100 ≤ t.hottest.toInt then thermalStop s t.hottest else s)

end Sys2Proof.Machine
end

