-- ==== Sys2Proof/Machine/Account.lean ====
section
/-!
DEFINITION. Sampling, energy weights and soft errors (18 R439 to R441, R453, R454, R456).
-/
namespace Sys2Proof.Machine

/-! ### The sampler (R453) -/

/-- The twelve event numbers of smpset, low byte first; 0xFF is an unused column. -/
def eventList (e0 e1 e2 : Word) : List Byte := bytesOfWords [e0, e1, e2]

def eventOk (e : Byte) : Bool := decide (e.toNat ≤ 16) || decide (e = 0xFF)

/-- Entries a power of two from 16 to 65,536. -/
def entriesOk (n : Word) : Bool := (List.range 13).any fun k => decide (n.toNat = 2 ^ (k + 4))

def scopeOk (v : Word) : Bool :=
  decide (wbits v 29 8 = 0) && (match wbits v 31 30 with | 0 => true | 1 => decide (wbits v 7 0 < 4) | 2 => true | _ => false)

/-- SMPSET: the interval begins, with nothing counted. -/
def execSmpset (tag : Word) (ctx : BitVec 8) (base : DWord) (entries interval scope e0 e1 e2 : Word) (s : State) : Out :=
  let evs := eventList e0 e1 e2
  onModule "SMPSET" (.smpset tag ctx base entries interval scope e0 e1 e2) tag ctx s
    (if base.toNat % 4096 ≠ 0 ∨ !entriesOk entries ∨ interval = 0 ∨ interval.toNat % 2048 ≠ 0 ∨ !scopeOk scope ∨ !evs.all eventOk
        ∨ !inOneWindow s base.toNat (128 * entries.toNat) then refuse s tag 0x40 Code.mgmtConf
     else finish { s with
       samp := ⟨true, base.toNat, entries.toNat, interval.toNat, scope, evs, s.clk, false⟩
       counts := [] } tag 0x40)

def sumCounts (m : Smap Nat) (p : Nat → Bool) : Nat := (m.filter fun e => p e.1).foldl (fun n e => n + e.2) 0

/-- A die and context are in the sampler's scope: the module, one core die, or one context. -/
def inScope (scope : Word) (die ctx : Nat) : Bool :=
  match wbits scope 31 30 with
  | 0 => true
  | 1 => decide (die = wbits scope 7 0)
  | _ => decide (ctx = wbits scope 7 0)

/-- One count of a row. Energy is kept in units of 2^-8 pJ and told in µJ. -/
def rowCount (s : State) (e : Byte) : Nat :=
  let n := sumCounts s.counts fun i => decide (i % 256 = e.toNat) && inScope s.samp.scope (i / 65536) (i / 256 % 256)
  if e.toNat = 15 then n / microJoule else n

/-- The 128 bytes of a row. -/
def sampleRow (s : State) (seq : Word) : List Byte :=
  bytesOfWords [lo32 s.clk, hi32 s.clk, seq, BitVec.ofNat 32 s.samp.lost.toNat]
    ++ s.samp.events.flatMap (fun e => leBytes (rowCount s e) 8) ++ List.replicate 16 0

/-- SAMPLER_INTERVAL: a row is written, and SMPWR holds its seq; one that would pass SMPRD + entries is skipped, and the next tells it. -/
def execSamplerInterval (s : State) : Out :=
  let seq := s.mgmt.smpwr + 1
  if !s.samp.on ∨ (s.clk - s.samp.began).toNat < s.samp.interval ∨ s.start.state ≠ .ready then notDue "SAMPLER_INTERVAL"
  else if s.samp.entries < (seq - s.mgmt.smprd).toNat then
    .next { s with
      counts := []
      samp := { s.samp with
        began := s.clk
        lost := true } }
  else
    let t := hubOwed s (s.samp.base + 128 * (seq.toNat % s.samp.entries)) (sampleRow s seq)
    .next { t with
      mgmt := { t.mgmt with smpwr := seq }
      counts := []
      samp := { s.samp with
        began := s.clk
        lost := false } }

/-! ### The energy table (R456) -/

/-- EWSET. -/
def execEwset (tag : Word) (ctx : BitVec 8) (buf : DWord) (s : State) : Out :=
  heldCommand s none (.ewset tag ctx buf) <| onModule "EWSET" (.ewset tag ctx buf) tag ctx s
    (if !bufferOk s buf 64 ∨ !hubCan s buf.toNat 64 ∨ poisonedAt s buf.toNat 64 then refuse s tag 0x41 Code.mgmtConf
     else finish { s with weights := wordsOf (s.mem.bytes buf.toNat 64) } tag 0x41)

/-- EWGET. -/
def execEwget (tag : Word) (ctx : BitVec 8) (buf : DWord) (s : State) : Out :=
  onModule "EWGET" (.ewget tag ctx buf) tag ctx s
    (if !bufferOk s buf 64 then refuse s tag 0x42 Code.mgmtConf else finish (hubOwed s buf.toNat (bytesOfWords s.weights)) tag 0x42)

/-- An event of passing time: its place, its context, its number, and how often a cycle brings it. Frames occupied (event 3), matrix units that
hold an operation (4), and the static energy of resident warp slots and of tile pairs held (15; entries 14 and 15 of the table). -/
structure Ticking where
  die   : Nat
  ctx   : Nat
  event : Nat
  count : Nat
deriving DecidableEq, Repr

/-- The warp holds a slot of its core. -/
def Warp.resident (s : State) (w : Warp) : Bool := decide (w.state ≠ .ended) && !warpSaved s w

/-- The warp's block has an operation in its core's matrix unit. -/
def Warp.inMatrix (w : Warp) : Bool :=
  match w.frame with | some f => f.infl.any fun e => decide (e.2.1 = .matrix) | none => false

/-- A core's one matrix unit is busy for the context of the first warp of the core that has an operation in it. -/
def firstInMatrix (s : State) (e : Nat × Warp) : Bool :=
  e.2.inMatrix && !(s.warps.any fun x => decide (x.1 < e.1) && decide (x.2.core = e.2.core) && x.2.inMatrix)

/-- What each cycle brings (18 R454, R456). -/
def ticking (s : State) : List Ticking :=
  let weight (k : Nat) : Nat := (s.weights.getD k 0).toNat
  s.warps.flatMap (fun e =>
    if e.2.resident s then
      let at_ := Ticking.mk (dieOf e.2.core) e.2.ctx
      at_ 15 (weight 14) :: (if e.2.frame.isSome then [at_ 3 1] else []) ++ (if firstInMatrix s e then [at_ 4 1] else [])
    else []) ++
  (s.parts.filter fun p => !p.2.saved).map fun p => ⟨p.2.die, p.2.ctx, 15, p.2.w * p.2.h * weight 15⟩

/-- The static energy that n cycles bring a context. -/
def staticEnergy (l : List Ticking) (ctx n : Nat) : Nat :=
  ((l.filter fun t => decide (t.event = 15) && decide (t.ctx = ctx)).map fun t => t.count * n).foldl (· + ·) 0

/-! ### Soft errors (R439, R441) -/

/-- The unit a place belongs to (R441). -/
def placeUnit : EccPlace → Nat
  | .dram _ | .tables .. => 0
  | .dieL2 .. => 1
  | .hubCache _ => 2
  | .coreCache .. | .scalarCache .. | .image .. => 3
  | .vreg .. | .sreg .. => 4
  | .spad .. => 5
  | .frame _ => 6
  | .tile .. => 7
  | .fabric _ => 8
  | .linkBuf _ => 9

/-- The context of a place; 0xFF for none. -/
def placeCtx (s : State) (p : EccPlace) : Nat :=
  match p with
  | .vreg w _ _ | .sreg w _ | .frame w => match getWarp s w with | some x => x.ctx | none => 0xFF
  | .spad g _ => match getGroup s g with | some x => x.ctx | none => 0xFF
  | .tile k _ | .fabric k => match getPart s k with | some x => x.ctx | none => 0xFF
  | .image _ ctx _ | .tables ctx _ | .scalarCache _ ctx _ => ctx.toNat
  | _ => 0xFF

/-- The `where` field of a machine-check record; free for the units it is not given for, and for the physical addresses of scratchpads and memory
tiles, which no rule places (log 64). -/
def placeWhere (s : State) (p : EccPlace) : DWord :=
  match p with
  | .dram pa | .dieL2 _ pa | .hubCache pa | .coreCache _ pa | .scalarCache _ _ pa | .image _ _ pa | .tables _ pa => BitVec.ofNat 64 pa
  | .spad g a => (match getGroup s g with | some x => Config.spadPhys (x.cores.getD (a / 2 ^ 19) 0) (a % 2 ^ 19) | none => 0)
  | .tile k a =>
    (match getPart s k with
     | some x =>
       (match x.cur.tiles[a / 65536]? with
        | some t => Config.tilePhys x.die (x.y0 + t.row) (x.j0 + t.col) (a % 65536)
        | none => 0)
     | none => 0)
  | .vreg w _ _ | .sreg w _ | .frame w =>
    (match getWarp s w with | some x => BitVec.ofNat 64 (x.core * 2 ^ 16 + x.slot * 2 ^ 8) | none => 0)
  | .fabric _ | .linkBuf _ => openDWord s 50

/-- The die of a place. -/
def placeDie (s : State) (p : EccPlace) : Nat :=
  match p with
  | .dram pa | .tables _ pa => (homeDie s pa).getD hubDie
  | .hubCache _ => hubDie
  | .dieL2 d _ | .linkBuf d => d.toNat
  | .coreCache c _ | .scalarCache c _ _ | .image c _ _ => dieOf c.toNat
  | .vreg w _ _ | .sreg w _ | .frame w => match getWarp s w with | some x => dieOf x.core | none => hubDie
  | .spad g a => match getGroup s g with | some x => dieOf (x.cores.getD (a / 2 ^ 19) 0) | none => hubDie
  | .tile k _ | .fabric k => match getPart s k with | some x => x.die | none => hubDie

/-- The place exists in this state: of a cache, the copy is held. -/
def placeExists (s : State) (p : EccPlace) : Bool :=
  match p with
  | .dram pa => (homeDie s pa).isSome
  | .hubCache pa => hubHas s (pa / 128)
  | .dieL2 d pa => l2Holds s d.toNat (pa / 128)
  | .coreCache c pa => s.cache.l1.any fun l => decide (l.core = c.toNat) && decide (l.line = pa / 128)
  | .scalarCache c x pa => s.cache.kc.any fun l => decide (l.core = c.toNat) && decide (l.ctx = x.toNat) && decide (l.line = pa / 64)
  | .vreg w r _ => match getWarp s w with | some x => decide (x.state ≠ .ended) && !warpSaved s x && decide (r.toNat < 8 * x.gran) | none => false
  | .sreg w r => match getWarp s w with | some x => decide (x.state ≠ .ended) && !warpSaved s x && decide (r.toNat < 384) | none => false
  | .spad g a => match getGroup s g with | some x => x.savedAt.isNone && inShare x (a / 4 * 4) 4 | none => false
  | .tile k a => match getPart s k with | some x => decide (a / 65536 < x.tiles.length) | none => false
  | .frame w => match getWarp s w with | some x => x.frame.isSome | none => false
  | .image _ ctx _ | .tables ctx _ => (getCtx s ctx.toNat).isSome
  | .fabric k => (getPart s k).isSome
  | .linkBuf _ => true

/-- Every token of a frame is poisoned (R439). -/
def Token.spoil (t : Token) : Token := { t with pois := t.valid }
def Effects.spoil (e : Effects) : Effects := { e with toks := e.toks.map fun t => (t.1, t.2.spoil) }
def Frame.spoil (f : Frame) : Frame :=
  { f with
    toks := f.toks.map fun t => (t.1, t.2.spoil)
    wtoks := f.wtoks.map fun t => (t.1, t.2.1, t.2.2.spoil)
    infl := f.infl.map fun t => (t.1, t.2.1, t.2.2.spoil) }

/-- The block cache's chunks of a line are discarded, and fetched again where a warp holds an image of them. -/
def dropChunk (s : State) (core ctx pa : Nat) : State :=
  let s := { s with cache := { s.cache with
    ic := s.cache.ic.filter fun l => !(decide (l.core = core) && decide (l.ctx = ctx) && decide (l.line = pa / 64)) } }
  mapWarps s (fun _ w => decide (w.core = core) && decide (w.ctx = ctx)) fun w => { w with image := none }

/-- The copies of a list that are hit have the sector marked. -/
def markCopy {α : Type} (ls : List α) (hit : α → Bool) (mark : α → α) : List α := ls.map fun l => if hit l then mark l else l

/-- A sector of one copy of a line is marked poisoned (R439); another copy of it is as it was. -/
def spoilCopy (c : Caches) (p : EccPlace) : Caches :=
  match p with
  | .hubCache pa => { c with hub := markCopy c.hub (fun l => decide (l.line = pa / 128)) fun l => { l with pois := nins l.pois (pa / 32) } }
  | .dieL2 d pa =>
    { c with
      l2 := markCopy c.l2 (fun l => decide (l.die = d.toNat) && decide (l.line = pa / 128)) fun l => { l with pois := nins l.pois (pa / 32) }
      dir := markCopy c.dir (fun l => decide (l.die = d.toNat) && decide (l.line = pa / 128)) fun l => { l with pois := nins l.pois (pa / 32) } }
  | .coreCache k pa =>
    { c with
      l1 := markCopy c.l1 (fun l => decide (l.core = k.toNat) && decide (l.line = pa / 128)) fun l => { l with pois := nins l.pois (pa / 32) } }
  | .scalarCache k x pa =>
    { c with
      kc := markCopy c.kc (fun l => decide (l.core = k.toNat) && decide (l.ctx = x.toNat) && decide (l.line = pa / 64))
        fun l => { l with pois := nins l.pois (pa / 32) } }
  | _ => c

/-- An uncorrectable error takes effect by where it lies, and the action its record names (R439, R441). -/
def spoilPlace (s : State) (p : EccPlace) : State × Nat :=
  match p with
  | .dram pa => ({ s with poison := nins s.poison (pa / 32) }, 1)
  | .hubCache _ | .dieL2 .. | .coreCache .. | .scalarCache .. => ({ s with cache := spoilCopy s.cache p }, 1)
  | .vreg w r l => (modWarp s w fun x => { x with vpois := nins x.vpois (r.toNat * 32 + l.toNat) }, 1)
  | .sreg w r => (modWarp s w fun x => { x with spois := nins x.spois r.toNat }, 1)
  | .spad g a => (modGroup s g fun x => { x with spois := nins x.spois (a / 4) }, 1)
  | .tile k a =>
    (match getPart s k with
     | some x =>
       let ts := x.tiles.zipIdx.map fun t => if t.2 = a / 65536 then { t.1 with pois := nins t.1.pois (a % 65536) } else t.1
       setPart s k { x with tiles := ts }
     | none => s, 1)
  | .frame w =>
    (match getWarp s w with
     | some x =>
       (match x.frame with
        | some f =>
          if f.stays then (setWarp s w { x with frame := some f.spoil }, 1)
          else (settle (preemptAll s (fun i _ => decide (i = w)) id) w, 2)
        | none => (s, 2))
     | none => (s, 2))
  | .image core ctx pa => (dropChunk s core.toNat ctx.toNat pa, 0)
  | .tables ctx _ => (contextFault s ctx.toNat, 3)
  | .fabric k => (abortPhase s k none Code.poison none 0, 4)
  | .linkBuf _ => (s, 0)

/-- Cycles of 1 ms. -/
def oneMs : Nat := 2250000

/-- A corrected error: counted, and recorded at most once per unit per millisecond, with the count (R441). -/
def corrected (s : State) (p : EccPlace) : State :=
  let u := placeUnit p
  let ctx := placeCtx s p
  let s := countEvent s (placeDie s p) ctx 16 1
  match s.ecc[u]? with
  | none => s
  | some (n, last) =>
    let due : Bool := match last with | some t => decide (oneMs ≤ (s.clk - t).toNat) | none => true
    if due then
      let s := { s with ecc := setAt s.ecc u (0, some s.clk) }
      postMachineCheck s ctx u 0 (n + 1) (placeWhere s p)
    else { s with ecc := setAt s.ecc u (n + 1, last) }

/-- SOFT_ERROR. -/
def execSoftError (e : EccError) (s : State) : Out :=
  if s.start.state ≠ .ready ∨ !placeExists s e.place then notDue "SOFT_ERROR"
  else if e.corrected then .next (corrected s e.place)
  else
    let ctx := placeCtx s e.place
    let at_ := placeWhere s e.place
    let (t, action) := spoilPlace s e.place
    .next (postMachineCheck t ctx (placeUnit e.place) action 1 at_)

end Sys2Proof.Machine
end

