-- ==== Sys2Proof/Machine/Control.lean ====
section
/-!
DEFINITION. The exits, the split-stack instructions, the system instructions and those that act on queues, groups and warps (07 R147,
R148, R155; 15 R371 to R378; 06 R125 to R127; 04 R87, R89). What waits for commit is a command of the frame (Cmd).
-/
namespace Sys2Proof.Machine

/-! ### Exits (07 R147, R148, 18 R482) -/

/-- Votes of the fired lanes; in a lane-less block one vote for the whole. -/
def fireVotes (m : String) (st : State) (g : Guard) (need : List Nat) (n : Fire → Nat → Nat) : Out :=
  fire m st g need [] fun x =>
    Fired.now st (if x.f.laneless then { Effects.none with whole := if x.any then some (n x 0) else none }
      else { Effects.none with votes := x.list.map fun l => (l, n x l) })

def execExit (g : Guard) (imm : BitVec 12) (st : State) : Out := fireVotes "EXIT" st g [] fun _ _ => imm.toNat
def execExitv (g : Guard) (st : State) : Out := fireVotes "EXITV" st g [0] fun x l => (x.aw l).toNat

/-! ### The split stack (07 R155) -/

def execSpush (g : Guard) (st : State) : Out :=
  fireCmd "SPUSH" st g [0, 1] fun x => ([], [.spush (x.aw x.low) (x.bw x.low)])

/-- spop: the top entry as it stood at map, its mask less DEADM; null where the stack is empty. -/
def execSpop (g : Guard) (ta tb : Target) (st : State) : Out :=
  fire "SPOP" st g [] [] fun x =>
    let w := x.w
    let cmds := if x.any then [.spop] else []
    match (if x.any then w.top else none) with
    | some (h, m) =>
      let k := w.count - 1
      let bad := w.spois.contains (352 + 2 * k) || w.spois.contains (353 + 2 * k)
      let h := if w.isOdd h m then h ||| 0x80000000 else h
      Fired.now st { Effects.none with
        toks := both ta tb (Token.scal true true ((m &&& ~~~w.deadm) ++ h) bad)
        cmds := cmds
        causes := if bad && !x.f.irrev then [⟨2, x.i, Code.poison, blockDetail x.f x.i, none⟩] else [] }
    | none => Fired.now st { Effects.none with toks := both ta tb (Token.scal true false 0), cmds := cmds }

/-! ### System instructions (15 R371 to R378) -/

def execSvc (g : Guard) (imm : BitVec 12) (st : State) : Out := fireCmd "SVC" st g [] fun _ => ([], [.svc imm])
def execBrk (g : Guard) (imm : BitVec 12) (st : State) : Out := fireCmd "BRK" st g [] fun _ => ([], [.brk imm])
def execTrapret (g : Guard) (st : State) : Out := fireCmd "TRAPRET" st g [] fun _ => ([], [.trapret])
def execNop (g : Guard) (st : State) : Out := fire "NOP" st g [] [] fun _ => Fired.now st Effects.none

/-- A system register's width and value, CLK as it is now and the others as at map (02 R48, R374). -/
def readSys (clk : DWord) (w : Warp) (f : Frame) (n : Nat) : Bool × DWord :=
  match n with
  | 0 => (false, z32 w.ssp)
  | 1 => (true, w.splb)
  | 2 => (false, z32 w.deadm)
  | 3 => (false, z32 w.fpfl)
  | 4 => (false, z32 f.fpn)
  | 5 => (true, clk)
  | 6 => (true, w.trapinf)
  | 7 => (false, z32 w.fij)
  | 8 => (false, z32 f.dbgctl)
  | _ => (false, 0)

def execRdsr (g : Guard) (imm : BitVec 12) (t : Target) (st : State) : Out :=
  fire "RDSR" st g [] [] fun x =>
    let r := readSys st.clk x.w x.f imm.toNat
    Fired.now st { Effects.none with toks := [(t, x.scalRes r.1 r.2)] }

/-- wrsr: the write lands at step 1 of commit (R375). -/
def execWrsr (g : Guard) (imm : BitVec 12) (st : State) : Out :=
  fireCmd "WRSR" st g [0] fun x => ([], [.wrsr imm.toNat (x.av x.low)])

/-- clk: CLK when it fires; null when no lane fires (R376). -/
def execClk (g : Guard) (ta tb : Target) (st : State) : Out :=
  fire "CLK" st g [0] [] fun x => Fired.now st { Effects.none with toks := both ta tb (x.scalRes true st.clk) }

/-! ### Group, warp and queue instructions -/

def execGbar (g : Guard) (st : State) : Out := fireCmd "GBAR" st g [] fun _ => ([], [.gbar])
def execGstop (g : Guard) (st : State) : Out := fireCmd "GSTOP" st g [0] fun x => ([], [.gstop (x.aw x.low)])
/-- yield: the sleep is clamped to 2^20 cycles (06 R127). -/
def execYield (g : Guard) (st : State) : Out :=
  fireCmd "YIELD" st g [0] fun x => ([], [.yield (BitVec.ofNat 32 (min (x.aw x.low).toNat (2 ^ 20)))])
def execLaunch (g : Guard) (st : State) : Out :=
  fireCmd "LAUNCH" st g [0, 1, 2] fun x => ([], [.launch (x.aw x.low) (x.bv x.low) (x.cv x.low)])
def execQsig (g : Guard) (st : State) : Out :=
  fireCmd "QSIG" st g [0, 1] fun x => ([], [.qsig (x.aw x.low) (x.bw x.low)])

end Sys2Proof.Machine
end

