-- ==== Sys2Proof/Machine/FloatOps.lean ====
section
/-!
DEFINITION. The floating-point, packed, conversion and dot-product instructions (16 R381 to R399): each lane's operation of
Machine/Flags.lean, its width and its flags.
-/
namespace Sys2Proof.Machine

/-- A result pattern with its flags. -/
def fres (r : Nat × Word) : DWord × Word := (ofN r.1, r.2)

def f1 (f : Nat → Nat × Word) (x : Fire) (l : Nat) : DWord × Word := fres (f (x.aw l).toNat)
def f2 (f : Nat → Nat → Nat × Word) (x : Fire) (l : Nat) : DWord × Word := fres (f (x.aw l).toNat (x.bw l).toNat)
def f3 (f : Nat → Nat → Nat → Nat × Word) (x : Fire) (l : Nat) : DWord × Word := fres (f (x.aw l).toNat (x.bw l).toNat (x.cw l).toNat)
def d1 (f : Nat → Nat × Word) (x : Fire) (l : Nat) : DWord × Word := fres (f (x.av l).toNat)
def d2 (f : Nat → Nat → Nat × Word) (x : Fire) (l : Nat) : DWord × Word := fres (f (x.av l).toNat (x.bv l).toNat)
def d3 (f : Nat → Nat → Nat → Nat × Word) (x : Fire) (l : Nat) : DWord × Word := fres (f (x.av l).toNat (x.bv l).toNat (x.cv l).toNat)

/-- A truth value as a result. -/
def fbool (r : Bool × Word) : Nat × Word := (r.1.toNat, r.2)

/-! ### Single precision (R382 to R390) -/

def execFadd (g : Guard) (s : Round) (ta tb : Target) (st : State) : Out :=
  fireLanes "FADD" st g [0, 1] [ta, tb] false (f2 (fF32.add s))
def execFsub (g : Guard) (s : Round) (ta tb : Target) (st : State) : Out :=
  fireLanes "FSUB" st g [0, 1] [ta, tb] false (f2 (fF32.sub s))
def execFmul (g : Guard) (s : Round) (ta tb : Target) (st : State) : Out :=
  fireLanes "FMUL" st g [0, 1] [ta, tb] false (f2 (fF32.mul s))
def execFfma (g : Guard) (s : Round) (ta tb : Target) (st : State) : Out :=
  fireLanes "FFMA" st g [0, 1, 2] [ta, tb] false (f3 (fF32.fma s))
def execFmin (g : Guard) (ta tb : Target) (st : State) : Out :=
  fireLanes "FMIN" st g [0, 1] [ta, tb] false (f2 (fF32.minmax false))
def execFmax (g : Guard) (ta tb : Target) (st : State) : Out :=
  fireLanes "FMAX" st g [0, 1] [ta, tb] false (f2 (fF32.minmax true))
/-- fabs and fneg touch bit 31 alone (R384). -/
def execFabs (g : Guard) (ta tb : Target) (st : State) : Out :=
  firePure "FABS" st g [0] [ta, tb] false fun x l => z32 (x.aw l &&& 0x7FFFFFFF)
def execFneg (g : Guard) (ta tb : Target) (st : State) : Out :=
  firePure "FNEG" st g [0] [ta, tb] false fun x l => z32 (x.aw l ^^^ 0x80000000)
def execFcmp (g : Guard) (s : ClsFc) (ta tb : Target) (st : State) : Out :=
  fireLanes "FCMP" st g [0, 1] [ta, tb] false (f2 fun a b => fbool (fF32.cmp s a b))
def execFdiv (g : Guard) (s : Round) (ta tb : Target) (st : State) : Out :=
  fireLate "FDIV" st g [0, 1] [ta, tb] false .fdiv (f2 (fF32.div s))
def execFsqrt (g : Guard) (s : Round) (ta tb : Target) (st : State) : Out :=
  fireLate "FSQRT" st g [0] [ta, tb] false .fdiv (f1 (fF32.sqrt s))
def execFrcp (g : Guard) (ta tb : Target) (st : State) : Out := fireLanes "FRCP" st g [0] [ta, tb] false (f1 fF32.recip)
def execFrsq (g : Guard) (ta tb : Target) (st : State) : Out := fireLanes "FRSQ" st g [0] [ta, tb] false (f1 fF32.rsqrt)
def execFex2 (g : Guard) (ta tb : Target) (st : State) : Out :=
  fireLanes "FEX2" st g [0] [ta, tb] false fun x l => fres (fex2 (x.aw l))
def execFlg2 (g : Guard) (ta tb : Target) (st : State) : Out :=
  fireLanes "FLG2" st g [0] [ta, tb] false fun x l => fres (flg2 (x.aw l))
def execFsin (g : Guard) (s : ClsSc) (ta tb : Target) (st : State) : Out :=
  fireLanes "FSIN" st g [0] [ta, tb] false fun x l => fres (fsin s (x.aw l))
/-- fclass reads .f32 or .f64 by its operand's width (R388). -/
def execFclass (g : Guard) (ta tb : Target) (st : State) : Out :=
  firePure "FCLASS" st g [0] [ta, tb] false fun x l =>
    ofN (match x.a with
      | some t => if t.wide then fF64.classOf (x.av l).toNat else fF32.classOf (x.aw l).toNat
      | none => 0)
def execFrnd (g : Guard) (s : Round) (ta tb : Target) (st : State) : Out :=
  fireLanes "FRND" st g [0] [ta, tb] false (f1 (fF32.rint s))
def execFscale (g : Guard) (s : Round) (ta tb : Target) (st : State) : Out :=
  fireLanes "FSCALE" st g [0, 1] [ta, tb] false fun x l => fres (fF32.scale s (x.aw l).toNat (s32 (x.bw l)))

/-- The unit delivers fdiv, fsqrt, ddiv or dsqrt (R383). -/
def execFloatDivideComplete (w i : Nat) (st : State) : Out := completeLate "FLOAT_DIVIDE_COMPLETE" st w i .fdiv

/-! ### Double precision (R391) -/

def execDadd (g : Guard) (s : Round) (ta tb : Target) (st : State) : Out :=
  fireLanes "DADD" st g [0, 1] [ta, tb] true (d2 (fF64.add s))
def execDsub (g : Guard) (s : Round) (ta tb : Target) (st : State) : Out :=
  fireLanes "DSUB" st g [0, 1] [ta, tb] true (d2 (fF64.sub s))
def execDmul (g : Guard) (s : Round) (ta tb : Target) (st : State) : Out :=
  fireLanes "DMUL" st g [0, 1] [ta, tb] true (d2 (fF64.mul s))
def execDfma (g : Guard) (s : Round) (ta tb : Target) (st : State) : Out :=
  fireLanes "DFMA" st g [0, 1, 2] [ta, tb] true (d3 (fF64.fma s))
def execDmin (g : Guard) (ta tb : Target) (st : State) : Out :=
  fireLanes "DMIN" st g [0, 1] [ta, tb] true (d2 (fF64.minmax false))
def execDmax (g : Guard) (ta tb : Target) (st : State) : Out :=
  fireLanes "DMAX" st g [0, 1] [ta, tb] true (d2 (fF64.minmax true))
def execDcmp (g : Guard) (s : ClsFc) (ta tb : Target) (st : State) : Out :=
  fireLanes "DCMP" st g [0, 1] [ta, tb] false (d2 fun a b => fbool (fF64.cmp s a b))
def execDdiv (g : Guard) (s : Round) (ta tb : Target) (st : State) : Out :=
  fireLate "DDIV" st g [0, 1] [ta, tb] true .fdiv (d2 (fF64.div s))
def execDsqrt (g : Guard) (s : Round) (ta tb : Target) (st : State) : Out :=
  fireLate "DSQRT" st g [0] [ta, tb] true .fdiv (d1 (fF64.sqrt s))

/-! ### Packed halves (R392, R393) -/

def hFmt : HFmt → Fmt | .f16 => fF16 | .bf16 => fBF16

/-- Element k of a word of E-bit elements (R171). -/
def elem (E k : Nat) (w : Nat) : Nat := w / 2 ^ (E * k) % 2 ^ E

/-- The two halves computed apart; flags of both (R176). -/
def halves (f : Nat → Nat → Nat → Nat × Word) (a b c : Nat) : Nat × Word :=
  let r0 := f (elem 16 0 a) (elem 16 0 b) (elem 16 0 c)
  let r1 := f (elem 16 1 a) (elem 16 1 b) (elem 16 1 c)
  (r0.1 + r1.1 * 65536, r0.2 ||| r1.2)

def execHadd2 (g : Guard) (s : ClsH) (ta tb : Target) (st : State) : Out :=
  fireLanes "HADD2" st g [0, 1] [ta, tb] false (f3 (halves fun a b _ => (hFmt s.fmt).add s.rnd a b))
def execHmul2 (g : Guard) (s : ClsH) (ta tb : Target) (st : State) : Out :=
  fireLanes "HMUL2" st g [0, 1] [ta, tb] false (f3 (halves fun a b _ => (hFmt s.fmt).mul s.rnd a b))
def execHfma2 (g : Guard) (s : ClsH) (ta tb : Target) (st : State) : Out :=
  fireLanes "HFMA2" st g [0, 1, 2] [ta, tb] false (f3 (halves fun a b c => (hFmt s.fmt).fma s.rnd a b c))
def execHmin2 (g : Guard) (s : HFmt) (ta tb : Target) (st : State) : Out :=
  fireLanes "HMIN2" st g [0, 1] [ta, tb] false (f3 (halves fun a b _ => (hFmt s).minmax false a b))
def execHmax2 (g : Guard) (s : HFmt) (ta tb : Target) (st : State) : Out :=
  fireLanes "HMAX2" st g [0, 1] [ta, tb] false (f3 (halves fun a b _ => (hFmt s).minmax true a b))

def hCmp : HCmp → ClsFc | .eq => .eq | .ne => .ne | .lt => .lt | .le => .le

def execHcmp2 (g : Guard) (s : ClsHc) (ta tb : Target) (st : State) : Out :=
  fireLanes "HCMP2" st g [0, 1] [ta, tb] false (f3 (halves fun a b _ =>
    let r := (hFmt s.fmt).cmp (hCmp s.cmp) a b
    (if r.1 then 0xFFFF else 0, r.2)))

/-! ### cvt, pack, unpk (R394 to R397) -/

/-- A cvt type: an integer of n bits, signed or not, or a float format. -/
inductive CvtTy where
  | int (signed : Bool) (n : Nat)
  | flt (F : Fmt)
deriving DecidableEq, Repr

def cvtTy : NumTy → CvtTy
  | .i8 => .int true 8 | .i16 => .int true 16 | .i32 => .int true 32 | .i64 => .int true 64
  | .n8 => .int false 8 | .n16 => .int false 16 | .n32 => .int false 32 | .n64 => .int false 64
  | .f16 => .flt fF16 | .bf16 => .flt fBF16 | .f32 => .flt fF32 | .f64 => .flt fF64
  | .e4m3 => .flt fE4M3 | .e5m2 => .flt fE5M2 | .e2m1 => .flt fE2M1

def CvtTy.width : CvtTy → Nat | .int _ n => n | .flt F => F.width
def numWide (t : NumTy) : Bool := decide ((cvtTy t).width = 64)

def intLo (signed : Bool) (n : Nat) : Int := if signed then -(2 ^ (n - 1) : Nat) else 0
def intHi (signed : Bool) (n : Nat) : Int := if signed then (2 ^ (n - 1) : Nat) - 1 else (2 ^ n : Nat) - 1
def intVal (signed : Bool) (n x : Nat) : Int := if signed then sextN x n else (x % 2 ^ n : Nat)

/-- An integer result: narrow signed ones are sign-extended to 32 bits (R394). -/
def intOut (n : Nat) (x : Int) : DWord := if n = 64 then ofI64 x else ofI32 x

/-- cvt of one lane (R395). -/
def cvtLane (src dst : NumTy) (r : Round) (sat : Bool) (a : DWord) : DWord × Word :=
  match cvtTy src, cvtTy dst with
  | .int ss n, .int ds k =>
    let x := intVal ss n a.toNat
    let lo := intLo ds k
    let hi := intHi ds k
    if lo ≤ x ∧ x ≤ hi then (intOut k x, 0)
    else if sat then (intOut k (clampTo lo hi x), flSAT)
    else (intOut k (intVal ds k (BitVec.ofInt 64 x).toNat), 0)
  | .int ss n, .flt G => fres (G.round r sat (numOfInt (intVal ss n a.toNat)))
  | .flt F, .int ds k =>
    let y := toInteger F r (intLo ds k) (intHi ds k) (a.toNat % 2 ^ F.width)
    (intOut k y.1, y.2)
  | .flt F, .flt G => fres (convert F G r sat (a.toNat % 2 ^ F.width))

def execCvt (g : Guard) (ta tb : Target) (src dst : NumTy) (rnd : Round) (sat : Bool) (st : State) : Out :=
  fireLanes "CVT" st g [0] [ta, tb] (numWide dst) fun x l => cvtLane src dst rnd sat (x.av l)

/-- Element width and format of class PK; none for the integers. -/
def pkBits : ClsPk → Nat
  | .f16 | .bf16 => 16 | .e4m3 | .e5m2 | .i8 => 8 | .e2m1 | .i4 => 4
def pkFmt : ClsPk → Option Fmt
  | .f16 => some fF16 | .bf16 => some fBF16 | .e4m3 => some fE4M3 | .e5m2 => some fE5M2 | .e2m1 => some fE2M1
  | .i8 | .i4 => none

/-- A word with element k replaced. -/
def putElem (E k w v : Nat) : Nat := w - elem E k w * 2 ^ (E * k) + v % 2 ^ E * 2 ^ (E * k)

def packLane (s : ClsPk) (a b c : Nat) : Nat × Word :=
  let E := pkBits s
  let k := c % (32 / E)
  let y : Nat × Word := match pkFmt s with
    | some G => convert fF32 G .rne true a
    | none =>
      let x := sextN a 32
      let z := clampTo (intLo true E) (intHi true E) x
      ((BitVec.ofInt E z).toNat, flagIf (decide (z ≠ x)) flSAT)
  (putElem E k b y.1, y.2)

def unpkLane (s : ClsPk) (a b : Nat) : DWord × Word :=
  let E := pkBits s
  let e := elem E (b % (32 / E)) a
  match pkFmt s with
  | some F => fres (convert F fF32 .rne false e)
  | none => (ofI32 (sextN e E), 0)

def execPack (g : Guard) (s : ClsPk) (ta tb : Target) (st : State) : Out :=
  fireLanes "PACK" st g [0, 1, 2] [ta, tb] false (f3 (packLane s))
def execUnpk (g : Guard) (s : ClsPk) (ta tb : Target) (st : State) : Out :=
  fireLanes "UNPK" st g [0, 1] [ta, tb] false fun x l => unpkLane s (x.aw l).toNat (x.bw l).toNat

/-! ### Dot products (R398, R399) -/

def diSigned : ClsDi → Bool × Bool
  | .ii => (true, true) | .iu => (true, false) | .ui => (false, true) | .uu => (false, false)

/-- An integer dot product of E-bit elements, wrapped. -/
def dotInt (E : Nat) (s : ClsDi) (a b c : Nat) : Word :=
  let (sa, sb) := diSigned s
  let v (sg : Bool) (w k : Nat) : Int := intVal sg E (elem E k w)
  BitVec.ofInt 32 ((List.range (32 / E)).foldl (fun t k => t + v sa a k * v sb b k) (sextN c 32))

def execDot4I8 (g : Guard) (s : ClsDi) (ta tb : Target) (st : State) : Out :=
  firePure "DOT4_I8" st g [0, 1, 2] [ta, tb] false fun x l => z32 (dotInt 8 s (x.aw l).toNat (x.bw l).toNat (x.cw l).toNat)
def execDot8I4 (g : Guard) (s : ClsDi) (ta tb : Target) (st : State) : Out :=
  firePure "DOT8_I4" st g [0, 1, 2] [ta, tb] false fun x l => z32 (dotInt 4 s (x.aw l).toNat (x.bw l).toNat (x.cw l).toNat)

/-- A float dot product: the exact sum with c, rounded once to .f32 (R399). -/
def dotFlt (F G : Fmt) (a b c : Nat) : Nat × Word :=
  let E := F.width
  let ks := List.range (32 / E)
  let as := ks.map fun k => elem E k a
  let bs := ks.map fun k => elem E k b
  let snan := fF32.isSNaN c || as.any F.isSNaN || bs.any G.isSNaN
  let nan := fF32.isNaN c || as.any F.isNaN || bs.any G.isNaN
  -- the terms that are numbers on their own
  let terms := (if fF32.isNaN c then [] else [fF32.num c]) ++
    ((as.zip bs).filter fun p => !F.isNaN p.1 && !G.isNaN p.2).map fun p => (F.num p.1).mul (G.num p.2)
  if nan then (fF32.canon, flagIf (snan || decide (Num.sum false terms = .nan)) flNV)
  else fF32.deliver .rne (Num.sum false terms)

def dfFmts : ClsDf → Fmt × Fmt
  | .e4e4 => (fE4M3, fE4M3) | .e4e5 => (fE4M3, fE5M2) | .e5e4 => (fE5M2, fE4M3) | .e5e5 => (fE5M2, fE5M2)

def execDot4F8 (g : Guard) (s : ClsDf) (ta tb : Target) (st : State) : Out :=
  fireLanes "DOT4_F8" st g [0, 1, 2] [ta, tb] false (f3 (dotFlt (dfFmts s).1 (dfFmts s).2))
def execDot8F4 (g : Guard) (ta tb : Target) (st : State) : Out :=
  fireLanes "DOT8_F4" st g [0, 1, 2] [ta, tb] false (f3 (dotFlt fE2M1 fE2M1))
def execDot2Bf (g : Guard) (ta tb : Target) (st : State) : Out :=
  fireLanes "DOT2_BF" st g [0, 1, 2] [ta, tb] false (f3 (dotFlt fBF16 fBF16))

end Sys2Proof.Machine
end

