-- ==== Sys2Proof/Machine/Dispatch.lean ====
section
/-!
DEFINITION. One arm per instruction: a direct call of its meaning.
-/
namespace Sys2Proof.Machine

def exec (i : Instr) (s : State) : Host.Outcome State Fault Refusal :=
  match i with
  | .add g sub ta tb => Sys2Proof.Machine.execAdd g sub ta tb s
  | .sub g sub ta tb => Sys2Proof.Machine.execSub g sub ta tb s
  | .mul g sub ta tb => Sys2Proof.Machine.execMul g sub ta tb s
  | .mulhi g sub ta tb => Sys2Proof.Machine.execMulhi g sub ta tb s
  | .mad g sub ta tb => Sys2Proof.Machine.execMad g sub ta tb s
  | .div g sub ta tb => Sys2Proof.Machine.execDiv g sub ta tb s
  | .rem g sub ta tb => Sys2Proof.Machine.execRem g sub ta tb s
  | .neg g sub ta tb => Sys2Proof.Machine.execNeg g sub ta tb s
  | .abs g sub ta tb => Sys2Proof.Machine.execAbs g sub ta tb s
  | .min g sub ta tb => Sys2Proof.Machine.execMin g sub ta tb s
  | .max g sub ta tb => Sys2Proof.Machine.execMax g sub ta tb s
  | .and g sub ta tb => Sys2Proof.Machine.execAnd g sub ta tb s
  | .or g sub ta tb => Sys2Proof.Machine.execOr g sub ta tb s
  | .xor g sub ta tb => Sys2Proof.Machine.execXor g sub ta tb s
  | .not g sub ta tb => Sys2Proof.Machine.execNot g sub ta tb s
  | .andn g sub ta tb => Sys2Proof.Machine.execAndn g sub ta tb s
  | .shl g sub ta tb => Sys2Proof.Machine.execShl g sub ta tb s
  | .shr g sub ta tb => Sys2Proof.Machine.execShr g sub ta tb s
  | .sar g sub ta tb => Sys2Proof.Machine.execSar g sub ta tb s
  | .rotl g sub ta tb => Sys2Proof.Machine.execRotl g sub ta tb s
  | .clz g sub ta tb => Sys2Proof.Machine.execClz g sub ta tb s
  | .popc g sub ta tb => Sys2Proof.Machine.execPopc g sub ta tb s
  | .brev g sub ta tb => Sys2Proof.Machine.execBrev g sub ta tb s
  | .bfe g sub ta tb => Sys2Proof.Machine.execBfe g sub ta tb s
  | .bfi g sub ta tb => Sys2Proof.Machine.execBfi g sub ta tb s
  | .lea g sub ta tb => Sys2Proof.Machine.execLea g sub ta tb s
  | .addw g sub ta tb => Sys2Proof.Machine.execAddw g sub ta tb s
  | .sext g sub ta tb => Sys2Proof.Machine.execSext g sub ta tb s
  | .bsel g ta tb => Sys2Proof.Machine.execBsel g ta tb s
  | .mov g sub ta tb => Sys2Proof.Machine.execMov g sub ta tb s
  | .null g ta tb => Sys2Proof.Machine.execNull g ta tb s
  | .addi g imm t => Sys2Proof.Machine.execAddi g imm t s
  | .andi g imm t => Sys2Proof.Machine.execAndi g imm t s
  | .ori g imm t => Sys2Proof.Machine.execOri g imm t s
  | .xori g imm t => Sys2Proof.Machine.execXori g imm t s
  | .shli g imm t => Sys2Proof.Machine.execShli g imm t s
  | .shri g imm t => Sys2Proof.Machine.execShri g imm t s
  | .sari g imm t => Sys2Proof.Machine.execSari g imm t s
  | .muli g imm t => Sys2Proof.Machine.execMuli g imm t s
  | .cmp g sub ta tb => Sys2Proof.Machine.execCmp g sub ta tb s
  | .cmp64 g sub ta tb => Sys2Proof.Machine.execCmp64 g sub ta tb s
  | .cmpiEq g imm t => Sys2Proof.Machine.execCmpiEq g imm t s
  | .cmpiNe g imm t => Sys2Proof.Machine.execCmpiNe g imm t s
  | .cmpiLt g imm t => Sys2Proof.Machine.execCmpiLt g imm t s
  | .cmpiLe g imm t => Sys2Proof.Machine.execCmpiLe g imm t s
  | .cmpiGt g imm t => Sys2Proof.Machine.execCmpiGt g imm t s
  | .cmpiGe g imm t => Sys2Proof.Machine.execCmpiGe g imm t s
  | .sel g sub ta tb => Sys2Proof.Machine.execSel g sub ta tb s
  | .pand g ta tb => Sys2Proof.Machine.execPand g ta tb s
  | .por g ta tb => Sys2Proof.Machine.execPor g ta tb s
  | .pxor g ta tb => Sys2Proof.Machine.execPxor g ta tb s
  | .pnot g ta tb => Sys2Proof.Machine.execPnot g ta tb s
  | .rfl g sub ta tb => Sys2Proof.Machine.execRfl g sub ta tb s
  | .rdln g sub ta tb => Sys2Proof.Machine.execRdln g sub ta tb s
  | .wrln g sub ta tb => Sys2Proof.Machine.execWrln g sub ta tb s
  | .lxch g sub ta tb => Sys2Proof.Machine.execLxch g sub ta tb s
  | .vote g sub ta tb => Sys2Proof.Machine.execVote g sub ta tb s
  | .matchKeys g sub ta tb => Sys2Proof.Machine.execMatchKeys g sub ta tb s
  | .redux g sub ta tb => Sys2Proof.Machine.execRedux g sub ta tb s
  | .scan g sub ta tb => Sys2Proof.Machine.execScan g sub ta tb s
  | .lmask g sub ta tb => Sys2Proof.Machine.execLmask g sub ta tb s
  | .bcast g sub ta tb => Sys2Proof.Machine.execBcast g sub ta tb s
  | .mskz g ta tb => Sys2Proof.Machine.execMskz g ta tb s
  | .exit g imm => Sys2Proof.Machine.execExit g imm s
  | .exitv g => Sys2Proof.Machine.execExitv g s
  | .fadd g sub ta tb => Sys2Proof.Machine.execFadd g sub ta tb s
  | .fsub g sub ta tb => Sys2Proof.Machine.execFsub g sub ta tb s
  | .fmul g sub ta tb => Sys2Proof.Machine.execFmul g sub ta tb s
  | .ffma g sub ta tb => Sys2Proof.Machine.execFfma g sub ta tb s
  | .fmin g ta tb => Sys2Proof.Machine.execFmin g ta tb s
  | .fmax g ta tb => Sys2Proof.Machine.execFmax g ta tb s
  | .fabs g ta tb => Sys2Proof.Machine.execFabs g ta tb s
  | .fneg g ta tb => Sys2Proof.Machine.execFneg g ta tb s
  | .fcmp g sub ta tb => Sys2Proof.Machine.execFcmp g sub ta tb s
  | .fdiv g sub ta tb => Sys2Proof.Machine.execFdiv g sub ta tb s
  | .fsqrt g sub ta tb => Sys2Proof.Machine.execFsqrt g sub ta tb s
  | .frcp g ta tb => Sys2Proof.Machine.execFrcp g ta tb s
  | .frsq g ta tb => Sys2Proof.Machine.execFrsq g ta tb s
  | .fex2 g ta tb => Sys2Proof.Machine.execFex2 g ta tb s
  | .flg2 g ta tb => Sys2Proof.Machine.execFlg2 g ta tb s
  | .fsin g sub ta tb => Sys2Proof.Machine.execFsin g sub ta tb s
  | .fclass g ta tb => Sys2Proof.Machine.execFclass g ta tb s
  | .frnd g sub ta tb => Sys2Proof.Machine.execFrnd g sub ta tb s
  | .fscale g sub ta tb => Sys2Proof.Machine.execFscale g sub ta tb s
  | .dadd g sub ta tb => Sys2Proof.Machine.execDadd g sub ta tb s
  | .dsub g sub ta tb => Sys2Proof.Machine.execDsub g sub ta tb s
  | .dmul g sub ta tb => Sys2Proof.Machine.execDmul g sub ta tb s
  | .dfma g sub ta tb => Sys2Proof.Machine.execDfma g sub ta tb s
  | .dmin g ta tb => Sys2Proof.Machine.execDmin g ta tb s
  | .dmax g ta tb => Sys2Proof.Machine.execDmax g ta tb s
  | .dcmp g sub ta tb => Sys2Proof.Machine.execDcmp g sub ta tb s
  | .ddiv g sub ta tb => Sys2Proof.Machine.execDdiv g sub ta tb s
  | .dsqrt g sub ta tb => Sys2Proof.Machine.execDsqrt g sub ta tb s
  | .hadd2 g sub ta tb => Sys2Proof.Machine.execHadd2 g sub ta tb s
  | .hmul2 g sub ta tb => Sys2Proof.Machine.execHmul2 g sub ta tb s
  | .hfma2 g sub ta tb => Sys2Proof.Machine.execHfma2 g sub ta tb s
  | .hmin2 g sub ta tb => Sys2Proof.Machine.execHmin2 g sub ta tb s
  | .hmax2 g sub ta tb => Sys2Proof.Machine.execHmax2 g sub ta tb s
  | .hcmp2 g sub ta tb => Sys2Proof.Machine.execHcmp2 g sub ta tb s
  | .cvt g ta tb src dst rnd sat => Sys2Proof.Machine.execCvt g ta tb src dst rnd sat s
  | .pack g sub ta tb => Sys2Proof.Machine.execPack g sub ta tb s
  | .unpk g sub ta tb => Sys2Proof.Machine.execUnpk g sub ta tb s
  | .dot4I8 g sub ta tb => Sys2Proof.Machine.execDot4I8 g sub ta tb s
  | .dot8I4 g sub ta tb => Sys2Proof.Machine.execDot8I4 g sub ta tb s
  | .dot4F8 g sub ta tb => Sys2Proof.Machine.execDot4F8 g sub ta tb s
  | .dot8F4 g ta tb => Sys2Proof.Machine.execDot8F4 g ta tb s
  | .dot2Bf g ta tb => Sys2Proof.Machine.execDot2Bf g ta tb s
  | .ldG g slot imm t => Sys2Proof.Machine.execLdG g slot imm t s
  | .stG g slot imm => Sys2Proof.Machine.execStG g slot imm s
  | .ldK g slot imm t => Sys2Proof.Machine.execLdK g slot imm t s
  | .ldS g slot imm t => Sys2Proof.Machine.execLdS g slot imm t s
  | .stS g slot imm => Sys2Proof.Machine.execStS g slot imm s
  | .stStep g slot imm => Sys2Proof.Machine.execStStep g slot imm s
  | .stp g slot imm => Sys2Proof.Machine.execStp g slot imm s
  | .atom g ta tb op ord sc slot => Sys2Proof.Machine.execAtom g ta tb op ord sc slot s
  | .red g op ord sc slot => Sys2Proof.Machine.execRed g op ord sc slot s
  | .cas g ta tb ord sc slot => Sys2Proof.Machine.execCas g ta tb ord sc slot s
  | .atomS g ta tb op ord sc slot => Sys2Proof.Machine.execAtomS g ta tb op ord sc slot s
  | .prf g sub => Sys2Proof.Machine.execPrf g sub s
  | .cwb g => Sys2Proof.Machine.execCwb g s
  | .cinv g => Sys2Proof.Machine.execCinv g s
  | .pfence g imm => Sys2Proof.Machine.execPfence g imm s
  | .waitc g sub => Sys2Proof.Machine.execWaitc g sub s
  | .rgnDef g rule kind num => Sys2Proof.Machine.execRgnDef g rule kind num s
  | .rgnFree g => Sys2Proof.Machine.execRgnFree g s
  | .rgnStat g ta tb => Sys2Proof.Machine.execRgnStat g ta tb s
  | .step g => Sys2Proof.Machine.execStep g s
  | .stepQ g ta tb => Sys2Proof.Machine.execStepQ g ta tb s
  | .barInit g sc => Sys2Proof.Machine.execBarInit g sc s
  | .barArv g => Sys2Proof.Machine.execBarArv g s
  | .barExp g => Sys2Proof.Machine.execBarExp g s
  | .barWait g => Sys2Proof.Machine.execBarWait g s
  | .barTest g ta tb => Sys2Proof.Machine.execBarTest g ta tb s
  | .barStat g ta tb => Sys2Proof.Machine.execBarStat g ta tb s
  | .barInv g => Sys2Proof.Machine.execBarInv g s
  | .cpG2s g => Sys2Proof.Machine.execCpG2s g s
  | .cpS2g g => Sys2Proof.Machine.execCpS2g g s
  | .cpG2g g => Sys2Proof.Machine.execCpG2g g s
  | .cpGth g => Sys2Proof.Machine.execCpGth g s
  | .cpSct g => Sys2Proof.Machine.execCpSct g s
  | .cpWin g => Sys2Proof.Machine.execCpWin g s
  | .cpRed g sub => Sys2Proof.Machine.execCpRed g sub s
  | .mma g sub => Sys2Proof.Machine.execMma g sub s
  | .mmaChk g sub => Sys2Proof.Machine.execMmaChk g sub s
  | .mmaGrp g sub ta tb => Sys2Proof.Machine.execMmaGrp g sub ta tb s
  | .mmaSc g sub => Sys2Proof.Machine.execMmaSc g sub s
  | .ldm g sub => Sys2Proof.Machine.execLdm g sub s
  | .stm g sub => Sys2Proof.Machine.execStm g sub s
  | .gload g => Sys2Proof.Machine.execGload g s
  | .grun g => Sys2Proof.Machine.execGrun g s
  | .garg g => Sys2Proof.Machine.execGarg g s
  | .gdrain g => Sys2Proof.Machine.execGdrain g s
  | .grel g => Sys2Proof.Machine.execGrel g s
  | .gstat g ta tb => Sys2Proof.Machine.execGstat g ta tb s
  | .galloc g => Sys2Proof.Machine.execGalloc g s
  | .gfree g => Sys2Proof.Machine.execGfree g s
  | .mov4 g sub ta tb tc td => Sys2Proof.Machine.execMov4 g sub ta tb tc td s
  | .launch g => Sys2Proof.Machine.execLaunch g s
  | .qsig g => Sys2Proof.Machine.execQsig g s
  | .svc g imm => Sys2Proof.Machine.execSvc g imm s
  | .brk g imm => Sys2Proof.Machine.execBrk g imm s
  | .rdsr g imm t => Sys2Proof.Machine.execRdsr g imm t s
  | .wrsr g imm => Sys2Proof.Machine.execWrsr g imm s
  | .yield g => Sys2Proof.Machine.execYield g s
  | .gstop g => Sys2Proof.Machine.execGstop g s
  | .spush g => Sys2Proof.Machine.execSpush g s
  | .spop g ta tb => Sys2Proof.Machine.execSpop g ta tb s
  | .clk g ta tb => Sys2Proof.Machine.execClk g ta tb s
  | .trapret g => Sys2Proof.Machine.execTrapret g s
  | .gbar g => Sys2Proof.Machine.execGbar g s
  | .nop g => Sys2Proof.Machine.execNop g s
  | .genk imm t => Sys2Proof.Machine.execGenk imm t s
  | .appk imm t => Sys2Proof.Machine.execAppk imm t s
  | .create tag ctx desc => Sys2Proof.Machine.execCreate tag ctx desc s
  | .commit tag ctx => Sys2Proof.Machine.execCommit tag ctx s
  | .suspend tag ctx => Sys2Proof.Machine.execSuspend tag ctx s
  | .resume tag ctx => Sys2Proof.Machine.execResume tag ctx s
  | .destroy tag ctx => Sys2Proof.Machine.execDestroy tag ctx s
  | .fpnset tag ctx v => Sys2Proof.Machine.execFpnset tag ctx v s
  | .segset tag ctx k => Sys2Proof.Machine.execSegset tag ctx k s
  | .kill tag ctx kid => Sys2Proof.Machine.execKill tag ctx kid s
  | .ctxacct tag ctx buf => Sys2Proof.Machine.execCtxacct tag ctx buf s
  | .tlbinv tag ctx base len all => Sys2Proof.Machine.execTlbinv tag ctx base len all s
  | .fltdone tag ctx k action => Sys2Proof.Machine.execFltdone tag ctx k action s
  | .memwb tag ctx base len => Sys2Proof.Machine.execMemwb tag ctx base len s
  | .memsplit tag ctx m => Sys2Proof.Machine.execMemsplit tag ctx m s
  | .linkstat tag ctx which => Sys2Proof.Machine.execLinkstat tag ctx which s
  | .peerset tag ctx ap en base size => Sys2Proof.Machine.execPeerset tag ctx ap en base size s
  | .dbgset tag ctx v => Sys2Proof.Machine.execDbgset tag ctx v s
  | .dbgbp tag ctx entry handle => Sys2Proof.Machine.execDbgbp tag ctx entry handle s
  | .dbgstop tag ctx kid grank flags => Sys2Proof.Machine.execDbgstop tag ctx kid grank flags s
  | .dbgresume tag ctx kid grank wrank mode => Sys2Proof.Machine.execDbgresume tag ctx kid grank wrank mode s
  | .dbgwarp tag ctx kid grank wrank buf wr => Sys2Proof.Machine.execDbgwarp tag ctx kid grank wrank buf wr s
  | .dbgkill tag ctx kid grank wrank lanes => Sys2Proof.Machine.execDbgkill tag ctx kid grank wrank lanes s
  | .dbgtok tag ctx kid grank wrank idx buf => Sys2Proof.Machine.execDbgtok tag ctx kid grank wrank idx buf s
  | .dbgnode tag ctx part pos slot buf => Sys2Proof.Machine.execDbgnode tag ctx part pos slot buf s
  | .smpset tag ctx base entries interval scope e0 e1 e2 => Sys2Proof.Machine.execSmpset tag ctx base entries interval scope e0 e1 e2 s
  | .ewset tag ctx buf => Sys2Proof.Machine.execEwset tag ctx buf s
  | .ewget tag ctx buf => Sys2Proof.Machine.execEwget tag ctx buf s
  | .pwrlim tag ctx watts => Sys2Proof.Machine.execPwrlim tag ctx watts s
  | .pwrstat tag ctx buf => Sys2Proof.Machine.execPwrstat tag ctx buf s
  | .commandCompletion => Sys2Proof.Machine.execCommandCompletion s
  | .cmdwrWrite v => Sys2Proof.Machine.execCmdwrWrite v s
  | .cmdctlWrite v => Sys2Proof.Machine.execCmdctlWrite v s
  | .cplrdWrite v => Sys2Proof.Machine.execCplrdWrite v s
  | .evctlWrite v => Sys2Proof.Machine.execEvctlWrite v s
  | .evrdWrite v => Sys2Proof.Machine.execEvrdWrite v s
  | .evlostClear => Sys2Proof.Machine.execEvlostClear s
  | .merrClear v => Sys2Proof.Machine.execMerrClear v s
  | .smprdWrite v => Sys2Proof.Machine.execSmprdWrite v s
  | .registerWrite bar off v => Sys2Proof.Machine.execRegisterWrite bar off v s
  | .startRequest warm clear => Sys2Proof.Machine.execStartRequest warm clear s
  | .powerOn => Sys2Proof.Machine.execPowerOn s
  | .verificationDone => Sys2Proof.Machine.execVerificationDone s
  | .trainingDone hbm sub0 sub1 sub2 sub3 hostUp => Sys2Proof.Machine.execTrainingDone hbm sub0 sub1 sub2 sub3 hostUp s
  | .clearingDone ok => Sys2Proof.Machine.execClearingDone ok s
  | .firmwareUpdate image => Sys2Proof.Machine.execFirmwareUpdate image s
  | .spdmRequest req => Sys2Proof.Machine.execSpdmRequest req s
  | .telemetrySample t => Sys2Proof.Machine.execTelemetrySample t s
  | .doorbell ctx q v => Sys2Proof.Machine.execDoorbell ctx q v s
  | .queueEnable ctx q ctl => Sys2Proof.Machine.execQueueEnable ctx q ctl s
  | .queueDisable ctx q ctl => Sys2Proof.Machine.execQueueDisable ctx q ctl s
  | .queueSuspend ctx q => Sys2Proof.Machine.execQueueSuspend ctx q s
  | .queueResume ctx q => Sys2Proof.Machine.execQueueResume ctx q s
  | .queueReset ctx q => Sys2Proof.Machine.execQueueReset ctx q s
  | .queueRetry ctx q => Sys2Proof.Machine.execQueueRetry ctx q s
  | .qcmdIgnored ctx q v => Sys2Proof.Machine.execQcmdIgnored ctx q v s
  | .qdropClear ctx q => Sys2Proof.Machine.execQdropClear ctx q s
  | .headTest ctx q => Sys2Proof.Machine.execHeadTest ctx q s
  | .blockedRetest ctx q => Sys2Proof.Machine.execBlockedRetest ctx q s
  | .launchCommand id => Sys2Proof.Machine.execLaunchCommand id s
  | .launchCopyDone id => Sys2Proof.Machine.execLaunchCopyDone id s
  | .entryCheck kid => Sys2Proof.Machine.execEntryCheck kid s
  | .placement => Sys2Proof.Machine.execPlacement s
  | .priorityAging kid => Sys2Proof.Machine.execPriorityAging kid s
  | .blockFetch w => Sys2Proof.Machine.execBlockFetch w s
  | .blockMap w => Sys2Proof.Machine.execBlockMap w s
  | .loadReturn w v => Sys2Proof.Machine.execLoadReturn w v s
  | .walkComplete ctx page => Sys2Proof.Machine.execWalkComplete ctx page s
  | .atomicIssue w => Sys2Proof.Machine.execAtomicIssue w s
  | .atomicReturn w => Sys2Proof.Machine.execAtomicReturn w s
  | .divisionComplete w v => Sys2Proof.Machine.execDivisionComplete w v s
  | .floatDivideComplete w v => Sys2Proof.Machine.execFloatDivideComplete w v s
  | .matrixComplete w v => Sys2Proof.Machine.execMatrixComplete w v s
  | .blockCommit w => Sys2Proof.Machine.execBlockCommit w s
  | .gbarArrival id => Sys2Proof.Machine.execGbarArrival id s
  | .barArrival w => Sys2Proof.Machine.execBarArrival w s
  | .stepArrival id => Sys2Proof.Machine.execStepArrival id s
  | .steppedStoreApply id => Sys2Proof.Machine.execSteppedStoreApply id s
  | .regionStepComplete gid r => Sys2Proof.Machine.execRegionStepComplete gid r s
  | .yieldExpiry w => Sys2Proof.Machine.execYieldExpiry w s
  | .forwardProgressSwap core => Sys2Proof.Machine.execForwardProgressSwap core s
  | .swapComplete gid => Sys2Proof.Machine.execSwapComplete gid s
  | .saveComplete ctx => Sys2Proof.Machine.execSaveComplete ctx s
  | .teardownComplete ctx => Sys2Proof.Machine.execTeardownComplete ctx s
  | .groupHaltComplete gid => Sys2Proof.Machine.execGroupHaltComplete gid s
  | .groupRetirement gid => Sys2Proof.Machine.execGroupRetirement gid s
  | .kernelCompletion kid => Sys2Proof.Machine.execKernelCompletion kid s
  | .dumpWrite gid => Sys2Proof.Machine.execDumpWrite gid s
  | .pfenceComplete id => Sys2Proof.Machine.execPfenceComplete id s
  | .cacheMaintComplete id => Sys2Proof.Machine.execCacheMaintComplete id s
  | .evictionWriteback die line => Sys2Proof.Machine.execEvictionWriteback die line s
  | .copySectorComplete id => Sys2Proof.Machine.execCopySectorComplete id s
  | .copyCompletion id => Sys2Proof.Machine.execCopyCompletion id s
  | .graphCommandApply id => Sys2Proof.Machine.execGraphCommandApply id s
  | .gloadComplete p => Sys2Proof.Machine.execGloadComplete p s
  | .fabricRoundBoundary p r => Sys2Proof.Machine.execFabricRoundBoundary p r s
  | .phaseEnd p => Sys2Proof.Machine.execPhaseEnd p s
  | .retrainingTrigger d => Sys2Proof.Machine.execRetrainingTrigger d s
  | .retrainingEnds d good => Sys2Proof.Machine.execRetrainingEnds d good s
  | .retrainingFails d good => Sys2Proof.Machine.execRetrainingFails d good s
  | .hostLinkLoss => Sys2Proof.Machine.execHostLinkLoss s
  | .peerPortChange p st => Sys2Proof.Machine.execPeerPortChange p st s
  | .hostAccess op => Sys2Proof.Machine.execHostAccess op s
  | .peerAccess p op => Sys2Proof.Machine.execPeerAccess p op s
  | .hostSnoop line => Sys2Proof.Machine.execHostSnoop line s
  | .softError e => Sys2Proof.Machine.execSoftError e s
  | .samplerInterval => Sys2Proof.Machine.execSamplerInterval s
  | .budgetWindowRefresh => Sys2Proof.Machine.execBudgetWindowRefresh s
  | .fabricBeat p r => Sys2Proof.Machine.execFabricBeat p r s
  | .hostLinkTrained width rate => Sys2Proof.Machine.execHostLinkTrained width rate s

end Sys2Proof.Machine
end

