-- ==== Sys2Proof/Machine/Moves.lean ====
section
/-!
DEFINITION. What a step is made of: how a move is made, what passing time brings to every step (06 R128, 18 R455, R456), and the moves
that the agents of the module can make on their own (INVENTORY.md, Agents).
-/
namespace Sys2Proof.Machine

/-! ### Passing time -/

/-- Time charged to a context: core-cycles, pair-cycles and static energy run from commit to teardown, not while it is suspended (18 R455, R456). -/
def chargeTime (s : State) (ts : List Ticking) (cycles ctx : Nat) (c : Context) : Context :=
  if c.state.accrues then
    let pairs := ((s.parts.filter fun p => decide (p.2.ctx = ctx) && !p.2.saved).map fun p => p.2.w * p.2.h).foldl (· + ·) 0
    { c with acct := { c.acct with
      coreCycles := c.acct.coreCycles + cycles * (ctxCores s ctx).length
      pairCycles := c.acct.pairCycles + cycles * pairs } }.spend (staticEnergy ts ctx cycles)
  else c

/-- The counts with what n cycles bring. -/
def tickCounts (m : Smap Nat) (ts : List Ticking) (n : Nat) : Smap Nat :=
  ts.foldl (fun m t => let k := (t.die * 256 + t.ctx) * 256 + t.event; sput 0 m k (sget 0 m k + t.count * n)) m

/-- A step begins: the tick advances and some cycles pass (log 7). -/
def pass (s : State) : State :=
  let n := Config.cycles s.tick
  let ts := ticking s
  { s with
    ctxs := s.ctxs.map fun c => (c.1, chargeTime s ts n c.1 c.2)
    counts := tickCounts s.counts ts n
    clk := s.clk + BitVec.ofNat 64 n
    tick := s.tick + 1 }

/-! ### Making a move -/

/-- The instruction at an index of the block in a warp's frame. -/
def instrIn (s : State) (w i : Nat) : Option Instr :=
  match getWarp s w with
  | some x => match x.frame with | some f => Img.instr f.words i | none => none
  | none => none

/-- A move is made: an instruction fires, an event takes place, or the hub takes a command and it begins (14 R325, R327). -/
def perform (a : Action) (s : State) : Out :=
  match a with
  | .fire w i =>
    match instrIn s w i with
    | some x => exec x { s with cur := (w, i) }
    | none => .refused .undecodable
  | .event e => exec e s
  | .take =>
    match takeCommand s with
    | some (t, some x) => exec x t
    | some (t, none) => .next t
    | none => notDue "TAKE"

/-! ### The moves that may be due -/

def events (l : List Instr) : List Action := l.map Action.event

/-- The moves of a warp: its block's fetch, map, firings, returns and commit, and its arrivals. -/
def warpMoves (w : Nat) (x : Warp) : List Action :=
  events [.blockFetch w, .blockMap w, .atomicIssue w, .atomicReturn w, .blockCommit w, .barArrival w, .yieldExpiry w] ++
  (match x.frame with
   | some f => (Img.all f.words).flatMap fun e =>
       .fire w e.1 :: events [.loadReturn w e.1, .divisionComplete w e.1, .floatDivideComplete w e.1, .matrixComplete w e.1]
   | none => [])

def jobMoves (id : Nat) : List Action :=
  events [.pfenceComplete id, .cacheMaintComplete id, .launchCommand id, .launchCopyDone id, .gbarArrival id, .stepArrival id,
    .steppedStoreApply id, .graphCommandApply id]

def groupMoves (g : Nat) : List Action :=
  events ([.swapComplete g, .groupHaltComplete g, .groupRetirement g, .dumpWrite g] ++
    (List.range 8).map fun r => .regionStepComplete g (BitVec.ofNat 3 r))

def ctxMoves (c : Nat) (x : Context) : List Action :=
  let n := BitVec.ofNat 8 c
  events ([.saveComplete n, .teardownComplete n] ++
    x.queues.flatMap fun q => [Instr.headTest n (BitVec.ofNat 6 q.1), .blockedRetest n (BitVec.ofNat 6 q.1)])

def partMoves (p : Nat) : List Action :=
  events ([.gloadComplete p, .phaseEnd p] ++
    (List.range 4).flatMap fun r => [Instr.fabricBeat p (BitVec.ofNat 2 r), .fabricRoundBoundary p (BitVec.ofNat 2 r)])

/-- Every move of the module's own agents that could be due. What the environment does (register writes, starts, link and ECC events,
accesses of the host and of peers) comes by the agenda alone. -/
def moves (s : State) : List Action :=
  .take :: events [.placement, .commandCompletion, .samplerInterval, .budgetWindowRefresh] ++
  s.warps.flatMap (fun e => warpMoves e.1 e.2) ++ s.jobs.flatMap (fun e => jobMoves e.1) ++
  s.copies.flatMap (fun e => events [.copySectorComplete e.1, .copyCompletion e.1]) ++ s.groups.flatMap (fun e => groupMoves e.1) ++
  s.kernels.flatMap (fun e => events [.entryCheck e.1, .priorityAging e.1, .kernelCompletion e.1]) ++
  s.ctxs.flatMap (fun e => ctxMoves e.1 e.2) ++ s.parts.flatMap (fun e => partMoves e.1) ++
  events (s.tlb.walks.map fun r => .walkComplete (BitVec.ofNat 8 r.ctx) r.page) ++
  events (s.cache.l2.map fun l => .evictionWriteback (BitVec.ofNat 2 l.die) l.line) ++
  events ((List.range 256).map fun c => .forwardProgressSwap (BitVec.ofNat 8 c))

/-- The move can be made in this state. -/
def isDue (s : State) (a : Action) : Bool := match perform a s with | .next _ => true | _ => false

/-! ### What a core's units pick (06 R118) -/

/-- The units of a core; the four vector units pick in turn, each the best instruction not yet taken. -/
inductive CoreUnit where
  | scalar | vector | matrix | memory | scratchpad
deriving DecidableEq, Repr

/-- The unit that serves the instruction at an index of a frame. -/
def unitOf (f : Frame) (i : Nat) : CoreUnit :=
  let vec := [0, 1, 2, 3].any fun k => match tget f.toks (slotKey i k) with | some t => t.vec | none => false
  match Img.instr f.words i with
  | some (.mma ..) | some (.mmaSc ..) | some (.mmaChk ..) | some (.mmaGrp ..) | some (.ldm ..) | some (.stm ..) => .matrix
  | some (.ldG ..) | some (.stG ..) | some (.ldK ..) | some (.atom ..) | some (.red ..) | some (.cas ..) | some (.prf ..) | some (.cwb ..)
  | some (.cinv ..) | some (.pfence ..) => .memory
  | some (.ldS ..) | some (.stS ..) | some (.stStep ..) | some (.stp ..) | some (.atomS ..) | some (.rgnDef ..) | some (.rgnFree ..)
  | some (.rgnStat ..) | some (.step ..) | some (.stepQ ..) => .scratchpad
  | _ => if vec then .vector else .scalar

/-- A firing as its unit ranks it: core and unit, then the warp's class, the frame's map cycle, the index. -/
def fireRank (s : State) : Action → Option ((Nat × CoreUnit) × List Nat)
  | .fire w i =>
    (getWarp s w).bind fun x => x.frame.map fun f => ((x.core, unitOf f i), [x.cls, f.mapped.toNat, i])
  | _ => none

def lexBefore : List Nat → List Nat → Bool
  | a :: r, b :: t => decide (a < b) || (decide (a = b) && lexBefore r t)
  | _, _ => false

/-- A unit of the core picks another of the firings due before this one. -/
def outranked (s : State) (l : List Action) (a : Action) : Bool :=
  match fireRank s a with
  | some (u, k) => l.any fun b => match fireRank s b with | some (v, j) => decide (u = v) && lexBefore j k | none => false
  | none => false

/-- The moves due; of the instructions that are ready each unit of a core starts the one that comes first (R118). -/
def dueMoves (s : State) : List Action :=
  let l := (moves s).filter (isDue s)
  l.filter fun a => !outranked s l a

/-! ### The host's question about one instruction -/

/-- An image that holds an instruction's words at index 0, with every write slot, access slot (of 4 bytes), exit and partition declared. -/
def probeImage (w : Nat) : List Word :=
  [0x00160C09, 0, 0, 0, 0, 0, 0x00000800, 0x001FFFFF, 0, 0, 0, 0, 0, 0, 0, 0] ++
  List.replicate 11 0 ++ List.replicate 4 0x22222222 ++ [0] ++
  [BitVec.ofNat 32 w, BitVec.ofNat 32 (w / 2 ^ 32)] ++ List.replicate 14 0

/-- The launch record of the probe: one group of one warp. -/
def probeLaunch : Launch := ⟨0, 0, 1, 0, 0, 0, 0, 0, 0, 0, 0⟩

def probeKernel : Kernel :=
  { ctx := 0, queue := 0, launch := probeLaunch, state := .running, entryHeld := true, qdep := false, code := 0, failGroup := 0, detail := 0
    retired := 0, tstart := 0, tend := 0, nextRank := 1, killed := false, since := 0, aged := 0 }

/-- A frame in firing that holds the probe image, with every operand and the guard of index 0 delivered as a valid scalar zero. -/
def probeFrame (w : Nat) : Frame :=
  let zero := Token.scal true true 0
  { handle := 0, words := probeImage w, entry := ones32, laneless := false
    toks := [(slotKey 0 0, zero), (slotKey 0 1, zero), (slotKey 0 2, zero), (slotKey 0 3, zero)]
    wtoks := [], fired := [], votes := [], whole := none, slots := [], infl := [], cmds := [], flags := 0, causes := [], irrev := false
    stage := 0, fpn := 0, dbgctl := 0, mapped := 0 }

def probeWarp (w : Nat) : Warp :=
  { newWarp 0 0 probeKernel 0 0 0 0 0 0 with state := .mapped, frame := some (probeFrame w) }

end Sys2Proof.Machine
end

