-- ==== Sys2Proof/Machine/Step.lean ====
section
/-!
DEFINITION. One step of the module (INVENTORY.md, Agents), and the state in which the next step runs a given instruction.
-/
namespace Sys2Proof.Machine

/-- One step: time passes, and the move at the head of the agenda is made; with nothing on it, one of the moves due (log 6). A module that
waits for its environment lets time pass and nothing else. -/
def step (s : State) : Host.Outcome State Fault Refusal :=
  match s.agenda with
  | a :: r => perform a (pass { s with agenda := r })
  | [] =>
    let l := dueMoves (pass s)
    match l[Config.choice s.tick % l.length]? with
    | some a => perform a (pass s)
    | none => .next (pass s)

/-- The state with an instruction at index 0 of the block in a warp's frame, its operands delivered, and its firing next (log 65). -/
def State.withFetchWord (s : State) (_nbits w : Nat) : State :=
  { s with
    start := { s.start with state := .ready }
    ctxs := tput s.ctxs 0 { Context.fresh 0 with state := .resident }
    kernels := tput s.kernels 0 probeKernel
    groups := tput s.groups 0 (newGroup probeKernel 0 0 [0] 0 0)
    warps := tput s.warps 0 (probeWarp w)
    agenda := [.fire 0 0] }

end Sys2Proof.Machine
end

