-- ==== Sys2Proof/Safety.lean ====
section
/-!
DEFINITION. What counts as a safe run: the machine does not stop at a fault, and every state keeps the model's invariant.
-/
namespace Sys2Proof.Machine

/-- The invariant of the model: memory has its canonical form (12 R252). -/
def State.Inv (s : State) : Prop := s.mem.wf = true

/-- An outcome that is not a fault. -/
def Out.noFault : Out → Prop
  | .fault _ => False
  | _ => True

/-- A run of k steps is safe: no step faults, and each state it reaches keeps the invariant. -/
def SafeRun : Nat → State → Prop
  | 0, s => s.Inv
  | k + 1, s =>
    s.Inv ∧
    match step s with
    | .next t => SafeRun k t
    | .fault _ => False
    | .refused _ => True

end Sys2Proof.Machine
end

