-- ==== Sys2Proof/Certificates/Slice0/Obligations.lean ====
section
/-!
DEFINITION. The statements for the provers: what the instructions and the events of the module do, in the spec's terms. The helpers
are in the namespace Sys2Proof.Spec. A value that the model chose (a free value, an order it leaves open) is named as such where a
statement rests on it.
-/
namespace Sys2Proof.Spec
open Sys2Proof Sys2Proof.Machine

/-! ### Firing -/

/-- The state after a firing that changes nothing but its own frame: the frame is put back, and the firing is counted and its energy
charged to its context (18 R454, R456; which entry of the energy table it counts is the model's choice, log 11). -/
def after (st : State) (x : Fire) (f : Frame) : State := setWarp (x.charge st) x.wid { x.w with frame := some f }

/-- Token t of instruction i has arrived where target y sends it (02 R36). -/
def lands (f : Frame) (i : Nat) (y : Target) (t : Token) : Prop :=
  match y with
  | .opA j => tget f.toks (slotKey j.toNat 0) = some t
  | .opB j => tget f.toks (slotKey j.toNat 1) = some t
  | .opC j => tget f.toks (slotKey j.toNat 2) = some t
  | .guard j => tget f.toks (slotKey j.toNat 3) = some t
  | .write k => (k.toNat, i, t) ∈ f.wtoks
  | .none => True

/-- The operand or guard a target names. -/
def keyOf : Target → Option Nat
  | .opA j => some (slotKey j.toNat 0)
  | .opB j => some (slotKey j.toNat 1)
  | .opC j => some (slotKey j.toNat 2)
  | .guard j => some (slotKey j.toNat 3)
  | _ => none

/-- The detail of a fault of an instruction: its block's handle and its index (18 R435). -/
def atIndex (f : Frame) (i : Nat) : DWord := BitVec.ofNat 64 (f.handle.toNat + i * 2 ^ 32)

/-- The causes of flush are as before, but for a POISON where the firing consumed a poisoned operand before the irrevocable point (07 R133,
R144), and causes of the codes given. -/
def keepsCauses (x : Fire) (codes : List Nat) (f : Frame) : Prop :=
  (∃ cs, f.causes = x.f.causes ++ cs ∧ ∀ c ∈ cs, c.idx = x.i ∧ c.xlat = none ∧ c.detail = atIndex x.f x.i ∧
    ((c.code = 0x02 ∧ x.f.irrev = false ∧ (poisOf x.a ||| poisOf x.b ||| poisOf x.c ||| poisOf x.guard) ≠ 0) ∨ c.code ∈ codes)) ∧
  (x.consumed = true → x.f.irrev = false → ∃ c ∈ f.causes, c.idx = x.i ∧ c.code = 0x02 ∧ c.detail = atIndex x.f x.i)

/-- The write slot a target names. -/
def slotNamed : Target → Option Nat
  | .write k => some k.toNat
  | _ => none

/-- What no firing changes in its own frame: also the operands and guards, and the tokens of write slots, that its targets ts do not
name. Its causes are as before, but for a poison, the codes given, and a WRITE_CONFLICT where it has sent a write slot a token (R137). -/
def keepsBut (codes : List Nat) (x : Fire) (ts : List Target) (f : Frame) : Prop :=
  f.handle = x.f.handle ∧ f.words = x.f.words ∧ f.entry = x.f.entry ∧ f.laneless = x.f.laneless ∧ f.irrev = x.f.irrev ∧
  f.stage = x.f.stage ∧ f.fpn = x.f.fpn ∧ f.dbgctl = x.f.dbgctl ∧ f.mapped = x.f.mapped ∧ f.xfaults = x.f.xfaults ∧
  keepsCauses x (if ts.any fun y => (slotNamed y).isSome then 0x73 :: codes else codes) f ∧
  (∀ key, (∀ y ∈ ts, keyOf y ≠ some key) → tget f.toks key = tget x.f.toks key) ∧
  ∀ k, (∀ y ∈ ts, slotNamed y ≠ some k) → (f.wtoks.filter fun e => e.1 = k) = x.f.wtoks.filter fun e => e.1 = k

def keeps : Fire → List Target → Frame → Prop := keepsBut []

/-- The instruction has completed with token t at each of its targets and flags fl, and has left everything else alone. -/
def gives (o : Out) (st : State) (x : Fire) (ts : List Target) (t : Token) (fl : Word) : Prop :=
  ∃ f, o = .next (after st x f) ∧ f.fired = x.i :: x.f.fired ∧ (∀ y ∈ ts, lands f x.i y t) ∧
    f.wtoks = x.f.wtoks ++ ((ts.filterMap slotNamed).map fun k => (k, x.i, t)) ∧ f.flags = x.f.flags ||| fl ∧
    f.slots = x.f.slots ∧ f.votes = x.f.votes ∧ f.whole = x.f.whole ∧ f.infl = x.f.infl ∧ f.cmds = x.f.cmds ∧ keeps x ts f

/-- The instruction has fired into its unit: what it will deliver is in flight, and its frame is otherwise as before. -/
def inFlight (o : Out) (st : State) (x : Fire) (l : Late) (e : Effects) : Prop :=
  ∃ f, o = .next (after st x f) ∧ f.fired = x.i :: x.f.fired ∧ f.toks = x.f.toks ∧ f.wtoks = x.f.wtoks ∧ f.flags = x.f.flags ∧
    f.slots = x.f.slots ∧ f.votes = x.f.votes ∧ f.whole = x.f.whole ∧ f.cmds = x.f.cmds ∧ keeps x [] f ∧
    f.infl = x.f.infl ++ [(x.i, l, e)]

/-- The same where the instruction raises no flag and works lane by lane: a vector result holds v in each fired lane, a scalar result
v of the lowest (07 R135). -/
def computes (o : Out) (st : State) (x : Fire) (ts : List Target) (wide : Bool) (v : Nat → DWord) : Prop :=
  gives o st x ts (x.res wide v) 0

/-- The same with flags: those of every fired lane together (08 R175). -/
def computesFl (o : Out) (st : State) (x : Fire) (ts : List Target) (wide : Bool) (v : Nat → DWord × Word) : Prop :=
  gives o st x ts (x.res wide fun l => (v l).1) ((if x.vec then x.list else x.list.take 1).foldl (fun a l => a ||| (v l).2) 0)

/-- The instruction has completed with its command waiting for commit, and sent no token: where a lane fires, and else nothing waits
(07 R146). -/
def waitsFor (o : Out) (st : State) (x : Fire) (cs : List Cmd) : Prop :=
  ∃ f, o = .next (after st x f) ∧ f.fired = x.i :: x.f.fired ∧ f.toks = x.f.toks ∧ f.wtoks = x.f.wtoks ∧ f.flags = x.f.flags ∧
    f.slots = x.f.slots ∧ f.votes = x.f.votes ∧ f.whole = x.f.whole ∧ f.infl = x.f.infl ∧ keeps x [] f ∧
    (x.any = false → f.cmds = x.f.cmds) ∧
    (x.any = true → (∀ c ∈ cs, (x.i, c) ∈ f.cmds) ∧ f.cmds.length = x.f.cmds.length + cs.length ∧
      ∀ c ∈ f.cmds, c ∈ x.f.cmds ∨ ∃ d ∈ cs, c = (x.i, d))

/-- The newest value of a byte rests dirty in a die L2, in an S-class line (09 R185). -/
def restsDirty (s : State) (a : Nat) : Prop := ∃ d l, sLine s d (a / 128) = some l ∧ l.dirty.getLsbD (a % 128) = true

/-- Memory is as before, but where bytes that rest dirty in a die L2 may have been written back (09 R186). -/
def memKept (s t : State) : Prop := s.mem.wf = true → ∀ a, ¬ restsDirty s a → t.mem.byte a = s.mem.byte a

/-- A cause of flush has been found by the instruction: its code and its detail are in the frame (07 R133, 18 R435). -/
def finds (f : Frame) (i code : Nat) (detail : DWord) : Prop := ∃ c ∈ f.causes, c.idx = i ∧ c.code = code ∧ c.detail = detail

/-! ### Integers -/

def w64 (w : Word) : DWord := w.setWidth 64

/-- The operand a class A instruction reads (15 R339). -/
def num (s : ClsA) (d : DWord) : Int :=
  match s with
  | .i64 => d.toInt
  | .n32sat => (d.setWidth 32 : Word).toNat
  | _ => (d.setWidth 32 : Word).toInt

/-- A class A result: the wrapped results of both widths and the exact value, of which the sub takes its own; a clamp sets SAT. -/
def result (s : ClsA) (r32 : Word) (r64 : DWord) (x : Int) : DWord × Word :=
  match s with
  | .i32 => (w64 r32, 0)
  | .i64 => (r64, 0)
  | .i32sat =>
    if x < -2147483648 then (0x80000000, 32) else if 2147483647 < x then (0x7FFFFFFF, 32) else (w64 (BitVec.ofInt 32 x), 0)
  | .n32sat => if x < 0 then (0, 32) else if 4294967295 < x then (0xFFFFFFFF, 32) else (BitVec.ofInt 64 x, 0)

/-- A class S operation from its forms on 32-bit and 64-bit, signed and unsigned values. -/
def byS (s : ClsS) (i32 n32 : Word → Word → Word) (i64 n64 : DWord → DWord → DWord) (a b : DWord) : DWord :=
  match s with
  | .i32 => w64 (i32 (a.setWidth 32) (b.setWidth 32))
  | .n32 => w64 (n32 (a.setWidth 32) (b.setWidth 32))
  | .i64 => i64 a b
  | .n64 => n64 a b

/-- A class B operation. -/
def byB (s : ClsB) (f32 : Word → Word → Word) (f64 : DWord → DWord → DWord) (a b : DWord) : DWord :=
  match s with
  | .b32 => w64 (f32 (a.setWidth 32) (b.setWidth 32))
  | .b64 => f64 a b

def quot {n : Nat} (signed : Bool) (a b : BitVec n) : BitVec n :=
  if b = 0 then BitVec.allOnes n else if signed then a.sdiv b else a / b
def rest {n : Nat} (signed : Bool) (a b : BitVec n) : BitVec n := if signed then a.srem b else a % b

def divide (s : ClsS) : DWord → DWord → DWord := byS s (quot true) (quot false) (quot true) (quot false)
def remain (s : ClsS) : DWord → DWord → DWord := byS s (rest true) (rest false) (rest true) (rest false)

/-- The upper half of the exact product. -/
def upper (s : ClsS) : DWord → DWord → DWord :=
  byS s (fun a b => ((a.signExtend 64 * b.signExtend 64 : BitVec 64) >>> 32).setWidth 32)
    (fun a b => ((a.setWidth 64 * b.setWidth 64 : BitVec 64) >>> 32).setWidth 32)
    (fun a b => ((a.signExtend 128 * b.signExtend 128 : BitVec 128) >>> 64).setWidth 64)
    (fun a b => ((a.setWidth 128 * b.setWidth 128 : BitVec 128) >>> 64).setWidth 64)

def lesser (s : ClsS) : DWord → DWord → DWord :=
  byS s (fun a b => if a.sle b then a else b) (fun a b => if a ≤ b then a else b) (fun a b => if a.sle b then a else b)
    (fun a b => if a ≤ b then a else b)
def greater (s : ClsS) : DWord → DWord → DWord :=
  byS s (fun a b => if a.sle b then b else a) (fun a b => if a ≤ b then b else a) (fun a b => if a.sle b then b else a)
    (fun a b => if a ≤ b then b else a)

/-- Zero bits above the highest set bit, counted from the top. -/
def leading {n : Nat} (a : BitVec n) : Nat := ((List.range n).takeWhile fun i => !a.getLsbD (n - 1 - i)).length
def ones {n : Nat} (a : BitVec n) : Nat := ((List.range n).filter fun i => a.getLsbD i).length

/-- The vector with these bits. -/
def build (n : Nat) (b : Nat → Bool) : BitVec n := (List.range n).foldl (fun v j => if b j then v ||| BitVec.twoPow n j else v) 0

/-- Bit-field extract, bit by bit: bit j of the field where j is inside it, and above it the field's top bit if signed, else 0 (15
R346). The source is extended without bound. -/
def extract {n : Nat} (signed : Bool) (a : BitVec n) (pos len : Nat) : BitVec n :=
  let src (k : Nat) : Bool := if k < n then a.getLsbD k else signed && a.msb
  let m := min len n
  build n fun j => if j < m then src (pos + j) else signed && decide (0 < m) && src (pos + m - 1)

/-- Bit-field insert, bit by bit (15 R347). -/
def insert {n : Nat} (a b : BitVec n) (pos len : Nat) : BitVec n :=
  build n fun j => if pos ≤ j ∧ j < pos + len then a.getLsbD (j - pos) else b.getLsbD j

/-- Byte k of bsel's result (15 R348). -/
def chosen (a b c : Word) (k : Nat) : BitVec 8 :=
  let f : BitVec 8 := c.extractLsb' (8 * k) 8
  let src := (f.extractLsb' 0 3).toNat
  let y : BitVec 8 := if src < 4 then a.extractLsb' (8 * src) 8 else b.extractLsb' (8 * (src - 4)) 8
  let z : BitVec 8 := if f.getLsbD 3 then 0 else if f.getLsbD 4 then (if y.getLsbD 7 then 0xFF else 0) else y
  if f.getLsbD 5 then ~~~z else z

def compares {n : Nat} (c : ClsCmp) (a b : BitVec n) : Bool :=
  match c with
  | .eq => a == b | .ne => a != b | .lt => a.slt b | .le => a.sle b | .gt => b.slt a | .ge => b.sle a
  | .ltn => decide (a < b) | .len => decide (a ≤ b)

def truth (b : Bool) : DWord := if b then 1 else 0

end Sys2Proof.Spec

open Sys2Proof Sys2Proof.Machine Sys2Proof.Spec

/-! ### The firing rule (07 R135) -/

/-- An instruction is ready exactly where its warp is mapped and its frame holds every operand it takes and its guard and it has not
fired (and, in a serial step, none lower can fire: 18 R445); it then fires in the lanes of the entry mask in which every operand is valid and
the guard passes, and its result is vector where an operand or the guard is. -/
def Obligations.ReadyExactlyWhenOperandsArrived : Prop :=
  ∀ (st : State) (g : Guard) (need passes : List Nat) (x : Fire),
    ready st g need passes = some x ↔
      ∃ w f, getWarp st st.cur.1 = some w ∧ w.state = .mapped ∧ w.frame = some f ∧ st.cur.2 ∉ f.fired ∧ serialOk w f st.cur.2 = true ∧
        (∀ k, k < 3 → (tget f.toks (slotKey st.cur.2 k)).isSome = true ∨ (k ∉ need ∧ hasProducer f.words st.cur.2 k = false)) ∧
        (g = .always ∨ (tget f.toks (slotKey st.cur.2 3)).isSome = true) ∧
        x.wid = st.cur.1 ∧ x.i = st.cur.2 ∧ x.w = w ∧ x.f = f ∧
        x.a = tget f.toks (slotKey st.cur.2 0) ∧ x.b = tget f.toks (slotKey st.cur.2 1) ∧ x.c = tget f.toks (slotKey st.cur.2 2) ∧
        x.guard = (if g = .always then none else tget f.toks (slotKey st.cur.2 3)) ∧
        x.vec = (isVec x.a || isVec x.b || isVec x.c || isVec x.guard) ∧
        (∀ l, x.lanes.getLsbD l = true ↔
          (if f.laneless then x.vec = false ∧ l = 0 else f.entry.getLsbD l = true) ∧
          (∀ t, x.a = some t → t.valid.getLsbD l = true) ∧ (∀ t, x.b = some t → t.valid.getLsbD l = true) ∧
          (∀ t, x.c = some t → t.valid.getLsbD l = true) ∧ (guardPass g x.guard).getLsbD l = true) ∧
        x.pois = (poisOf x.a ||| poisOf x.b ||| poisOf x.c ||| poisOf x.guard) &&& x.lanes ∧
        (x.consumed = true ↔ ∃ l, x.lanes.getLsbD l = true ∧
          ((0 ∉ passes ∧ (poisOf x.a).getLsbD l = true) ∨ (1 ∉ passes ∧ (poisOf x.b).getLsbD l = true) ∨
            (2 ∉ passes ∧ (poisOf x.c).getLsbD l = true) ∨ (3 ∉ passes ∧ (poisOf x.guard).getLsbD l = true)))

/-! ### Integer, logic and data movement (15) -/

/-- add, sub, mul, mad, neg and abs of every sub (R339), and mulhi, min and max of every sub (R340), in every fired lane. -/
def Obligations.IntegerArithmeticResults : Prop :=
  (∀ (g : Guard) (s : ClsA) (ta tb : Target) (st : State) (x : Fire),
    (ready st g [0, 1] [] = some x →
      computesFl (exec (.add g s ta tb) st) st x [ta, tb] s.wide (fun l =>
        result s (x.aw l + x.bw l) (x.av l + x.bv l) (num s (x.av l) + num s (x.bv l))) ∧
      computesFl (exec (.sub g s ta tb) st) st x [ta, tb] s.wide (fun l =>
        result s (x.aw l - x.bw l) (x.av l - x.bv l) (num s (x.av l) - num s (x.bv l))) ∧
      computesFl (exec (.mul g s ta tb) st) st x [ta, tb] s.wide (fun l =>
        result s (x.aw l * x.bw l) (x.av l * x.bv l) (num s (x.av l) * num s (x.bv l)))) ∧
    (ready st g [0, 1, 2] [] = some x →
      computesFl (exec (.mad g s ta tb) st) st x [ta, tb] s.wide (fun l =>
        result s (x.aw l * x.bw l + x.cw l) (x.av l * x.bv l + x.cv l) (num s (x.av l) * num s (x.bv l) + num s (x.cv l)))) ∧
    (ready st g [0] [] = some x →
      computesFl (exec (.neg g s ta tb) st) st x [ta, tb] s.wide (fun l => result s (-x.aw l) (-x.av l) (-num s (x.av l))) ∧
      computesFl (exec (.abs g s ta tb) st) st x [ta, tb] s.wide (fun l =>
        result s (if (x.aw l).msb then -x.aw l else x.aw l) (if (x.av l).msb then -x.av l else x.av l) (num s (x.av l)).natAbs))) ∧
  (∀ (g : Guard) (s : ClsS) (ta tb : Target) (st : State) (x : Fire), ready st g [0, 1] [] = some x →
    computes (exec (.mulhi g s ta tb) st) st x [ta, tb] s.wide (fun l => upper s (x.av l) (x.bv l)) ∧
    computes (exec (.min g s ta tb) st) st x [ta, tb] s.wide (fun l => lesser s (x.av l) (x.bv l)) ∧
    computes (exec (.max g s ta tb) st) st x [ta, tb] s.wide (fun l => greater s (x.av l) (x.bv l)))

/-- div and rem fire into their unit, with the quotient or remainder of R341 as the result in flight, and complete when the unit
delivers; where no lane fires the null result is there at once (07 R136). -/
def Obligations.DivisionResultsInFlight : Prop :=
  ∀ (g : Guard) (s : ClsS) (ta tb : Target) (st : State) (x : Fire), ready st g [0, 1] [] = some x →
    (x.any = true →
      inFlight (exec (.div g s ta tb) st) st x .div { Effects.none with toks :=
        [(ta, x.res s.wide fun l => divide s (x.av l) (x.bv l)), (tb, x.res s.wide fun l => divide s (x.av l) (x.bv l))] } ∧
      inFlight (exec (.rem g s ta tb) st) st x .div { Effects.none with toks :=
        [(ta, x.res s.wide fun l => remain s (x.av l) (x.bv l)), (tb, x.res s.wide fun l => remain s (x.av l) (x.bv l))] }) ∧
    (x.any = false →
      gives (exec (.div g s ta tb) st) st x [ta, tb] (x.res s.wide fun _ => 0) 0 ∧
      gives (exec (.rem g s ta tb) st) st x [ta, tb] (x.res s.wide fun _ => 0) 0)

/-- A unit delivers (15 R341, 16 R383, R401): what was in flight, a token for each of its targets (none for mma, mma.sc, mma.chk, ldm and
stm, whose results are the registers and bytes of their commands), reaches them, with its flags and commands, and is in flight no more. -/
def Obligations.LateResultsDelivered : Prop :=
  ∀ (st : State) (wid i : Nat) (w : Warp) (f : Frame) (ys : List Target) (t : Token) (fl : Word) (cs : List Cmd) (k : Late),
    getWarp st wid = some w → w.frame = some f →
    f.infl.find? (fun e => decide (e.1 = i) && decide (e.2.1 = k)) =
      some (i, k, { Effects.none with toks := ys.map fun y => (y, t), flags := fl, cmds := cs }) →
    ∃ f', exec (match k with
        | .div => .divisionComplete wid i | .fdiv => .floatDivideComplete wid i | .matrix => .matrixComplete wid i) st =
          .next (setWarp st wid { w with frame := some f' }) ∧
      (∀ y ∈ ys, lands f' i y t) ∧ f'.wtoks = f.wtoks ++ ((ys.filterMap slotNamed).map fun k => (k, i, t)) ∧
      f'.flags = f.flags ||| fl ∧ (∀ c ∈ cs, (i, c) ∈ f'.cmds) ∧ f'.cmds.length = f.cmds.length + cs.length ∧
      f'.infl = f.infl.filter (fun e => e.1 ≠ i) ∧ f'.fired = f.fired ∧ f'.slots = f.slots ∧ f'.votes = f.votes ∧ f'.whole = f.whole ∧
      f'.irrev = f.irrev ∧ f'.stage = f.stage ∧ (ys = [] → f'.toks = f.toks ∧ f'.causes = f.causes)

/-- The immediate instructions (R342). -/
def Obligations.ImmediateResults : Prop :=
  ∀ (g : Guard) (imm : BitVec 12) (t : Target) (st : State) (x : Fire), ready st g [0] [] = some x →
    computes (exec (.addi g imm t) st) st x [t] false (fun l => w64 (x.aw l + imm.signExtend 32)) ∧
    computes (exec (.andi g imm t) st) st x [t] false (fun l => w64 (x.aw l &&& imm.signExtend 32)) ∧
    computes (exec (.ori g imm t) st) st x [t] false (fun l => w64 (x.aw l ||| imm.signExtend 32)) ∧
    computes (exec (.xori g imm t) st) st x [t] false (fun l => w64 (x.aw l ^^^ imm.signExtend 32)) ∧
    computes (exec (.shli g imm t) st) st x [t] false (fun l => w64 (x.aw l <<< imm.toNat)) ∧
    computes (exec (.shri g imm t) st) st x [t] false (fun l => w64 (x.aw l >>> imm.toNat)) ∧
    computes (exec (.sari g imm t) st) st x [t] false (fun l => w64 ((x.aw l).sshiftRight imm.toNat)) ∧
    computes (exec (.muli g imm t) st) st x [t] false (fun l => w64 (x.aw l * imm.signExtend 32)) ∧
    computes (exec (.cmpiEq g imm t) st) st x [t] false (fun l => truth (compares .eq (x.aw l) (imm.signExtend 32))) ∧
    computes (exec (.cmpiNe g imm t) st) st x [t] false (fun l => truth (compares .ne (x.aw l) (imm.signExtend 32))) ∧
    computes (exec (.cmpiLt g imm t) st) st x [t] false (fun l => truth (compares .lt (x.aw l) (imm.signExtend 32))) ∧
    computes (exec (.cmpiLe g imm t) st) st x [t] false (fun l => truth (compares .le (x.aw l) (imm.signExtend 32))) ∧
    computes (exec (.cmpiGt g imm t) st) st x [t] false (fun l => truth (compares .gt (x.aw l) (imm.signExtend 32))) ∧
    computes (exec (.cmpiGe g imm t) st) st x [t] false (fun l => truth (compares .ge (x.aw l) (imm.signExtend 32)))

/-- Logic, shifts, counts and reversal at both widths (R343 to R345). -/
def Obligations.LogicAndShiftResults : Prop :=
  ∀ (g : Guard) (s : ClsB) (ta tb : Target) (st : State) (x : Fire),
    (ready st g [0, 1] [] = some x →
      computes (exec (.and g s ta tb) st) st x [ta, tb] s.wide (fun l => byB s (· &&& ·) (· &&& ·) (x.av l) (x.bv l)) ∧
      computes (exec (.or g s ta tb) st) st x [ta, tb] s.wide (fun l => byB s (· ||| ·) (· ||| ·) (x.av l) (x.bv l)) ∧
      computes (exec (.xor g s ta tb) st) st x [ta, tb] s.wide (fun l => byB s (· ^^^ ·) (· ^^^ ·) (x.av l) (x.bv l)) ∧
      computes (exec (.andn g s ta tb) st) st x [ta, tb] s.wide
        (fun l => byB s (fun a b => a &&& ~~~b) (fun a b => a &&& ~~~b) (x.av l) (x.bv l)) ∧
      computes (exec (.shl g s ta tb) st) st x [ta, tb] s.wide
        (fun l => byB s (fun a _ => a <<< (x.bw l).toNat) (fun a _ => a <<< (x.bw l).toNat) (x.av l) 0) ∧
      computes (exec (.shr g s ta tb) st) st x [ta, tb] s.wide
        (fun l => byB s (fun a _ => a >>> (x.bw l).toNat) (fun a _ => a >>> (x.bw l).toNat) (x.av l) 0) ∧
      computes (exec (.sar g s ta tb) st) st x [ta, tb] s.wide
        (fun l => byB s (fun a _ => a.sshiftRight (x.bw l).toNat) (fun a _ => a.sshiftRight (x.bw l).toNat) (x.av l) 0) ∧
      computes (exec (.rotl g s ta tb) st) st x [ta, tb] s.wide
        (fun l => byB s (fun a _ => a.rotateLeft (x.bw l).toNat) (fun a _ => a.rotateLeft (x.bw l).toNat) (x.av l) 0)) ∧
    (ready st g [0] [] = some x →
      computes (exec (.not g s ta tb) st) st x [ta, tb] s.wide (fun l => byB s (fun a _ => ~~~a) (fun a _ => ~~~a) (x.av l) 0) ∧
      computes (exec (.clz g s ta tb) st) st x [ta, tb] false
        (fun l => BitVec.ofNat 64 (match s with | .b32 => leading (x.aw l) | .b64 => leading (x.av l))) ∧
      computes (exec (.popc g s ta tb) st) st x [ta, tb] false
        (fun l => BitVec.ofNat 64 (match s with | .b32 => ones (x.aw l) | .b64 => ones (x.av l))) ∧
      computes (exec (.brev g s ta tb) st) st x [ta, tb] s.wide (fun l => byB s (fun a _ => a.reverse) (fun a _ => a.reverse) (x.av l) 0))

/-- Bit-field extract and insert and byte select (R346 to R348). -/
def Obligations.BitFieldResults : Prop :=
  ∀ (g : Guard) (ta tb : Target) (st : State) (x : Fire), ready st g [0, 1, 2] [] = some x →
    (∀ s : ClsS, computes (exec (.bfe g s ta tb) st) st x [ta, tb] s.wide (fun l =>
      let pos := ((x.bw l).setWidth 8).toNat
      let len := ((x.cw l).setWidth 8).toNat
      byS s (fun a _ => extract true a pos len) (fun a _ => extract false a pos len) (fun a _ => extract true a pos len)
        (fun a _ => extract false a pos len) (x.av l) 0)) ∧
    (∀ s : ClsB, computes (exec (.bfi g s ta tb) st) st x [ta, tb] s.wide (fun l =>
      let pos := ((x.cw l).setWidth 8).toNat
      let len := ((x.cw l).extractLsb' 8 8).toNat
      byB s (fun a b => insert a b pos len) (fun a b => insert a b pos len) (x.av l) (x.bv l))) ∧
    computes (exec (.bsel g ta tb) st) st x [ta, tb] false (fun l =>
      let y := chosen (x.aw l) (x.bw l) (x.cw l)
      w64 (y 3 ++ y 2 ++ y 1 ++ y 0))

/-- Addresses, widening, moves and constants (R349 to R355). -/
def Obligations.AddressAndMoveResults : Prop :=
  ∀ (g : Guard) (ta tb tc td : Target) (st : State) (x : Fire),
    (ready st g [0, 1] [] = some x →
      (∀ s : ClsL, computes (exec (.lea g s ta tb) st) st x [ta, tb] true
        (fun l => x.av l + ((x.bw l).signExtend 64 <<< s.toBits.toNat))) ∧
      computes (exec (.addw g .i32 ta tb) st) st x [ta, tb] true (fun l => x.av l + (x.bw l).signExtend 64) ∧
      computes (exec (.addw g .n32 ta tb) st) st x [ta, tb] true (fun l => x.av l + w64 (x.bw l))) ∧
    (ready st g [0] [] = some x →
      computes (exec (.sext g .i8 ta tb) st) st x [ta, tb] false (fun l => w64 (((x.aw l).setWidth 8).signExtend 32)) ∧
      computes (exec (.sext g .i16 ta tb) st) st x [ta, tb] false (fun l => w64 (((x.aw l).setWidth 16).signExtend 32)) ∧
      computes (exec (.sext g .i32 ta tb) st) st x [ta, tb] true (fun l => (x.aw l).signExtend 64) ∧
      computes (exec (.sext g .n32 ta tb) st) st x [ta, tb] true (fun l => w64 (x.aw l))) ∧
    (ready st g [0] [0] = some x →
      ∀ s : ClsB, computes (exec (.mov g s ta tb) st) st x [ta, tb] s.wide (fun l => byB s (fun a _ => a) (fun a _ => a) (x.av l) 0) ∧
        computes (exec (.mov4 g s ta tb tc td) st) st x [ta, tb, tc, td] s.wide
          (fun l => byB s (fun a _ => a) (fun a _ => a) (x.av l) 0)) ∧
    (ready st g [] [] = some x → ∃ t : Token, t.valid = 0 ∧ t.null = true ∧ t.vec = x.vec ∧ gives (exec (.null g ta tb) st) st x [ta, tb] t 0) ∧
    (∀ k : BitVec 16, ready st .always [] [] = some x →
      gives (exec (.genk k ta) st) st x [ta] (Token.scal false true (k.setWidth 64)) 0) ∧
    (∀ k : BitVec 16, ready st .always [0] [] = some x →
      computes (exec (.appk k ta) st) st x [ta] false (fun l => w64 ((x.aw l).setWidth 16 ++ k)))

/-- Compares, predicates and sel (R356, R358, R359). -/
def Obligations.CompareAndPredicateResults : Prop :=
  ∀ (g : Guard) (ta tb : Target) (st : State) (x : Fire),
    (ready st g [0, 1] [] = some x →
      (∀ c : ClsCmp, computes (exec (.cmp g c ta tb) st) st x [ta, tb] false (fun l => truth (compares c (x.aw l) (x.bw l))) ∧
        computes (exec (.cmp64 g c ta tb) st) st x [ta, tb] false (fun l => truth (compares c (x.av l) (x.bv l)))) ∧
      computes (exec (.pand g ta tb) st) st x [ta, tb] false (fun l => x.av l &&& x.bv l &&& 1) ∧
      computes (exec (.por g ta tb) st) st x [ta, tb] false (fun l => (x.av l ||| x.bv l) &&& 1) ∧
      computes (exec (.pxor g ta tb) st) st x [ta, tb] false (fun l => (x.av l ^^^ x.bv l) &&& 1)) ∧
    (ready st g [0] [] = some x →
      computes (exec (.pnot g ta tb) st) st x [ta, tb] false (fun l => ~~~(x.av l) &&& 1)) ∧
    (ready st g [0, 1, 2] [1, 2] = some x → ∀ s : ClsB, ∃ pois : Mask,
      (∀ l, pois.getLsbD l = (x.has l && ((poisOf x.a).getLsbD l || (poisOf x.guard).getLsbD l ||
        (if (x.aw l).getLsbD 0 then (poisOf x.b).getLsbD l else (poisOf x.c).getLsbD l)))) ∧
      computes (exec (.sel g s ta tb) st) st { x with pois := pois } [ta, tb] s.wide
        (fun l => byB s (fun a _ => a) (fun a _ => a) (if (x.aw l).getLsbD 0 then x.bv l else x.cv l) 0))

/-! ### Lane instructions (15 R360 to R370, 06 R124) -/

namespace Sys2Proof.Spec
open Sys2Proof Sys2Proof.Machine

def bits (p : Nat → Bool) : Mask := build 32 p

def admitted (m : Mask) : List Nat := (List.range 32).filter fun j => m.getLsbD j
/-- A lane's rank: the admitted lanes below it. -/
def rankOf (m : Mask) (l : Nat) : Nat := ((admitted m).filter (· < l)).length

/-- The rank that lane l of rank r asks for with k (R364). -/
def wanted (s : ClsSh) (r k : Nat) : Int :=
  match s with
  | .from => k
  | .back => (r : Int) - k
  | .fwd => (r : Int) + k
  | .flip => (Nat.xor r k : Nat)

/-- Lane j is where lane l takes its value from (R364). -/
def source (s : ClsSh) (m valid : Mask) (l k j : Nat) : Prop :=
  let t := wanted s (rankOf m l) k
  if m.getLsbD l = true ∧ 0 ≤ t ∧ t < ((admitted m).length : Nat) then
    ∃ q ∈ admitted m, (rankOf m q : Int) = t ∧ j = if valid.getLsbD q then q else l
  else j = l

/-- The combination and the identity of class RO (R366). -/
def roOp : ClsRo → Word → Word → Word
  | .addI32 => (· + ·)
  | .minI32 => fun a b => if a.sle b then a else b
  | .maxI32 => fun a b => if a.sle b then b else a
  | .minN32 => fun a b => if a ≤ b then a else b
  | .maxN32 => fun a b => if a ≤ b then b else a
  | .and => (· &&& ·)
  | .or => (· ||| ·)
  | .xor => (· ^^^ ·)
def roZero : ClsRo → Word
  | .minI32 => 0x7FFFFFFF | .maxI32 => 0x80000000 | .minN32 => 0xFFFFFFFF | .and => 0xFFFFFFFF | .addI32 | .maxN32 | .or | .xor => 0

/-- op over a's elements in some lanes. -/
def foldOf (o : ClsRo) (x : Fire) (ls : List Nat) : Word := ls.foldr (fun j v => roOp o (x.aw j) v) (roZero o)

/-- The lanes that fire and that lane l's mask admits: every lane where c is not taken (R360). -/
def inGroup (x : Fire) (l : Nat) : List Nat := x.list.filter fun j => match x.c with | some c => (c.w l).getLsbD j | none => true

/-- The lanes counted by a vote: the fired ones, none in a lane-less block (log 20). -/
def voters (x : Fire) : List Nat := if x.f.laneless then [] else x.list

end Sys2Proof.Spec

/-- rfl, rdln and wrln at both widths (R361 to R363). -/
def Obligations.LaneReadAndWriteResults : Prop :=
  ∀ (g : Guard) (s : ClsB) (ta tb : Target) (st : State) (x : Fire),
    (ready st g [0] [0] = some x →
      gives (exec (.rfl g s ta tb) st) st x [ta, tb]
        (Token.scal s.wide x.any (if x.any then byB s (fun a _ => a) (fun a _ => a) (x.av x.low) 0 else 0) (x.any && x.pois.getLsbD x.low)) 0) ∧
    (ready st g [0, 1] [0] = some x →
      let j := (x.bw 0).toNat % 32
      let ok := decide (guardPass g x.guard ≠ 0) && decide (validOf x.b ≠ 0) && (validOf x.a).getLsbD j && !x.f.laneless
      gives (exec (.rdln g s ta tb) st) st x [ta, tb]
        (Token.scal s.wide ok (if ok then byB s (fun a _ => a) (fun a _ => a) (x.av j) 0 else 0)
          (ok && ((poisOf x.a).getLsbD j || decide (poisOf x.b ≠ 0) || decide (poisOf x.guard ≠ 0)))) 0) ∧
    (ready st g [0, 1, 2] [] = some x →
      gives (exec (.wrln g s ta tb) st) st x [ta, tb] (x.vecRes s.wide x.lanes (fun l =>
        byB s (fun a _ => a) (fun a _ => a) (if l = (x.bw 0).toNat % 32 then x.cv l else x.av l) 0) x.pois) 0)

/-- lxch: each fired lane takes the value of the lane that R364 names. -/
def Obligations.LaneExchangeSources : Prop :=
  ∀ (g : Guard) (s : ClsSh) (ta tb : Target) (st : State) (x : Fire), ready st g [0, 1] [0] = some x →
    ∃ (src : Nat → Nat) (pois : Mask),
      (∀ l, x.has l = true → source s (match x.c with | some c => c.w l | none => 0xFFFFFFFF) (validOf x.a) l (x.bw l).toNat (src l)) ∧
      (∀ l, pois.getLsbD l = (x.has l && ((poisOf x.a).getLsbD (src l) || (poisOf x.b).getLsbD l || (poisOf x.c).getLsbD l ||
        (poisOf x.guard).getLsbD l))) ∧
      gives (exec (.lxch g s ta tb) st) st x [ta, tb] (x.vecRes (isWide x.a) x.lanes (fun l => x.av (src l)) pois) 0

/-- vote, match, redux, scan (R365 to R367, 06 R124). -/
def Obligations.VoteMatchReduceScanResults : Prop :=
  ∀ (g : Guard) (ta tb : Target) (st : State) (x : Fire), ready st g [0] [] = some x →
    (∀ v : ClsV, gives (exec (.vote g v ta tb) st) st x [ta, tb] (x.scalRes false (
      match v with
      | .any => truth ((voters x).any fun l => (x.av l).getLsbD 0)
      | .all => truth ((voters x).all fun l => (x.av l).getLsbD 0)
      | .ballot => w64 (bits fun l => decide (l ∈ voters x) && (x.av l).getLsbD 0)
      | .count => BitVec.ofNat 64 ((voters x).filter fun l => (x.av l).getLsbD 0).length)) 0) ∧
    (∀ s : ClsB, gives (exec (.matchKeys g s ta tb) st) st x [ta, tb]
      (x.vecRes false x.lanes (fun l => w64 (bits fun j => x.has j &&
        (match s with | .b32 => x.aw j == x.aw l | .b64 => x.av j == x.av l))) (x.crossPois fun _ => x.lanes)) 0) ∧
    (∀ o : ClsRo,
      (x.c = none → gives (exec (.redux g o ta tb) st) st x [ta, tb] (x.scalRes false (w64 (foldOf o x x.list))) 0) ∧
      (x.c ≠ none → ∃ p : Mask, gives (exec (.redux g o ta tb) st) st x [ta, tb]
        (x.vecRes false x.lanes (fun l => w64 (foldOf o x (inGroup x l))) p) 0) ∧
      ∃ p : Mask, gives (exec (.scan g o ta tb) st) st x [ta, tb]
        (x.vecRes false x.lanes (fun l => w64 (foldOf o x ((inGroup x l).filter (· ≤ l)))) p) 0)

/-- lmask, bcast, mskz (R368 to R370). -/
def Obligations.LaneMaskAndBroadcastResults : Prop :=
  ∀ (g : Guard) (ta tb : Target) (st : State) (x : Fire),
    (ready st g [] [] = some x → ∀ s : ClsLm, gives (exec (.lmask g s ta tb) st) st x [ta, tb]
      (x.vecRes false x.lanes (fun l => w64 ((bits fun j => match s with
          | .self => decide (j = l) | .below => decide (j < l) | .upto => decide (j ≤ l) | .above => decide (j > l)
          | .onward => decide (j ≥ l)) &&&
        (match x.a with | some a => a.w l | none => 0xFFFFFFFF))) x.pois) 0) ∧
    (ready st g [0] [] = some x →
      (∀ s : ClsB, gives (exec (.bcast g s ta tb) st) st x [ta, tb]
        (x.vecRes s.wide x.lanes (fun l => byB s (fun a _ => a) (fun a _ => a) (x.av l) 0) x.pois) 0) ∧
      gives (exec (.mskz g ta tb) st) st x [ta, tb]
        (Token.vect (isWide x.a) (if x.f.laneless then 0 else x.f.entry &&& guardPass g x.guard)
          (fun l => if (validOf x.a).getLsbD l then x.av l else 0)
          ((poisOf x.a ||| poisOf x.guard) &&& (if x.f.laneless then 0 else x.f.entry &&& guardPass g x.guard))) 0)

/-! ### Exits (07 R145, R147, R148, 18 R482) -/

namespace Sys2Proof.Spec
open Sys2Proof Sys2Proof.Machine

/-- The instruction has fired and voted for exit n l in each fired lane l, in a lane-less block for n 0 as a whole. -/
def voted (o : Out) (st : State) (x : Fire) (n : Nat → Nat) : Prop :=
  let count := Img.nexits x.f.words
  let second (l : Nat) : Bool := x.f.votes.any fun v => decide (v.1 = l)
  ∃ f, o = .next (after st x f) ∧ f.fired = x.i :: x.f.fired ∧ f.toks = x.f.toks ∧ f.wtoks = x.f.wtoks ∧ f.flags = x.f.flags ∧
    f.slots = x.f.slots ∧ f.infl = x.f.infl ∧ f.cmds = x.f.cmds ∧ keepsBut [0x70, 0x71] x [] f ∧
    (x.f.laneless = false → f.whole = x.f.whole ∧
      f.votes = x.f.votes ++ (x.list.filter fun l => decide (n l < count) && !second l).map (fun l => (l, n l)) ∧
      (∀ l ∈ x.list, count ≤ n l → finds f x.i 0x71 (atIndex x.f x.i)) ∧
      (∀ l ∈ x.list, n l < count → second l = true → finds f x.i 0x70 (atIndex x.f x.i)) ∧
      ((∀ l ∈ x.list, n l < count ∧ second l = false) → keeps x [] f)) ∧
    (x.f.laneless = true → f.votes = x.f.votes ∧
      (x.any = false → f.whole = x.f.whole ∧ keeps x [] f) ∧
      (x.any = true → count ≤ n 0 → f.whole = x.f.whole ∧ finds f x.i 0x71 (atIndex x.f x.i)) ∧
      (x.any = true → n 0 < count → x.f.whole.isSome = true → f.whole = x.f.whole ∧ finds f x.i 0x70 (atIndex x.f x.i)) ∧
      (x.any = true → n 0 < count → x.f.whole = none → f.whole = some (n 0) ∧ keeps x [] f))

end Sys2Proof.Spec

/-- exit and exitv vote in each fired lane for an exit below the block's count; a vote beyond it is EXIT_RANGE and a second vote of a lane
EXIT_CONFLICT, and neither then counts; a lane-less block votes as a whole. -/
def Obligations.ExitVotes : Prop :=
  ∀ (g : Guard) (imm : BitVec 12) (st : State) (x : Fire),
    (ready st g [] [] = some x → voted (exec (.exit g imm) st) st x fun _ => imm.toNat) ∧
    (ready st g [0] [] = some x → voted (exec (.exitv g) st) st x fun l => (x.aw l).toNat)

/-! ### Floating point (08 R161 to R171, 16 R381 to R399) -/

namespace Sys2Proof.Spec
open Sys2Proof Sys2Proof.Machine

/-- A lane's result: a pattern with its flags. -/
def pat (r : Nat × Word) : DWord × Word := (BitVec.ofNat 64 r.1, r.2)

/-- A packed operation: the two halves apart, the flags of both (08 R171, R176). -/
def twice (f : BitVec 16 → BitVec 16 → BitVec 16 → Nat × Word) (a b c : Word) : DWord × Word :=
  let lo := f (a.setWidth 16) (b.setWidth 16) (c.setWidth 16)
  let hi := f (a.extractLsb' 16 16) (b.extractLsb' 16 16) (c.extractLsb' 16 16)
  (BitVec.ofNat 64 (lo.1 + hi.1 * 65536), lo.2 ||| hi.2)

/-- Completion of an instruction that goes through the divide and root unit (16 R383): the result in flight, or at once where no lane fires. -/
def inUnit (o : Out) (st : State) (x : Fire) (ta tb : Target) (wide : Bool) (v : Nat → DWord × Word) : Prop :=
  (x.any = true → inFlight o st x .fdiv { Effects.none with
    toks := [(ta, x.res wide fun l => (v l).1), (tb, x.res wide fun l => (v l).1)]
    flags := (if x.vec then x.list else x.list.take 1).foldl (fun a l => a ||| (v l).2) 0 }) ∧
  (x.any = false → gives o st x [ta, tb] (x.res wide fun _ => 0) 0)

/-- The five IEEE-like formats of 08 R161. -/
def ieee (F : Fmt) : Prop := F = fF64 ∨ F = fF32 ∨ F = fF16 ∨ F = fBF16 ∨ F = fE5M2

end Sys2Proof.Spec

/-- The single-precision instructions complete with the value of their operation and its flags (R382 to R390). -/
def Obligations.SinglePrecisionResults : Prop :=
  ∀ (g : Guard) (r : Round) (ta tb : Target) (st : State) (x : Fire),
    (ready st g [0, 1] [] = some x →
      computesFl (exec (.fadd g r ta tb) st) st x [ta, tb] false (fun l => pat (fF32.add r (x.aw l).toNat (x.bw l).toNat)) ∧
      computesFl (exec (.fsub g r ta tb) st) st x [ta, tb] false (fun l => pat (fF32.sub r (x.aw l).toNat (x.bw l).toNat)) ∧
      computesFl (exec (.fmul g r ta tb) st) st x [ta, tb] false (fun l => pat (fF32.mul r (x.aw l).toNat (x.bw l).toNat)) ∧
      computesFl (exec (.fmin g ta tb) st) st x [ta, tb] false (fun l => pat (fF32.minmax false (x.aw l).toNat (x.bw l).toNat)) ∧
      computesFl (exec (.fmax g ta tb) st) st x [ta, tb] false (fun l => pat (fF32.minmax true (x.aw l).toNat (x.bw l).toNat)) ∧
      computesFl (exec (.fscale g r ta tb) st) st x [ta, tb] false (fun l => pat (fF32.scale r (x.aw l).toNat (x.bw l).toInt)) ∧
      (∀ c : ClsFc, computesFl (exec (.fcmp g c ta tb) st) st x [ta, tb] false (fun l =>
        (truth (fF32.cmp c (x.aw l).toNat (x.bw l).toNat).1, (fF32.cmp c (x.aw l).toNat (x.bw l).toNat).2))) ∧
      inUnit (exec (.fdiv g r ta tb) st) st x ta tb false (fun l => pat (fF32.div r (x.aw l).toNat (x.bw l).toNat))) ∧
    (ready st g [0, 1, 2] [] = some x →
      computesFl (exec (.ffma g r ta tb) st) st x [ta, tb] false
        (fun l => pat (fF32.fma r (x.aw l).toNat (x.bw l).toNat (x.cw l).toNat))) ∧
    (ready st g [0] [] = some x →
      computes (exec (.fabs g ta tb) st) st x [ta, tb] false (fun l => w64 (0#1 ++ (x.aw l).setWidth 31)) ∧
      computes (exec (.fneg g ta tb) st) st x [ta, tb] false (fun l => w64 (BitVec.ofBool (!(x.aw l).msb) ++ (x.aw l).setWidth 31)) ∧
      computesFl (exec (.frcp g ta tb) st) st x [ta, tb] false (fun l => pat (fF32.recip (x.aw l).toNat)) ∧
      computesFl (exec (.frsq g ta tb) st) st x [ta, tb] false (fun l => pat (fF32.rsqrt (x.aw l).toNat)) ∧
      computesFl (exec (.fex2 g ta tb) st) st x [ta, tb] false (fun l => pat (fex2 (x.aw l))) ∧
      computesFl (exec (.flg2 g ta tb) st) st x [ta, tb] false (fun l => pat (flg2 (x.aw l))) ∧
      (∀ c : ClsSc, computesFl (exec (.fsin g c ta tb) st) st x [ta, tb] false (fun l => pat (fsin c (x.aw l)))) ∧
      computesFl (exec (.frnd g r ta tb) st) st x [ta, tb] false (fun l => pat (fF32.rint r (x.aw l).toNat)) ∧
      (∀ t, x.a = some t → computes (exec (.fclass g ta tb) st) st x [ta, tb] false (fun l => BitVec.ofNat 64
        (if t.wide then fF64.classOf (x.av l).toNat else fF32.classOf (x.aw l).toNat))) ∧
      inUnit (exec (.fsqrt g r ta tb) st) st x ta tb false (fun l => pat (fF32.sqrt r (x.aw l).toNat)))

/-- The double-precision instructions (R391). -/
def Obligations.DoublePrecisionResults : Prop :=
  ∀ (g : Guard) (r : Round) (ta tb : Target) (st : State) (x : Fire),
    (ready st g [0, 1] [] = some x →
      computesFl (exec (.dadd g r ta tb) st) st x [ta, tb] true (fun l => pat (fF64.add r (x.av l).toNat (x.bv l).toNat)) ∧
      computesFl (exec (.dsub g r ta tb) st) st x [ta, tb] true (fun l => pat (fF64.sub r (x.av l).toNat (x.bv l).toNat)) ∧
      computesFl (exec (.dmul g r ta tb) st) st x [ta, tb] true (fun l => pat (fF64.mul r (x.av l).toNat (x.bv l).toNat)) ∧
      computesFl (exec (.dmin g ta tb) st) st x [ta, tb] true (fun l => pat (fF64.minmax false (x.av l).toNat (x.bv l).toNat)) ∧
      computesFl (exec (.dmax g ta tb) st) st x [ta, tb] true (fun l => pat (fF64.minmax true (x.av l).toNat (x.bv l).toNat)) ∧
      (∀ c : ClsFc, computesFl (exec (.dcmp g c ta tb) st) st x [ta, tb] false (fun l =>
        (truth (fF64.cmp c (x.av l).toNat (x.bv l).toNat).1, (fF64.cmp c (x.av l).toNat (x.bv l).toNat).2))) ∧
      inUnit (exec (.ddiv g r ta tb) st) st x ta tb true (fun l => pat (fF64.div r (x.av l).toNat (x.bv l).toNat))) ∧
    (ready st g [0, 1, 2] [] = some x →
      computesFl (exec (.dfma g r ta tb) st) st x [ta, tb] true
        (fun l => pat (fF64.fma r (x.av l).toNat (x.bv l).toNat (x.cv l).toNat))) ∧
    (ready st g [0] [] = some x →
      inUnit (exec (.dsqrt g r ta tb) st) st x ta tb true (fun l => pat (fF64.sqrt r (x.av l).toNat)))

/-- The packed 16-bit instructions compute each half on its own (R392, R393). -/
def Obligations.PackedHalvesResults : Prop :=
  ∀ (g : Guard) (h : ClsH) (k : ClsHc) (m : HFmt) (ta tb : Target) (st : State) (x : Fire),
    (ready st g [0, 1] [] = some x →
      computesFl (exec (.hadd2 g h ta tb) st) st x [ta, tb] false
        (fun l => twice (fun a b _ => (hFmt h.fmt).add h.rnd a.toNat b.toNat) (x.aw l) (x.bw l) 0) ∧
      computesFl (exec (.hmul2 g h ta tb) st) st x [ta, tb] false
        (fun l => twice (fun a b _ => (hFmt h.fmt).mul h.rnd a.toNat b.toNat) (x.aw l) (x.bw l) 0) ∧
      computesFl (exec (.hmin2 g m ta tb) st) st x [ta, tb] false
        (fun l => twice (fun a b _ => (hFmt m).minmax false a.toNat b.toNat) (x.aw l) (x.bw l) 0) ∧
      computesFl (exec (.hmax2 g m ta tb) st) st x [ta, tb] false
        (fun l => twice (fun a b _ => (hFmt m).minmax true a.toNat b.toNat) (x.aw l) (x.bw l) 0) ∧
      computesFl (exec (.hcmp2 g k ta tb) st) st x [ta, tb] false (fun l => twice (fun a b _ =>
        let c : ClsFc := match k.cmp with | .eq => .eq | .ne => .ne | .lt => .lt | .le => .le
        (if ((hFmt k.fmt).cmp c a.toNat b.toNat).1 then 0xFFFF else 0, ((hFmt k.fmt).cmp c a.toNat b.toNat).2))
        (x.aw l) (x.bw l) 0)) ∧
    (ready st g [0, 1, 2] [] = some x →
      computesFl (exec (.hfma2 g h ta tb) st) st x [ta, tb] false
        (fun l => twice (fun a b c => (hFmt h.fmt).fma h.rnd a.toNat b.toNat c.toNat) (x.aw l) (x.bw l) (x.cw l)))

/-- cvt, pack and unpk complete with their conversion, and the dot products with theirs (R394 to R399): an integer dot product is the
wrapped sum of the products of its elements and c. -/
def Obligations.ConversionAndDotResults : Prop :=
  ∀ (g : Guard) (ta tb : Target) (st : State) (x : Fire),
    (ready st g [0] [] = some x → ∀ (src dst : NumTy) (r : Round) (sat : Bool),
      computesFl (exec (.cvt g ta tb src dst r sat) st) st x [ta, tb] (numWide dst) (fun l => cvtLane src dst r sat (x.av l))) ∧
    (ready st g [0, 1] [] = some x → ∀ p : ClsPk,
      computesFl (exec (.unpk g p ta tb) st) st x [ta, tb] false (fun l => unpkLane p (x.aw l).toNat (x.bw l).toNat)) ∧
    (ready st g [0, 1, 2] [] = some x →
      (∀ p : ClsPk, computesFl (exec (.pack g p ta tb) st) st x [ta, tb] false
        (fun l => pat (packLane p (x.aw l).toNat (x.bw l).toNat (x.cw l).toNat))) ∧
      (∀ d : ClsDi,
        let e (n : Nat) (signed : Bool) (w : Word) (k : Nat) : Word :=
          if signed then (w.extractLsb' (n * k) n).signExtend 32 else (w.extractLsb' (n * k) n).setWidth 32
        let dot (n : Nat) (a b c : Word) : DWord :=
          w64 ((List.range (32 / n)).foldl (fun v k => v + e n (diSigned d).1 a k * e n (diSigned d).2 b k) c)
        computes (exec (.dot4I8 g d ta tb) st) st x [ta, tb] false (fun l => dot 8 (x.aw l) (x.bw l) (x.cw l)) ∧
        computes (exec (.dot8I4 g d ta tb) st) st x [ta, tb] false (fun l => dot 4 (x.aw l) (x.bw l) (x.cw l))) ∧
      (∀ d : ClsDf, computesFl (exec (.dot4F8 g d ta tb) st) st x [ta, tb] false
        (fun l => pat (dotFlt (dfFmts d).1 (dfFmts d).2 (x.aw l).toNat (x.bw l).toNat (x.cw l).toNat))) ∧
      computesFl (exec (.dot8F4 g ta tb) st) st x [ta, tb] false
        (fun l => pat (dotFlt fE2M1 fE2M1 (x.aw l).toNat (x.bw l).toNat (x.cw l).toNat)) ∧
      computesFl (exec (.dot2Bf g ta tb) st) st x [ta, tb] false
        (fun l => pat (dotFlt fBF16 fBF16 (x.aw l).toNat (x.bw l).toNat (x.cw l).toNat)))

/-- NaN operands (08 R168): the first NaN in operand order, made quiet, whatever the rounding, with NV for a signalling one; and compare,
minimum and maximum with NaN operands and with signed zeros (R170). -/
def Obligations.NanAndCompareRules : Prop :=
  (∀ (F : Fmt) (r : Round) (a b c : Nat), ieee F → a < 2 ^ F.width → b < 2 ^ F.width → c < 2 ^ F.width →
    let q (x : Nat) : Nat := if F.isSNaN x then x + 2 ^ (F.m - 1) else x
    let nv (ys : List Nat) : Word := if ys.any F.isSNaN then 1 else 0
    (F.isNaN a = true → F.add r a b = (q a, nv [a, b]) ∧ F.sub r a b = (q a, nv [a, b]) ∧ F.mul r a b = (q a, nv [a, b]) ∧
      F.div r a b = (q a, nv [a, b]) ∧ F.fma r a b c = (q a, nv [a, b, c]) ∧ F.sqrt r a = (q a, nv [a])) ∧
    (F.isNaN a = false → F.isNaN b = true → F.add r a b = (q b, nv [b]) ∧ F.sub r a b = (q b, nv [b]) ∧ F.mul r a b = (q b, nv [b]) ∧
      F.div r a b = (q b, nv [b]) ∧ F.fma r a b c = (q b, nv [b, c])) ∧
    (∀ x, F.isNaN x = true → F.isNaN (q x) = true ∧ F.isSNaN (q x) = false)) ∧
  (∀ (F : Fmt) (a b : Nat), ieee F → a < 2 ^ F.width → b < 2 ^ F.width →
    (F.isNaN a = true ∨ F.isNaN b = true →
      (F.cmp .eq a b).1 = false ∧ (F.cmp .lt a b) = (false, 1) ∧ (F.cmp .le a b) = (false, 1) ∧ (F.cmp .gt a b) = (false, 1) ∧
      (F.cmp .ge a b) = (false, 1) ∧ (F.cmp .num a b).1 = false ∧ (F.cmp .ne a b).1 = true ∧ (F.cmp .nan a b).1 = true ∧
      (∀ c ∈ [ClsFc.eq, .ne, .num, .nan], (F.cmp c a b).2 = if F.isSNaN a ∨ F.isSNaN b then 1 else 0) ∧
      ∀ m, (F.minmax m a b).2 = if F.isSNaN a ∨ F.isSNaN b then 1 else 0) ∧
    (F.isNaN a = true → F.isNaN b = true → ∀ m, (F.minmax m a b).1 = F.canon) ∧
    (F.isNaN a = true → F.isNaN b = false → ∀ m, (F.minmax m a b).1 = b ∧ (F.minmax m b a).1 = b) ∧
    (F.cmp .eq 0 F.signBit).1 = true ∧ (F.cmp .lt F.signBit 0).1 = false ∧
    (F.minmax false F.signBit 0).1 = F.signBit ∧ (F.minmax false 0 F.signBit).1 = F.signBit ∧
    (F.minmax true F.signBit 0).1 = 0 ∧ (F.minmax true 0 F.signBit).1 = 0)

/-- Rounding (08 R164): a value that its format represents rounds to itself in every mode, with no flag; and rounding toward zero takes the
largest magnitude of the format that is not above the exact one, where that does not exceed the largest finite one: the pattern below is at
or under it, the next one above it. -/
def Obligations.RoundingRules : Prop :=
  (∀ (F : Fmt) (r : Round) (sat : Bool) (a : Nat), ieee F ∨ F = fE4M3 ∨ F = fE2M1 → a < 2 ^ F.width → F.isNaN a = false →
    F.round r sat (F.num a) = (a, 0)) ∧
  (∀ (F : Fmt) (n : Nat) (e : Int), ieee F → 0 < n → (F.roundFin .rz false false n e).1 < F.maxBits →
    let p := (F.roundFin .rz false false n e).1
    let q := 1 - F.bias - F.m
    -- a pattern's value in units of 2^q
    let units (b : Nat) : Nat := if b / 2 ^ F.m = 0 then b else (2 ^ F.m + b % 2 ^ F.m) * 2 ^ (b / 2 ^ F.m - 1)
    units p * 2 ^ (q - e).toNat ≤ n * 2 ^ (e - q).toNat ∧ n * 2 ^ (e - q).toNat < units (p + 1) * 2 ^ (q - e).toNat)

/-! ### Memory instructions (17) -/

namespace Sys2Proof.Spec
open Sys2Proof Sys2Proof.Machine

/-- The effective address of a lane, an exact sum: a + offset × access bytes (17 R421, 00 R6). -/
def effAddr (o : SlotOp) (x : Fire) (l : Nat) : Int :=
  (if o.kind.isGlobal then (x.av l).toNat else (x.aw l).toNat : Nat) + o.off * (Img.bytes x.f.words o.slot : Nat)

/-- The lanes that make an access: every fired one, or one for all where the address is scalar (and the data, but for a load) (R417). -/
def accessLanes (o : SlotOp) (x : Fire) : List Nat := if o.single x then [x.low] else x.list

/-- What the checks of R418 give for each access of a firing. -/
def checks (o : SlotOp) (st : State) (x : Fire) : List Checked :=
  (accessLanes o x).map fun l =>
    checkAcc st x o.kind (Img.bytes x.f.words o.slot) o.scope (effAddr o x l) (o.acc x (Img.bytes x.f.words o.slot) l)

/-- The instruction's slot is held: a store whose addresses were checked before its data came (07 R143). -/
def slotHeld (o : SlotOp) (x : Fire) : Prop := ∃ h, tget x.f.slots o.slot = some h ∧ h.held = true

/-- The slot instruction has completed: where no lane fires its slot holds a null, and its targets null results; where some do and every
check passes, its slot holds one access per accessing lane, at its effective address, with the store's data taken; a core's misses have
joined walks; nothing else has changed. A store whose slot is held has passed its checks, and takes its data. -/
def fillsSlot (exec : Out) (st : State) (x : Fire) (o : SlotOp) : Prop :=
  let fills (s : State) : Prop :=
    ∃ f e, exec = .next (after s x f) ∧ f.fired = x.i :: x.f.fired ∧ f.toks = x.f.toks ∧
      f.wtoks = x.f.wtoks ∧ f.flags = x.f.flags ∧ f.cmds = x.f.cmds ∧ f.votes = x.f.votes ∧ f.whole = x.f.whole ∧ f.infl = x.f.infl ∧
      keeps x [] f ∧
      tget f.slots o.slot = some e ∧ (∀ k, k ≠ o.slot → tget f.slots k = tget x.f.slots k) ∧
      e.kind = o.kind ∧ e.idx = x.i ∧ e.size = Img.bytes x.f.words o.slot ∧ e.tgts = o.tgts ∧ e.fired = x.lanes ∧ e.done = false ∧
      e.issued = false ∧ e.held = false ∧ e.op = o.op ∧ e.ord = o.ord ∧ e.scope = o.scope ∧
      e.accs.map (fun a => (a.lane, (a.addr : Int), a.data)) = (accessLanes o x).map (fun l => (l, effAddr o x l, x.bv l))
  (x.any = false →
    ∃ f e, exec = .next (after st x f) ∧ f.fired = x.i :: x.f.fired ∧ tget f.slots o.slot = some e ∧ e.kind = .null ∧ e.idx = x.i ∧
      (Img.bytes x.f.words o.slot ≠ 16 → ∀ y ∈ o.tgts, ∃ t : Token, t.valid = 0 ∧ lands f x.i y t)) ∧
  (x.any = true → ¬ slotHeld o x → (∀ c ∈ checks o st x, c.bad = none ∧ c.xf = none) → fills (walkMisses st x.w (checks o st x))) ∧
  (x.any = true → slotHeld o x → (∀ l ∈ accessLanes o x, 0 ≤ effAddr o x l ∧ effAddr o x l < 2 ^ 64) → fills st)

/-- A store whose data or guard waits for the result of its block's atomic has its addresses checked as soon as its address has come: its slot
is held, it has not fired, and misses have joined walks (07 R142, R143; log 90). -/
def addressesFirst (exec : Out) (st : State) (g : Guard) (need passes : List Nat) (o : SlotOp) : Prop :=
  ∀ x, ready st g need passes = none → addrReady st g o = some x →
    let cs := o.checks st x (Img.bytes x.f.words o.slot) (if isVec x.a then x.list else x.list.take 1)
    ∃ f e, exec = .next (setWarp (walkMisses st x.w cs) x.wid { x.w with frame := some f }) ∧ f.fired = x.f.fired ∧ f.toks = x.f.toks ∧
      f.wtoks = x.f.wtoks ∧ f.cmds = x.f.cmds ∧ tget f.slots o.slot = some e ∧ e.held = true ∧ e.kind = o.kind ∧
      (∀ k, k ≠ o.slot → tget f.slots k = tget x.f.slots k)

end Sys2Proof.Spec

/-- Loads, stores, stepped stores and atomics fire into their memory-order slots (R417, R418, R421 to R426). -/
def Obligations.SlotInstructionsFillTheirSlots : Prop :=
  ∀ (g : Guard) (slot : BitVec 5) (imm : BitVec 7) (ta tb : Target) (op : AtomOp) (ord : Order) (sc : Scope) (st : State) (x : Fire),
    (ready st g [0] [] = some x →
      fillsSlot (exec (.ldG g slot imm ta) st) st x ⟨.ldG, slot.toNat, imm.toInt, .add, .relaxed, .warp, [ta]⟩ ∧
      fillsSlot (exec (.ldK g slot imm ta) st) st x ⟨.ldK, slot.toNat, imm.toInt, .add, .relaxed, .warp, [ta]⟩ ∧
      fillsSlot (exec (.ldS g slot imm ta) st) st x ⟨.ldS, slot.toNat, imm.toInt, .add, .relaxed, .warp, [ta]⟩) ∧
    (ready st g [0, 1] [1, 2] = some x →
      fillsSlot (exec (.stG g slot imm) st) st x ⟨.stG, slot.toNat, imm.toInt, .add, .relaxed, .warp, []⟩ ∧
      fillsSlot (exec (.stS g slot imm) st) st x ⟨.stS, slot.toNat, imm.toInt, .add, .relaxed, .warp, []⟩) ∧
    (ready st g [0, 1] [1] = some x →
      fillsSlot (exec (.stStep g slot imm) st) st x ⟨.stStep, slot.toNat, imm.toInt, .add, .relaxed, .warp, []⟩ ∧
      fillsSlot (exec (.red g op ord sc slot) st) st x ⟨.red, slot.toNat, 0, op, ord, sc, []⟩) ∧
    (ready st g [0, 1, 2] [1] = some x →
      fillsSlot (exec (.stp g slot imm) st) st x ⟨.stp, slot.toNat, imm.toInt, .add, .relaxed, .warp, []⟩) ∧
    (ready st g [0, 1] [] = some x →
      fillsSlot (exec (.atom g ta tb op ord sc slot) st) st x ⟨.atom, slot.toNat, 0, op, ord, sc, [ta, tb]⟩ ∧
      fillsSlot (exec (.atomS g ta tb op ord sc slot) st) st x ⟨.atomS, slot.toNat, 0, op, ord, sc, [ta, tb]⟩) ∧
    (ready st g [0, 1, 2] [] = some x →
      fillsSlot (exec (.cas g ta tb ord sc slot) st) st x ⟨.cas, slot.toNat, 0, .exch, ord, sc, [ta, tb]⟩) ∧
    addressesFirst (exec (.stG g slot imm) st) st g [0, 1] [1, 2] ⟨.stG, slot.toNat, imm.toInt, .add, .relaxed, .warp, []⟩ ∧
    addressesFirst (exec (.stS g slot imm) st) st g [0, 1] [1, 2] ⟨.stS, slot.toNat, imm.toInt, .add, .relaxed, .warp, []⟩ ∧
    addressesFirst (exec (.stStep g slot imm) st) st g [0, 1] [1] ⟨.stStep, slot.toNat, imm.toInt, .add, .relaxed, .warp, []⟩ ∧
    addressesFirst (exec (.stp g slot imm) st) st g [0, 1, 2] [1] ⟨.stp, slot.toNat, imm.toInt, .add, .relaxed, .warp, []⟩ ∧
    addressesFirst (exec (.red g op ord sc slot) st) st g [0, 1] [1] ⟨.red, slot.toNat, 0, op, ord, sc, []⟩

namespace Sys2Proof.Spec
open Sys2Proof Sys2Proof.Machine

/-- What the first checks of R418 find in a slot instruction's accesses, whatever their number and size (R417): an address outside 52 bits is
ADDR_FORM (global forms only); without one, an address that is not a multiple of the access size is MISALIGN; and, in scratchpad, without
either, an access outside the group's share is SPAD_RANGE. The lowest such lane's address is the detail; the cause is in the frame and no
token is sent. A misaligned access to a stepped region is left out: the model takes it as REGION_ACCESS (10 R209; log 103). -/
def addressFaults (out : Out) (st : State) (x : Fire) (o : SlotOp) : Prop :=
  let n : Nat := Img.bytes x.f.words o.slot
  let ea := effAddr o x
  let formed (l : Nat) : Prop := o.kind.isGlobal = true → 0 ≤ ea l ∧ ea l < 2 ^ 52
  let aligned (l : Nat) : Prop := ea l % (n : Int) = 0
  let shared (l : Nat) : Prop := 0 ≤ ea l ∧ inShare (x.group st) (o.acc x n l).addr n = true
  let plain : Prop := o.kind.isGlobal = false → ∀ l ∈ accessLanes o x, steppedTouched (x.group st) (o.acc x n l).addr n = false
  let faults (code l : Nat) : Prop := ∃ f, out = .next (after (walkMisses st x.w (checks o st x)) x f) ∧
    f.fired = x.i :: x.f.fired ∧ f.toks = x.f.toks ∧ f.wtoks = x.f.wtoks ∧ f.cmds = x.f.cmds ∧ f.votes = x.f.votes ∧
    finds f x.i code (BitVec.ofInt 64 (ea l))
  let lowest (p : Nat → Prop) (l : Nat) : Prop := l ∈ accessLanes o x ∧ p l ∧ ∀ k ∈ accessLanes o x, p k → l ≤ k
  x.any = true → ¬ slotHeld o x → plain → ∀ l,
    (lowest (fun k => ¬ formed k) l → faults 0x82 l) ∧
    ((∀ k ∈ accessLanes o x, formed k) → lowest (fun k => ¬ aligned k) l → faults 0x81 l) ∧
    (o.kind.isGlobal = false → (∀ k ∈ accessLanes o x, aligned k) → lowest (fun k => ¬ shared k) l → faults 0x60 l)

end Sys2Proof.Spec

/-- The address checks of every slot instruction: an address outside 52 bits, a misaligned one and one outside the scratchpad share (R417,
R418, 18 R435). -/
def Obligations.AddressFormAndAlignmentFaults : Prop :=
  ∀ (g : Guard) (slot : BitVec 5) (imm : BitVec 7) (ta tb : Target) (op : AtomOp) (ord : Order) (sc : Scope) (st : State) (x : Fire),
    let mem (k : SlotKind) (ts : List Target) : SlotOp := ⟨k, slot.toNat, imm.toInt, .add, .relaxed, .warp, ts⟩
    (ready st g [0] [] = some x →
      addressFaults (exec (.ldG g slot imm ta) st) st x (mem .ldG [ta]) ∧ addressFaults (exec (.ldK g slot imm ta) st) st x (mem .ldK [ta]) ∧
      addressFaults (exec (.ldS g slot imm ta) st) st x (mem .ldS [ta])) ∧
    (ready st g [0, 1] [1, 2] = some x →
      addressFaults (exec (.stG g slot imm) st) st x (mem .stG []) ∧ addressFaults (exec (.stS g slot imm) st) st x (mem .stS [])) ∧
    (ready st g [0, 1] [1] = some x →
      addressFaults (exec (.stStep g slot imm) st) st x (mem .stStep []) ∧
      addressFaults (exec (.red g op ord sc slot) st) st x ⟨.red, slot.toNat, 0, op, ord, sc, []⟩) ∧
    (ready st g [0, 1, 2] [1] = some x → addressFaults (exec (.stp g slot imm) st) st x (mem .stp [])) ∧
    (ready st g [0, 1] [] = some x →
      addressFaults (exec (.atom g ta tb op ord sc slot) st) st x ⟨.atom, slot.toNat, 0, op, ord, sc, [ta, tb]⟩ ∧
      addressFaults (exec (.atomS g ta tb op ord sc slot) st) st x ⟨.atomS, slot.toNat, 0, op, ord, sc, [ta, tb]⟩) ∧
    (ready st g [0, 1, 2] [] = some x →
      addressFaults (exec (.cas g ta tb ord sc slot) st) st x ⟨.cas, slot.toNat, 0, .exch, ord, sc, [ta, tb]⟩)

/-- prf has no effect; cwb and cinv wait for commit with the S-class parts of their range, pfence with its mask, waitc with its threshold
(R429 to R431, 11 R249). -/
def Obligations.CacheControlCommands : Prop :=
  ∀ (g : Guard) (imm : BitVec 12) (p : ClsP) (cw : ClsCw) (st : State) (x : Fire),
    (ready st g [0] [0, 3] = some x → waitsFor (exec (.prf g p) st) st x []) ∧
    (ready st g [0] [] = some x → waitsFor (exec (.waitc g cw) st) st x [.waitc cw (x.aw x.low)]) ∧
    (ready st g [] [] = some x → waitsFor (exec (.pfence g imm) st) st x
      (if imm.setWidth 5 = (0 : BitVec 5) then [] else [.pfence (imm.setWidth 5)])) ∧
    (ready st g [0, 1] [] = some x →
      let a := (x.av x.low).toNat
      let b := (x.bv x.low).toNat
      let m := maintSegs st x (b / 65536 + 2) a (a + b)
      let u := if x.any then m.2 else st
      (x.any = true → a < 2 ^ 52 ∧ a + b ≤ 2 ^ 52 ∧ linkDown st (dieOf x.w.core) = false ∧ m.1.causes = [] ∧ m.1.cut = false ∧ m.1.lost = none) →
      maintWaits st x = false → waitsFor (exec (.cwb g) st) u x [.cwb m.1.segs] ∧ waitsFor (exec (.cinv g) st) u x [.cinv m.1.segs])

/-! ### Regions, steps, barriers, copies (10, 11) -/

/-- rgn.def, rgn.free, step and step.q wait for commit where their checks pass; rgn.stat and step.q deliver the region's state (10 R216 to
R220). -/
def Obligations.RegionInstructions : Prop :=
  ∀ (g : Guard) (rule : RRule) (kind : RKind) (num : BitVec 3) (ta tb : Target) (st : State) (x : Fire),
    (ready st g [0, 1, 2] [] = some x →
      (x.any = true → rgnDefBad (x.group st) num.toNat kind (x.aw x.low) (x.bw x.low) (x.cw x.low) = none) →
      waitsFor (exec (.rgnDef g rule kind num) st) st x [.rgnDef num.toNat kind rule (x.aw x.low) (x.bw x.low) (x.cw x.low)]) ∧
    (ready st g [0] [] = some x →
      let n := (x.aw x.low).toNat
      let r := getRegion (x.group st) n
      ((x.any = true → n < 8 ∧ r.active = true ∧ Nat.testBit (Img.rgnw x.f.words) n = true) →
        waitsFor (exec (.rgnFree g) st) st x [.rgnFree n r.gen]) ∧
      ((x.any = true → n < 8 ∧ r.active = true ∧ r.stepped = true ∧ Nat.testBit (Img.rgnw x.f.words) n = true) →
        waitsFor (exec (.step g) st) st x [.step n r.gen] ∧
        ∃ f, exec (.stepQ g ta tb) st = .next (after st x f) ∧ f.fired = x.i :: x.f.fired ∧
          (∀ y ∈ [ta, tb], lands f x.i y (x.scalRes false (w64 r.k))) ∧ (x.any = true → (x.i, .stepQ n r.gen) ∈ f.cmds)) ∧
      ((x.any = true → n < 8 ∧ Nat.testBit (Img.rgnr x.f.words) n = true) →
        gives (exec (.rgnStat g ta tb) st) st x [ta, tb] (x.scalRes true (rgnStatus r)) 0))

/-- The barrier instructions without a result wait for commit where the cell is found and their counts are in range (11 R241 to R246);
bar.test answers with ready in bit 0, the phase in bits 7 to 4, live in bit 8 and the error flag in bit 9, bar.stat with words 4 and 5 of
the cell (R244, R245). -/
def Obligations.BarrierInstructions : Prop :=
  (∀ (g : Guard) (sc : Scope) (st : State) (x : Fire),
    let cell := x.av x.low
    let n := x.bw x.low
    let found (a : Acc) : Prop := x.any = true → cellWaits st x cell = false ∧ ∃ at_, checkCell st x cell a = ⟨some at_, [], st⟩
    (ready st g [0, 1] [] = some x →
      (found accAtomic → (x.any = true → n.toNat ≤ 0xFFFFFF ∧ scopeFits cell sc = true) →
        waitsFor (exec (.barInit g sc) st) st x [.barInit cell n sc]) ∧
      (found accAtomic → (x.any = true → n ≠ 0 ∧ n.toNat ≤ 0xFFFFFF) → waitsFor (exec (.barArv g) st) st x [.barArv cell n]) ∧
      (found accAtomic → (x.any = true → n.toNat ≤ 0xFFFFFF) → waitsFor (exec (.barExp g) st) st x [.barExp cell n]) ∧
      (found accRead → waitsFor (exec (.barWait g) st) st x [.barWait cell (n.setWidth 4)])) ∧
    (ready st g [0] [] = some x → found accAtomic → waitsFor (exec (.barInv g) st) st x [.barInv cell])) ∧
  (∀ (g : Guard) (ta tb : Target) (st : State) (x : Fire) (at_ : CellAt),
    ready st g [0, 1] [] = some x → x.any = true → cellWaits st x (x.av x.low) = false → cellCut st at_ = false →
    cellPoisoned st at_ = false →
    let c := readCell st at_
    let u := touchCell st x.w.ctx at_
    (checkCell st x (x.av x.low) accRead = ⟨some at_, [], st⟩ →
      ∃ f, exec (.barTest g ta tb) st = .next (after u x f) ∧ f.fired = x.i :: x.f.fired ∧
        (∀ y ∈ [ta, tb], lands f x.i y (Token.scal false true (BitVec.ofNat 64
          ((if c.live = false ∨ c.phase ≠ (x.bw x.low).toNat % 16 then 1 else 0) + c.phase * 16 + (if c.live then 256 else 0) +
            (if c.err then 512 else 0))) (decide (x.pois ≠ 0)))) ∧
        (c.live = true → c.phase ≠ (x.bw x.low).toNat % 16 → (x.i, .acquire c.scope) ∈ f.cmds)) ∧
    (checkCell st x (x.av x.low) accRead = ⟨some at_, [], st⟩ → x.bw x.low = 0 →
      ∃ f, exec (.barStat g ta tb) st = .next (after u x f) ∧ f.fired = x.i :: x.f.fired ∧ f.cmds = x.f.cmds ∧
        (∀ y ∈ [ta, tb], lands f x.i y (Token.scal true true (c.count ++ c.word4) (decide (x.pois ≠ 0))))) ∧
    (checkCell st x (x.av x.low) accAtomic = ⟨some at_, [], st⟩ → x.bw x.low = 1 →
      ∃ f, exec (.barStat g ta tb) st = .next (after u x f) ∧ f.fired = x.i :: x.f.fired ∧
        (x.i, .barClear (x.av x.low) c.word4) ∈ f.cmds ∧
        (∀ y ∈ [ta, tb], lands f x.i y (Token.scal true true (c.count ++ c.word4) (decide (x.pois ≠ 0))))))

/-- A copy instruction reads its descriptor on the K path, and where it is well formed and its cell is found the copy waits for commit with
the descriptor as read (11 R236). -/
def Obligations.CopyInstructions : Prop :=
  ∀ (g : Guard) (op : ClsCr) (st u : State) (x : Fire) (ws : List Word), ready st g [0, 1] [] = some x →
    let started (o : Out) (k : CopyKind) : Prop :=
      (x.any = false → waitsFor o st x []) ∧
      (x.any = true → descWaits st x.w.core x.w.ctx (x.av x.low) = false → fetchDesc st x.w (x.av x.low) = (.ok ws false, u) →
        descOk k ws = true →
        (x.bv x.low = 0 ∨ cellWaits st x (x.bv x.low) = false ∧ ∃ at_, checkCell u x (x.bv x.low) accAtomic = ⟨some at_, [], u⟩ ∧ scopeBad u (x.bv x.low) at_ = false) →
        ∃ f, o = .next (after u x f) ∧ f.fired = x.i :: x.f.fired ∧ f.toks = x.f.toks ∧
          (x.i, .copy k (x.av x.low).toNat ws (x.bv x.low)) ∈ f.cmds)
    started (exec (.cpG2s g) st) .g2s ∧ started (exec (.cpS2g g) st) .s2g ∧ started (exec (.cpG2g g) st) .g2g ∧
    started (exec (.cpGth g) st) .gth ∧ started (exec (.cpSct g) st) .sct ∧ started (exec (.cpWin g) st) .win ∧
    started (exec (.cpRed g op) st) (.red op)

/-! ### Graph, system and queue instructions (13 R301 to R309; 15 R371 to R378; 07 R155; 06 R125 to R127; 04 R87, R89) -/

/-- A graph instruction whose partition is one of 0 to 3 that the block declares, whose operands are in range and whose cell is found
waits for commit; gstat delivers its word at once. -/
def Obligations.GraphInstructions : Prop :=
  ∀ (g : Guard) (ta tb : Target) (st : State) (x : Fire),
    let p := (x.aw x.low).toNat
    let own : Prop := x.any = true → p < 4 ∧ Nat.testBit (Img.gparts x.f.words) p = true
    let cell (b : DWord) : Prop := x.any = true → b = 0 ∨ cellWaits st x b = false ∧ ∃ at_, checkCell st x b accAtomic = ⟨some at_, [], st⟩
    own →
    (ready st g [0, 1, 2] [] = some x →
      (cell (x.cv x.low) → (x.any = true → (x.bv x.low).toNat % 64 = 0) →
        waitsFor (exec (.gload g) st) st x [.graph p (.gload (x.bv x.low)) (x.cv x.low)]) ∧
      ((x.any = true → (x.bw x.low).toNat ≤ 15) →
        waitsFor (exec (.garg g) st) st x [.graph p (.garg (x.bw x.low).toNat (x.cv x.low)) 0]) ∧
      (cell (x.cv x.low) → (x.any = true → shapeBad (x.bw x.low) = false) →
        waitsFor (exec (.galloc g) st) st x [.graph p (.galloc (x.bw x.low)) (x.cv x.low)])) ∧
    (ready st g [0, 1] [] = some x →
      (cell (x.bv x.low) → waitsFor (exec (.grun g) st) st x [.graph p .grun (x.bv x.low)] ∧
        waitsFor (exec (.grel g) st) st x [.graph p .grel (x.bv x.low)] ∧
        waitsFor (exec (.gfree g) st) st x [.graph p .gfree (x.bv x.low)]) ∧
      ((x.any = true → (x.bw x.low).toNat ≤ 67) →
        gives (exec (.gstat g ta tb) st) st x [ta, tb] (x.scalRes true (gstatValue st x.w.ctx p (x.bw x.low).toNat)) 0)) ∧
    (ready st g [0] [] = some x → waitsFor (exec (.gdrain g) st) st x [.graph p .gdrain 0])

/-- System, group and queue instructions: those whose effect comes at commit wait for it, rdsr, clk and spop deliver at once. -/
def Obligations.SystemInstructions : Prop :=
  ∀ (g : Guard) (imm : BitVec 12) (ta tb : Target) (st : State) (x : Fire),
    (ready st g [] [] = some x →
      waitsFor (exec (.svc g imm) st) st x [.svc imm] ∧ waitsFor (exec (.brk g imm) st) st x [.brk imm] ∧
      waitsFor (exec (.trapret g) st) st x [.trapret] ∧ waitsFor (exec (.gbar g) st) st x [.gbar] ∧
      waitsFor (exec (.nop g) st) st x [] ∧
      gives (exec (.rdsr g imm ta) st) st x [ta] (x.scalRes (imm.toNat == 1 || imm.toNat == 5 || imm.toNat == 6)
        (match imm.toNat with
         | 0 => w64 x.w.ssp | 1 => x.w.splb | 2 => w64 x.w.deadm | 3 => w64 x.w.fpfl | 4 => w64 x.f.fpn | 5 => st.clk
         | 6 => x.w.trapinf | 7 => w64 x.w.fij | 8 => w64 x.f.dbgctl | _ => 0)) 0) ∧
    (ready st g [0] [] = some x →
      waitsFor (exec (.wrsr g imm) st) st x [.wrsr imm.toNat (x.av x.low)] ∧
      waitsFor (exec (.gstop g) st) st x [.gstop (x.aw x.low)] ∧
      waitsFor (exec (.yield g) st) st x [.yield (if (x.aw x.low).toNat ≤ 1048576 then x.aw x.low else 1048576)] ∧
      gives (exec (.clk g ta tb) st) st x [ta, tb] (x.scalRes true st.clk) 0) ∧
    (ready st g [0, 1] [] = some x →
      waitsFor (exec (.spush g) st) st x [.spush (x.aw x.low) (x.bw x.low)] ∧
      waitsFor (exec (.qsig g) st) st x [.qsig (x.aw x.low) (x.bw x.low)]) ∧
    (ready st g [0, 1, 2] [] = some x →
      waitsFor (exec (.launch g) st) st x [.launch (x.aw x.low) (x.bv x.low) (x.cv x.low)]) ∧
    -- the entry on top as it stood at map; bit 31 of a handle that a join entry kept for a scalar register's (02 R29) is the model's (log 87)
    (ready st g [] [] = some x → x.any = true → ∀ h m, x.w.top = some (h, m) →
      x.w.count ≤ 16 → (∀ k, 352 ≤ k → k < 384 → k ∉ x.w.spois) →
      ∃ f, exec (.spop g ta tb) st = .next (after st x f) ∧ f.fired = x.i :: x.f.fired ∧ (x.i, .spop) ∈ f.cmds ∧
        ∀ y ∈ [ta, tb], lands f x.i y (Token.scal true true ((m &&& ~~~x.w.deadm) ++
          (if x.w.isOdd h m then h ||| 0x80000000 else h)))) ∧
    (ready st g [] [] = some x → x.any = true → x.w.top = none →
      ∃ f, exec (.spop g ta tb) st = .next (after st x f) ∧ f.fired = x.i :: x.f.fired ∧ (x.i, .spop) ∈ f.cmds ∧
        ∀ y ∈ [ta, tb], lands f x.i y (Token.scal true false 0)) ∧
    (ready st g [] [] = some x → x.any = false →
      gives (exec (.spop g ta tb) st) st x [ta, tb] (Token.scal true false 0) 0)

/-! ### Matrix instructions (16 R400 to R412) -/

namespace Sys2Proof.Spec
open Sys2Proof Sys2Proof.Machine

/-- The matrix instruction has completed its firing, its checks passed: the registers of the destination window and the commands cs are in
flight, to be delivered by MATRIX_COMPLETE. -/
def matrixFires (o : Out) (st : State) (x : Fire) (ts : List (Target × Token)) (cs : List Cmd) : Prop :=
  inFlight o st x .matrix { Effects.none with toks := ts, cmds := cs }

/-- The operand word's fields and the values of C, A and B as registers give them. -/
def source3 (st : State) (x : Fire) (s : ClsMm) (dn : Nat) (bad : Bool) : List Cause × MSource :=
  plainOperands st x (mshape s) dn (bAddr x.b) bad

end Sys2Proof.Spec

/-- mma, mma.sc, mma.chk, mma.grp, ldm and stm whose operands pass their checks go through the matrix unit: mma with the product of R405 in
the window of its destination register. -/
def Obligations.MatrixInstructionsInFlight : Prop :=
  ∀ (g : Guard) (s : ClsMm) (ld : ClsLd) (ta tb : Target) (st : State) (x : Fire), x.any = true →
    let sh := mshape s
    (ready st g [0] [] = some x → (source3 st x s sh.nCD false).1 = [] →
      matrixFires (exec (.mma g s) st) st x []
        [windowWrites (wbits (x.aw x.low) 31 24) (asWords ((source3 st x s sh.nCD false).2.product sh))]) ∧
    (ready st g [0, 2] [] = some x →
      (wbits (x.cw x.low) 31 16 = 0 → windowFits x.w (wbits (x.cw x.low) 7 0) 1 = true → windowFits x.w (wbits (x.cw x.low) 15 8) 1 = true →
        (source3 st x s sh.nCD false).1 = [] → x.w.vpois = [] →
        ∃ d, d.length = sh.side * sh.side ∧
          matrixFires (exec (.mmaSc g s) st) st x [] [windowWrites (wbits (x.aw x.low) 31 24) d]) ∧
      ((source3 st x s (sh.nCD + 2) false).1 = [] →
        (x.cv x.low = 0 ∨ cellWaits st x (x.cv x.low) = false ∧ ∃ at_, checkCell st x (x.cv x.low) accAtomic = ⟨some at_, [], st⟩) →
        ∃ sums cs, sums.length = 64 ∧ (x.cv x.low = 0 → cs = []) ∧ (x.cv x.low ≠ 0 → ∃ a b c, cs = [.chkStatus (x.cv x.low) a b c]) ∧
          matrixFires (exec (.mmaChk g s) st) st x []
            (windowWrites (wbits (x.aw x.low) 31 24) (asWords ((source3 st x s (sh.nCD + 2) false).2.product sh) ++ sums) :: cs))) ∧
    -- mma.grp with B in registers: its result counts the rows computed and those clipped (R409)
    (ready st g [0, 1] [] = some x → x.c = none → x.w.vpois = [] → wbits (x.bw x.low) 30 24 = 0 →
      windowFits x.w (wbits (x.aw x.low) 31 24) sh.nCD = true → windowFits x.w (wbits (x.aw x.low) 23 16) sh.nCD = true →
      windowFits x.w (wbits (x.aw x.low) 7 0) sh.nAB = true → overlapCause x [(wbits (x.aw x.low) 31 24, sh.nCD)] = [] →
      (∀ e ∈ liveGroups sh (x.bw x.low), windowFits x.w (wbits (x.aw x.low) 15 8 + e.1 * sh.nAB) sh.nAB = true) →
      let b := x.bw x.low
      let total := wbits b 5 0 + wbits b 11 6 + wbits b 17 12 + wbits b 23 18
      let extra := total - sh.side
      let t := Token.scal false true (BitVec.ofNat 64 ((if 0 < extra then 2 ^ 31 else 0) + extra * 256 + min sh.side total)) (decide (x.pois ≠ 0))
      ∃ d, d.length = sh.side * sh.side ∧ matrixFires (exec (.mmaGrp g s ta tb) st) st x [(ta, t), (tb, t)]
        (windowWrites (wbits (x.aw x.low) 31 24) d :: (if 0 < extra ∧ b.getLsbD 31 = true then [.clipped extra] else []))) ∧
    (ready st g [0, 1, 2] [] = some x → x.w.vpois = [] → (x.group st).spois = [] →
      let t := tileOf ld (x.aw x.low)
      let b := (x.bw x.low).toNat
      let stride := (x.cw x.low).toNat
      (tileCauses st x t (x.aw x.low) b stride .matrix = [] → overlapCause x [(t.reg, t.regs)] = [] →
        ∃ ws, matrixFires (exec (.ldm g ld) st) st x [] [windowWrites t.reg ws]) ∧
      (tileCauses st x t (x.aw x.low) b stride .other = [] →
        ∃ bs, matrixFires (exec (.stm g ld) st) st x [] [.stm bs] ∧ ∀ p ∈ bs, ∃ o, o < t.bytes ∧ p.1 = t.addrOf b stride o))

/-- Each element of an .i8 product is C plus the sum of the products of its row and column, wrapped to 32 bits (08 R179, R405). -/
def Obligations.IntegerMatrixElements : Prop :=
  ∀ (row col : List (BitVec 8)) (c : Word), row.length = 32 → col.length = 32 →
    BitVec.ofNat 32 (accOf (mshape .i8m32) (row.map BitVec.toNat) (col.map BitVec.toNat) c.toNat) =
      (row.zip col).foldl (fun v p => v + p.1.signExtend 32 * p.2.signExtend 32) c

/-! ### The management function (14 R323 to R331) -/

namespace Sys2Proof.Spec
open Sys2Proof Sys2Proof.Machine

/-- A command has completed with status 0: its completion is owed to the completion ring (14 R326). -/
def accepted (o : Out) (tag : Word) (code : Nat) (p : State → Prop) : Prop :=
  ∃ t, o = .next t ∧ (tag, code, 0, 0) ∈ t.mgmt.cpl ∧ p t

/-- A command has completed with a status and changed nothing else (14 R327). -/
def declined (o : Out) (s : State) (tag : Word) (code status : Nat) : Prop :=
  o = .next { s with mgmt := { s.mgmt with cpl := s.mgmt.cpl ++ [(tag, code, status, 0)] } }

/-- The context exists in one of these states, with no save or teardown in progress. -/
def ctxIn (s : State) (ctx : BitVec 8) (c : Context) (l : List CtxState) : Prop :=
  s.start.state = .ready ∧ getCtx s ctx.toNat = some c ∧ c.leaving = none ∧ c.state ∈ l

def live : List CtxState := [.ready, .resident, .suspended, .faulted]

end Sys2Proof.Spec

/-- The management registers take writes by their access rules in every start state but failed, in which only START, the identity record and
the mailbox respond (R324, R325, 21 R468); the base registers' low bits are taken as zero (log 43). A write of a register by its offset is
the event of that register, and a write of START with go 1 a request (21 R467). -/
def Obligations.ManagementRegisterWrites : Prop :=
  ∀ (s : State) (v : Word) (d : DWord),
    (s.start.state ≠ .failed →
      (exec (.cmdwrWrite v) s = .next { s with mgmt :=
        if s.mgmt.cmdctl = true ∧ v ≠ s.mgmt.cmdwr ∧ (v - s.mgmt.cmdrd).toNat ≤ 2 ^ s.mgmt.cmdsize.toNat then { s.mgmt with cmdwr := v }
        else { s.mgmt with merr := s.mgmt.merr ||| 1 } }) ∧
      exec (.cmdctlWrite v) s = .next { s with mgmt := { s.mgmt with cmdctl := v.getLsbD 0 } } ∧
      exec (.cplrdWrite v) s = .next { s with mgmt := { s.mgmt with cplrd := v } } ∧
      exec (.evctlWrite v) s = .next { s with mgmt := { s.mgmt with evctl := v.getLsbD 0 } } ∧
      exec (.evrdWrite v) s = .next { s with mgmt := { s.mgmt with evrd := v } } ∧
      exec .evlostClear s = .next { s with mgmt := { s.mgmt with evlost := 0 } } ∧
      exec (.merrClear v) s = .next { s with mgmt := { s.mgmt with merr := s.mgmt.merr &&& ~~~(v.setWidth 2) } } ∧
      exec (.smprdWrite v) s = .next { s with mgmt := { s.mgmt with smprd := v } } ∧
      (s.mgmt.cmdctl = false →
        exec (.registerWrite .bar0 0x001000 d) s = .next { s with mgmt := { s.mgmt with cmdbase := d.extractLsb' 12 52 ++ 0#12 } } ∧
        exec (.registerWrite .bar0 0x001020 d) s = .next { s with mgmt := { s.mgmt with cplbase := d.extractLsb' 12 52 ++ 0#12 } }) ∧
      (s.mgmt.cmdctl = true →
        exec (.registerWrite .bar0 0x001000 d) s = .next { s with mgmt := { s.mgmt with merr := s.mgmt.merr ||| 1 } }) ∧
      (s.mgmt.evctl = false →
        exec (.registerWrite .bar0 0x001040 d) s = .next { s with mgmt := { s.mgmt with evbase := d.extractLsb' 12 52 ++ 0#12 } })) ∧
    (s.start.state = .failed →
      exec (.cmdwrWrite v) s = .next s ∧ exec (.cmdctlWrite v) s = .next s ∧ exec (.evctlWrite v) s = .next s ∧
      exec (.registerWrite .bar0 0x001000 d) s = .next s) ∧
    (exec (.registerWrite .bar0 0x001010 d) s = exec (.cmdwrWrite (lo32 d)) s ∧
      exec (.registerWrite .bar0 0x00100C d) s = exec (.cmdctlWrite (lo32 d)) s ∧
      exec (.registerWrite .bar0 0x001068 d) s = exec (.merrClear (lo32 d)) s ∧
      exec (.registerWrite .bar0 0x000100 d) s =
        (if d.getLsbD 0 then exec (.startRequest (d.getLsbD 1) (d.getLsbD 2)) s else .next s) ∧
      ∀ (ctx : BitVec 8) (q : BitVec 6),
        exec (.registerWrite .bar2 (BitVec.ofNat 24 (ctx.toNat * 65536 + q.toNat * 64 + 0x10)) d) s = exec (.doorbell ctx q (lo32 d)) s) ∧
    -- what the host reads there
    (s.start.state ≠ .failed → bar0Read s 0 = 0x00010000 ∧ bar0Read s 0x1010 = s.mgmt.cmdwr ∧ bar0Read s 0x1014 = s.mgmt.cmdrd) ∧
    bar0Read s 0x100 = BitVec.ofNat 32 (s.start.result.toNat * 2 ^ 24 + s.start.state.code * 2 ^ 16 + s.start.ignored.toNat * 2 ^ 8 +
      s.start.clear.toNat * 4 + s.start.warm.toNat * 2)

/-- The hub takes the entry at CMDRD of an enabled ring that holds one: CMDRD rises by one (R325), and the first completion owed is written
at its place of the completion ring, CPLWR rises by one and vector 257 is raised; without room it waits, with MERR [1] set (R326). A write
that a retraining link holds is made after it (R313); a command that reads memory itself waits for the retraining to end (R315; log 36). -/
def Obligations.CommandAndCompletionRings : Prop :=
  ∀ (s : State),
    (∀ t i, takeCommand s = some (t, i) → t.mgmt.cmdrd = s.mgmt.cmdrd + 1 ∧ s.mgmt.cmdctl = true ∧ s.mgmt.cmdwr ≠ s.mgmt.cmdrd ∧
      s.start.state = .ready ∧ t.mem = s.mem) ∧
    (∀ tag code status res rest, s.start.state = .ready → s.mem.wf = true → s.mgmt.cpl = (tag, code, status, res) :: rest →
      (let a := s.mgmt.cplbase.toNat + 16 * (s.mgmt.cplwr.toNat % 2 ^ s.mgmt.cplsize.toNat)
       (s.mgmt.cplwr - s.mgmt.cplrd).toNat < 2 ^ s.mgmt.cplsize.toNat →
        ∃ t, exec .commandCompletion s = .next t ∧ t.mgmt.cpl = rest ∧ t.mgmt.cplwr = s.mgmt.cplwr + 1 ∧
          sget 0 t.mgmt.msix 257 = sget 0 s.mgmt.msix 257 + 1 ∧
          (hubCan s a 16 = true → spanHeld s a 16 = false → t.mem.bytes a 16 =
            leBytes tag.toNat 4 ++ leBytes (code * 65536 + status) 4 ++ leBytes res.toNat 8) ∧
          ∀ j, j < a ∨ a + 16 ≤ j → t.mem.byte j = s.mem.byte j) ∧
      (2 ^ s.mgmt.cplsize.toNat ≤ (s.mgmt.cplwr - s.mgmt.cplrd).toNat → s.mgmt.merr.getLsbD 1 = false →
        exec .commandCompletion s = .next { s with mgmt := { s.mgmt with merr := s.mgmt.merr ||| 2 } })) ∧
    (∀ (tag : Word) (ctx : BitVec 8) (v : Word) (d e : DWord), s.start.state = .ready → anyHeld s = true →
      let waits (o : Out) (p : Option Nat × Instr) : Prop := o = .next { s with mgmt := { s.mgmt with pending := s.mgmt.pending ++ [p] } }
      waits (exec (.commit tag ctx) s) (some ctx.toNat, .commit tag ctx) ∧
      waits (exec (.segset tag ctx v) s) (some ctx.toNat, .segset tag ctx v) ∧
      waits (exec (.memwb tag ctx d e) s) (none, .memwb tag ctx d e) ∧ waits (exec (.ewset tag ctx d) s) (none, .ewset tag ctx d))

/-- A command is refused by its context's state (R327): one that names a free number, or a context whose state does not allow it, completes
with CTX_STATE (0x09) and changes nothing; behind a save or teardown the first waits and a second completes with CTX_PENDING (0x0A) (03
R61); a module command with a context completes with MGMT_CONF (0x0C). -/
def Obligations.CommandsRefusedByState : Prop :=
  ∀ (s : State) (tag : Word) (ctx : BitVec 8) (a b : Word) (d e : DWord), s.start.state = .ready →
    (getCtx s ctx.toNat = none →
      (anyHeld s = false → declined (exec (.commit tag ctx) s) s tag 2 9 ∧ declined (exec (.segset tag ctx a) s) s tag 7 9) ∧
      declined (exec (.suspend tag ctx) s) s tag 3 9 ∧
      declined (exec (.resume tag ctx) s) s tag 4 9 ∧ declined (exec (.destroy tag ctx) s) s tag 5 9 ∧
      declined (exec (.fpnset tag ctx a) s) s tag 6 9 ∧
      declined (exec (.kill tag ctx a) s) s tag 8 9 ∧ declined (exec (.ctxacct tag ctx d) s) s tag 9 9 ∧
      declined (exec (.tlbinv tag ctx d e a) s) s tag 0x10 9 ∧ declined (exec (.fltdone tag ctx a b) s) s tag 0x11 9 ∧
      declined (exec (.dbgset tag ctx a) s) s tag 0x30 9 ∧ declined (exec (.dbgkill tag ctx a a b b) s) s tag 0x35 9) ∧
    (∀ c, getCtx s ctx.toNat = some c → c.leaving = none →
      (c.state ≠ .building → anyHeld s = false → declined (exec (.commit tag ctx) s) s tag 2 9) ∧
      (c.state ≠ .ready → c.state ≠ .resident → declined (exec (.suspend tag ctx) s) s tag 3 9) ∧
      (c.state ≠ .suspended → declined (exec (.resume tag ctx) s) s tag 4 9) ∧
      (c.state ≠ .free → declined (exec (.create tag ctx d) s) s tag 1 9) ∧
      (c.desc.debug = false → c.state = .ready → declined (exec (.dbgset tag ctx a) s) s tag 0x30 9 ∧
        declined (exec (.dbgstop tag ctx a a a) s) s tag 0x32 9)) ∧
    (∀ c, getCtx s ctx.toNat = some c → c.leaving ≠ none →
      (c.waiting = none → exec (.suspend tag ctx) s = .next (setCtx s ctx.toNat { c with waiting := some (.suspend tag ctx) })) ∧
      (c.waiting ≠ none → declined (exec (.suspend tag ctx) s) s tag 3 0x0A ∧ declined (exec (.fpnset tag ctx a) s) s tag 6 0x0A)) ∧
    (ctx ≠ 0 →
      (anyHeld s = false → declined (exec (.memwb tag ctx d e) s) s tag 0x12 0x0C ∧ declined (exec (.ewset tag ctx d) s) s tag 0x41 0x0C) ∧
      declined (exec (.memsplit tag ctx a) s) s tag 0x13 0x0C ∧
      declined (exec (.linkstat tag ctx a) s) s tag 0x20 0x0C ∧ declined (exec (.peerset tag ctx a b d e) s) s tag 0x21 0x0C ∧
      declined (exec (.smpset tag ctx d a a a b b b) s) s tag 0x40 0x0C ∧
      declined (exec (.ewget tag ctx d) s) s tag 0x42 0x0C ∧ declined (exec (.pwrlim tag ctx a) s) s tag 0x50 0x0C ∧
      declined (exec (.pwrstat tag ctx d) s) s tag 0x51 0x0C)

/-- create, commit, suspend, resume and destroy (03 R56, R57, R60, R61, 06 R119). Of what it states the model's choice are: that a create
with a misaligned descriptor answers MGMT_CONF (log 58), that a descriptor is refused where it cannot be read or is poisoned (log 71),
and that a save size that is no multiple of 64 KiB counts with the checks of R57 (log 106, in descriptorOk). -/
def Obligations.ContextLifeCommands : Prop :=
  ∀ (s : State) (tag : Word) (ctx : BitVec 8) (d : DWord) (c : Context),
    (s.start.state = .ready → getCtx s ctx.toNat = none → d.toNat % 128 = 0 →
      accepted (exec (.create tag ctx d) s) tag 1 fun t => ∃ c', getCtx t ctx.toNat = some c' ∧ c'.state = .building ∧ c'.descAddr = d.toNat ∧
        t.mem = s.mem) ∧
    (s.start.state = .ready → getCtx s ctx.toNat = none → d.toNat % 128 ≠ 0 → declined (exec (.create tag ctx d) s) s tag 1 0x0C) ∧
    (ctxIn s ctx c [.building] → anyHeld s = false →
      let bs := s.mem.bytes c.descAddr 128
      (hubCan s c.descAddr 128 = true → poisonedAt s c.descAddr 128 = false → descriptorOk s bs = true →
        accepted (exec (.commit tag ctx) s) tag 2 fun t => ∃ c', getCtx t ctx.toNat = some c' ∧ c'.state = .ready ∧ c'.desc = descOf bs ∧
          c'.fpn = (if (descOf bs).fpn = 0 then 0x100000 else (descOf bs).fpn) ∧ t.mem = s.mem) ∧
      (descriptorOk s bs = false → declined (exec (.commit tag ctx) s) s tag 2 8)) ∧
    (ctxIn s ctx c [.ready, .resident] →
      ∃ t c', exec (.suspend tag ctx) s = .next t ∧ getCtx t ctx.toNat = some c' ∧ c'.leaving = some .suspend ∧ c'.endTag = some (tag, 3) ∧
        t.mgmt.cpl = s.mgmt.cpl ∧
        -- where no block of it has met a translation fault, whose record comes first (12 R271)
        ((∀ e ∈ s.warps, e.2.ctx = ctx.toNat → ∀ f, e.2.frame = some f → f.xfaults = []) → t.mem = s.mem)) ∧
    (ctxIn s ctx c [.suspended] →
      accepted (exec (.resume tag ctx) s) tag 4 fun t => ∃ c', getCtx t ctx.toNat = some c' ∧ (c'.state = .ready ∨ c'.state = .resident) ∧
        t.mem = s.mem) ∧
    (ctxIn s ctx c [.building, .ready, .resident, .suspended, .faulted] →
      ∃ t c', exec (.destroy tag ctx) s = .next t ∧ getCtx t ctx.toNat = some c' ∧ c'.state = .tornDown ∧ c'.leaving = some .destroy ∧
        c'.endTag = some (tag, 5) ∧ t.mem = s.mem ∧
        ∀ k x, getKernel t k = some x → x.ctx = ctx.toNat → x.state.final = false → x.killed = true ∧ x.state = .draining)

/-- fpnset, segset, kill, ctxacct, tlbinv and fltdone on a context in a state that allows them (06 R119, 05 R93, R100, 18 R455, 12
R263, R268, R272). kill halts the kernel's resident groups. tlbinv leaves no translation of the range in a core TLB that the hub reaches;
it completes at once where nothing is under way through one, and where a block past its irrevocable point uses one it stays under way, the
hub going on with other commands (14 R327), and completes when that has ended. Of what it states the model's choice are: that these
commands act in each of ready, resident, suspended and faulted (log 46), that a segment-table entry that cannot be read is refused by what
log 71 says, and what tlbinv waits for (log 107). -/
def Obligations.ContextWorkCommands : Prop :=
  ∀ (s : State) (tag : Word) (ctx : BitVec 8) (c : Context) (v w : Word) (d e : DWord), ctxIn s ctx c live →
    accepted (exec (.fpnset tag ctx v) s) tag 6 (fun t => t = { setCtx s ctx.toNat { c with fpn := v } with mgmt := t.mgmt }) ∧
    (31 < v.toNat → anyHeld s = false → declined (exec (.segset tag ctx v) s) s tag 7 0x0C) ∧
    (v.toNat ≤ 31 → anyHeld s = false → hubCan s (c.desc.segtab + 16 * v.toNat) 16 = true → poisonedAt s (c.desc.segtab + 16 * v.toNat) 16 = false →
      (let bs := s.mem.bytes (c.desc.segtab + 16 * v.toNat) 16
       (segOk bs = true → accepted (exec (.segset tag ctx v) s) tag 7 fun t => ∃ c', getCtx t ctx.toNat = some c' ∧
          c'.segs = setAt c.segs v.toNat (segOf bs) ∧ (∀ l ∈ t.cache.ic, l.ctx ≠ ctx.toNat) ∧ t.mem = s.mem) ∧
       (segOk bs = false → declined (exec (.segset tag ctx v) s) s tag 7 0x52))) ∧
    (∀ k, getKernel s v.toNat = some k → k.ctx = ctx.toNat → k.state.final = false →
      accepted (exec (.kill tag ctx v) s) tag 8 fun t => (∃ k', getKernel t v.toNat = some k' ∧ k'.killed = true ∧ k'.state = .draining) ∧
        ∀ gid g, getGroup s gid = some g → g.kid = v.toNat → g.haltable = true → ∃ g', getGroup t gid = some g' ∧ g'.state = .halting) ∧
    (getKernel s v.toNat = none → declined (exec (.kill tag ctx v) s) s tag 8 0x54) ∧
    (bufferOk s d 48 = true → accepted (exec (.ctxacct tag ctx d) s) tag 9 fun t =>
      s.mem.wf = true → (hubCan s d.toNat 48 = true → spanHeld s d.toNat 48 = false → t.mem.bytes d.toNat 48 = acctBytes c.acct) ∧
        ∀ j, j < d.toNat ∨ d.toNat + 48 ≤ j → t.mem.byte j = s.mem.byte j) ∧
    ((∀ x ∈ s.warps, x.2.ctx = ctx.toNat → x.2.killDue = 0 ∧ ∀ f, x.2.frame = some f → f.xfaults = []) → anyHeld s = false →
      let idle : Prop := (∀ x ∈ s.warps, x.2.ctx = ctx.toNat → ∀ f, x.2.frame = some f → f.stays = false) ∧
        ∀ j ∈ s.jobs, j.2.ctx = ctx.toNat → ∀ inv ls, j.2.job ≠ .maint inv ls
      (d.toNat % 65536 = 0 → e.toNat % 65536 = 0 → d.toNat + e.toNat ≤ 2 ^ 52 →
        (idle → accepted (exec (.tlbinv tag ctx d e 0) s) tag 0x10 fun t => t.mem = s.mem ∧
          ∀ x ∈ t.tlb.core, x.holder < 256 → x.ctx = ctx.toNat → inRange d.toNat e.toNat x.base x.size = true → linkDown s (x.holder / 64) = true) ∧
        (∀ i x f q y, getWarp s i = some x → x.ctx = ctx.toNat → linkDown s (dieOf x.core) = false → x.core < 256 → x.frame = some f →
          f.stays = true → q ∈ f.slots → q.2.kind.isGlobal = true → y ∈ q.2.accs → y.pa.isSome = true →
          inRange d.toNat e.toNat (y.addr / 65536 * 65536) 65536 = true →
          ∃ t, exec (.tlbinv tag ctx d e 0) s = .next t ∧ t.mgmt.cpl = s.mgmt.cpl ∧ (∃ p ∈ t.mgmt.shoots, p.tag = tag) ∧
            ∀ x ∈ t.tlb.core, x.holder < 256 → x.ctx = ctx.toNat → inRange d.toNat e.toNat x.base x.size = true → linkDown s (x.holder / 64) = true)) ∧
      (idle → accepted (exec (.tlbinv tag ctx d e 1) s) tag 0x10 fun t => t.mem = s.mem ∧
        ∀ x ∈ t.tlb.core, x.holder < 256 → x.ctx = ctx.toNat → x.base < 2 ^ 52 → 0 < x.size → linkDown s (x.holder / 64) = true)) ∧
    (∀ p, s.mgmt.shoots = [p] → s.mgmt.cpl = [] → p.dies = [] → p.over s = true →
      accepted (exec .commandCompletion s) p.tag 0x10 fun t => t.mgmt.shoots = []) ∧
    (1 < w.toNat → declined (exec (.tlbinv tag ctx d e w) s) s tag 0x10 0x0C) ∧
    (d.toNat % 65536 ≠ 0 ∨ e.toNat % 65536 ≠ 0 ∨ 2 ^ 52 < d.toNat + e.toNat → declined (exec (.tlbinv tag ctx d e 0) s) s tag 0x10 0xB6) ∧
    (∀ o, c.openRecs.find? (fun o => decide (o.index = v)) = some o → o.waiters = [] → w.toNat ≤ 1 →
      accepted (exec (.fltdone tag ctx v w) s) tag 0x11 fun t => ∃ c', getCtx t ctx.toNat = some c' ∧ ∀ r ∈ c'.openRecs, r.index ≠ v) ∧
    (c.openRecs.find? (fun o => decide (o.index = v)) = none → declined (exec (.fltdone tag ctx v w) s) s tag 0x11 0xB5)

/-- The module commands with good arguments (14 R325 to R333, 18 R453, R456, 21 R475, 12 R253). Of what it states the model's choice are: that
memsplit empties the caches and removes every poison mark (log 5), that an input buffer that cannot be read is refused (log 58), and the
argument checks that follow from a field's range (log 81). -/
def Obligations.ModuleCommands : Prop :=
  ∀ (s : State) (tag v w : Word) (d e : DWord), s.start.state = .ready →
    (d.toNat % 128 = 0 → e.toNat % 128 = 0 → anyHeld s = false → accepted (exec (.memwb tag 0 d e) s) tag 0x12 fun t =>
      ∀ l ∈ t.cache.l2, ¬ (d.toNat < l.line * 128 + 128 ∧ l.line * 128 < d.toNat + e.toNat)) ∧
    (s.ctxs = [] → v.toNat ≤ 64 → accepted (exec (.memsplit tag 0 v) s) tag 0x13 fun t => t.split = v.toNat ∧ t.mem.cells = s.mem.undefined.cells ∧
      t.cache = ⟨[], [], [], [], [], [], []⟩ ∧ t.poison = []) ∧
    (s.ctxs = [] → 64 < v.toNat → declined (exec (.memsplit tag 0 v) s) s tag 0x13 0x0C) ∧
    (s.ctxs ≠ [] → declined (exec (.memsplit tag 0 v) s) s tag 0x13 9) ∧
    (∀ k : BitVec 2, exec (.linkstat tag 0 (BitVec.ofNat 32 (k.toNat * 256))) s = .next { s with mgmt := { s.mgmt with cpl := s.mgmt.cpl ++
      [(tag, 0x20, 0, BitVec.ofNat 64 (((dieLink s k.toNat).recent s.clk).length * 2 ^ 32 + (dieLink s k.toNat).lanes * 2 ^ 8 +
        (dieLink s k.toNat).state.code))] } }) ∧
    (v.toNat < 8 → wbits w 30 3 = 0 → w.getLsbD 31 = false → d.toNat % 2 ^ 30 = 0 → e.toNat % 2 ^ 30 = 0 → 2 ^ 51 ≤ d.toNat →
      d.toNat + e.toNat ≤ 2 ^ 52 → accepted (exec (.peerset tag 0 v w d e) s) tag 0x21 fun t =>
        t = { s with apertures := setAt s.apertures v.toNat ⟨false, wbits w 2 0, d.toNat, e.toNat⟩, mgmt := t.mgmt }) ∧
    (∀ entries interval scope e0 e1 e2 : Word, d.toNat % 4096 = 0 → entriesOk entries = true → interval ≠ 0 → interval.toNat % 2048 = 0 →
      scopeOk scope = true → (eventList e0 e1 e2).all eventOk = true → inOneWindow s d.toNat (128 * entries.toNat) = true →
      accepted (exec (.smpset tag 0 d entries interval scope e0 e1 e2) s) tag 0x40 fun t =>
        t.samp.on = true ∧ t.samp.base = d.toNat ∧ t.samp.entries = entries.toNat ∧ t.samp.interval = interval.toNat ∧ t.counts = [] ∧
          t.mem = s.mem) ∧
    (bufferOk s d 64 = true → hubCan s d.toNat 64 = true → poisonedAt s d.toNat 64 = false → anyHeld s = false →
      accepted (exec (.ewset tag 0 d) s) tag 0x41 fun t => t = { s with weights := wordsOf (s.mem.bytes d.toNat 64), mgmt := t.mgmt }) ∧
    (bufferOk s d 64 = true → s.weights.length = 16 → s.mem.wf = true → accepted (exec (.ewget tag 0 d) s) tag 0x42 fun t =>
      hubCan s d.toNat 64 = true → spanHeld s d.toNat 64 = false → t.mem.bytes d.toNat 64 = bytesOfWords s.weights) ∧
    (600 ≤ v.toNat → v.toNat ≤ 2600 → accepted (exec (.pwrlim tag 0 v) s) tag 0x50 fun t => t = { s with pwrLimit := v, mgmt := t.mgmt }) ∧
    (v.toNat < 600 ∨ 2600 < v.toNat → declined (exec (.pwrlim tag 0 v) s) s tag 0x50 0x0C) ∧
    (bufferOk s d 64 = true → accepted (exec (.pwrstat tag 0 d) s) tag 0x51 fun t =>
      s.mem.wf = true → ∀ j, j < d.toNat ∨ d.toNat + 64 ≤ j → t.mem.byte j = s.mem.byte j)

/-- The debug commands on a context with debug enable set (18 R442 to R447), each with its effect where it completes and its answer where it
does not: dbgset writes DBGCTL and dbgbp its entry; dbgstop stops the warps it names, at once those that stand at a boundary and at
their commit those past their irrevocable point; dbgresume lets a stopped warp run on in its mode; dbgwarp copies a stopped warp's
record out and in; dbgkill kills lanes at the warp's boundary; dbgtok and dbgnode write the token and the node asked for. That a warp or
partition that is not found, or a warp that does not stand as the command needs it, answers MGMT_CONF is the model's choice (log 57), as are
the states in which these commands act (log 46), that a warp saved is written in its record too (log 9), that a scalar token fills every lane
of dbgtok's record (log 59), and the argument checks that follow from a field's range (log 81). -/
def Obligations.DebugCommands : Prop :=
  ∀ (s : State) (tag : Word) (ctx : BitVec 8) (c : Context) (a b k : Word) (d : DWord), ctxIn s ctx c live → c.desc.debug = true →
    (s.warps.map Prod.fst).Nodup →
    (wbits a 31 5 = 0 → wbits a 3 2 ≠ 3 →
      accepted (exec (.dbgset tag ctx a) s) tag 0x30 fun t =>
        getCtx t ctx.toNat = some { c with dbgctl := a } ∧ t.warps = s.warps ∧ t.mem = s.mem) ∧
    (wbits a 31 5 ≠ 0 ∨ wbits a 3 2 = 3 → declined (exec (.dbgset tag ctx a) s) s tag 0x30 0x0C) ∧
    (a.toNat < 8 → b.getLsbD 31 = false ∨ b = 0xFFFFFFFF →
      accepted (exec (.dbgbp tag ctx a b) s) tag 0x31 fun t => t = { setCtx s ctx.toNat { c with bps := setAt c.bps a.toNat b } with mgmt := t.mgmt }) ∧
    (8 ≤ a.toNat ∨ (b.getLsbD 31 = true ∧ b ≠ 0xFFFFFFFF) → declined (exec (.dbgbp tag ctx a b) s) s tag 0x31 0x0C) ∧
    (let stops (flags : Word) (named : Warp → Bool) : Prop :=
       accepted (exec (.dbgstop tag ctx a b flags) s) tag 0x32 fun t => ∀ i w, getWarp s i = some w → named w = true → w.stopDue = none →
         w.haltDue = false →
         w.killDue = 0 → w.wait ≠ .gbar →
         (w.state = .ready ∨ w.state = .waiting → w.frame = none → stopHeld s w = false →
           getWarp t i = some { w with state := .stopped, mode := .run }) ∧
         (∀ f, w.state = .mapped → w.frame = some f → f.stays = true → getWarp t i = some { w with stopDue := some (.dstop, 0) })
     (∀ flags : Word, wbits flags 31 2 = 0 → flags.getLsbD 0 = true → stops flags fun w => decide (w.ctx = ctx.toNat)) ∧
     (∀ x, getKernel s a.toNat = some x → x.ctx = ctx.toNat →
       stops 2 (fun w => decide (w.ctx = ctx.toNat) && decide (w.kid = a.toNat)) ∧
       ∀ g, findGroup s ctx.toNat a b = some g → stops 0 fun w => decide (w.gid = g))) ∧
    (∀ flags : Word, wbits flags 31 2 ≠ 0 → declined (exec (.dbgstop tag ctx a b flags) s) s tag 0x32 0x0C) ∧
    (findWarp s ctx.toNat a b k = none →
      declined (exec (.dbgresume tag ctx a b k 0) s) s tag 0x33 0x0C ∧ declined (exec (.dbgwarp tag ctx a b k d 0) s) s tag 0x34 0x0C ∧
      declined (exec (.dbgkill tag ctx a b k 1) s) s tag 0x35 0x0C ∧ declined (exec (.dbgtok tag ctx a b k 0 d) s) s tag 0x36 0x0C) ∧
    (∀ i w, findWarp s ctx.toNat a b k = some (i, w) →
      (∀ v m, runMode v = some m → w.state = .stopped → w.wait = .none → w.killDue = 0 → w.stopDue = none → w.redo = none → w.clipDue = [] →
        w.svcDue = [] → w.mask &&& ~~~w.deadm ≠ 0 → (∀ g ∈ s.groups, g.2.arrived = 0) →
        accepted (exec (.dbgresume tag ctx a b k v) s) tag 0x33 fun t =>
          getWarp t i = some { w with mode := m, state := .ready, since := s.clk } ∧ t.mem = s.mem) ∧
      (∀ v : Word, 2 < v.toNat ∨ w.state ≠ .stopped → declined (exec (.dbgresume tag ctx a b k v) s) s tag 0x33 0x0C) ∧
      (let x := ((savedWarp s i w).map Prod.snd).getD w
       let r := warpRecord s x
       (x.state = .stopped → bufferOk s d x.recordLen = true → hubCan s d.toNat x.recordLen = true →
         accepted (exec (.dbgwarp tag ctx a b k d 0) s) tag 0x34 (fun t => getWarp t i = getWarp s i ∧ (s.mem.wf = true →
           writeFault s d.toNat r.length = none → anyHeld s = false →
           t.mem.bytes d.toNat r.length = r.map Prod.fst ∧
           ∀ j, j < d.toNat ∨ d.toNat + r.length ≤ j → t.mem.byte j = s.mem.byte j)) ∧
         accepted (exec (.dbgwarp tag ctx a b k d 1) s) tag 0x34 (fun t =>
           getWarp t i = some (loadWarp (recordIn s d.toNat x.recordLen) x) ∧ (savedWarp s i w = none → t.mem = s.mem))) ∧
       (x.state ≠ .stopped → declined (exec (.dbgwarp tag ctx a b k d 0) s) s tag 0x34 0x0C)) ∧
      (∀ lanes : Word,
        (w.state = .mapped → accepted (exec (.dbgkill tag ctx a b k lanes) s) tag 0x35 fun t =>
          getWarp t i = some { w with killDue := w.killDue ||| lanes }) ∧
        (w.state ≠ .mapped → w.killDue = 0 → lanes ≠ 0 → warpSaved s w = false → w.stopDue = none → w.redo = none → w.clipDue = [] →
          w.svcDue = [] → w.mask &&& ~~~(w.deadm ||| lanes) ≠ 0 → (∀ g ∈ s.groups, g.2.arrived = 0) →
          accepted (exec (.dbgkill tag ctx a b k lanes) s) tag 0x35 fun t => ∃ x, getWarp t i = some x ∧ x.deadm = w.deadm ||| lanes ∧
            x.mask = w.mask &&& ~~~(w.deadm ||| lanes) ∧ x.killDue = 0 ∧ x.state = w.state ∧ t.mem = s.mem)) ∧
      (∀ f t (idx : Word), w.frame = some f → producedToken f idx.toNat = some t → w.mode = .serial → bufferOk s d 320 = true →
        accepted (exec (.dbgtok tag ctx a b k idx d) s) tag 0x36 fun u => u.warps = s.warps ∧ (s.mem.wf = true →
          (hubCan s d.toNat 320 = true → writeFault s d.toNat 320 = none → anyHeld s = false →
            u.mem.bytes d.toNat 320 = (tokenRecord t).map Prod.fst) ∧
          ∀ j, j < d.toNat ∨ d.toNat + 320 ≤ j → u.mem.byte j = s.mem.byte j)) ∧
      (w.frame = none → declined (exec (.dbgtok tag ctx a b k 0 d) s) s tag 0x36 0x0C)) ∧
    (∀ p (part pos slot : Word), getPart s (partKey ctx.toNat part.toNat) = some p → part.toNat < 4 → nodePosOk pos = true →
      wbits pos 19 16 < p.h → wbits pos 15 12 < p.w → slot.toNat < 32 → bufferOk s d 32 = true →
      accepted (exec (.dbgnode tag ctx part pos slot d) s) tag 0x37 fun t => s.mem.wf = true →
        (hubCan s d.toNat 32 = true → spanHeld s d.toNat 32 = false → t.mem.bytes d.toNat 32 = nodeBytes p pos.toNat slot.toNat) ∧
        ∀ j, j < d.toNat ∨ d.toNat + 32 ≤ j → t.mem.byte j = s.mem.byte j) ∧
    (∀ part pos slot : Word, getPart s (partKey ctx.toNat part.toNat) = none →
      declined (exec (.dbgnode tag ctx part pos slot d) s) s tag 0x37 0x0C)

/-! ### Encoding (02 R36 to R46; 14 R325, R328) -/

/-- Decoding the words an instruction encodes to gives it back, with what follows untouched; and a management command's ring entry, its
argument words followed by zeros, gives the command back. -/
def Obligations.EncodeRoundTrip : Prop :=
  (∀ (i : Instr) (rest : List Word), i.isIsa = true → i.wellFormed = true → decode (encode i ++ rest) = .ok (i, rest)) ∧
  (∀ (i : Instr) (c : BitVec 8) (t : Word) (a : List Word), encodeCommand i = some (c, t, a) →
    decodeCommand (commandCode i) c t (a ++ List.replicate (14 - a.length) 0) = some i)

/-- Words that the spec writes out for its examples decode to the instructions they stand for, one or two of each format. -/
def Obligations.DecodedWords : Prop :=
  -- I: opcode 0x020, guard none, immediate -1, target operand a of instruction 5 (15)
  decode [0b000100000_00_111111111111_000000101] = .ok (.addi .always (-1) (.opA 5), []) ∧
  decode [0x300001C0] = .ok (.exit .always 0, []) ∧
  decode [0xD000140B, 0x00011983] = .ok (.mov4 .always .b32 (.opA 10) (.opA 11) (.opB 12) (.write 3), []) ∧
  decode [0xFC246801] = .ok (.genk 0x1234 (.opA 1), []) ∧
  decode [0xFF579B80] = .ok (.appk 0xABCD (.write 0), []) ∧
  decode [0x2A800504] = .ok (.matchKeys .always .b32 (.opA 2) (.opC 4), []) ∧
  decode [0x2C0505FF] = .ok (.lmask .always .below (.opB 2) .none, []) ∧
  decode [0x828001FF] = .ok (.stStep .always 0 0, []) ∧
  decode [0x41860BFF] = .ok (.ffma .always .rz (.opC 5) .none, []) ∧
  decode [0xA803FFFF] = .ok (.cpG2s .always, []) ∧
  decode [0xE023FFFF] = .ok (.launch .onTrue, [])

/-! ### Steps -/

/-- A step lets some cycles pass and makes one move: the one at the head of the agenda, where the firing of an instruction that the words
in the frame decode to is exec of it, an event is exec of the event, and a command that the hub takes from the ring is exec of the
command; with nothing on the agenda, one of the moves due, if any move can be made (the choice is free: log 6, log 7), and else the cycles
pass and nothing more. -/
def Obligations.StepRunsWhatIsDecoded : Prop :=
  ∀ (s : State) (r : List Action),
    (∀ w i x f c, s.agenda = .fire w i :: r → getWarp s w = some x → x.frame = some f → Img.instr f.words i = some c →
      step s = exec c { pass { s with agenda := r } with cur := (w, i) }) ∧
    (∀ e, s.agenda = .event e :: r → step s = exec e (pass { s with agenda := r })) ∧
    (∀ t c, s.agenda = .take :: r → takeCommand (pass { s with agenda := r }) = some (t, some c) → step s = exec c t) ∧
    (s.agenda = [] →
      ((∃ a ∈ moves (pass s), ∃ u, perform a (pass s) = .next u) →
        ∃ a ∈ dueMoves (pass s), ∃ t, perform a (pass s) = .next t ∧ step s = .next t) ∧
      ((∀ a ∈ moves (pass s), ∀ u, perform a (pass s) ≠ .next u) → step s = .next (pass s)))

/-! ### Invariants -/

namespace Sys2Proof.Spec
open Sys2Proof Sys2Proof.Machine

/-- A warp's register contents have their canonical form: keys rising, no entry zero. -/
def tidy (w : Warp) : Prop := swf 0 w.v = true ∧ swf 0 w.s = true ∧ swf 0 w.p = true

/-- Predicate register p0 reads all ones and its storage is empty (02 R34). -/
def p0Fixed (w : Warp) : Prop := preg w 0 = ones32 ∧ sget 0 w.p 0 = 0

def RegistersTidy (s : State) : Prop := ∀ e ∈ s.warps, tidy e.2 ∧ p0Fixed e.2

end Sys2Proof.Spec

/-- Every step keeps memory's canonical form: its listed addresses rise, and none holds what an unlisted address reads as. -/
def Obligations.StepKeepsMemoryForm : Prop := ∀ s t : State, s.Inv → step s = .next t → t.Inv

/-- Every step keeps the canonical form of every warp's registers, and p0 as R34 has it. -/
def Obligations.StepKeepsRegisterForm : Prop := ∀ s t : State, RegistersTidy s → step s = .next t → RegistersTidy t

/-- The invariants hold at reset. -/
def Obligations.ResetKeepsInvariants : Prop := State.reset.Inv ∧ RegistersTidy State.reset

/-- At power-on the module is off (21 R468) with every context free and no ring enabled; when a cold start's clearing is done it is ready,
memory split 64, CLK 0 and the calibration weights are set, and device memory reads zero with its poison marks removed (R468, R469). That
split, CLK and weights are set at the end of clearing is the model's choice (log 79: R469 does not say when, and 06 R128 counts CLK since the
cold start), and so is that memory reads zero at power-on (log 3). -/
def Obligations.ResetAndColdStartValues : Prop :=
  (State.reset.start.state = .off ∧ (∀ c, getCtx State.reset c = none) ∧ State.reset.mgmt.cmdctl = false ∧ State.reset.mgmt.evctl = false ∧
    ∀ a, State.reset.mem.byte a = 0) ∧
  (∀ s : State, s.start.state = .clearing → s.start.warm = false → s.mgmt.evctl = false →
    ∃ t, exec (.clearingDone true) s = .next t ∧ t.start.state = .ready ∧ t.start.result = 0 ∧ t.split = 64 ∧ t.clk = 0 ∧
      (∀ a < 2 ^ 51, t.mem.byte a = 0) ∧ (∀ k ∈ t.poison, 2 ^ 46 ≤ k) ∧ t.weights = (List.range 16).map Config.calibration ∧ t.ctxs = s.ctxs)

/-! ### Frames and commits (07 R130, R137, R146) -/

namespace Sys2Proof.Spec
open Sys2Proof Sys2Proof.Machine

/-- The instructions that read memory as they fire: the range of cwb and cinv is translated then, a copy's descriptor read, and the cell of
bar.test and bar.stat. -/
def readsNow : Instr → Bool
  | .barTest .. | .barStat .. | .cwb .. | .cinv .. | .cpG2s .. | .cpS2g .. | .cpG2g .. | .cpGth .. | .cpSct .. | .cpWin .. | .cpRed .. => true
  | _ => false

end Sys2Proof.Spec

/-- What firing leaves alone (07 R130, R146): whatever an instruction of the block instruction set does when it fires, every register, flag,
special register and barrier, every byte of memory and of scratchpad, every job and every partition is as before, until commit, but for
bytes that rested dirty in a die L2 and an access of its own may have written back, and but for its own context's warps where it faults the
context. An instruction that reads no memory as it fires, with no page table out of reach (14 R318), changes its own warp's frame, the
walks in progress, the counts of events and the energy its context is charged with (18 R456), and nothing else. -/
def Obligations.FiringFrame : Prop :=
  ∀ (i : Instr) (st t : State) (w : Warp), i.isIsa = true → exec i st = .next t → getWarp st st.cur.1 = some w →
    ((∀ va a, hubXlate st w.ctx va a ≠ .cut) → Spec.readsNow i = false →
      ∃ f tlb counts ctxs, t = { setWarp st st.cur.1 { w with frame := some f } with tlb := tlb, counts := counts, ctxs := ctxs } ∧
        tlb.core = st.tlb.core ∧ tlb.die = st.tlb.die ∧ tlb.walkc = st.tlb.walkc ∧
        (ctxs = st.ctxs ∨ ∃ e, ctxs = (modCtx st w.ctx fun c => c.spend e).ctxs)) ∧
    (memKept st t ∧ (Spec.readsNow i = false → t.poison = st.poison) ∧ t.jobs = st.jobs ∧ t.parts = st.parts ∧ t.kernels = st.kernels ∧ t.mgmt = st.mgmt ∧
      t.clk = st.clk ∧ (∀ k x, getWarp st k = some x → x.ctx ≠ w.ctx → getWarp t k = some x) ∧
      (∀ gid g, getGroup st gid = some g → ∃ g', getGroup t gid = some g' ∧ g'.spad = g.spad ∧ g'.regions = g.regions) ∧
      ∃ w', getWarp t st.cur.1 = some w' ∧ w'.v = w.v ∧ w'.s = w.s ∧ w'.p = w.p ∧ w'.ssp = w.ssp ∧ w'.splb = w.splb ∧ w'.deadm = w.deadm ∧
        w'.fpfl = w.fpfl ∧ w'.trapinf = w.trapinf ∧ w'.fij = w.fij)

namespace Sys2Proof.Spec
open Sys2Proof Sys2Proof.Machine

/-- A block stands at its end without a cause of flush, what its release waits for has performed, and no store of it is held behind a link. -/
def ends (s : State) (wid : Nat) (w : Warp) (f : Frame) : Prop :=
  getWarp s wid = some w ∧ w.frame = some f ∧ w.state = .mapped ∧ f.xfaults = [] ∧ f.quiet = true ∧ quietCause s w f = none ∧
  earlierDone s wid s.uid (Img.rel f.words) = true ∧ f.stage = 0 ∧ storesHeld s w f = false

/-- The same, with no red that takes several moves to combine its lanes (17 R428), and no rgn.free or step.q (10 R211, R220). -/
def commits (s : State) (wid : Nat) (w : Warp) (f : Frame) : Prop :=
  ends s wid w f ∧ (redsLeft f false).length ≤ 1 ∧ redsLeft f true = [] ∧ ∀ c ∈ f.cmds, isRgnFree c.2 = false

/-- The tokens gathered for write slot k that are valid in lane l of the entry mask. -/
def landing (f : Frame) (k l : Nat) : List Token :=
  (((f.wtoks.filter fun e => e.1 = k).map fun e => e.2.2).filter fun t => !t.null).filter fun t => t.valid.getLsbD l && f.entry.getLsbD l

/-- The tokens gathered for write slot k that are valid: a scalar's. -/
def scalarLanding (f : Frame) (k : Nat) : List Token :=
  (((f.wtoks.filter fun e => e.1 = k).map fun e => e.2.2).filter fun t => !t.null).filter fun t => t.valid ≠ 0

/-- No write slot but k can write register r: none names it, nor the register below it. -/
def onlySlot (f : Frame) (k r : Nat) : Prop :=
  ∀ j, j < Img.nwrites f.words → j ≠ k → Img.writeId f.words j ≠ r ∧ Img.writeId f.words j + 1 ≠ r

/-- The debugger does not act on the block: debug is off for its context, it runs, and no warp is to stop. -/
def undebugged (s : State) (w : Warp) : Prop :=
  w.mode = .run ∧ (∀ c, getCtx s w.ctx = some c → c.desc.debug = false) ∧ ∀ e ∈ s.warps, e.2.stopDue = none

/-- A byte of the word of a dump area that counts the faults not dumped (18 R449). -/
def lostCount (s : State) (j : Nat) : Prop := ∃ c ∈ s.ctxs, c.2.desc.policy = .dump ∧ c.2.desc.dumpbase + 8 ≤ j ∧ j < c.2.desc.dumpbase + 12

/-- The same, and nothing but step 5 changes what the warp runs next: no kill, halt or trap is due, none is active, and neither its group nor
its context is leaving the cores. -/
def atRest (s : State) (w : Warp) : Prop :=
  undebugged s w ∧ w.killDue = 0 ∧ w.haltDue = false ∧ w.trap = none ∧ w.redo = none ∧ w.clipDue = [] ∧ w.svcDue = [] ∧
  groupStopped s w.gid = false ∧ trapHeld s w = false

/-- Two warps hold the same scalar registers, split stack and dead lanes. -/
def sameStack (a b : Warp) : Prop := a.s = b.s ∧ a.ssp = b.ssp ∧ a.deadm = b.deadm

/-- What write slots leave in a warp's registers (07 R137, 02 R34): each lane of a vector or predicate register, and a scalar register, takes
the value of the one valid producer that a slot naming it has, the pair's second register the high word of a 64-bit value; where there is
none it keeps its value, as a register does that no slot names. -/
def slotsLand (w w' : Warp) (f : Frame) : Prop :=
  (∀ k l, k < Img.nwrites f.words → l < 32 → gathered f (imageSent f.words) k = true →
    let r := Img.writeId f.words k
    (r < 256 → onlySlot f k r →
      (∀ t, landing f k l = [t] → vreg w' r l = lo32 (t.at l)) ∧
      ((∀ t, landing f k l ≠ [t]) → vreg w' r l = vreg w r l) ∧
      (r < 255 → onlySlot f k (r + 1) →
        (∀ t, landing f k l = [t] → vreg w' (r + 1) l = if t.wide = true then hi32 (t.at l) else vreg w (r + 1) l) ∧
        ((∀ t, landing f k l ≠ [t]) → vreg w' (r + 1) l = vreg w (r + 1) l))) ∧
    (256 ≤ r → r < 0x280 → onlySlot f k r →
      (∀ t, scalarLanding f k = [t] → sreg w' (r - 256) = lo32 (t.at 0)) ∧
      ((∀ t, scalarLanding f k ≠ [t]) → sreg w' (r - 256) = sreg w (r - 256)) ∧
      (onlySlot f k (r + 1) →
        (∀ t, scalarLanding f k = [t] → sreg w' (r - 255) = if t.wide = true then hi32 (t.at 0) else sreg w (r - 255)) ∧
        ((∀ t, scalarLanding f k ≠ [t]) → sreg w' (r - 255) = sreg w (r - 255)))) ∧
    (0x280 < r → r < 0x2C0 → onlySlot f k r →
      (∀ t, landing f k l = [t] → (preg w' (r - 0x280)).getLsbD l = (t.at l).getLsbD 0) ∧
      ((∀ t, landing f k l ≠ [t]) → (preg w' (r - 0x280)).getLsbD l = (preg w (r - 0x280)).getLsbD l))) ∧
  (∀ r l, l < 32 → r < 256 → (∀ j < Img.nwrites f.words, Img.writeId f.words j ≠ r ∧ Img.writeId f.words j + 1 ≠ r) → vreg w' r l = vreg w r l) ∧
  (∀ r, (∀ j < Img.nwrites f.words, Img.writeId f.words j ≠ 256 + r ∧ Img.writeId f.words j + 1 ≠ 256 + r) → sreg w' r = sreg w r) ∧
  (∀ r, (∀ j < Img.nwrites f.words, Img.writeId f.words j ≠ 0x280 + r) → preg w' r = preg w r) ∧
  preg w' 0 = ones32

/-- Step 5 where several exits are taken and the window has room for them (07 R150): the lanes that end leave the entries in the window;
above them stand the JOIN entry, with the lanes of every live exit, and the pending exits, the highest lowest; the lowest is entered.
With one exit, and nothing on the stack, that is entered. -/
def stepFiveSplits (x : Warp) (r : Redo) : Prop :=
  ∀ dead h m rest, splitVotes x r = (dead, (h, m) :: rest) → x.oddPend = [] → (∀ e ∈ (h, m) :: rest, e.1.getLsbD 31 = false) →
    (rest = [] → x.count = 0 → x.spilled = 0 → ∃ y, x.stepFive r = .enter y h m ∧ y.s = x.s ∧ y.ssp = x.ssp ∧ y.deadm = x.deadm ||| dead) ∧
    (rest ≠ [] → x.count + rest.length + 1 ≤ 16 → h ≠ r.join &&& 0x7FFFFFFF →
      ∃ y, x.stepFive r = .enter y h m ∧ y.count = x.count + rest.length + 1 ∧ y.spilled = x.spilled ∧ y.deadm = x.deadm ||| dead ∧
        (∀ k, k < x.count → y.winHandle k = x.winHandle k ∧ y.winMask k = x.winMask k &&& ~~~dead) ∧
        y.winHandle x.count = r.join ||| 0x80000000 ∧ y.winMask x.count = rest.foldl (fun u e => u ||| e.2) m ∧
        ∀ j, ∀ (hj : j < rest.length), y.winHandle (x.count + rest.length - j) = rest[j].1 ∧ y.winMask (x.count + rest.length - j) = rest[j].2) ∧
    (rest ≠ [] → 16 < x.count + rest.length + 1 → x.stepFive r = .trap .splitSpill)

end Sys2Proof.Spec

/-- A block without commands commits (07 R137, R146): its write slots land in the warp's registers; FPFL gathers its flags, s6 takes the join
handle where a call exit is taken (05 R103), and FIJ but for an injection it consumes, SPLB, and DEADM, SSP, TRAPINF but for what step 5
does, are kept. Where nothing else is due, the warp then holds what step 5 (R150) leaves in the split stack and DEADM: it enters the
block chosen, has ended, or takes the split trap with its redo (R153, 18 R436, R437). -/
def Obligations.CommitLandsWriteSlots : Prop :=
  ∀ (s : State) (wid : Nat) (w : Warp) (f : Frame), commits s wid w f → f.cmds = [] → tidy w →
    let w' := landAll w f
    let wc := if callTaken f = true then landS w' 6 (Img.word f.words 1) false else w'
    let r := redoOf f (exitTargets f.handle w' wc f.words)
    slotsLand w w' f ∧ w'.deadm = w.deadm ∧ w'.splb = w.splb ∧ w'.trapinf = w.trapinf ∧ w'.ssp = w.ssp ∧
    w'.fpfl = w.fpfl ||| BitVec.ofNat 32 (f.flags.toNat % 64) ∧ (fijConsumed w f = false → w'.fij = w.fij) ∧
    (callTaken f = true → sreg wc 6 = Img.word f.words 1) ∧ (∀ q, q ≠ 6 → sreg wc q = sreg w' q) ∧ stepFiveSplits wc r ∧
    ∃ t w'', exec (.blockCommit wid) s = .next t ∧ getWarp t wid = some w'' ∧ w''.v = w'.v ∧ w''.p = w'.p ∧ w''.fpfl = w'.fpfl ∧
      w''.splb = w.splb ∧ w''.fij = w'.fij ∧ (∀ q < 352, sreg w'' q = sreg wc q) ∧
      (Img.trap f.words = false → atRest s w →
        (∀ x h m, wc.stepFive r = .enter x h m → m &&& ~~~x.deadm ≠ 0 →
          sameStack w'' x ∧ w''.trapinf = w.trapinf ∧ w''.handle = h ∧ w''.mask = m ∧ w''.frame = none ∧ w''.trap = none) ∧
        (∀ x, wc.stepFive r = .ended x → sameStack w'' x ∧ w''.trapinf = w.trapinf ∧ w''.state = .ended) ∧
        (∀ c, wc.stepFive r = .trap c → w.mask &&& ~~~w.deadm ≠ 0 →
          sameStack w'' (wc.endedFor c r) ∧ w''.trapinf = trapInfo c.num 0 w.handle ∧ w''.redo = some r ∧
            w''.trap = some ⟨c, w.handle, w.mask, false⟩))

/-- A block whose stores are released at commit writes memory only where its stores and reds lie: for every store of its slots, of
e.size bytes at the physical address its translation gave, every address outside reads as before, and so all of memory where no slot
holds one, but for bytes that rested dirty in a die L2 and are written back (09 R185, R186, 17 R423, R428), and for the word of a dump area
that counts the faults not dumped (18 R449). One store alone puts its bytes there, where its page is not S-class. Where a red has several
lanes left, one lane combines, and the block is still in its frame, its commit begun (R428, 08 R180). -/
def Obligations.CommitStoresOnlyItsBytes : Prop :=
  (∀ (s : State) (wid : Nat) (w : Warp) (f : Frame), commits s wid w f → f.cmds = [] → Img.trap f.words = false → undebugged s w →
    s.mem.wf = true →
    ∃ t, exec (.blockCommit wid) s = .next t ∧
      (∀ j, (∀ q ∈ f.slots, q.2.kind = .stG ∨ q.2.kind = .red → ∀ a ∈ q.2.accs, ∀ p, a.pa = some p → j < p ∨ p + q.2.size ≤ j) →
        ¬ restsDirty s j → ¬ lostCount s j → t.mem.byte j = s.mem.byte j) ∧
      (∀ k e a p, f.slots = [(k, e)] → e.kind = .stG → e.accs = [a] → a.gone = 0 → a.pa = some p → a.cls ≠ .S →
        lostAcc s w.core true a = false → (∀ j, p ≤ j → j < p + e.size → ¬ restsDirty s j ∧ ¬ lostCount s j) →
        (e.bytes a).length = e.size → 0 < e.size → t.mem.bytes p e.size = e.bytes a)) ∧
  (∀ (s : State) (wid : Nat) (w : Warp) (f : Frame), ends s wid w f → 1 < (redsLeft f false).length →
    ∃ t f', exec (.blockCommit wid) s = .next t ∧ getWarp t wid = some { w with frame := some f' } ∧ f'.stage = 1 ∧ f'.fired = f.fired)

/-- Loads and atomics. A load whose addresses are translated, whose lower stores are known and which no lower load of the same bytes precedes
(09 R195) returns: it is done, and memory is as before; a single scalar 32-bit load of a U-class page, with no store of its block below
it, delivers the word at its physical address (17 R417, R421). A lane of an atomic performs where its block may pass its irrevocable
point (07 R142), and each such move performs one lane more (R426); alone in its block and of one U-class access, it replaces the word by
the result of R425. When no lane is left it returns, and delivers the old value. -/
def Obligations.LoadAndAtomicReturns : Prop :=
  ∀ (s : State) (wid k : Nat) (w : Warp) (f : Frame) (e : SlotEntry),
    getWarp s wid = some w → w.frame = some f →
    (f.slots.find? (fun q => decide (q.2.idx = e.idx) && q.2.kind.isLoad && !q.2.done) = some (k, e) → w.state = .mapped →
      e.translated = true → storesReady f k = true → loadBefore f k e = false →
      (e.kind.isGlobal = true → ∀ a ∈ e.accs, heldAcc s w.core e.kind a = false) →
      ∃ t f' e', exec (.loadReturn wid e.idx) s = .next t ∧ getWarp t wid = some { w with frame := some f' } ∧
        tget f'.slots k = some e' ∧ e'.done = true ∧ memKept s t ∧
        ∀ a p, f.slots = [(k, e)] → e.kind = .ldG → e.size = 4 → e.scalar = true → e.accs = [a] → a.pa = some p → p % 4 = 0 → a.cls = .U →
          lostAcc s w.core false a = false → hubMark s (p / 32) = false → w.fij = 0 →
          (∀ c ∈ f'.causes, c ∈ f.causes ∨ c.code = 0x73) ∧
            ∀ y ∈ e.tgts, Spec.lands f' e.idx y (Token.scal false true (BitVec.ofNat 64 (leNat (s.mem.bytes p 4))))) ∧
    (f.slots.find? (fun q => q.2.kind.isAtomic && decide (q.2.lanesLeft ≠ [])) = some (k, e) → w.state = .mapped →
      (∀ a ∈ e.lanesLeft, e.kind.isGlobal = true → lostAcc s w.core true a = true ∨ heldAcc s w.core e.kind a = false) →
      e.issued = true ∨ (e.translated = true ∧ othersReady f k = true ∧ f.causes = [] ∧
        earlierDone s wid s.uid (releaseScope f k e) = true ∧ w.haltDue = false ∧ lostCauses s w f = []) →
      ∃ t f' e', exec (.atomicIssue wid) s = .next t ∧ getWarp t wid = some { w with frame := some f' } ∧ f'.irrev = true ∧
        tget f'.slots k = some e' ∧ e'.issued = true ∧ (∃ a ∈ e.lanesLeft, ∃ v bad, e'.result = e.result ++ [(a.lane, v, bad)]) ∧
        ∀ a p, f.slots = [(k, e)] → e.kind = .atom → e.size = 4 → e.accs = [a] → a.pa = some p → a.cls = .U → lostAcc s w.core true a = false →
          e.result = [] → s.mem.wf = true →
          let old := BitVec.ofNat 64 (leNat (s.mem.bytes p 4))
          e'.result = [(a.lane, old, atomicBad s w.core .U p 4)] ∧
          t.mem.bytes p 4 = leBytes (atomResult addF32 e.op false old a.data).toNat 4 ∧
          ∀ j, j < p ∨ p + 4 ≤ j → t.mem.byte j = s.mem.byte j) ∧
    (f.slots.find? (fun q => q.2.kind.isAtomic && q.2.issued && !q.2.done) = some (k, e) → e.lanesLeft = [] →
      ∃ t f' e', exec (.atomicReturn wid) s = .next t ∧ t.mem = s.mem ∧ getWarp t wid = some { w with frame := some f' } ∧
        tget f'.slots k = some e' ∧ e'.done = true ∧
        ∀ l v, e.result = [(l, v, false)] → e.scalar = true →
          ∀ y ∈ e.tgts, Spec.lands f' e.idx y (Token.scal (decide (e.size = 8)) true v))

/-! ### Traps and fatal faults (18 R435 to R438) -/

/-- Taking a trap (R436, R437): the warp is in class 0, its trap keeps the resume handle and mask, TRAPINF holds code, argument and resume
handle, and it next maps offset 0 of the trap-handler segment with the resume mask less DEADM; its registers and its other special
registers are as before. Leaving it (R438) returns the class, handle and mask. A block whose spop finds the window empty while entries
are spilled takes SPLIT_FILL at its map (07 R155). -/
def Obligations.TrapsTakenAndLeft : Prop :=
  (∀ (w : Warp) (slot : Nat) (code : TrapCode) (arg : Nat) (handle : Word) (mask : Mask) (b : Bool), slot < 32 → arg < 4096 →
    let t := w.takeTrap slot code arg handle mask b
    t.cls = 0 ∧ t.kclass = w.kclass ∧ t.trap = some ⟨code, handle, mask, b⟩ ∧ t.mask = mask &&& ~~~w.deadm ∧
    wbits t.handle 31 26 = slot ∧ wbits t.handle 25 0 = 0 ∧
    t.trapinf.toNat / 2 ^ 56 = code.num ∧ t.trapinf.toNat / 2 ^ 44 % 4096 = arg ∧ t.trapinf.toNat % 2 ^ 31 = handle.toNat % 2 ^ 31 ∧
    t.v = w.v ∧ t.s = w.s ∧ t.p = w.p ∧ t.ssp = w.ssp ∧ t.splb = w.splb ∧ t.deadm = w.deadm ∧ t.fpfl = w.fpfl ∧ t.fij = w.fij) ∧
  (∀ (w : Warp) (t : Trap),
    let u := w.leaveTrap t
    u.cls = w.kclass ∧ u.trap = none ∧ u.handle = t.handle ∧ u.mask = t.mask &&& ~~~w.deadm ∧
    u.v = w.v ∧ u.s = w.s ∧ u.p = w.p ∧ u.trapinf = w.trapinf ∧ u.deadm = w.deadm) ∧
  (∀ (s : State) (wid i : Nat) (w : Warp) (c : Context) (ws : List Word),
    getWarp s wid = some w → getCtx s w.ctx = some c → w.image = some ws → mayMap s w = true → firstToMap s wid w = true →
    framesUsed s w.core < 16 → partsHere s w.ctx ws = true → matchEntry c w = none → imageFailure w c ws = none → wbits w.fij 31 28 ≠ 3 →
    spopAt ws = some i → w.count = 0 → 0 < w.spilled → Img.trap ws = false →
    exec (.blockMap wid) s = .next (setWarp s wid ((w.takeTrap c.desc.trapSlot .splitFill 1 w.handle w.mask true).ready s.clk)))

/-- A fatal group fault under KILL halts the group and fails its kernel with the fault's code, group and detail (R435, 05 R92): where a
block faults at its end, the group's warps leave their frames and are to halt, and the kernel drains. -/
def Obligations.FatalFaultsUnderKill : Prop :=
  ∀ (s : State) (wid : Nat) (w : Warp) (f : Frame) (c : Cause) (g : Group) (x : Context) (k : Kernel),
    getWarp s wid = some w → w.frame = some f → w.state = .mapped → f.xfaults = [] → f.quiet = true → f.stays = false →
    quietCause s w f = some c → c.xlat = none → getGroup s w.gid = some g → g.state = .resident → g.stopped = false →
    getCtx s w.ctx = some x → x.desc.policy = .kill → getKernel s w.kid = some k → k.state = .running → g.kid = w.kid →
    ∃ t g' k' w', exec (.blockCommit wid) s = .next t ∧ getGroup t w.gid = some g' ∧ g'.state = .halting ∧
      getKernel t w.kid = some k' ∧ k'.state = .draining ∧ k'.code = c.code ∧ k'.failGroup = BitVec.ofNat 32 g.rank ∧ k'.detail = c.detail ∧
      getWarp t wid = some w' ∧ w'.frame = none ∧ w'.haltDue = true ∧ w'.v = w.v ∧ w'.s = w.s ∧ w'.p = w.p ∧ t.mem = s.mem

/-! ### Queues and kernels (04, 05, 06 R111, R112) -/

namespace Sys2Proof.Spec
open Sys2Proof Sys2Proof.Machine

/-- Queue q of a context afterwards. -/
def queueIn (o : Out) (ctx q : Nat) (x : Queue) : Prop :=
  ∃ t c, o = .next t ∧ getCtx t ctx = some c ∧ getQ c q = x

end Sys2Proof.Spec

/-- The writes of a queue's registers by the host and the events of R83: each takes the queue where the table of R83 says, and one that is
not allowed sets QSTATE's dberr and changes nothing else (R74, R76, R77). An accepted doorbell moves QWR in every enabled state; of a
blocked queue the head is then tested again (R84). That an enable in a context still building (03 R60) sets dberr is the model's choice
(log 45), and so are that reset and retry clear QSTATE's error code (log 45) and that enable and disable leave it and QERRIDX alone (log
98). -/
def Obligations.QueueRegisterEvents : Prop :=
  ∀ (s : State) (ctx : BitVec 8) (q : BitVec 6) (c : Context) (v : Word), s.start.state = .ready → getCtx s ctx.toNat = some c →
    let x := getQ c q.toNat
    let go : QState := if x.rd = x.wr then .idle else .active
    let err := { x with dberr := true }
    (x.state = .idle → x.devfed = false → v ≠ x.wr → (v - x.rd).toNat ≤ 2 ^ x.size.toNat →
      queueIn (exec (.doorbell ctx q v) s) ctx.toNat q.toNat { x with wr := v, res := v, state := if x.rd = v then .idle else .active }) ∧
    (x.state = .active ∨ x.state = .suspended ∨ x.state = .error → x.devfed = false → v ≠ x.wr → (v - x.rd).toNat ≤ 2 ^ x.size.toNat →
      queueIn (exec (.doorbell ctx q v) s) ctx.toNat q.toNat { x with wr := v, res := v }) ∧
    (x.state = .blocked → x.devfed = false → v ≠ x.wr → (v - x.rd).toNat ≤ 2 ^ x.size.toNat →
      exec (.doorbell ctx q v) s = .next (testHead (setQ s ctx.toNat q.toNat { x with wr := v, res := v }) ctx.toNat q.toNat)) ∧
    (x.state = .disabled ∨ x.devfed = true ∨ v = x.wr ∨ 2 ^ x.size.toNat < (v - x.rd).toNat →
      queueIn (exec (.doorbell ctx q v) s) ctx.toNat q.toNat err) ∧
    (x.state = .disabled → v.getLsbD 0 = true → (c.state = .ready ∨ c.state = .resident →
        queueIn (exec (.queueEnable ctx q v) s) ctx.toNat q.toNat
          { x with devctl := v.getLsbD 2, devfed := v.getLsbD 1, rd := x.wr, res := x.wr, state := .idle }) ∧
      (c.state = .building → queueIn (exec (.queueEnable ctx q v) s) ctx.toNat q.toNat err)) ∧
    (x.state ≠ .disabled → v.getLsbD 0 = false → launchCopies s ctx.toNat q.toNat = [] → x.written = [] →
      queueIn (exec (.queueDisable ctx q v) s) ctx.toNat q.toNat
        { x with state := .disabled, devctl := v.getLsbD 2, devfed := v.getLsbD 1, res := x.wr, failed := [] }) ∧
    (x.state = .idle ∨ x.state = .active ∨ x.state = .blocked →
      queueIn (exec (.queueSuspend ctx q) s) ctx.toNat q.toNat { x with state := .suspended }) ∧
    (x.state = .suspended → queueIn (exec (.queueResume ctx q) s) ctx.toNat q.toNat { x with state := go }) ∧
    (x.state = .error → queueIn (exec (.queueReset ctx q) s) ctx.toNat q.toNat
      { x with
        rd := x.errIdx + 1
        dberr := false
        errCode := 0
        failed := x.failed.filter (fun e => e.1 ≠ x.errIdx)
        state := if x.errIdx + 1 = x.wr then .idle else .active }) ∧
    (x.state = .error → queueIn (exec (.queueRetry ctx q) s) ctx.toNat q.toNat
      { x with
        rd := x.errIdx
        dberr := false
        errCode := 0
        failed := x.failed.filter (fun e => e.1 ≠ x.errIdx)
        state := .active }) ∧
    (x.state ≠ .suspended → queueIn (exec (.queueResume ctx q) s) ctx.toNat q.toNat err) ∧
    (x.state ≠ .error → queueIn (exec (.queueReset ctx q) s) ctx.toNat q.toNat err ∧
      queueIn (exec (.queueRetry ctx q) s) ctx.toNat q.toNat err) ∧
    (x.state = .disabled ∨ x.state = .suspended ∨ x.state = .error → queueIn (exec (.queueSuspend ctx q) s) ctx.toNat q.toNat err) ∧
    (v = 0 ∨ 4 < v.toNat → queueIn (exec (.qcmdIgnored ctx q v) s) ctx.toNat q.toNat err) ∧
    queueIn (exec (.qdropClear ctx q) s) ctx.toNat q.toNat { x with drop := 0 }

/-- The dispatcher's tests of a head and the commands of a device: a kernel record that waits for nothing is accepted (R85), a malformed
one puts the queue in error with QREC (R84), a launch reserves a slot and its copy publishes it (R76, R87). -/
def Obligations.HeadsAndLaunches : Prop :=
  ∀ (s : State) (ctx : BitVec 8) (q : BitVec 6) (c : Context), getCtx s ctx.toNat = some c → queuesRun s c = true →
    let x := getQ c q.toNat
    (∀ pa bs u, x.rd ≠ x.wr → x.failed = [] → hubRead s ctx.toNat (x.slotVa x.rd) 64 = (.ok pa bs false, u) →
      let l := launchOf (wordsOf bs)
      let tests (o : Out) : Prop :=
        (l.kind = 1 → kernelMalformed l = false → l.nwait = 0 →
          ∃ t k, queueIn o ctx.toNat q.toNat { x with rd := x.rd + 1, state := if x.rd + 1 = x.wr then .idle else .active } ∧ o = .next t ∧
            t.nextKid = s.nextKid + 1 ∧ getKernel t s.nextKid.toNat = some k ∧ k.state = .queued ∧ k.ctx = ctx.toNat ∧ k.queue = q.toNat ∧
            k.launch = l ∧ t.mem = s.mem) ∧
        (l.kind = 0 → queueIn o ctx.toNat q.toNat { x with rd := x.rd + 1, state := if x.rd + 1 = x.wr then .idle else .active }) ∧
        (2 < l.kind ∨ (l.kind = 1 ∧ kernelMalformed l = true) →
          queueIn o ctx.toNat q.toNat { x with state := .error, errCode := 0x42, errIdx := x.rd })
      (x.state = .active → tests (exec (.headTest ctx q) s)) ∧
      (x.state = .blocked → oneUs ≤ (s.clk - x.tested).toNat → tests (exec (.blockedRetest ctx q) s))) ∧
    (∀ id wid gid seq (n : Word) record, s.jobs = [(id, ⟨wid, gid, ctx.toNat, seq, .launch n record 0 none⟩)] → n.toNat = q.toNat →
      x.state ≠ .disabled → x.devfed = true → record.toNat % 64 = 0 → (x.res - x.rd).toNat ≠ 2 ^ x.size.toNat →
      owes s (.warp wid) = false → warpHeld s wid = false → hubHeld s ctx.toNat (x.slotVa x.res) = false →
      (∃ pa cls e lv pa' bs u, hubRead s ctx.toNat record.toNat 64 = (.ok pa' bs false, u) ∧
        hubXlate u ctx.toNat (x.slotVa x.res) accWrite = .ok pa cls e lv ∧ hubCan u pa 64 = true) →
      ∃ t y, exec (.launchCommand id) s = .next t ∧ queueIn (.next t) ctx.toNat q.toNat y ∧ y.res = x.res + 1 ∧ y.wr = x.wr ∧ y.rd = x.rd ∧
        tget t.jobs id = some ⟨wid, gid, ctx.toNat, seq, .launch n record 0 (some x.res)⟩) ∧
    (∀ id wid gid seq (n : Word) record cell, s.jobs = [(id, ⟨wid, gid, ctx.toNat, seq, .launch n record cell (some x.wr)⟩)] →
      n.toNat = q.toNat → x.state = .active → x.written = [] →
      queueIn (exec (.launchCopyDone id) s) ctx.toNat q.toNat { x with wr := x.wr + 1 })

/-- A queued kernel takes its table entry and waits, or fails with SEG_INVALID where its entry handle names an invalid segment (05 R90,
R92), or with QDEP where its failerr wait found a cell in error (04 R81); the dispatcher places a group of the first candidate that fits, resident on its cores with its context (06 R111, R112, 03 R60);
each 2^22 cycles of waiting raise the arbitration priority (04 R86); and a draining kernel with no group on cores ends (05 R91). -/
def Obligations.KernelsEnterRunAndEnd : Prop :=
  ∀ (s : State) (kid : Nat) (k : Kernel), getKernel s kid = some k →
    (∀ c, k.state = .queued → k.qdep = true → k.killed = false → k.retired = 0 → endHeld s k.ctx k.launch = false → getCtx s k.ctx = some c →
      entriesRun s c = true → ∃ t k', exec (.entryCheck kid) s = .next t ∧ getKernel t kid = some k' ∧ k'.state = .failed ∧ k'.code = 0x44 ∧
        k'.entryHeld = false) ∧
    (∀ c g, k.state = .queued → k.qdep = false → endHeld s k.ctx k.launch = false → getCtx s k.ctx = some c → entriesRun s c = true → (∀ e ∈ s.kernels, e.2.state = .queued → e.1 = kid) →
      (s.kernels.filter fun e => e.2.entryHeld).length < 4096 → c.segs[wbits k.launch.entry 30 26]? = some g →
      (g.valid = true → ∃ t k', exec (.entryCheck kid) s = .next t ∧ getKernel t kid = some k' ∧ k'.state = .waiting ∧ k'.entryHeld = true ∧
        k'.since = s.clk ∧ t.mem = s.mem) ∧
      (g.valid = false → k.killed = false → k.retired = 0 → ∃ t k', exec (.entryCheck kid) s = .next t ∧ getKernel t kid = some k' ∧
        k'.state = .failed ∧ k'.code = 0x50 ∧ k'.entryHeld = false)) ∧
    (∀ c cores, pick s (candidates s) = some (c, cores) → c.gid = none → c.kid = kid → (getCtx s c.ctx).isSome = true →
      ∃ t g k' x, exec .placement s = .next t ∧ getGroup t s.uid = some g ∧ g.state = .resident ∧ g.kid = kid ∧ g.rank = c.rank ∧
        g.cores = cores ∧ g.W = k.launch.W ∧ g.arrived = 0 ∧ getKernel t kid = some k' ∧ k'.nextRank = k.nextRank + 1 ∧
        getCtx t c.ctx = some x ∧ x.state = .resident ∧ t.mem = s.mem ∧
        (0 < k.launch.W → ∃ w, getWarp t (s.uid + 1) = some w ∧ w.gid = s.uid ∧ w.rank = 0 ∧ w.core = cores.getD 0 0 ∧ w.state = .ready ∧
          w.handle = k.launch.entry ∧ w.mask = ones32 ∧ sreg w 2 = BitVec.ofNat 32 c.rank ∧ sreg w 3 = 0 ∧ sreg w 6 = 0x7FFFFFFF)) ∧
    (k.state = .waiting → k.aged < (s.clk - k.since).toNat / 2 ^ 22 →
      ∃ t k', exec (.priorityAging kid) s = .next t ∧ getKernel t kid = some k' ∧ k' = { k with aged := (s.clk - k.since).toNat / 2 ^ 22 }) ∧
    (∀ c, k.state = .draining → getCtx s k.ctx = some c → c.state ≠ .tornDown →
      (∀ g ∈ s.groups, g.2.kid = kid → g.2.placed = false) → endHeld s k.ctx k.launch = false →
      ∃ t k', exec (.kernelCompletion kid) s = .next t ∧ getKernel t kid = some k' ∧ k'.entryHeld = false ∧ k'.tend = s.clk ∧
        k'.state = (if k.killed = true then .killed else if k.code = 0 then .complete else if k.retired = 0 then .failed else .failedPartial))

/-! ### Fetch, map and walks (05 R97, 06 R117, 07 R130, 12 R260) -/

/-- A fetched image enters a frame with the entry mask its warp's mask less DEADM, nothing fired and every register's token read from the
warp (R130, R134); an invalid segment or an image that fails validation is a fatal group fault (05 R97, 02 R50); and a walk that completes
with a leaf is cached for each core that asked (12 R259, R260). A map fills caches with the chunks that follow (05 R99), and so may write
back bytes that rest dirty in a die L2. -/
def Obligations.FetchMapAndWalk : Prop :=
  (∀ (s : State) (wid : Nat) (w : Warp) (c : Context), getWarp s wid = some w → getCtx s w.ctx = some c → mayMap s w = true →
    (w.image = none →
      (∀ ws u, fetchImage s w c = .image ws u → getWarp u wid = some w →
        exec (.blockFetch wid) s = .next (setWarp u wid { w with image := some ws })) ∧
      (∀ g, c.segs[wbits w.handle 30 26]? = some g → g.valid = false →
        exec (.blockFetch wid) s = .next (fatalGroup s wid w 0x50 (w.handle.setWidth 64) 0)) ∧
      (∀ g, c.segs[wbits w.handle 30 26]? = some g → g.valid = true → g.size ≤ wbits w.handle 25 0 →
        exec (.blockFetch wid) s = .next (fatalGroup s wid w 0x51 (w.handle.setWidth 64) 0))) ∧
    (∀ ws, w.image = some ws → firstToMap s wid w = true → framesUsed s w.core < 16 → partsHere s w.ctx ws = true → matchEntry c w = none →
      (∀ n r, imageFailure w c ws = some (n, r) →
        exec (.blockMap wid) s = .next (fatalGroup s wid w 0x01 (BitVec.ofNat 64 (w.handle.toNat + n * 2 ^ 32 + r.code * 2 ^ 40)) 0)) ∧
      (imageFailure w c ws = none → wbits w.fij 31 28 ≠ 3 → spopAt ws = none → Img.pfen ws = false →
        ∃ t f, exec (.blockMap wid) s = .next t ∧ t.warps = tput s.warps wid { w with state := .mapped, frame := some f } ∧ memKept s t ∧
          t.jobs = s.jobs ∧ t.kernels = s.kernels ∧ t.mgmt = s.mgmt ∧ f.handle = w.handle ∧
          f.words = ws ∧ f.entry = w.mask &&& ~~~w.deadm ∧ f.fired = [] ∧ f.cmds = [] ∧ f.slots = [] ∧ f.votes = [] ∧ f.irrev = false ∧
          f.stage = 0))) ∧
  (∀ (s : State) (w : Warp) (m : Mask) (r l : Nat), l < 32 → m.getLsbD l = true →
    (r < 256 → (readToken s w m r false).at l = (vreg w r l).setWidth 64 ∧ (readToken s w m r true).at l = vreg w (r + 1) l ++ vreg w r l) ∧
    (r < 384 → (readToken s w m (256 + r) false).at l = (sreg w r).setWidth 64 ∧
      (readToken s w m (256 + r) true).at l = sreg w (r + 1) ++ sreg w r) ∧
    (readToken s w m 0x280 false).at l = 1) ∧
  (∀ (s : State) (ctx : BitVec 8) (page : Nat) (r : WalkReq) (c : Context),
    (s.tlb.walks.take hubWalks).find? (fun r => decide (r.ctx = ctx.toNat) && decide (r.page = page)) = some r → getCtx s ctx.toNat = some c →
    walkHeld s ctx.toNat (page * 65536) = false → (∀ k ∈ r.cores, linkHeld s (k / 64) = false) → (∀ d ∈ r.dies, linkHeld s d = false) →
    ∃ t, exec (.walkComplete ctx page) s = .next t ∧ r ∉ t.tlb.walks ∧
      ∀ e lv, walk s ctx.toNat c (page * 65536) = .leaf e lv → (∀ x ∈ s.warps, x.2.frame = none) →
        ∀ core ∈ r.cores, ∃ x ∈ t.tlb.core, x.holder = core ∧ x.ctx = ctx.toNat ∧ x.entry = e)

/-! ### Arrivals and steps (06 R125, R127; 10 R211 to R220; 11 R242) -/

/-- The group barrier counts its arrivals and lets all go with the last (06 R125); bar.arv arrives at its cell once its stores have
performed (11 R242); a step arrival is counted, a completed step advances the region's step number (10 R212, R220), and a store of an
earlier step is applied to its region (R211); a yield is over when its cycles have passed (06 R127). -/
def Obligations.ArrivalsAndSteps : Prop :=
  (∀ (s : State) (id wid gid ctx seq : Nat) (g : Group), tget s.jobs id = some ⟨wid, gid, ctx, seq, .gbarArrive⟩ →
    storesBefore s wid seq none = false → getGroup s gid = some g →
    let ended := ((warpsOf s gid).filter fun e => decide (e.2.state = .ended)).length
    (g.arrived + 1 + ended < g.W →
      exec (.gbarArrival id) s = .next (setGroup (dropJob s id) gid { g with arrived := g.arrived + 1 })) ∧
    (g.W ≤ g.arrived + 1 + ended → ∃ t g', exec (.gbarArrival id) s = .next t ∧ getGroup t gid = some g' ∧ g'.arrived = 0 ∧
      ∀ i w, getWarp s i = some w → w.gid = gid → w.wait = .gbar → w.state = .waiting → ∃ w', getWarp t i = some w' ∧ w'.wait = .none)) ∧
  (∀ (s : State) (wid : Nat) (w : Warp) (o : BarOp) (n : Word) (at_ : CellAt), getWarp s wid = some w → w.barq = [o] →
    o.op = .barArv o.cell n → maintBefore s wid o.seq = false → storesBefore s wid o.seq none = false →
    (cellWide s w o.cell = false ∨ owes s (.warp wid) = false) → findCell s w.ctx (some w.gid) o.cell accAtomic = .ok at_ →
    (opSpad o.cell = true ∨ (warpHeld s wid = false ∧ hubHeld s w.ctx o.cell.toNat = false)) →
    ∃ t, exec (.barArrival wid) s = .next t ∧
      t = drainWarp (modWarp (onCell (walkCell s w.ctx o.cell) w.ctx at_ fun c => c.arrive n.toNat) wid
        fun y => { y with barq := y.barq.erase o }) wid) ∧
  (∀ (s : State) (id wid gid ctx seq num gen : Nat) (d : DWord) (g : Group) (w : Warp),
    tget s.jobs id = some ⟨wid, gid, ctx, seq, .stepArrive num gen d⟩ → getGroup s gid = some g → getWarp s wid = some w →
    num < g.regions.length → storesBefore s wid seq (some num) = false →
    let r := getRegion g num
    r.active = true → r.gen = gen → r.arrivals < r.parts →
    ∃ t g', exec (.stepArrival id) s = .next t ∧ getGroup t gid = some g' ∧ (getRegion g' num).arrivals = r.arrivals + 1 ∧
      (getRegion g' num).state = .stepping ∧ (getRegion g' num).k = r.k ∧ t.mem = s.mem) ∧
  (∀ (s : State) (id wid gid ctx seq gen : Nat) (a : LaneAcc) (kind : SlotKind) (g : Group) (w : Warp),
    s.jobs = [(id, ⟨wid, gid, ctx, seq, .store a kind gen⟩)] → getGroup s gid = some g → getWarp s wid = some w →
    let r := getRegion g (gen / 2 ^ 32)
    r.active = true → r.gen = gen % 2 ^ 32 → gen / 2 ^ 32 < g.regions.length →
    ∃ t g', exec (.steppedStoreApply id) s = .next t ∧ getGroup t gid = some g' ∧ t.jobs = [] ∧ t.mem = s.mem ∧
      (getRegion g' (gen / 2 ^ 32)).k = r.k ∧ (getRegion g' (gen / 2 ^ 32)).sel = r.sel ∧
      ((a.addr - r.base) / 4 ∉ r.written → (a.addr - r.base) / 4 ∈ (getRegion g' (gen / 2 ^ 32)).written)) ∧
  (∀ (s : State) (gid : Nat) (n : BitVec 3) (g : Group), getGroup s gid = some g → g.state = .resident ∨ g.state = .swapping →
    n.toNat < g.regions.length →
    let r := getRegion g n.toNat
    r.active = true → r.stepped = true → 0 < r.parts → r.parts ≤ r.arrivals → (r.rule ≠ .fault ∨ r.ccur = 0) →
    ∃ t g', exec (.regionStepComplete gid n) s = .next t ∧ getGroup t gid = some g' ∧ (getRegion g' n.toNat).k = r.k + 1 ∧
      (getRegion g' n.toNat).arrivals = 0 ∧ (getRegion g' n.toNat).written = [] ∧ (getRegion g' n.toNat).coll = r.ccur) ∧
  (∀ (s : State) (wid : Nat) (w : Warp) (until_ : DWord), getWarp s wid = some w → w.state = .waiting → w.wait = .yield until_ →
    until_.toNat ≤ s.clk.toNat →
    ∃ t w', exec (.yieldExpiry wid) s = .next t ∧ getWarp t wid = some w' ∧ w'.wait = .none)

/-! ### Leaving the cores (03 R62 to R72; 05 R93; 06 R115, R120, R121; 18 R450) -/

/-- A swap, a save, a teardown, a retirement and a dump end as their rules say (06 R120, R121; 03 R66, R69, R72; 05 R93, R94; 18 R450): a
blocked group leaves for its place in the swap reserve, and waits once its records are written there, but on a cut die ends halted (14
R318); a saved context is suspended where all its records could be written; a destroyed one's number is free; a halted group's resources
are free; a retired one, all of whose stores have performed at device scope (09 R193), is counted and has its bit set; a dump's header is
valid and its kernel fails. -/
def Obligations.SwapSaveTeardownAndHalt : Prop :=
  (∀ (s : State) (core : BitVec 8) (gid : Nat) (g : Group) (c : Context), swapChoice s core.toNat = some (gid, g) → getCtx s g.ctx = some c →
    let u := { s with progress := sput 0 s.progress core.toNat s.clk.toNat }
    let n := swapBytes u gid g
    (g.cut s = true → ∃ t g', exec (.forwardProgressSwap core) s = .next t ∧ getGroup t gid = some g' ∧ g'.state = .halting) ∧
    (∀ off, g.cut s = false → reserveFit u c n = some off →
      ∃ t, exec (.forwardProgressSwap core) s = .next t ∧ getGroup t gid = some { g with state := .swapping } ∧
        getCtx t g.ctx = some { c with swapped := reserved u c ++ [(gid, off, n)] } ∧ t.warps = s.warps ∧ t.mem = s.mem) ∧
    (g.cut s = false → reserveFit u c n = none → ∃ t, exec (.forwardProgressSwap core) s = .next t ∧ t.progress = u.progress)) ∧
  (∀ (s u : State) (gid : Nat) (g : Group) (c : Context) (e : Nat × Nat × Nat), getGroup s gid = some g → getCtx s g.ctx = some c →
    g.state = .swapping → c.leaving = none → drained s gid = true → (∀ e ∈ s.jobs, e.2.gid ≠ gid) → g.stepDue = false → anyHeld s = false →
    (∀ e ∈ s.warps, e.2.gid = gid → e.2.killDue = 0) → c.swapped.find? (fun e => decide (e.1 = gid)) = some e →
    let pa := c.desc.savebase + e.2.1
    (g.cut s = true → ∃ t g', exec (.swapComplete gid) s = .next t ∧ getGroup t gid = some g' ∧ g'.state = .halted ∧ g'.cores = [] ∧
      t.mem = s.mem) ∧
    (∀ g', g.cut s = false → putRecords (writeBackGroup s g) g.ctx pa (groupRecords s gid g) = (u, true) → getGroup u gid = some g' →
      ∃ t, exec (.swapComplete gid) s = .next t ∧
        getGroup t gid = some { g' with state := .waiting, savedAt := some pa, cores := [], since := s.clk, aged := 0 } ∧ t.mem = u.mem ∧
        ∀ i w, getWarp s i = some w → w.gid = gid → getWarp t i = some (w.saved s.clk)) ∧
    (g.cut s = false → putRecords (writeBackGroup s g) g.ctx pa (groupRecords s gid g) = (u, false) → exec (.swapComplete gid) s = .next (contextFault u g.ctx))) ∧
  (∀ (s : State) (ctx : BitVec 8) (c : Context), getCtx s ctx.toNat = some c → c.dumping = none → groupsSettled s ctx.toNat = true →
    partsQuiet s ctx.toNat = true →
    (anyHeld s = false → (∀ e ∈ s.warps, e.2.ctx = ctx.toNat → e.2.killDue = 0) →
      (c.leaving = some .suspend → quiet s ctx.toNat true = true →
        ∃ t c', exec (.saveComplete ctx) s = .next t ∧ getCtx t ctx.toNat = some c' ∧ c'.leaving = none ∧
          (c'.state = .suspended ∨ c'.state = .faulted) ∧
          (∀ tag code, c.endTag = some (tag, code) → ∃ st, (tag, code, st, 0) ∈ t.mgmt.cpl ∧ (c'.state = .suspended → st = 0)) ∧
          let u := writeBackAll s
          let items := saveItems u ctx.toNat c
          let v := putHeader u ctx.toNat c.desc.savebase ((items.map fun x => x.recs.length).foldl (· + ·) 0)
          ((∀ e ∈ placedGroups s ctx.toNat, ∀ k ∈ e.2.cores, linkDown s (dieOf k) = false) → hubCan u c.desc.savebase 4096 = true →
            (packItems ctx.toNat c (liveSwaps u c) items 4096 v).2 = [] → c'.state = .suspended)) ∧
      (c.leaving = some .fault → quiet s ctx.toNat false = true →
        ∃ t c', exec (.saveComplete ctx) s = .next t ∧ getCtx t ctx.toNat = some c' ∧ c'.leaving = none ∧ c'.state = .faulted)) ∧
    (c.leaving = some .destroy → quiet s ctx.toNat false = true → (s.ctxs.map Prod.fst).Pairwise (· < ·) → anyHeld s = false →
      (workLost s = true ∨ ∀ k ∈ s.kernels, k.2.ctx = ctx.toNat → k.2.state.final = false → endHeld s ctx.toNat k.2.launch = false) →
      ∃ t, exec (.teardownComplete ctx) s = .next t ∧ getCtx t ctx.toNat = none ∧ (∀ e ∈ t.warps, e.2.ctx ≠ ctx.toNat) ∧
        (∀ e ∈ t.parts, e.2.ctx ≠ ctx.toNat) ∧ ∀ tag code, c.endTag = some (tag, code) → (tag, code, 0, 0) ∈ t.mgmt.cpl)) ∧
  (∀ (s : State) (gid : Nat) (g : Group), getGroup s gid = some g → drained s gid = true →
    (g.state = .halting → g.dump = none →
      ∃ t g', exec (.groupHaltComplete gid) s = .next t ∧ getGroup t gid = some g' ∧ g'.state = .halted ∧ g'.cores = [] ∧
        (∀ e ∈ t.warps, e.2.gid ≠ gid) ∧ t.mem = s.mem) ∧
    (g.state = .retiring → (∀ k ∈ g.cores, linkHeld s (dieOf k) = false) →
      (∀ k, retireLost s g = false → owes s (.group gid) = false → (∀ e ∈ warpsOf s gid, owes s (.warp e.1) = false) → getKernel s g.kid = some k →
        let va := k.launch.complrec.toNat + 64 + g.rank / 8
        (k.launch.complrec = 0 ∨ hubHeld s g.ctx va = false) →
        ∃ t g', exec (.groupRetirement gid) s = .next t ∧ getGroup t gid = some g' ∧ g'.state = .retired ∧ g'.cores = [] ∧
          (∀ e ∈ t.warps, e.2.gid ≠ gid) ∧
          getKernel t g.kid = some { k with
            retired := k.retired + 1
            state := if k.state = .running ∧ k.retired + 1 = k.launch.groups.toNat then .draining else k.state } ∧
          ∀ pa cls x lv, k.launch.complrec ≠ 0 → workLost s = false → s.held = [] → hubXlate s g.ctx va accHub = .ok pa cls x lv → effClass s pa cls = .C → hubCan s pa 1 = true →
            s.mem.wf = true → t.mem.byte pa = s.mem.byte pa ||| BitVec.ofNat 8 (2 ^ (g.rank % 8)) ∧ ∀ j, j ≠ pa → t.mem.byte j = s.mem.byte j) ∧
      (retireLost s g = true → ∃ t g', exec (.groupRetirement gid) s = .next t ∧ getGroup t gid = some g' ∧ g'.state = .halted ∧
        t.mem = s.mem)) ∧
    (∀ j c k, anyHeld s = false → g.state = .halting → g.dump = some j → getCtx s g.ctx = some c → getKernel s g.kid = some k → k.state = .running →
      ∃ t g' k', exec (.dumpWrite gid) s = .next t ∧ getGroup t gid = some g' ∧ g'.dump = none ∧ getKernel t g.kid = some k' ∧
        k'.state = .draining ∧ k'.code = j.code ∧ k'.failGroup = BitVec.ofNat 32 g.rank ∧ k'.detail = j.detail ∧
        (hubCan s c.desc.dumpbase 4 = true → s.mem.wf = true →
          t.mem.bytes c.desc.dumpbase 4 = leBytes 0x80000000 4 ∨ t.mem.bytes c.desc.dumpbase 4 = leBytes 0xC0000003 4)))

/-! ### Asynchronous operations (09 R184, R186; 11 R234, R238) -/

/-- pfence, cwb, cinv, an eviction and a copy complete, where no link they need retrains: the named paths' lines of the context are invalid on
every core once the warp's stores have performed (09 R184; which L1 lines are a context's is log 111, the model's choice); cinv's lines are gone
from its die, and where a line's bytes are lost behind a down link its group is marked (R186, 14 R317); an evicted line is gone; a sector of a
copy whose elements all move is done, and its cell is lowered once its bytes have performed (11 R234), and a copy that has moved its sectors or
ended, and whose bytes have performed, completes and is no more (R238). -/
def Obligations.AsyncOperationsComplete : Prop :=
  (∀ (s : State) (id wid gid ctx seq : Nat) (m : BitVec 5) (l : List Nat), tget s.jobs id = some ⟨wid, gid, ctx, seq, .pfence m l⟩ →
    pfenceBefore s wid seq (fun _ => true) = false → maintBefore s wid seq = false → storesBefore s wid seq none = false →
    owes s (.warp wid) = false → warpHeld s wid = false →
    ∃ t, exec (.pfenceComplete id) s = .next t ∧ t.jobs = tdel s.jobs id ∧ ((∀ e ∈ s.warps, e.2.stopDue = none) → t.mem = s.mem) ∧
      (m.getLsbD 0 = true → ∀ x ∈ t.cache.l1, x.ctx ≠ ctx) ∧ (m.getLsbD 1 = true → ∀ x ∈ t.cache.kc, x.ctx ≠ ctx) ∧
      (m.getLsbD 2 = true → ∀ x ∈ t.cache.ic, x.ctx ≠ ctx)) ∧
  (∀ (s : State) (id wid gid ctx seq : Nat) (inv : Bool) (lines : List Nat) (w : Warp),
    tget s.jobs id = some ⟨wid, gid, ctx, seq, .maint inv lines⟩ → getWarp s wid = some w →
    (∀ l ∈ lines, (sLine s (dieOf w.core) l).isSome = true →
      linkHeld s (dieOf w.core) = false ∧ crossesHeld s (some (dieOf w.core)) (l * 128) = false) →
    (lostLine s (dieOf w.core) lines = none →
      ∃ t, exec (.cacheMaintComplete id) s = .next t ∧ t.jobs = tdel s.jobs id ∧
        (inv = true → ∀ x ∈ t.cache.l2, x.die = dieOf w.core → x.line ∉ lines) ∧
        (∀ x ∈ t.cache.l2, x.die = dieOf w.core → x.line ∈ lines → x.dirty = 0)) ∧
    (∀ l g, lostLine s (dieOf w.core) lines = some l → getGroup s gid = some g →
      ∃ t g', exec (.cacheMaintComplete id) s = .next t ∧ getGroup t gid = some g' ∧ g'.lost = true)) ∧
  (∀ (s : State) (die : BitVec 2) (line : Nat) (x : SLine), sLine s die.toNat line = some x → s.mem.wf = true →
    linkDown s die.toNat = false → reaches s (some die.toNat) (line * 128) = true → linkHeld s die.toNat = false →
    crossesHeld s (some die.toNat) (line * 128) = false →
    ∃ t, exec (.evictionWriteback die line) s = .next t ∧ sLine t die.toNat line = none ∧
      ∀ k, k < x.bytes.length → k < 128 →
        t.mem.byte (line * 128 + k) = (if x.dirty.getLsbD k then x.bytes.getD k 0 else s.mem.byte (line * 128 + k))) ∧
  (∀ (s u : State) (id : Nat) (x : Copy) (w : Warp), tget s.copies id = some x → getWarp s x.warp = some w →
    (copyRuns s x = true → x.checked = true → x.kind.isRed = false →
      (x.lowered ≤ x.low ∨ copyOwes s id x = true ∨ (x.bar ≠ 0 ∧ cellHeld s x.ctx x.bar = true)) →
      moveAll id x (dieOf w.core) s [] (inProgress s x) = (u, RunEnd.all) →
      exec (.copySectorComplete id) s =
        .next (lowerCell u id { x with todo := [], done := nins x.done (sectorOf x ((inProgress s x).headD 0)) })) ∧
    (x.low < x.lowered → x.issued = true → copyOwes s id x = false → (x.bar = 0 ∨ cellHeld s x.ctx x.bar = false) →
      exec (.copySectorComplete id) s = .next (lowerCell s id x)) ∧
    (x.issued = true → x.ended.isSome = true ∨ x.sectors ≤ x.done.length → copyOwes s id x = false →
      (x.bar = 0 ∨ cellHeld s x.ctx x.bar = false) →
      ∃ t, exec (.copyCompletion id) s = .next t ∧ t.copies = tdel s.copies id))

/-! ### The fabric (13 R285, R287, R301 to R307) -/

/-- The commands of a partition without a barrier, applied by its state (R301 to R308); and the events of a running phase: a load checked
and then complete (R304), a beat (R285), a round boundary (R287), the end of the last phase (R307). -/
def Obligations.GraphEvents : Prop :=
  (∀ (s : State) (id wid gid ctx seq num : Nat) (c : GCmd), tget s.jobs id = some ⟨wid, gid, ctx, seq, .graph num c 0⟩ →
    graphHeld s id wid seq ctx num c = false →
    let o := exec (.graphCommandApply id) s
    let now (q : Partition) : Prop := ∃ t, o = .next t ∧ getPart t (partKey ctx num) = some q
    (getPart s (partKey ctx num) = none →
      (∀ shape x d y j, c = .galloc shape → getCtx s ctx = some x →
        ctxPairs s ctx + (shapeOf shape).w * (shapeOf shape).h ≤ x.desc.pairlim → findPairs s (shapeOf shape) = some (d, y, j) →
        now (Partition.empty ctx num d j y (shapeOf shape).w (shapeOf shape).h)) ∧
      (c = .gdrain → o = .next (dropJob s id))) ∧
    (∀ p, getPart s (partKey ctx num) = some p → p.ctx = ctx → p.num = num →
      (∀ a, c = .gload a → p.state = .empty → now { p with loading := some id, image := a.toNat, stamp := s.clk }) ∧
      (∀ n v, c = .garg n v → p.state = .armed ∨ p.state = .drained → v.toNat % sget 1 p.align n = 0 →
        now { p with args := sput 0 p.args n v, bound := p.bound ||| BitVec.ofNat 32 (2 ^ n) }) ∧
      (c = .grun → p.state = .armed → now { p with bar := 0, barGid := gid, drainReq := false, state := .streaming }) ∧
      (c = .gdrain → p.state = .streaming ∨ p.state = .draining → now { p with drainReq := true }) ∧
      (c = .grel → p.state ≠ .streaming → p.state ≠ .draining → now p.clear) ∧
      (c = .grun → p.state ≠ .armed → p.state ≠ .drained → now p ∧ ∀ t, o = .next t → t.jobs = tdel s.jobs id))) ∧
  (∀ (s : State) (k id wid gid ctx seq num : Nat) (c : GCmd) (p : Partition), getPart s k = some p → p.loading = some id →
    tget s.jobs id = some ⟨wid, gid, ctx, seq, .graph num c 0⟩ →
    (∀ h phs u, p.state = .empty → checkImage s p = (.ok (h, phs), u) → ∃ t q, exec (.gloadComplete k) s = .next t ∧ getPart t k = some q ∧
      q.state = .validated ∧ q.phases = h.phases ∧ q.finaris = h.finaris ∧ t.mem = u.mem) ∧
    (p.state = .validated → ∃ t q, exec (.gloadComplete k) s = .next t ∧ getPart t k = some q ∧
      q.state = (if p.argmask = 0 then .armed else .resident) ∧ q.loading = none ∧ t.jobs = tdel s.jobs id)) ∧
  (∀ (s : State) (k : Nat) (p : Partition), getPart s k = some p → p.state = .draining → p.saved = false → p.bar = 0 →
    p.abort = none → (∀ r ∈ p.regions, r.done = true ∧ r.frozen = none ∧ r.halted = false) → ctxRuns s p.ctx = true → outputsIdle s k p = true → p.phases ≤ p.phase + 1 →
    ∃ t q, exec (.phaseEnd k) s = .next t ∧ getPart t k = some q ∧ q.state = .drained ∧ q.drainReq = false ∧ t.mem = s.mem) ∧
  (∀ (s : State) (k ri : Nat) (n : BitVec 2) (p : Partition) (g : RegionRec) (r : FRegion), getPart s k = some p →
    p.cur.regions.findIdx? (fun g => decide (g.num = n.toNat)) = some ri → p.cur.regions[ri]? = some g → p.regions[ri]? = some r →
    running p = true → r.halted = false → r.done = false → r.frozen = none → ctxRuns s p.ctx = true →
    (g.II r.sched ≤ r.beat → ∃ t q r', exec (.fabricRoundBoundary k n) s = .next t ∧ getPart t k = some q ∧ q.regions[ri]? = some r' ∧
      r'.beat = 0 ∧ r'.rounds = r.rounds + 1) ∧
    (∀ u q, r.beat < g.II r.sched → r.idle p = false → 2 ≤ p.mile → r.noInput = false →
      moveRegion true n.toNat ⟨s, { p with tiles := p.tiles.map fun f => { f with anew := [] } }, none⟩ = ⟨u, q, none⟩ → 2 ≤ q.mile →
      beatPoisoned q ri = false →
      (∀ q', tryBeat q ri = some q' → exec (.fabricBeat k n) s = .next (countBeat (setPart u k q') q ri)) ∧
      (tryBeat q ri = none →
        exec (.fabricBeat k n) s = .next (countEvent (setPart u k { q with stalls := q.stalls + 1 }) q.die q.ctx 13 1))))

/-! ### Links, ports and the host (14 R314 to R322, R332) -/

/-- The states of the die links, the host port and the peer ports follow their events (R314, R319, R320, R332), and the accesses of the host
and of peers perform at the hub (R321, R332); a write of theirs that crosses a retraining link is held, in order (R313, R315). -/
def Obligations.LinkAndPortEvents : Prop :=
  ∀ (s : State),
    (∀ (d : BitVec 2) (l : DieLink) (good : BitVec 4), s.links[d.toNat]? = some l → s.start.state ≠ .off → s.start.state ≠ .training →
      let now (e : Instr) (st : LinkState) (lanes : Nat) : Prop :=
        ∃ t l', exec e s = .next t ∧ t.links[d.toNat]? = some l' ∧ l'.state = st ∧ l'.lanes = lanes
      (l.state = .up ∨ l.state = .degraded → now (.retrainingTrigger d) .retraining 0) ∧
      (l.state = .retraining → good.toNat ≤ 8 → 4 ≤ good.toNat → l.trained.length < 4 →
        (∃ first rest, l.trained = first :: rest ∧ (s.clk - first).toNat ≤ 90000) →
        now (.retrainingEnds d good) (if good = 8 then .up else .degraded) good.toNat) ∧
      (l.state = .retraining → good.toNat ≤ 8 → good.toNat < 4 ∨ 4 ≤ l.trained.length →
        now (.retrainingFails d good) .down 0)) ∧
    (s.start.state ≠ .off →
      (s.host.state = .up ∨ s.host.state = .degraded →
        ∃ t, exec .hostLinkLoss s = .next t ∧ t.host.state = .down ∧ t.host.lanes = 0 ∧ t.host.rate = 0) ∧
      (∀ w r : BitVec 8, s.host.state = .down ∨ s.host.state = .training → w.toNat ∈ [16, 8, 4] → r.toNat ∈ [64, 32, 16] →
        ∃ t, exec (.hostLinkTrained w r) s = .next t ∧ t.host.state = (if w = 16 ∧ r = 64 then .up else .degraded) ∧
          t.host.lanes = w.toNat ∧ t.host.rate = r.toNat) ∧
      (∀ (p : BitVec 3) (old st : PortState), s.peers[p.toNat]? = some old → old ≠ st →
        ∃ t, exec (.peerPortChange p st) s = .next t ∧ t.peers[p.toNat]? = some st)) ∧
    (s.start.state = .ready → ∀ (e : BusOp → Instr),
      ((e = .hostAccess ∧ (s.host.state = .up ∨ s.host.state = .degraded)) ∨ (∃ p : BitVec 3, e = .peerAccess p ∧ s.peers[p.toNat]? = some .up)) →
      (∀ off pa n, hdmAddr s off = some pa → hubCan s pa n = true → spanHeld s pa n = false →
        exec (e (.read off n)) s = .next { s with hostRead := s.mem.bytes pa n }) ∧
      (∀ off pa data, hdmAddr s off = some pa → hubCan s pa data.length = true →
        (spanHeld s pa data.length = true → exec (e (.write off data)) s = .next { s with held := s.held ++ [⟨pa, data, false⟩] }) ∧
        (spanHeld s pa data.length = false → s.mem.wf = true →
          ∃ t, exec (e (.write off data)) s = .next t ∧ t.mem.bytes pa data.length = data ∧
            ∀ j, j < pa ∨ pa + data.length ≤ j → t.mem.byte j = s.mem.byte j)) ∧
      (∀ off pa b, hdmAddr s off = some pa → hubCan s pa 4 = true → spanHeld s pa 4 = false → pa % 4 = 0 → s.mem.wf = true →
        ∃ t, exec (e (.atomic .add off false b)) s = .next t ∧ t.hostRead = s.mem.bytes pa 4 ∧
          t.mem.bytes pa 4 = leBytes ((leNat (s.mem.bytes pa 4) + b.toNat) % 2 ^ 32) 4)) ∧
    (∀ line off data, windowOf s (line * 128) = some .host → routeOf s (line * 128) = none → portUp s none = true → off + data.length ≤ 128 →
      ∃ t, exec (.hostSnoop ⟨line, off, data⟩) s = .next t ∧ (∀ d ∈ t.cache.dir, d.line ≠ line) ∧ line ∉ t.cache.own ∧
        (s.mem.wf = true → t.mem.bytes (line * 128 + off) data.length = data ∧
          ∀ j, j < line * 128 + off ∨ line * 128 + off + data.length ≤ j → t.mem.byte j = s.mem.byte j))

/-! ### Starts, power and telemetry (21 R467 to R476; 18 R439 to R441, R453; 03 R58) -/

/-- The states of a start follow its events (21 R468, R470 to R472): a request ends every context as if by destroy, and kernels in flight are
lost; SPDM requests are busy before training and then answered (R474), telemetry is taken and the module stops at 110 °C (R476); the sampler
writes a row for each interval (18 R453), budget averages refresh (03 R58), and an uncorrectable memory error marks its sector (18 R439). The
model's choices, not the spec's rules: that 4 to 7 sublinks pass and fewer fail training, and when the cold start's values are set (log 79); that
an update is accepted in any state and power-on keeps the identity and the slots (logs 80, 4); that temperatures compare as signed numbers (log
82); that verification ends after the contexts have (log 115); what a digest is of and the codes of an SPDM answer (log 114). -/
def Obligations.StartPowerAndErrorEvents : Prop :=
  ∀ (s : State),
    (∀ warm clear : Bool,
      (s.start.state = .ready ∨ s.start.state = .failed ∨ (s.start.state = .off ∧ warm = false) →
        ∃ t, exec (.startRequest warm clear) s = .next t ∧ t.start.state = .verifying ∧ t.start.ignored = 0 ∧ t.start.clear = clear ∧
          t.mgmt.cmdctl = false ∧
          (∀ k c, getCtx s k = some c → ∃ c', getCtx t k = some c' ∧ c'.state = .tornDown ∧ c'.leaving = some .destroy) ∧
          ∀ e ∈ t.kernels, e.2.state.final = true ∨ (e.2.killed = true ∧ e.2.state = .draining)) ∧
      (s.start.state = .off → warm = true → exec (.startRequest warm clear) s = .next s) ∧
      (s.start.state = .verifying ∨ s.start.state = .training ∨ s.start.state = .clearing →
        ∃ t, exec (.startRequest warm clear) s = .next t ∧ t.ctxs = s.ctxs ∧
          t.start = { s.start with ignored := if s.start.ignored = 255 then 255 else s.start.ignored + 1 })) ∧
    (∃ t, exec .powerOn s = .next t ∧ t.start.state = .off ∧ t.ctxs = [] ∧ t.ident = s.ident ∧ t.fw = s.fw) ∧
    (s.start.state = .verifying → s.ctxs = [] →
      let a := if s.fw.activeB then s.fw.slotB else s.fw.slotA
      let b := if s.fw.activeB then s.fw.slotA else s.fw.slotB
      (∀ i, (a = some i ∧ imageOk s.fw a = true) ∨ (imageOk s.fw a = false ∧ b = some i ∧ imageOk s.fw b = true) →
        ∃ t, exec .verificationDone s = .next t ∧ t.start.state = .training ∧ t.ident = { s.ident with version := i.version, digest := i.digest }) ∧
      (imageOk s.fw a = false → imageOk s.fw b = false →
        ∃ t, exec .verificationDone s = .next t ∧ t.start.state = .failed ∧ t.start.result = 1)) ∧
    (∀ (stk : BitVec 16) (a b c d : BitVec 4) (up : Bool), s.start.state = .training → s.links.length = 4 →
      (∀ l ∈ s.links, l.locked = false) →
      ((∀ k ∈ hbmStacks s.ident.is768, (s.start.hbmStacks ||| stk).getLsbD k = true) → (∀ x ∈ [a, b, c, d], 4 ≤ x.toNat) →
        ∃ t, exec (.trainingDone stk a b c d up) s = .next t ∧ t.start.state = .clearing) ∧
      ((∃ x ∈ [a, b, c, d], x.toNat < 4) →
        ∃ t, exec (.trainingDone stk a b c d up) s = .next t ∧ t.start.state = .failed ∧ t.start.result = 2)) ∧
    (s.start.state = .clearing →
      ∃ t, exec (.clearingDone false) s = .next t ∧ t.start.state = .failed ∧ t.start.result = 3) ∧
    (∀ i, ∃ t, exec (.firmwareUpdate i) s = .next t ∧
      (if s.fw.activeB then t.fw.slotA = some i ∧ t.fw.slotB = s.fw.slotB else t.fw.slotB = some i ∧ t.fw.slotA = s.fw.slotA) ∧
      t.fw.activeB = (if imageOk s.fw (some i) then !s.fw.activeB else s.fw.activeB)) ∧
    (∀ r, ∃ t, exec (.spdmRequest r) s = .next t ∧
      t.spdm.last = some (r, if s.start.state = .off ∨ s.start.state = .verifying then .busy else spdmAnswer s r) ∧
      (r ≠ .keyExchange ∨ s.start.state = .off ∨ s.start.state = .verifying → t.spdm.linkKeys = s.spdm.linkKeys) ∧
      { t with spdm := s.spdm } = s) ∧
    (∀ x : Sensors, s.start.state = .ready → x.power.toNat ≤ 1000 * s.pwrLimit.toNat →
      ∃ t, exec (.telemetrySample x) s = .next t ∧ t.telem.power = x.power ∧ t.telem.hottest = x.hottest ∧ t.withholding = x.withholding ∧
        (x.hottest.toInt < 1100 → t.start = s.start ∧ t.ctxs = s.ctxs) ∧
        (1100 ≤ x.hottest.toInt → t.start.state = .failed ∧ t.start.result = 4 ∧
          ∀ k c, getCtx s k = some c → c.state = .ready ∨ c.state = .resident → ∃ c', getCtx t k = some c' ∧ c'.leaving = some .fault)) ∧
    (s.start.state = .ready → s.samp.on = true → s.samp.interval ≤ (s.clk - s.samp.began).toNat → s.samp.events.length = 12 →
      let seq := s.mgmt.smpwr + 1
      let a := s.samp.base + 128 * (seq.toNat % s.samp.entries)
      ((seq - s.mgmt.smprd).toNat ≤ s.samp.entries →
        ∃ t, exec .samplerInterval s = .next t ∧ t.mgmt.smpwr = seq ∧ t.counts = [] ∧ t.samp.began = s.clk ∧
          (s.mem.wf = true → hubCan s a 128 = true → spanHeld s a 128 = false →
            t.mem.bytes a 16 = bytesOfWords [lo32 s.clk, hi32 s.clk, seq, BitVec.ofNat 32 s.samp.lost.toNat])) ∧
      (s.samp.entries < (seq - s.mgmt.smprd).toNat →
        ∃ t, exec .samplerInterval s = .next t ∧ t.mgmt = s.mgmt ∧ t.samp.lost = true ∧ t.mem = s.mem)) ∧
    (s.start.state = .ready → oneUs ≤ (s.clk - s.windowClk).toNat → ∃ t, exec .budgetWindowRefresh s = .next t ∧ t.mem = s.mem ∧
      t.windowClk = s.windowClk + BitVec.ofNat 64 oneUs ∧ ∀ k c, getCtx t k = some c → c.bwAcc = 0 ∧ c.pwrAcc = 0) ∧
    (∀ pa, s.start.state = .ready → s.mgmt.evctl = false → (homeDie s pa).isSome = true →
      (∃ t, exec (.softError ⟨.dram pa, false⟩) s = .next t ∧ pa / 32 ∈ t.poison ∧ t.mem = s.mem) ∧
      (∃ t, exec (.softError ⟨.dram pa, true⟩) s = .next t ∧ t.poison = s.poison ∧ t.mem = s.mem))
end

