-- ==== Sys2Proof/Laws/Encoding.lean ====
section
/-!
SUPPORT. Encodings (02 R36, R39, R41): a field put into a word is the field taken out of it, and the codes of guards, targets, sub-field
classes and types read back.
-/
namespace Sys2Proof

/-! ### Words -/

theorem place_toNat (fields : List (Nat × Nat)) :
    (place fields).toNat = (fields.foldl (fun n f => n + 2 ^ f.2 * f.1) 0) % 2 ^ 32 := by
  unfold place; exact BitVec.toNat_ofNat _ _

theorem wordT_toNat (op : BitVec 9) (g : Guard) (s : BitVec 3) (a b : BitVec 9) :
    (wordT op g s a b).toNat = 2 ^ 23 * (op).toNat + 2 ^ 21 * (g.toBits).toNat + 2 ^ 18 * (s).toNat + 2 ^ 9 * (a).toNat + 2 ^ 0 * (b).toNat := by
  have hop := (op).isLt
  have hg := (g.toBits).isLt
  have hs := (s).isLt
  have ha := (a).isLt
  have hb := (b).isLt
  rw [wordT, place_toNat]
  simp only [List.foldl_cons, List.foldl_nil, Nat.zero_add]
  omega

theorem wordT_opcode (op : BitVec 9) (g : Guard) (s : BitVec 3) (a b : BitVec 9) : Word.opcode (wordT op g s a b) = op := by
  have hop := (op).isLt
  have hg := (g.toBits).isLt
  have hs := (s).isLt
  have ha := (a).isLt
  have hb := (b).isLt
  apply BitVec.eq_of_toNat_eq
  rw [Word.opcode, BitVec.extractLsb'_toNat, Nat.shiftRight_eq_div_pow, wordT_toNat]
  omega

theorem wordT_guardBits (op : BitVec 9) (g : Guard) (s : BitVec 3) (a b : BitVec 9) : Word.guardBits (wordT op g s a b) = g.toBits := by
  have hop := (op).isLt
  have hg := (g.toBits).isLt
  have hs := (s).isLt
  have ha := (a).isLt
  have hb := (b).isLt
  apply BitVec.eq_of_toNat_eq
  rw [Word.guardBits, BitVec.extractLsb'_toNat, Nat.shiftRight_eq_div_pow, wordT_toNat]
  omega

theorem wordT_sub (op : BitVec 9) (g : Guard) (s : BitVec 3) (a b : BitVec 9) : Word.sub (wordT op g s a b) = s := by
  have hop := (op).isLt
  have hg := (g.toBits).isLt
  have hs := (s).isLt
  have ha := (a).isLt
  have hb := (b).isLt
  apply BitVec.eq_of_toNat_eq
  rw [Word.sub, BitVec.extractLsb'_toNat, Nat.shiftRight_eq_div_pow, wordT_toNat]
  omega

theorem wordT_tgtA (op : BitVec 9) (g : Guard) (s : BitVec 3) (a b : BitVec 9) : Word.tgtA (wordT op g s a b) = a := by
  have hop := (op).isLt
  have hg := (g.toBits).isLt
  have hs := (s).isLt
  have ha := (a).isLt
  have hb := (b).isLt
  apply BitVec.eq_of_toNat_eq
  rw [Word.tgtA, BitVec.extractLsb'_toNat, Nat.shiftRight_eq_div_pow, wordT_toNat]
  omega

theorem wordT_tgtB (op : BitVec 9) (g : Guard) (s : BitVec 3) (a b : BitVec 9) : Word.tgtB (wordT op g s a b) = b := by
  have hop := (op).isLt
  have hg := (g.toBits).isLt
  have hs := (s).isLt
  have ha := (a).isLt
  have hb := (b).isLt
  apply BitVec.eq_of_toNat_eq
  rw [Word.tgtB, BitVec.extractLsb'_toNat, Nat.shiftRight_eq_div_pow, wordT_toNat]
  omega

theorem wordI_toNat (op : BitVec 9) (g : Guard) (i : BitVec 12) (t : BitVec 9) :
    (wordI op g i t).toNat = 2 ^ 23 * (op).toNat + 2 ^ 21 * (g.toBits).toNat + 2 ^ 9 * (i).toNat + 2 ^ 0 * (t).toNat := by
  have hop := (op).isLt
  have hg := (g.toBits).isLt
  have hi := (i).isLt
  have ht := (t).isLt
  rw [wordI, place_toNat]
  simp only [List.foldl_cons, List.foldl_nil, Nat.zero_add]
  omega

theorem wordI_opcode (op : BitVec 9) (g : Guard) (i : BitVec 12) (t : BitVec 9) : Word.opcode (wordI op g i t) = op := by
  have hop := (op).isLt
  have hg := (g.toBits).isLt
  have hi := (i).isLt
  have ht := (t).isLt
  apply BitVec.eq_of_toNat_eq
  rw [Word.opcode, BitVec.extractLsb'_toNat, Nat.shiftRight_eq_div_pow, wordI_toNat]
  omega

theorem wordI_guardBits (op : BitVec 9) (g : Guard) (i : BitVec 12) (t : BitVec 9) : Word.guardBits (wordI op g i t) = g.toBits := by
  have hop := (op).isLt
  have hg := (g.toBits).isLt
  have hi := (i).isLt
  have ht := (t).isLt
  apply BitVec.eq_of_toNat_eq
  rw [Word.guardBits, BitVec.extractLsb'_toNat, Nat.shiftRight_eq_div_pow, wordI_toNat]
  omega

theorem wordI_imm12 (op : BitVec 9) (g : Guard) (i : BitVec 12) (t : BitVec 9) : Word.imm12 (wordI op g i t) = i := by
  have hop := (op).isLt
  have hg := (g.toBits).isLt
  have hi := (i).isLt
  have ht := (t).isLt
  apply BitVec.eq_of_toNat_eq
  rw [Word.imm12, BitVec.extractLsb'_toNat, Nat.shiftRight_eq_div_pow, wordI_toNat]
  omega

theorem wordI_tgtB (op : BitVec 9) (g : Guard) (i : BitVec 12) (t : BitVec 9) : Word.tgtB (wordI op g i t) = t := by
  have hop := (op).isLt
  have hg := (g.toBits).isLt
  have hi := (i).isLt
  have ht := (t).isLt
  apply BitVec.eq_of_toNat_eq
  rw [Word.tgtB, BitVec.extractLsb'_toNat, Nat.shiftRight_eq_div_pow, wordI_toNat]
  omega

theorem wordM_toNat (op : BitVec 9) (g : Guard) (k : BitVec 5) (i : BitVec 7) (t : BitVec 9) :
    (wordM op g k i t).toNat = 2 ^ 23 * (op).toNat + 2 ^ 21 * (g.toBits).toNat + 2 ^ 16 * (k).toNat + 2 ^ 9 * (i).toNat + 2 ^ 0 * (t).toNat := by
  have hop := (op).isLt
  have hg := (g.toBits).isLt
  have hk := (k).isLt
  have hi := (i).isLt
  have ht := (t).isLt
  rw [wordM, place_toNat]
  simp only [List.foldl_cons, List.foldl_nil, Nat.zero_add]
  omega

theorem wordM_opcode (op : BitVec 9) (g : Guard) (k : BitVec 5) (i : BitVec 7) (t : BitVec 9) : Word.opcode (wordM op g k i t) = op := by
  have hop := (op).isLt
  have hg := (g.toBits).isLt
  have hk := (k).isLt
  have hi := (i).isLt
  have ht := (t).isLt
  apply BitVec.eq_of_toNat_eq
  rw [Word.opcode, BitVec.extractLsb'_toNat, Nat.shiftRight_eq_div_pow, wordM_toNat]
  omega

theorem wordM_guardBits (op : BitVec 9) (g : Guard) (k : BitVec 5) (i : BitVec 7) (t : BitVec 9) : Word.guardBits (wordM op g k i t) = g.toBits := by
  have hop := (op).isLt
  have hg := (g.toBits).isLt
  have hk := (k).isLt
  have hi := (i).isLt
  have ht := (t).isLt
  apply BitVec.eq_of_toNat_eq
  rw [Word.guardBits, BitVec.extractLsb'_toNat, Nat.shiftRight_eq_div_pow, wordM_toNat]
  omega

theorem wordM_slot (op : BitVec 9) (g : Guard) (k : BitVec 5) (i : BitVec 7) (t : BitVec 9) : Word.slot (wordM op g k i t) = k := by
  have hop := (op).isLt
  have hg := (g.toBits).isLt
  have hk := (k).isLt
  have hi := (i).isLt
  have ht := (t).isLt
  apply BitVec.eq_of_toNat_eq
  rw [Word.slot, BitVec.extractLsb'_toNat, Nat.shiftRight_eq_div_pow, wordM_toNat]
  omega

theorem wordM_imm7 (op : BitVec 9) (g : Guard) (k : BitVec 5) (i : BitVec 7) (t : BitVec 9) : Word.imm7 (wordM op g k i t) = i := by
  have hop := (op).isLt
  have hg := (g.toBits).isLt
  have hk := (k).isLt
  have hi := (i).isLt
  have ht := (t).isLt
  apply BitVec.eq_of_toNat_eq
  rw [Word.imm7, BitVec.extractLsb'_toNat, Nat.shiftRight_eq_div_pow, wordM_toNat]
  omega

theorem wordM_tgtB (op : BitVec 9) (g : Guard) (k : BitVec 5) (i : BitVec 7) (t : BitVec 9) : Word.tgtB (wordM op g k i t) = t := by
  have hop := (op).isLt
  have hg := (g.toBits).isLt
  have hk := (k).isLt
  have hi := (i).isLt
  have ht := (t).isLt
  apply BitVec.eq_of_toNat_eq
  rw [Word.tgtB, BitVec.extractLsb'_toNat, Nat.shiftRight_eq_div_pow, wordM_toNat]
  omega

theorem wordK_toNat (op : BitVec 7) (i : BitVec 16) (t : BitVec 9) :
    (wordK op i t).toNat = 2 ^ 25 * (op).toNat + 2 ^ 9 * (i).toNat + 2 ^ 0 * (t).toNat := by
  have hop := (op).isLt
  have hi := (i).isLt
  have ht := (t).isLt
  rw [wordK, place_toNat]
  simp only [List.foldl_cons, List.foldl_nil, Nat.zero_add]
  omega

theorem wordK_kBits (op : BitVec 7) (i : BitVec 16) (t : BitVec 9) : Word.kBits (wordK op i t) = op := by
  have hop := (op).isLt
  have hi := (i).isLt
  have ht := (t).isLt
  apply BitVec.eq_of_toNat_eq
  rw [Word.kBits, BitVec.extractLsb'_toNat, Nat.shiftRight_eq_div_pow, wordK_toNat]
  omega

theorem wordK_imm16 (op : BitVec 7) (i : BitVec 16) (t : BitVec 9) : Word.imm16 (wordK op i t) = i := by
  have hop := (op).isLt
  have hi := (i).isLt
  have ht := (t).isLt
  apply BitVec.eq_of_toNat_eq
  rw [Word.imm16, BitVec.extractLsb'_toNat, Nat.shiftRight_eq_div_pow, wordK_toNat]
  omega

theorem wordK_tgtB (op : BitVec 7) (i : BitVec 16) (t : BitVec 9) : Word.tgtB (wordK op i t) = t := by
  have hop := (op).isLt
  have hi := (i).isLt
  have ht := (t).isLt
  apply BitVec.eq_of_toNat_eq
  rw [Word.tgtB, BitVec.extractLsb'_toNat, Nat.shiftRight_eq_div_pow, wordK_toNat]
  omega

/-- Both targets of a word without a result are no target. -/
theorem wordN_low (op : BitVec 9) (g : Guard) (s : BitVec 3) : (wordN op g s).extractLsb' 0 18 = 0x3FFFF := by
  have hop := op.isLt
  have hg := g.toBits.isLt
  have hs := s.isLt
  apply BitVec.eq_of_toNat_eq
  rw [BitVec.extractLsb'_toNat, Nat.shiftRight_eq_div_pow, wordN, wordT_toNat]
  simp
  omega

/-- A word of the first formats never reads as one of the K format, unless its opcode is 0x1F8 or above. -/
theorem wordT_kBits (op : BitVec 9) (g : Guard) (s : BitVec 3) (a b : BitVec 9) : (Word.kBits (wordT op g s a b)).toNat = op.toNat / 4 := by
  have hop := op.isLt
  have hg := g.toBits.isLt
  have hs := s.isLt
  have ha := a.isLt
  have hb := b.isLt
  rw [Word.kBits, BitVec.extractLsb'_toNat, Nat.shiftRight_eq_div_pow, wordT_toNat]
  omega

theorem wordI_kBits (op : BitVec 9) (g : Guard) (i : BitVec 12) (t : BitVec 9) : (Word.kBits (wordI op g i t)).toNat = op.toNat / 4 := by
  have hop := op.isLt
  have hg := g.toBits.isLt
  have hi := i.isLt
  have ht := t.isLt
  rw [Word.kBits, BitVec.extractLsb'_toNat, Nat.shiftRight_eq_div_pow, wordI_toNat]
  omega

theorem wordM_kBits (op : BitVec 9) (g : Guard) (k : BitVec 5) (i : BitVec 7) (t : BitVec 9) :
    (Word.kBits (wordM op g k i t)).toNat = op.toNat / 4 := by
  have hop := op.isLt
  have hg := g.toBits.isLt
  have hk := k.isLt
  have hi := i.isLt
  have ht := t.isLt
  rw [Word.kBits, BitVec.extractLsb'_toNat, Nat.shiftRight_eq_div_pow, wordM_toNat]
  omega

/-! ### Codes -/

theorem guard_rt (g : Guard) : Guard.ofBits g.toBits = some g := by cases g <;> rfl

theorem target_rt (t : Target) : Target.ofBits t.toBits = some t := by
  cases t with
  | none => rfl
  | write w => revert w; decide
  | opA i => revert i; decide
  | opB i => revert i; decide
  | opC i => revert i; decide
  | guard i => revert i; decide

theorem ClsA_rt (s : ClsA) : ClsA.ofBits s.toBits = some s := by cases s <;> rfl
theorem ClsS_rt (s : ClsS) : ClsS.ofBits s.toBits = some s := by cases s <;> rfl
theorem ClsB_rt (s : ClsB) : ClsB.ofBits s.toBits = some s := by cases s <;> rfl
theorem ClsL_rt (s : ClsL) : ClsL.ofBits s.toBits = some s := by cases s <;> rfl
theorem ClsW_rt (s : ClsW) : ClsW.ofBits s.toBits = some s := by cases s <;> rfl
theorem ClsE_rt (s : ClsE) : ClsE.ofBits s.toBits = some s := by cases s <;> rfl
theorem ClsCmp_rt (s : ClsCmp) : ClsCmp.ofBits s.toBits = some s := by cases s <;> rfl
theorem ClsSh_rt (s : ClsSh) : ClsSh.ofBits s.toBits = some s := by cases s <;> rfl
theorem ClsV_rt (s : ClsV) : ClsV.ofBits s.toBits = some s := by cases s <;> rfl
theorem ClsRo_rt (s : ClsRo) : ClsRo.ofBits s.toBits = some s := by cases s <;> rfl
theorem ClsLm_rt (s : ClsLm) : ClsLm.ofBits s.toBits = some s := by cases s <;> rfl
theorem Round_rt (s : Round) : Round.ofBits s.toBits = some s := by cases s <;> rfl
theorem ClsFc_rt (s : ClsFc) : ClsFc.ofBits s.toBits = some s := by cases s <;> rfl
theorem ClsSc_rt (s : ClsSc) : ClsSc.ofBits s.toBits = some s := by cases s <;> rfl
theorem ClsPk_rt (s : ClsPk) : ClsPk.ofBits s.toBits = some s := by cases s <;> rfl
theorem ClsDi_rt (s : ClsDi) : ClsDi.ofBits s.toBits = some s := by cases s <;> rfl
theorem ClsDf_rt (s : ClsDf) : ClsDf.ofBits s.toBits = some s := by cases s <;> rfl
theorem ClsMm_rt (s : ClsMm) : ClsMm.ofBits s.toBits = some s := by cases s <;> rfl
theorem ClsLd_rt (s : ClsLd) : ClsLd.ofBits s.toBits = some s := by cases s <;> rfl
theorem ClsP_rt (s : ClsP) : ClsP.ofBits s.toBits = some s := by cases s <;> rfl
theorem ClsCw_rt (s : ClsCw) : ClsCw.ofBits s.toBits = some s := by cases s <;> rfl
theorem ClsCr_rt (s : ClsCr) : ClsCr.ofBits s.toBits = some s := by cases s <;> rfl
theorem NumTy_rt (s : NumTy) : NumTy.ofBits s.toBits = some s := by cases s <;> rfl
theorem AtomOp_rt (s : AtomOp) : AtomOp.ofBits s.toBits = some s := by cases s <;> rfl
theorem Order_rt (s : Order) : Order.ofBits s.toBits = some s := by cases s <;> rfl
theorem ClsH_rt (s : ClsH) : ClsH.ofBits s.toBits = some s := by obtain ⟨a, b⟩ := s; cases a <;> cases b <;> rfl
theorem ClsHc_rt (s : ClsHc) : ClsHc.ofBits s.toBits = some s := by obtain ⟨a, b⟩ := s; cases a <;> cases b <;> rfl
theorem HFmt_rt (s : HFmt) : HFmt.ofBits s.toBits = some s := by cases s <;> rfl
theorem Scope_rt (s : Scope) : Scope.ofBits s.toBits = some s := by cases s <;> rfl
theorem RKind_rt (s : RKind) : RKind.ofBits s.toBits = some s := by cases s <;> rfl
theorem RRule_rt (s : RRule) : RRule.ofBits s.toBits = some s := by cases s <;> rfl

end Sys2Proof
end

