-- ==== Sys2Proof/Laws/State.lean ====
section
/-!
SUPPORT. One lemma per field per update of State, and the laws of sparse maps and tables (Machine/Ops.lean).
-/
namespace Sys2Proof.Machine

/-! ### Updates of one entity leave every other field alone -/

@[simp] theorem setCtx_start (s : State) (c : Nat) (x : Context) : (setCtx s c x).start = s.start := rfl
@[simp] theorem setCtx_ident (s : State) (c : Nat) (x : Context) : (setCtx s c x).ident = s.ident := rfl
@[simp] theorem setCtx_fw (s : State) (c : Nat) (x : Context) : (setCtx s c x).fw = s.fw := rfl
@[simp] theorem setCtx_spdm (s : State) (c : Nat) (x : Context) : (setCtx s c x).spdm = s.spdm := rfl
@[simp] theorem setCtx_clk (s : State) (c : Nat) (x : Context) : (setCtx s c x).clk = s.clk := rfl
@[simp] theorem setCtx_split (s : State) (c : Nat) (x : Context) : (setCtx s c x).split = s.split := rfl
@[simp] theorem setCtx_pwrLimit (s : State) (c : Nat) (x : Context) : (setCtx s c x).pwrLimit = s.pwrLimit := rfl
@[simp] theorem setCtx_withholding (s : State) (c : Nat) (x : Context) : (setCtx s c x).withholding = s.withholding := rfl
@[simp] theorem setCtx_warned (s : State) (c : Nat) (x : Context) : (setCtx s c x).warned = s.warned := rfl
@[simp] theorem setCtx_telem (s : State) (c : Nat) (x : Context) : (setCtx s c x).telem = s.telem := rfl
@[simp] theorem setCtx_weights (s : State) (c : Nat) (x : Context) : (setCtx s c x).weights = s.weights := rfl
@[simp] theorem setCtx_mem (s : State) (c : Nat) (x : Context) : (setCtx s c x).mem = s.mem := rfl
@[simp] theorem setCtx_poison (s : State) (c : Nat) (x : Context) : (setCtx s c x).poison = s.poison := rfl
@[simp] theorem setCtx_cache (s : State) (c : Nat) (x : Context) : (setCtx s c x).cache = s.cache := rfl
@[simp] theorem setCtx_held (s : State) (c : Nat) (x : Context) : (setCtx s c x).held = s.held := rfl
@[simp] theorem setCtx_tlb (s : State) (c : Nat) (x : Context) : (setCtx s c x).tlb = s.tlb := rfl
@[simp] theorem setCtx_mgmt (s : State) (c : Nat) (x : Context) : (setCtx s c x).mgmt = s.mgmt := rfl
@[simp] theorem setCtx_links (s : State) (c : Nat) (x : Context) : (setCtx s c x).links = s.links := rfl
@[simp] theorem setCtx_host (s : State) (c : Nat) (x : Context) : (setCtx s c x).host = s.host := rfl
@[simp] theorem setCtx_peers (s : State) (c : Nat) (x : Context) : (setCtx s c x).peers = s.peers := rfl
@[simp] theorem setCtx_peerKernels (s : State) (c : Nat) (x : Context) : (setCtx s c x).peerKernels = s.peerKernels := rfl
@[simp] theorem setCtx_peerLost (s : State) (c : Nat) (x : Context) : (setCtx s c x).peerLost = s.peerLost := rfl
@[simp] theorem setCtx_apertures (s : State) (c : Nat) (x : Context) : (setCtx s c x).apertures = s.apertures := rfl
@[simp] theorem setCtx_ctxs (s : State) (c : Nat) (x : Context) : (setCtx s c x).ctxs = tput s.ctxs c x := rfl
@[simp] theorem setCtx_nextKid (s : State) (c : Nat) (x : Context) : (setCtx s c x).nextKid = s.nextKid := rfl
@[simp] theorem setCtx_kernels (s : State) (c : Nat) (x : Context) : (setCtx s c x).kernels = s.kernels := rfl
@[simp] theorem setCtx_groups (s : State) (c : Nat) (x : Context) : (setCtx s c x).groups = s.groups := rfl
@[simp] theorem setCtx_warps (s : State) (c : Nat) (x : Context) : (setCtx s c x).warps = s.warps := rfl
@[simp] theorem setCtx_copies (s : State) (c : Nat) (x : Context) : (setCtx s c x).copies = s.copies := rfl
@[simp] theorem setCtx_jobs (s : State) (c : Nat) (x : Context) : (setCtx s c x).jobs = s.jobs := rfl
@[simp] theorem setCtx_parts (s : State) (c : Nat) (x : Context) : (setCtx s c x).parts = s.parts := rfl
@[simp] theorem setCtx_progress (s : State) (c : Nat) (x : Context) : (setCtx s c x).progress = s.progress := rfl
@[simp] theorem setCtx_turn (s : State) (c : Nat) (x : Context) : (setCtx s c x).turn = s.turn := rfl
@[simp] theorem setCtx_samp (s : State) (c : Nat) (x : Context) : (setCtx s c x).samp = s.samp := rfl
@[simp] theorem setCtx_counts (s : State) (c : Nat) (x : Context) : (setCtx s c x).counts = s.counts := rfl
@[simp] theorem setCtx_hostRead (s : State) (c : Nat) (x : Context) : (setCtx s c x).hostRead = s.hostRead := rfl
@[simp] theorem setCtx_ecc (s : State) (c : Nat) (x : Context) : (setCtx s c x).ecc = s.ecc := rfl
@[simp] theorem setCtx_cur (s : State) (c : Nat) (x : Context) : (setCtx s c x).cur = s.cur := rfl
@[simp] theorem setCtx_agenda (s : State) (c : Nat) (x : Context) : (setCtx s c x).agenda = s.agenda := rfl
@[simp] theorem setCtx_tick (s : State) (c : Nat) (x : Context) : (setCtx s c x).tick = s.tick := rfl
@[simp] theorem setCtx_uid (s : State) (c : Nat) (x : Context) : (setCtx s c x).uid = s.uid := rfl
@[simp] theorem setCtx_windowClk (s : State) (c : Nat) (x : Context) : (setCtx s c x).windowClk = s.windowClk := rfl
@[simp] theorem setCtx_sramUsed (s : State) (c : Nat) (x : Context) : (setCtx s c x).sramUsed = s.sramUsed := rfl
@[simp] theorem setWarp_start (s : State) (w : Nat) (x : Warp) : (setWarp s w x).start = s.start := rfl
@[simp] theorem setWarp_ident (s : State) (w : Nat) (x : Warp) : (setWarp s w x).ident = s.ident := rfl
@[simp] theorem setWarp_fw (s : State) (w : Nat) (x : Warp) : (setWarp s w x).fw = s.fw := rfl
@[simp] theorem setWarp_spdm (s : State) (w : Nat) (x : Warp) : (setWarp s w x).spdm = s.spdm := rfl
@[simp] theorem setWarp_clk (s : State) (w : Nat) (x : Warp) : (setWarp s w x).clk = s.clk := rfl
@[simp] theorem setWarp_split (s : State) (w : Nat) (x : Warp) : (setWarp s w x).split = s.split := rfl
@[simp] theorem setWarp_pwrLimit (s : State) (w : Nat) (x : Warp) : (setWarp s w x).pwrLimit = s.pwrLimit := rfl
@[simp] theorem setWarp_withholding (s : State) (w : Nat) (x : Warp) : (setWarp s w x).withholding = s.withholding := rfl
@[simp] theorem setWarp_warned (s : State) (w : Nat) (x : Warp) : (setWarp s w x).warned = s.warned := rfl
@[simp] theorem setWarp_telem (s : State) (w : Nat) (x : Warp) : (setWarp s w x).telem = s.telem := rfl
@[simp] theorem setWarp_weights (s : State) (w : Nat) (x : Warp) : (setWarp s w x).weights = s.weights := rfl
@[simp] theorem setWarp_mem (s : State) (w : Nat) (x : Warp) : (setWarp s w x).mem = s.mem := rfl
@[simp] theorem setWarp_poison (s : State) (w : Nat) (x : Warp) : (setWarp s w x).poison = s.poison := rfl
@[simp] theorem setWarp_cache (s : State) (w : Nat) (x : Warp) : (setWarp s w x).cache = s.cache := rfl
@[simp] theorem setWarp_held (s : State) (w : Nat) (x : Warp) : (setWarp s w x).held = s.held := rfl
@[simp] theorem setWarp_tlb (s : State) (w : Nat) (x : Warp) : (setWarp s w x).tlb = s.tlb := rfl
@[simp] theorem setWarp_mgmt (s : State) (w : Nat) (x : Warp) : (setWarp s w x).mgmt = s.mgmt := rfl
@[simp] theorem setWarp_links (s : State) (w : Nat) (x : Warp) : (setWarp s w x).links = s.links := rfl
@[simp] theorem setWarp_host (s : State) (w : Nat) (x : Warp) : (setWarp s w x).host = s.host := rfl
@[simp] theorem setWarp_peers (s : State) (w : Nat) (x : Warp) : (setWarp s w x).peers = s.peers := rfl
@[simp] theorem setWarp_peerKernels (s : State) (w : Nat) (x : Warp) : (setWarp s w x).peerKernels = s.peerKernels := rfl
@[simp] theorem setWarp_peerLost (s : State) (w : Nat) (x : Warp) : (setWarp s w x).peerLost = s.peerLost := rfl
@[simp] theorem setWarp_apertures (s : State) (w : Nat) (x : Warp) : (setWarp s w x).apertures = s.apertures := rfl
@[simp] theorem setWarp_ctxs (s : State) (w : Nat) (x : Warp) : (setWarp s w x).ctxs = s.ctxs := rfl
@[simp] theorem setWarp_nextKid (s : State) (w : Nat) (x : Warp) : (setWarp s w x).nextKid = s.nextKid := rfl
@[simp] theorem setWarp_kernels (s : State) (w : Nat) (x : Warp) : (setWarp s w x).kernels = s.kernels := rfl
@[simp] theorem setWarp_groups (s : State) (w : Nat) (x : Warp) : (setWarp s w x).groups = s.groups := rfl
@[simp] theorem setWarp_warps (s : State) (w : Nat) (x : Warp) : (setWarp s w x).warps = tput s.warps w x := rfl
@[simp] theorem setWarp_copies (s : State) (w : Nat) (x : Warp) : (setWarp s w x).copies = s.copies := rfl
@[simp] theorem setWarp_jobs (s : State) (w : Nat) (x : Warp) : (setWarp s w x).jobs = s.jobs := rfl
@[simp] theorem setWarp_parts (s : State) (w : Nat) (x : Warp) : (setWarp s w x).parts = s.parts := rfl
@[simp] theorem setWarp_progress (s : State) (w : Nat) (x : Warp) : (setWarp s w x).progress = s.progress := rfl
@[simp] theorem setWarp_turn (s : State) (w : Nat) (x : Warp) : (setWarp s w x).turn = s.turn := rfl
@[simp] theorem setWarp_samp (s : State) (w : Nat) (x : Warp) : (setWarp s w x).samp = s.samp := rfl
@[simp] theorem setWarp_counts (s : State) (w : Nat) (x : Warp) : (setWarp s w x).counts = s.counts := rfl
@[simp] theorem setWarp_hostRead (s : State) (w : Nat) (x : Warp) : (setWarp s w x).hostRead = s.hostRead := rfl
@[simp] theorem setWarp_ecc (s : State) (w : Nat) (x : Warp) : (setWarp s w x).ecc = s.ecc := rfl
@[simp] theorem setWarp_cur (s : State) (w : Nat) (x : Warp) : (setWarp s w x).cur = s.cur := rfl
@[simp] theorem setWarp_agenda (s : State) (w : Nat) (x : Warp) : (setWarp s w x).agenda = s.agenda := rfl
@[simp] theorem setWarp_tick (s : State) (w : Nat) (x : Warp) : (setWarp s w x).tick = s.tick := rfl
@[simp] theorem setWarp_uid (s : State) (w : Nat) (x : Warp) : (setWarp s w x).uid = s.uid := rfl
@[simp] theorem setWarp_windowClk (s : State) (w : Nat) (x : Warp) : (setWarp s w x).windowClk = s.windowClk := rfl
@[simp] theorem setWarp_sramUsed (s : State) (w : Nat) (x : Warp) : (setWarp s w x).sramUsed = s.sramUsed := rfl
@[simp] theorem setGroup_start (s : State) (g : Nat) (x : Group) : (setGroup s g x).start = s.start := rfl
@[simp] theorem setGroup_ident (s : State) (g : Nat) (x : Group) : (setGroup s g x).ident = s.ident := rfl
@[simp] theorem setGroup_fw (s : State) (g : Nat) (x : Group) : (setGroup s g x).fw = s.fw := rfl
@[simp] theorem setGroup_spdm (s : State) (g : Nat) (x : Group) : (setGroup s g x).spdm = s.spdm := rfl
@[simp] theorem setGroup_clk (s : State) (g : Nat) (x : Group) : (setGroup s g x).clk = s.clk := rfl
@[simp] theorem setGroup_split (s : State) (g : Nat) (x : Group) : (setGroup s g x).split = s.split := rfl
@[simp] theorem setGroup_pwrLimit (s : State) (g : Nat) (x : Group) : (setGroup s g x).pwrLimit = s.pwrLimit := rfl
@[simp] theorem setGroup_withholding (s : State) (g : Nat) (x : Group) : (setGroup s g x).withholding = s.withholding := rfl
@[simp] theorem setGroup_warned (s : State) (g : Nat) (x : Group) : (setGroup s g x).warned = s.warned := rfl
@[simp] theorem setGroup_telem (s : State) (g : Nat) (x : Group) : (setGroup s g x).telem = s.telem := rfl
@[simp] theorem setGroup_weights (s : State) (g : Nat) (x : Group) : (setGroup s g x).weights = s.weights := rfl
@[simp] theorem setGroup_mem (s : State) (g : Nat) (x : Group) : (setGroup s g x).mem = s.mem := rfl
@[simp] theorem setGroup_poison (s : State) (g : Nat) (x : Group) : (setGroup s g x).poison = s.poison := rfl
@[simp] theorem setGroup_cache (s : State) (g : Nat) (x : Group) : (setGroup s g x).cache = s.cache := rfl
@[simp] theorem setGroup_held (s : State) (g : Nat) (x : Group) : (setGroup s g x).held = s.held := rfl
@[simp] theorem setGroup_tlb (s : State) (g : Nat) (x : Group) : (setGroup s g x).tlb = s.tlb := rfl
@[simp] theorem setGroup_mgmt (s : State) (g : Nat) (x : Group) : (setGroup s g x).mgmt = s.mgmt := rfl
@[simp] theorem setGroup_links (s : State) (g : Nat) (x : Group) : (setGroup s g x).links = s.links := rfl
@[simp] theorem setGroup_host (s : State) (g : Nat) (x : Group) : (setGroup s g x).host = s.host := rfl
@[simp] theorem setGroup_peers (s : State) (g : Nat) (x : Group) : (setGroup s g x).peers = s.peers := rfl
@[simp] theorem setGroup_peerKernels (s : State) (g : Nat) (x : Group) : (setGroup s g x).peerKernels = s.peerKernels := rfl
@[simp] theorem setGroup_peerLost (s : State) (g : Nat) (x : Group) : (setGroup s g x).peerLost = s.peerLost := rfl
@[simp] theorem setGroup_apertures (s : State) (g : Nat) (x : Group) : (setGroup s g x).apertures = s.apertures := rfl
@[simp] theorem setGroup_ctxs (s : State) (g : Nat) (x : Group) : (setGroup s g x).ctxs = s.ctxs := rfl
@[simp] theorem setGroup_nextKid (s : State) (g : Nat) (x : Group) : (setGroup s g x).nextKid = s.nextKid := rfl
@[simp] theorem setGroup_kernels (s : State) (g : Nat) (x : Group) : (setGroup s g x).kernels = s.kernels := rfl
@[simp] theorem setGroup_groups (s : State) (g : Nat) (x : Group) : (setGroup s g x).groups = tput s.groups g x := rfl
@[simp] theorem setGroup_warps (s : State) (g : Nat) (x : Group) : (setGroup s g x).warps = s.warps := rfl
@[simp] theorem setGroup_copies (s : State) (g : Nat) (x : Group) : (setGroup s g x).copies = s.copies := rfl
@[simp] theorem setGroup_jobs (s : State) (g : Nat) (x : Group) : (setGroup s g x).jobs = s.jobs := rfl
@[simp] theorem setGroup_parts (s : State) (g : Nat) (x : Group) : (setGroup s g x).parts = s.parts := rfl
@[simp] theorem setGroup_progress (s : State) (g : Nat) (x : Group) : (setGroup s g x).progress = s.progress := rfl
@[simp] theorem setGroup_turn (s : State) (g : Nat) (x : Group) : (setGroup s g x).turn = s.turn := rfl
@[simp] theorem setGroup_samp (s : State) (g : Nat) (x : Group) : (setGroup s g x).samp = s.samp := rfl
@[simp] theorem setGroup_counts (s : State) (g : Nat) (x : Group) : (setGroup s g x).counts = s.counts := rfl
@[simp] theorem setGroup_hostRead (s : State) (g : Nat) (x : Group) : (setGroup s g x).hostRead = s.hostRead := rfl
@[simp] theorem setGroup_ecc (s : State) (g : Nat) (x : Group) : (setGroup s g x).ecc = s.ecc := rfl
@[simp] theorem setGroup_cur (s : State) (g : Nat) (x : Group) : (setGroup s g x).cur = s.cur := rfl
@[simp] theorem setGroup_agenda (s : State) (g : Nat) (x : Group) : (setGroup s g x).agenda = s.agenda := rfl
@[simp] theorem setGroup_tick (s : State) (g : Nat) (x : Group) : (setGroup s g x).tick = s.tick := rfl
@[simp] theorem setGroup_uid (s : State) (g : Nat) (x : Group) : (setGroup s g x).uid = s.uid := rfl
@[simp] theorem setGroup_windowClk (s : State) (g : Nat) (x : Group) : (setGroup s g x).windowClk = s.windowClk := rfl
@[simp] theorem setGroup_sramUsed (s : State) (g : Nat) (x : Group) : (setGroup s g x).sramUsed = s.sramUsed := rfl
@[simp] theorem setKernel_start (s : State) (k : Nat) (x : Kernel) : (setKernel s k x).start = s.start := rfl
@[simp] theorem setKernel_ident (s : State) (k : Nat) (x : Kernel) : (setKernel s k x).ident = s.ident := rfl
@[simp] theorem setKernel_fw (s : State) (k : Nat) (x : Kernel) : (setKernel s k x).fw = s.fw := rfl
@[simp] theorem setKernel_spdm (s : State) (k : Nat) (x : Kernel) : (setKernel s k x).spdm = s.spdm := rfl
@[simp] theorem setKernel_clk (s : State) (k : Nat) (x : Kernel) : (setKernel s k x).clk = s.clk := rfl
@[simp] theorem setKernel_split (s : State) (k : Nat) (x : Kernel) : (setKernel s k x).split = s.split := rfl
@[simp] theorem setKernel_pwrLimit (s : State) (k : Nat) (x : Kernel) : (setKernel s k x).pwrLimit = s.pwrLimit := rfl
@[simp] theorem setKernel_withholding (s : State) (k : Nat) (x : Kernel) : (setKernel s k x).withholding = s.withholding := rfl
@[simp] theorem setKernel_warned (s : State) (k : Nat) (x : Kernel) : (setKernel s k x).warned = s.warned := rfl
@[simp] theorem setKernel_telem (s : State) (k : Nat) (x : Kernel) : (setKernel s k x).telem = s.telem := rfl
@[simp] theorem setKernel_weights (s : State) (k : Nat) (x : Kernel) : (setKernel s k x).weights = s.weights := rfl
@[simp] theorem setKernel_mem (s : State) (k : Nat) (x : Kernel) : (setKernel s k x).mem = s.mem := rfl
@[simp] theorem setKernel_poison (s : State) (k : Nat) (x : Kernel) : (setKernel s k x).poison = s.poison := rfl
@[simp] theorem setKernel_cache (s : State) (k : Nat) (x : Kernel) : (setKernel s k x).cache = s.cache := rfl
@[simp] theorem setKernel_held (s : State) (k : Nat) (x : Kernel) : (setKernel s k x).held = s.held := rfl
@[simp] theorem setKernel_tlb (s : State) (k : Nat) (x : Kernel) : (setKernel s k x).tlb = s.tlb := rfl
@[simp] theorem setKernel_mgmt (s : State) (k : Nat) (x : Kernel) : (setKernel s k x).mgmt = s.mgmt := rfl
@[simp] theorem setKernel_links (s : State) (k : Nat) (x : Kernel) : (setKernel s k x).links = s.links := rfl
@[simp] theorem setKernel_host (s : State) (k : Nat) (x : Kernel) : (setKernel s k x).host = s.host := rfl
@[simp] theorem setKernel_peers (s : State) (k : Nat) (x : Kernel) : (setKernel s k x).peers = s.peers := rfl
@[simp] theorem setKernel_peerKernels (s : State) (k : Nat) (x : Kernel) : (setKernel s k x).peerKernels = s.peerKernels := rfl
@[simp] theorem setKernel_peerLost (s : State) (k : Nat) (x : Kernel) : (setKernel s k x).peerLost = s.peerLost := rfl
@[simp] theorem setKernel_apertures (s : State) (k : Nat) (x : Kernel) : (setKernel s k x).apertures = s.apertures := rfl
@[simp] theorem setKernel_ctxs (s : State) (k : Nat) (x : Kernel) : (setKernel s k x).ctxs = s.ctxs := rfl
@[simp] theorem setKernel_nextKid (s : State) (k : Nat) (x : Kernel) : (setKernel s k x).nextKid = s.nextKid := rfl
@[simp] theorem setKernel_kernels (s : State) (k : Nat) (x : Kernel) : (setKernel s k x).kernels = tput s.kernels k x := rfl
@[simp] theorem setKernel_groups (s : State) (k : Nat) (x : Kernel) : (setKernel s k x).groups = s.groups := rfl
@[simp] theorem setKernel_warps (s : State) (k : Nat) (x : Kernel) : (setKernel s k x).warps = s.warps := rfl
@[simp] theorem setKernel_copies (s : State) (k : Nat) (x : Kernel) : (setKernel s k x).copies = s.copies := rfl
@[simp] theorem setKernel_jobs (s : State) (k : Nat) (x : Kernel) : (setKernel s k x).jobs = s.jobs := rfl
@[simp] theorem setKernel_parts (s : State) (k : Nat) (x : Kernel) : (setKernel s k x).parts = s.parts := rfl
@[simp] theorem setKernel_progress (s : State) (k : Nat) (x : Kernel) : (setKernel s k x).progress = s.progress := rfl
@[simp] theorem setKernel_turn (s : State) (k : Nat) (x : Kernel) : (setKernel s k x).turn = s.turn := rfl
@[simp] theorem setKernel_samp (s : State) (k : Nat) (x : Kernel) : (setKernel s k x).samp = s.samp := rfl
@[simp] theorem setKernel_counts (s : State) (k : Nat) (x : Kernel) : (setKernel s k x).counts = s.counts := rfl
@[simp] theorem setKernel_hostRead (s : State) (k : Nat) (x : Kernel) : (setKernel s k x).hostRead = s.hostRead := rfl
@[simp] theorem setKernel_ecc (s : State) (k : Nat) (x : Kernel) : (setKernel s k x).ecc = s.ecc := rfl
@[simp] theorem setKernel_cur (s : State) (k : Nat) (x : Kernel) : (setKernel s k x).cur = s.cur := rfl
@[simp] theorem setKernel_agenda (s : State) (k : Nat) (x : Kernel) : (setKernel s k x).agenda = s.agenda := rfl
@[simp] theorem setKernel_tick (s : State) (k : Nat) (x : Kernel) : (setKernel s k x).tick = s.tick := rfl
@[simp] theorem setKernel_uid (s : State) (k : Nat) (x : Kernel) : (setKernel s k x).uid = s.uid := rfl
@[simp] theorem setKernel_windowClk (s : State) (k : Nat) (x : Kernel) : (setKernel s k x).windowClk = s.windowClk := rfl
@[simp] theorem setKernel_sramUsed (s : State) (k : Nat) (x : Kernel) : (setKernel s k x).sramUsed = s.sramUsed := rfl
@[simp] theorem countEvent_start (s : State) (d c e n : Nat) : (countEvent s d c e n).start = s.start := rfl
@[simp] theorem countEvent_ident (s : State) (d c e n : Nat) : (countEvent s d c e n).ident = s.ident := rfl
@[simp] theorem countEvent_fw (s : State) (d c e n : Nat) : (countEvent s d c e n).fw = s.fw := rfl
@[simp] theorem countEvent_spdm (s : State) (d c e n : Nat) : (countEvent s d c e n).spdm = s.spdm := rfl
@[simp] theorem countEvent_clk (s : State) (d c e n : Nat) : (countEvent s d c e n).clk = s.clk := rfl
@[simp] theorem countEvent_split (s : State) (d c e n : Nat) : (countEvent s d c e n).split = s.split := rfl
@[simp] theorem countEvent_pwrLimit (s : State) (d c e n : Nat) : (countEvent s d c e n).pwrLimit = s.pwrLimit := rfl
@[simp] theorem countEvent_withholding (s : State) (d c e n : Nat) : (countEvent s d c e n).withholding = s.withholding := rfl
@[simp] theorem countEvent_warned (s : State) (d c e n : Nat) : (countEvent s d c e n).warned = s.warned := rfl
@[simp] theorem countEvent_telem (s : State) (d c e n : Nat) : (countEvent s d c e n).telem = s.telem := rfl
@[simp] theorem countEvent_weights (s : State) (d c e n : Nat) : (countEvent s d c e n).weights = s.weights := rfl
@[simp] theorem countEvent_mem (s : State) (d c e n : Nat) : (countEvent s d c e n).mem = s.mem := rfl
@[simp] theorem countEvent_poison (s : State) (d c e n : Nat) : (countEvent s d c e n).poison = s.poison := rfl
@[simp] theorem countEvent_cache (s : State) (d c e n : Nat) : (countEvent s d c e n).cache = s.cache := rfl
@[simp] theorem countEvent_held (s : State) (d c e n : Nat) : (countEvent s d c e n).held = s.held := rfl
@[simp] theorem countEvent_tlb (s : State) (d c e n : Nat) : (countEvent s d c e n).tlb = s.tlb := rfl
@[simp] theorem countEvent_mgmt (s : State) (d c e n : Nat) : (countEvent s d c e n).mgmt = s.mgmt := rfl
@[simp] theorem countEvent_links (s : State) (d c e n : Nat) : (countEvent s d c e n).links = s.links := rfl
@[simp] theorem countEvent_host (s : State) (d c e n : Nat) : (countEvent s d c e n).host = s.host := rfl
@[simp] theorem countEvent_peers (s : State) (d c e n : Nat) : (countEvent s d c e n).peers = s.peers := rfl
@[simp] theorem countEvent_peerKernels (s : State) (d c e n : Nat) : (countEvent s d c e n).peerKernels = s.peerKernels := rfl
@[simp] theorem countEvent_peerLost (s : State) (d c e n : Nat) : (countEvent s d c e n).peerLost = s.peerLost := rfl
@[simp] theorem countEvent_apertures (s : State) (d c e n : Nat) : (countEvent s d c e n).apertures = s.apertures := rfl
@[simp] theorem countEvent_ctxs (s : State) (d c e n : Nat) : (countEvent s d c e n).ctxs = s.ctxs := rfl
@[simp] theorem countEvent_nextKid (s : State) (d c e n : Nat) : (countEvent s d c e n).nextKid = s.nextKid := rfl
@[simp] theorem countEvent_kernels (s : State) (d c e n : Nat) : (countEvent s d c e n).kernels = s.kernels := rfl
@[simp] theorem countEvent_groups (s : State) (d c e n : Nat) : (countEvent s d c e n).groups = s.groups := rfl
@[simp] theorem countEvent_warps (s : State) (d c e n : Nat) : (countEvent s d c e n).warps = s.warps := rfl
@[simp] theorem countEvent_copies (s : State) (d c e n : Nat) : (countEvent s d c e n).copies = s.copies := rfl
@[simp] theorem countEvent_jobs (s : State) (d c e n : Nat) : (countEvent s d c e n).jobs = s.jobs := rfl
@[simp] theorem countEvent_parts (s : State) (d c e n : Nat) : (countEvent s d c e n).parts = s.parts := rfl
@[simp] theorem countEvent_progress (s : State) (d c e n : Nat) : (countEvent s d c e n).progress = s.progress := rfl
@[simp] theorem countEvent_turn (s : State) (d c e n : Nat) : (countEvent s d c e n).turn = s.turn := rfl
@[simp] theorem countEvent_samp (s : State) (d c e n : Nat) : (countEvent s d c e n).samp = s.samp := rfl
@[simp] theorem countEvent_hostRead (s : State) (d c e n : Nat) : (countEvent s d c e n).hostRead = s.hostRead := rfl
@[simp] theorem countEvent_ecc (s : State) (d c e n : Nat) : (countEvent s d c e n).ecc = s.ecc := rfl
@[simp] theorem countEvent_cur (s : State) (d c e n : Nat) : (countEvent s d c e n).cur = s.cur := rfl
@[simp] theorem countEvent_agenda (s : State) (d c e n : Nat) : (countEvent s d c e n).agenda = s.agenda := rfl
@[simp] theorem countEvent_tick (s : State) (d c e n : Nat) : (countEvent s d c e n).tick = s.tick := rfl
@[simp] theorem countEvent_uid (s : State) (d c e n : Nat) : (countEvent s d c e n).uid = s.uid := rfl
@[simp] theorem countEvent_windowClk (s : State) (d c e n : Nat) : (countEvent s d c e n).windowClk = s.windowClk := rfl
@[simp] theorem countEvent_sramUsed (s : State) (d c e n : Nat) : (countEvent s d c e n).sramUsed = s.sramUsed := rfl

/-! ### Tables -/

theorem tget_tput_same {α : Type} (t : Table α) (k : Nat) (a : α) : tget (tput t k a) k = some a := by
  induction t with
  | nil => simp [tput, tget]
  | cons e r ih =>
    obtain ⟨k', b⟩ := e
    simp only [tput]
    split
    · simp [tget]
    · split
      · simp [tget]
      · next h1 h2 => simp [tget, h2, ih]

theorem tget_tput_other {α : Type} (t : Table α) (k j : Nat) (a : α) (h : j ≠ k) : tget (tput t k a) j = tget t j := by
  induction t with
  | nil => simp [tput, tget, h]
  | cons e r ih =>
    obtain ⟨k', b⟩ := e
    simp only [tput]
    split
    · simp [tget, h]
    · split
      · next h1 h2 => subst h2; simp [tget, h]
      · simp only [tget, ih]

@[simp] theorem getWarp_setWarp (s : State) (w : Nat) (x : Warp) : getWarp (setWarp s w x) w = some x := tget_tput_same _ _ _
theorem getWarp_setWarp_other (s : State) (w v : Nat) (x : Warp) (h : v ≠ w) : getWarp (setWarp s w x) v = getWarp s v :=
  tget_tput_other _ _ _ _ h
@[simp] theorem getCtx_setCtx (s : State) (c : Nat) (x : Context) : getCtx (setCtx s c x) c = some x := tget_tput_same _ _ _
theorem getCtx_setCtx_other (s : State) (c d : Nat) (x : Context) (h : d ≠ c) : getCtx (setCtx s c x) d = getCtx s d :=
  tget_tput_other _ _ _ _ h
@[simp] theorem getGroup_setGroup (s : State) (g : Nat) (x : Group) : getGroup (setGroup s g x) g = some x := tget_tput_same _ _ _
theorem getGroup_setGroup_other (s : State) (g d : Nat) (x : Group) (h : d ≠ g) : getGroup (setGroup s g x) d = getGroup s d :=
  tget_tput_other _ _ _ _ h
@[simp] theorem getKernel_setKernel (s : State) (k : Nat) (x : Kernel) : getKernel (setKernel s k x) k = some x := tget_tput_same _ _ _
theorem getKernel_setKernel_other (s : State) (k d : Nat) (x : Kernel) (h : d ≠ k) : getKernel (setKernel s k x) d = getKernel s d :=
  tget_tput_other _ _ _ _ h

/-! ### Sparse maps -/

theorem sget_below {α : Type} [DecidableEq α] (d : α) (m : Smap α) (lo k : Nat) (h : swfFrom d lo m = true) (hk : k < lo) :
    sget d m k = d := by
  cases m with
  | nil => rfl
  | cons e r =>
    obtain ⟨k', b⟩ := e
    simp only [swfFrom, Bool.and_eq_true, decide_eq_true_eq] at h
    have : k < k' := by omega
    simp [sget, this, Nat.ne_of_lt this]

/-- A write keeps the canonical form. -/
theorem sput_wfFrom {α : Type} [DecidableEq α] (d : α) (m : Smap α) (lo k : Nat) (a : α) (h : swfFrom d lo m = true) (hk : lo ≤ k) :
    swfFrom d lo (sput d m k a) = true := by
  induction m generalizing lo with
  | nil => by_cases ha : a = d <;> simp [sput, ha, swfFrom, hk]
  | cons e r ih =>
    obtain ⟨k', b⟩ := e
    simp only [swfFrom, Bool.and_eq_true, decide_eq_true_eq] at h
    obtain ⟨⟨h1, h2⟩, h3⟩ := h
    simp only [sput]
    split
    · next hlt =>
      split
      · simp [swfFrom, h1, h2, h3]
      · next ha => simp [swfFrom, hk, ha, h2, h3]; omega
    · split
      · next hge heq =>
        subst heq
        split
        · have mono : ∀ (m : Smap α) (p q : Nat), p ≤ q → swfFrom d q m = true → swfFrom d p m = true := by
            intro m p q hpq hm
            cases m with
            | nil => rfl
            | cons e r =>
              obtain ⟨x, y⟩ := e
              simp only [swfFrom, Bool.and_eq_true, decide_eq_true_eq] at hm ⊢
              exact ⟨⟨by omega, hm.1.2⟩, hm.2⟩
          exact mono r lo (k + 1) (by omega) h3
        · next ha => simp [swfFrom, h1, ha, h3]
      · next hge hne => simp [swfFrom, h1, h2, ih (k' + 1) h3 (by omega)]

theorem sput_wf {α : Type} [DecidableEq α] (d : α) (m : Smap α) (k : Nat) (a : α) (h : swf d m = true) : swf d (sput d m k a) = true :=
  sput_wfFrom d m 0 k a h (by omega)

/-- A read after a write to the same key. -/
theorem sget_sput_same {α : Type} [DecidableEq α] (d : α) (m : Smap α) (lo k : Nat) (a : α) (h : swfFrom d lo m = true) :
    sget d (sput d m k a) k = a := by
  induction m generalizing lo with
  | nil => by_cases ha : a = d <;> simp [sput, ha, sget]
  | cons e r ih =>
    obtain ⟨k', b⟩ := e
    simp only [swfFrom, Bool.and_eq_true, decide_eq_true_eq] at h
    simp only [sput]
    split
    · next hlt =>
      split
      · next ha => simp [sget, Nat.ne_of_lt hlt, hlt, ha]
      · simp [sget]
    · split
      · next hge heq =>
        subst heq
        split
        · next ha => rw [sget_below d r (k + 1) k h.2 (by omega), ha]
        · simp [sget]
      · next hge hne => simp [sget, hne, hge, ih (k' + 1) h.2]

/-- A write leaves every other key alone. -/
theorem sget_sput_other {α : Type} [DecidableEq α] (d : α) (m : Smap α) (lo k j : Nat) (a : α) (h : swfFrom d lo m = true) (hj : j ≠ k) :
    sget d (sput d m k a) j = sget d m j := by
  induction m generalizing lo with
  | nil =>
    by_cases ha : a = d
    · simp [sput, ha, sget]
    · simp [sput, ha, sget, hj]
  | cons e r ih =>
    obtain ⟨k', b⟩ := e
    have h0 := h
    simp only [swfFrom, Bool.and_eq_true, decide_eq_true_eq] at h
    simp only [sput]
    split
    · next hlt =>
      split
      · rfl
      · simp only [sget, hj, if_false]
        split
        · next hjk => have : j < k' := by omega
                      simp [this, Nat.ne_of_lt this]
        · rfl
    · split
      · next hge heq =>
        subst heq
        split
        · simp only [sget, hj, if_false]
          split
          · next hjk => rw [sget_below d r (k + 1) j h.2 (by omega)]
          · rfl
        · simp [sget, hj]
      · next hge hne => simp only [sget, ih (k' + 1) h.2]

end Sys2Proof.Machine
end

