-- ==== Sys2Proof/Laws/Fire.lean ====
section
/-!
SUPPORT. What firing can do (07 R130, R135, R136): one lemma for the one operation through which every instruction fires, and the small
lemmas about its parts.
-/
namespace Sys2Proof.Machine

/-- The facts that make an instruction ready (R135): its warp is mapped with a frame in which it has not fired. -/
theorem ready_some {s : State} {g : Guard} {need passes : List Nat} {x : Fire} (h : ready s g need passes = some x) :
    x.wid = s.cur.1 ∧ x.i = s.cur.2 ∧ getWarp s x.wid = some x.w ∧ x.w.frame = some x.f ∧ x.w.state = .mapped
      ∧ x.f.fired.contains x.i = false := by
  unfold ready at h
  split at h
  next wid i hc =>
  split at h
  · contradiction
  · next w hw =>
    split at h
    · contradiction
    · next f hf =>
      simp only at h
      split at h
      · next hif =>
        simp only [Option.some.injEq] at h
        subst h
        simp only [hc, hw, hf, true_and]
        refine ⟨hif.1, ?_⟩
        have := hif.2.1
        simpa using this
      · contradiction

@[simp] theorem modCtx_warps (s : State) (c : Nat) (f : Context → Context) : (modCtx s c f).warps = s.warps := rfl

@[simp] theorem spend_warps (s : State) (die ctx entry n : Nat) : (spend s die ctx entry n).warps = s.warps := by simp [spend]

/-- The charge of a firing leaves every warp alone. -/
@[simp] theorem charge_warps (x : Fire) (s : State) : (x.charge s).warps = s.warps := by simp [Fire.charge]

/-- An instruction that touches nothing but its frame: firing always completes, is counted and charged, and puts the settled frame back. -/
theorem fire_now {m : String} {s : State} {g : Guard} {need passes : List Nat} {x : Fire} (body : Fire → Fired)
    (h : ready s g need passes = some x) (hs : (body x).st = s) :
    fire m s g need passes body =
      .next (setWarp (x.charge s) x.wid { x.w with frame := some (x.settle (body x)) }) := by
  obtain ⟨-, -, hw, hf, -, -⟩ := ready_some h
  unfold fire
  rw [h]
  simp only [hs]
  have : getWarp (x.charge s) x.wid = some x.w := by rw [getWarp, charge_warps]; exact hw
  rw [this]
  simp [hf]

/-- An instruction that is not ready does not fire. -/
theorem fire_notReady {m : String} {s : State} {g : Guard} {need passes : List Nat} (body : Fire → Fired)
    (h : ready s g need passes = none) : fire m s g need passes body = notDue m := by unfold fire; rw [h]

/-! ### The settled frame -/

theorem deliver_fired (i : Nat) (f : Frame) (p : Target × Token) : (deliver i f p).fired = f.fired := by
  unfold deliver gather; split <;> rfl

theorem foldl_deliver_fired (i : Nat) (ts : List (Target × Token)) (f : Frame) : (ts.foldl (deliver i) f).fired = f.fired := by
  induction ts generalizing f with
  | nil => rfl
  | cons t r ih => rw [List.foldl_cons, ih, deliver_fired]

theorem castVote_fired (i : Nat) (f : Frame) (v : Nat × Nat) : (castVote i f v).fired = f.fired := by
  unfold castVote; split
  · rfl
  · split <;> rfl

theorem foldl_castVote_fired (i : Nat) (vs : List (Nat × Nat)) (f : Frame) : (vs.foldl (castVote i) f).fired = f.fired := by
  induction vs generalizing f with
  | nil => rfl
  | cons t r ih => rw [List.foldl_cons, ih, castVote_fired]

theorem castVotes_fired (i : Nat) (f : Frame) (vs : List (Nat × Nat)) : (castVotes i f vs).fired = f.fired := foldl_castVote_fired i _ f

theorem castWhole_fired (i : Nat) (f : Frame) (v : Nat) : (castWhole i f v).fired = f.fired := by
  unfold castWhole; split
  · rfl
  · split <;> rfl

theorem applyEffects_fired (f : Frame) (i : Nat) (e : Effects) : (applyEffects f i e).fired = f.fired := by
  unfold applyEffects
  split
  · rfl
  · simp only
    split
    · rw [castWhole_fired, castVotes_fired, foldl_deliver_fired]
    · rw [castVotes_fired, foldl_deliver_fired]

/-- A settled instruction has fired, once more than before (R136). -/
theorem settle_fired (x : Fire) (r : Fired) : (x.settle r).fired = x.i :: x.f.fired := by
  unfold Fire.settle
  simp only
  split
  · split <;> rfl
  · rw [applyEffects_fired]; split <;> rfl

end Sys2Proof.Machine
end

