-- ==== Sys2Proof/Laws/Memory.lean ====
section
/-!
SUPPORT. Memory (12 R252): every operation keeps the canonical form; a read after a write; a write leaves other bytes alone.
-/
namespace Sys2Proof.Machine

theorem cellsWf_mono (m : Memory) (p q : Nat) (cs : List Host.Cell) (h : p ≤ q) (hw : cellsWf m q cs = true) : cellsWf m p cs = true := by
  cases cs with
  | nil => rfl
  | cons e r =>
    obtain ⟨k, b⟩ := e
    simp only [cellsWf, Bool.and_eq_true, decide_eq_true_eq] at hw ⊢
    exact ⟨⟨by omega, hw.1.2⟩, hw.2⟩

theorem cellsGet_below (m : Memory) (lo a : Nat) (cs : List Host.Cell) (h : cellsWf m lo cs = true) (ha : a < lo) : cellsGet cs a = none := by
  cases cs with
  | nil => rfl
  | cons e r =>
    obtain ⟨k, b⟩ := e
    simp only [cellsWf, Bool.and_eq_true, decide_eq_true_eq] at h
    have : a < k := by omega
    simp [cellsGet, this, Nat.ne_of_lt this]

/-- Writing one byte keeps the form, from any lower bound. -/
theorem cellsPut_wf (m : Memory) (cs : List Host.Cell) (lo a : Nat) (b : Byte) (h : cellsWf m lo cs = true) (ha : lo ≤ a) :
    cellsWf m lo (cellsPut (m.rest a) b cs a) = true := by
  induction cs generalizing lo with
  | nil => by_cases hb : b = m.rest a <;> simp [cellsPut, hb, cellsWf, ha]
  | cons e r ih =>
    obtain ⟨k, c⟩ := e
    have h0 := h
    simp only [cellsWf, Bool.and_eq_true, decide_eq_true_eq] at h
    simp only [cellsPut]
    split
    · next hlt =>
      split
      · exact h0
      · next hb =>
        simp only [cellsWf, Bool.and_eq_true, decide_eq_true_eq]
        exact ⟨⟨ha, hb⟩, ⟨by omega, h.1.2⟩, h.2⟩
    · split
      · next hge heq =>
        subst heq
        split
        · exact cellsWf_mono m lo (a + 1) r (by omega) h.2
        · next hb =>
          simp only [cellsWf, Bool.and_eq_true, decide_eq_true_eq]
          exact ⟨⟨ha, hb⟩, h.2⟩
      · next hge hne =>
        simp only [cellsWf, Bool.and_eq_true, decide_eq_true_eq]
        exact ⟨h.1, ih (k + 1) h.2 (by omega)⟩

/-- `cellsWf` looks at the epoch alone. -/
theorem cellsWf_cells (cs ds : List Host.Cell) (e lo : Nat) : cellsWf ⟨cs, e⟩ lo ds = cellsWf ⟨[], e⟩ lo ds := by
  induction ds generalizing lo with
  | nil => rfl
  | cons x r ih => obtain ⟨k, b⟩ := x; simp only [cellsWf, ih]; rfl

theorem Memory.setByte_wf (m : Memory) (a : Nat) (b : Byte) (h : m.wf = true) : (m.setByte a b).wf = true := by
  have := cellsPut_wf m m.cells 0 a b h (by omega)
  unfold Memory.wf Memory.setByte
  rw [cellsWf_cells] at this ⊢
  exact this

theorem Memory.setBytes_wf (m : Memory) (a : Nat) (bs : List Byte) (h : m.wf = true) : (m.setBytes a bs).wf = true := by
  induction bs generalizing m a with
  | nil => exact h
  | cons b r ih => exact ih _ _ (Memory.setByte_wf m a b h)

theorem mergeDirty_wf (m : Memory) (base : Nat) (dirty : BitVec 128) (bs : List Byte) (k : Nat) (h : m.wf = true) :
    (mergeDirty m base dirty bs k).wf = true := by
  induction bs generalizing m k with
  | nil => exact h
  | cons b r ih =>
    simp only [mergeDirty]
    split
    · exact ih _ _ (Memory.setByte_wf m _ b h)
    · exact ih _ _ h

/-! ### Reads and writes -/

theorem cellsGet_put_same (m : Memory) (cs : List Host.Cell) (lo a : Nat) (b : Byte) (h : cellsWf m lo cs = true) :
    (cellsGet (cellsPut (m.rest a) b cs a) a).getD (m.rest a) = b := by
  induction cs generalizing lo with
  | nil => by_cases hb : b = m.rest a <;> simp [cellsPut, hb, cellsGet]
  | cons e r ih =>
    obtain ⟨k, c⟩ := e
    have h0 := h
    simp only [cellsWf, Bool.and_eq_true, decide_eq_true_eq] at h
    simp only [cellsPut]
    split
    · next hlt =>
      split
      · next hb => simp [cellsGet, hlt, Nat.ne_of_lt hlt, hb]
      · simp [cellsGet]
    · split
      · next hge heq =>
        subst heq
        split
        · next hb => rw [cellsGet_below m (a + 1) a r h.2 (by omega), hb]; rfl
        · simp [cellsGet]
      · next hge hne => simp only [cellsGet, hne, hge, if_false]; exact ih (k + 1) h.2

theorem cellsGet_put_other (m : Memory) (cs : List Host.Cell) (lo a j : Nat) (d b : Byte) (h : cellsWf m lo cs = true) (hj : j ≠ a) :
    cellsGet (cellsPut d b cs a) j = cellsGet cs j := by
  induction cs generalizing lo with
  | nil => by_cases hb : b = d <;> simp [cellsPut, hb, cellsGet, hj]
  | cons e r ih =>
    obtain ⟨k, c⟩ := e
    simp only [cellsWf, Bool.and_eq_true, decide_eq_true_eq] at h
    simp only [cellsPut]
    split
    · next hlt =>
      split
      · rfl
      · simp only [cellsGet, hj, if_false]
        split
        · next hja => have : j < k := by omega
                      simp [this, Nat.ne_of_lt this]
        · rfl
    · split
      · next hge heq =>
        subst heq
        split
        · simp only [cellsGet, hj, if_false]
          split
          · next hjk => exact cellsGet_below m (a + 1) j r h.2 (by omega)
          · rfl
        · simp [cellsGet, hj]
      · next hge hne => simp only [cellsGet, ih (k + 1) h.2]

/-- A byte just written reads back. -/
theorem Memory.byte_setByte_same (m : Memory) (a : Nat) (b : Byte) (h : m.wf = true) : (m.setByte a b).byte a = b :=
  cellsGet_put_same m m.cells 0 a b h

/-- Every other byte reads as before. -/
theorem Memory.byte_setByte_other (m : Memory) (a j : Nat) (b : Byte) (h : m.wf = true) (hj : j ≠ a) : (m.setByte a b).byte j = m.byte j := by
  unfold Memory.byte Memory.setByte
  rw [cellsGet_put_other m m.cells 0 a j _ b h hj]
  rfl

/-- Bytes outside those written read as before. -/
theorem Memory.byte_setBytes_other (m : Memory) (a j : Nat) (bs : List Byte) (h : m.wf = true) (hj : j < a ∨ a + bs.length ≤ j) :
    (m.setBytes a bs).byte j = m.byte j := by
  induction bs generalizing m a with
  | nil => rfl
  | cons b r ih =>
    simp only [List.length_cons] at hj
    rw [Memory.setBytes, ih _ _ (Memory.setByte_wf m a b h) (by omega), Memory.byte_setByte_other m a j b h (by omega)]

/-- Bytes just written read back. -/
theorem Memory.bytes_setBytes (m : Memory) (a : Nat) (bs : List Byte) (h : m.wf = true) : (m.setBytes a bs).bytes a bs.length = bs := by
  induction bs generalizing m a with
  | nil => rfl
  | cons b r ih =>
    have hw := Memory.setByte_wf m a b h
    simp only [List.length_cons, Memory.bytes, Memory.setBytes, ih _ _ hw, List.cons.injEq, and_true]
    rw [Memory.byte_setBytes_other _ _ _ _ hw (by omega), Memory.byte_setByte_same m a b h]

/-! ### Wider operations on State -/

/-- Steps that leave memory alone do so one after another. -/
theorem foldl_mem {α : Type} (f : State → α → State) (hf : ∀ s a, (f s a).mem = s.mem) (l : List α) (s : State) :
    (l.foldl f s).mem = s.mem := by
  induction l generalizing s with
  | nil => rfl
  | cons a r ih => rw [List.foldl_cons, ih, hf]

@[simp] theorem setMarks_mem (s : State) (line : Nat) (p : List Nat) : (setMarks s line p).mem = s.mem := by
  unfold setMarks; split <;> rfl

@[simp] theorem recallLines_mem (s : State) (p : Nat → Bool) : (recallLines s p).mem = s.mem := by
  unfold recallLines
  exact foldl_mem _ (fun s (d : DirLine) => setMarks_mem s d.line d.pois) _ _

theorem hubWrite_wf (s : State) (pa : Nat) (bs : List Byte) (bad : Bool) (h : s.mem.wf = true) : (hubWrite s pa bs bad).mem.wf = true := by
  unfold hubWrite memPut
  exact Memory.setBytes_wf _ _ _ (by rw [recallLines_mem]; exact h)

theorem countLoss_mem (s : State) (pa : Nat) : (countLoss s pa).mem = s.mem := by
  unfold countLoss
  repeat' split
  all_goals rfl

theorem hubOwed_wf (s : State) (pa : Nat) (bs : List Byte) (bad : Bool) (h : s.mem.wf = true) : (hubOwed s pa bs bad).mem.wf = true := by
  unfold hubOwed
  split
  · rw [countLoss_mem]; exact h
  · split
    · exact h
    · exact hubWrite_wf s pa bs _ h

@[simp] theorem chargeBytes_mem (s : State) (ctx n : Nat) : (chargeBytes s ctx n).mem = s.mem := rfl

@[simp] theorem spend_mem (s : State) (die ctx entry n : Nat) : (spend s die ctx entry n).mem = s.mem := rfl

@[simp] theorem linkBytes_mem (s : State) (die ctx n : Nat) : (linkBytes s die ctx n).mem = s.mem := by simp [linkBytes]

@[simp] theorem stackBytes_mem (s : State) (ctx line n : Nat) : (stackBytes s ctx line n).mem = s.mem := by
  unfold stackBytes; split <;> simp

@[simp] theorem hubTouch_mem (s : State) (ctx line : Nat) : (hubTouch s ctx line).mem = s.mem := rfl

@[simp] theorem hubMove_mem (s : State) (die : Option Nat) (ctx : Nat) (cls : PageClass) (pa n : Nat) :
    (hubMove s die ctx cls pa n).mem = s.mem := by
  unfold hubMove
  have : ∀ t : State, ((linesOf pa n).foldl (fun s l => hubTouch s ctx l) t).mem = t.mem :=
    foldl_mem (fun s l => hubTouch s ctx l) (fun s l => hubTouch_mem s ctx l) _
  cases die <;> simp only <;> split <;> simp [this]

theorem hubOwedFor_wf (s : State) (ctx pa : Nat) (bs : List Byte) (bad : Bool) (h : s.mem.wf = true) :
    (hubOwedFor s ctx pa bs bad).mem.wf = true := by
  unfold hubOwedFor
  refine hubOwed_wf _ _ _ _ ?_
  split
  · rw [hubUse, hubMove_mem]; exact h
  · exact h

theorem loseDebts_mem (at_ : Nat) (ds : List Debt) (s : State) : (loseDebts s at_ ds).mem = s.mem := by
  unfold loseDebts
  refine foldl_mem _ (fun s d => ?_) _ _
  cases d <;> simp only [modGroup] <;> repeat' split
  all_goals rfl

theorem writeBack_wf (s : State) (die line : Nat) (h : s.mem.wf = true) : (writeBack s die line).mem.wf = true := by
  unfold writeBack
  split
  · exact h
  · simp only
    split
    · exact h
    · split
      · rw [loseDebts_mem]; exact h
      · simp only [setMarks_mem]
        refine mergeDirty_wf _ _ _ _ _ ?_
        rw [chargeBytes_mem, hubTouch_mem, linkBytes_mem]
        exact h

/-- Keeping the cells of the host window alone keeps the form in any epoch, since host memory reads 0 in each. -/
theorem cellsWf_host (cs : List Host.Cell) (e e' lo : Nat) (h : cellsWf ⟨[], e⟩ lo cs = true) :
    cellsWf ⟨[], e'⟩ lo (cs.filter fun c => decide (2 ^ 51 ≤ c.1)) = true := by
  induction cs generalizing lo with
  | nil => rfl
  | cons x r ih =>
    obtain ⟨k, b⟩ := x
    simp only [cellsWf, Bool.and_eq_true, decide_eq_true_eq] at h
    simp only [List.filter_cons]
    split
    · next hk =>
      simp only [decide_eq_true_eq] at hk
      simp only [cellsWf, Bool.and_eq_true, decide_eq_true_eq]
      refine ⟨⟨h.1.1, ?_⟩, ih (k + 1) h.2⟩
      have hr : ∀ n, Memory.rest ⟨[], n⟩ k = 0 := fun n => if_pos (Or.inr hk)
      have h2 := h.1.2
      rw [hr] at h2 ⊢
      exact h2
    · exact cellsWf_mono _ lo (k + 1) _ (by omega) (ih (k + 1) h.2)

theorem clearMemory_wf (s : State) (h : s.mem.wf = true) : (clearMemory s).mem.wf = true := by
  unfold Memory.wf clearMemory
  simp only
  rw [cellsWf_cells]
  unfold Memory.wf at h
  rw [cellsWf_cells] at h
  exact cellsWf_host _ _ _ _ h

theorem Memory.undefined_wf (m : Memory) (h : m.wf = true) : m.undefined.wf = true := by
  unfold Memory.wf Memory.undefined
  simp only
  rw [cellsWf_cells]
  unfold Memory.wf at h
  rw [cellsWf_cells] at h
  exact cellsWf_host _ _ _ _ h

end Sys2Proof.Machine
end

