-- ==== Sys2Proof/Tests/Slice0.lean ====
section
/-!
SUPPORT. The model's own tests: an ill-formed term for each check of WellFormed, a word written out from the spec's encoding for every
constructor, values the spec states or that follow from it by hand, and for each statement of Certificates/Slice0/Obligations.lean a
concrete state and operands that meet its hypotheses.
-/


namespace Sys2Proof.Tests
set_option Elab.async false
open Sys2Proof Sys2Proof.Machine

/-! ### Well-formed instructions -/

/-- Every check of WellFormed refuses a term and accepts its neighbour (R42, 10 R207, 11 R241, 15 R342, R372, R373, 17 R431, R48). -/
theorem test_ill_formed : (
    (Instr.red .always .exch .relaxed .device 0).illFormed = some .sub ∧ (Instr.red .always .xor .relaxed .device 0).illFormed = none) ∧
    ((Instr.red .always .add .acquire .device 0).illFormed = some .sub ∧ (Instr.red .always .add .acqRel .device 0).illFormed = some .sub) ∧
    ((Instr.red .always .add .release .device 0).illFormed = none) ∧
    ((Instr.atomS .always .none .none .add .relaxed .die 0).illFormed = some .sub ∧
      (Instr.atomS .always .none .none .add .relaxed .group 0).illFormed = none) ∧
    ((Instr.rgnDef .always .addI32 .plain 0).illFormed = some .sub ∧ (Instr.rgnDef .always .fault .plain 0).illFormed = none) ∧
    ((Instr.rgnDef .always .prioHigh .stepped 0).illFormed = some .sub ∧ (Instr.rgnDef .always .addI32 .prio 0).illFormed = some .sub ∧
      (Instr.rgnDef .always .prioLow .prio 0).illFormed = none) ∧
    ((Instr.barInit .always .warp).illFormed = some .sub ∧ (Instr.barInit .always .group).illFormed = none) ∧
    ((Instr.shli .always 32 .none).illFormed = some .operand ∧ (Instr.shli .always 31 .none).illFormed = none) ∧
    ((Instr.shri .always (-1) .none).illFormed = some .operand ∧ (Instr.sari .always 32 .none).illFormed = some .operand) ∧
    ((Instr.svc .always 2048).illFormed = some .operand ∧ (Instr.svc .always 2047).illFormed = none) ∧
    ((Instr.brk .always 2048).illFormed = some .operand ∧ (Instr.brk .always 0).illFormed = none) ∧
    ((Instr.pfence .always 32).illFormed = some .operand ∧ (Instr.pfence .always 31).illFormed = none) ∧
    ((Instr.rdsr .always 9 .none).illFormed = some .sysreg ∧ (Instr.rdsr .always 8 .none).illFormed = none) ∧
    (Instr.wrsr .always 9).illFormed = some .sysreg ∧
    ((Instr.telemetrySample ⟨0, [0, 0, 0, 0], 0, 0, 0, 0, false⟩).illFormed = some .operand ∧
      (Instr.telemetrySample ⟨0, [0, 0, 0, 0, 0], 0, 0, 0, 0, false⟩).illFormed = none) := by decide +kernel

/-! ### Decoding -/

def decodesTo (l : List (List Word × Instr)) : Bool :=
  l.all fun e => match decode e.1 with | .ok (i, []) => decide (i = e.2) | _ => false
def refuses (l : List (List Word × Reason)) : Bool :=
  l.all fun e => match decode e.1 with | .error r => decide (r.why = e.2) | .ok _ => false

/-- Integer instructions, words written bit by bit from the fields of R39 and the codes of R41 to R45. -/
theorem test_decode_integer_1 : decodesTo [
    ([0b000000000_00_001_000000101_100010011], .add .always .i64 (.opA 5) (.opC 19)),
    ([0b000000001_01_000_010001100_101011010], .sub .onTrue .i32 (.opB 12) (.guard 26)),
    ([0b000000010_10_011_100010011_110000001], .mul .onFalse .n32sat (.opC 19) (.write 1)),
    ([0b000000011_00_010_101011010_000001000], .mulhi .always .n32 (.guard 26) (.opA 8)),
    ([0b000000100_01_001_110000001_010001111], .mad .onTrue .i64 (.write 1) (.opB 15)),
    ([0b000000101_10_000_000001000_100010110], .div .onFalse .i32 (.opA 8) (.opC 22)),
    ([0b000000110_00_011_010001111_101011101], .rem .always .n64 (.opB 15) (.guard 29)),
    ([0b000000111_01_010_100010110_110000100], .neg .onTrue .i32sat (.opC 22) (.write 4)),
    ([0b000001000_10_001_101011101_000001011], .abs .onFalse .i64 (.guard 29) (.opA 11)),
    ([0b000001001_00_000_110000100_010010010], .min .always .i32 (.write 4) (.opB 18)),
    ([0b000001010_01_011_000001011_100011001], .max .onTrue .n64 (.opA 11) (.opC 25)),
    ([0b000001011_10_000_010010010_101000000], .and .onFalse .b32 (.opB 18) (.guard 0)),
    ([0b000001100_00_001_100011001_110000111], .or .always .b64 (.opC 25) (.write 7)),
    ([0b000001101_01_000_101000000_000001110], .xor .onTrue .b32 (.guard 0) (.opA 14)),
    ([0b000001110_10_001_110000111_010010101], .not .onFalse .b64 (.write 7) (.opB 21)),
    ([0b000001111_00_000_000001110_100011100], .andn .always .b32 (.opA 14) (.opC 28)),
    ([0b000010000_01_001_010010101_101000011], .shl .onTrue .b64 (.opB 21) (.guard 3)),
    ([0b000010001_10_000_100011100_110001010], .shr .onFalse .b32 (.opC 28) (.write 10)),
    ([0b000010010_00_001_101000011_000010001], .sar .always .b64 (.guard 3) (.opA 17)),
    ([0b000010011_01_000_110001010_010011000], .rotl .onTrue .b32 (.write 10) (.opB 24))] = true := by decide +kernel

/-- Integer instructions, words written bit by bit from the fields of R39 and the codes of R41 to R45. -/
theorem test_decode_integer_2 : decodesTo [
    ([0b000010100_10_001_000010001_100011111], .clz .onFalse .b64 (.opA 17) (.opC 31)),
    ([0b000010101_00_000_010011000_101000110], .popc .always .b32 (.opB 24) (.guard 6)),
    ([0b000010110_01_001_100011111_110001101], .brev .onTrue .b64 (.opC 31) (.write 13)),
    ([0b000010111_10_010_101000110_000010100], .bfe .onFalse .n32 (.guard 6) (.opA 20)),
    ([0b000011000_00_001_110001101_010011011], .bfi .always .b64 (.write 13) (.opB 27)),
    ([0b000011001_01_100_000010100_100000010], .lea .onTrue .s4 (.opA 20) (.opC 2)),
    ([0b000011010_10_001_010011011_101001001], .addw .onFalse .n32 (.opB 27) (.guard 9)),
    ([0b000011011_00_010_100000010_110010000], .sext .always .i32 (.opC 2) (.write 16)),
    ([0b000011101_01_000_101001001_000010111], .bsel .onTrue (.guard 9) (.opA 23)),
    ([0b000011110_10_000_110010000_010011110], .mov .onFalse .b32 (.write 16) (.opB 30)),
    ([0b000011111_00_000_000010111_100000101], .null .always (.opA 23) (.opC 5)),
    ([0b000100000_01_100000011111_010011110], .addi .onTrue 0x81F (.opB 30)),
    ([0b000100001_10_100000100000_100000101], .andi .onFalse 0x820 (.opC 5)),
    ([0b000100010_00_100000100001_101001100], .ori .always 0x821 (.guard 12)),
    ([0b000100011_01_100000100010_110010011], .xori .onTrue 0x822 (.write 19)),
    ([0b000100100_10_000000011111_000011010], .shli .onFalse 0x1F (.opA 26)),
    ([0b000100101_00_000000011111_010000001], .shri .always 0x1F (.opB 1)),
    ([0b000100110_01_000000011111_100001000], .sari .onTrue 0x1F (.opC 8)),
    ([0b000100111_10_100000100110_101001111], .muli .onFalse 0x826 (.guard 15))] = true := by decide +kernel

/-- Compare and lane instructions, words written bit by bit from the fields of R39 and the codes of R41 to R45. -/
theorem test_decode_compare_and_lane_1 : decodesTo [
    ([0b001000000_00_110_110010110_010000100], .cmp .always .ltn (.write 22) (.opB 4)),
    ([0b001000001_01_001_000011101_100001011], .cmp64 .onTrue .ne (.opA 29) (.opC 11)),
    ([0b001000010_10_100000101001_010000100], .cmpiEq .onFalse 0x829 (.opB 4)),
    ([0b001000011_00_100000101010_100001011], .cmpiNe .always 0x82A (.opC 11)),
    ([0b001000100_01_100000101011_101010010], .cmpiLt .onTrue 0x82B (.guard 18)),
    ([0b001000101_10_100000101100_110011001], .cmpiLe .onFalse 0x82C (.write 25)),
    ([0b001000110_00_100000101101_000000000], .cmpiGt .always 0x82D (.opA 0)),
    ([0b001000111_01_100000101110_010000111], .cmpiGe .onTrue 0x82E (.opB 7)),
    ([0b001001000_10_000_100001110_110011100], .sel .onFalse .b32 (.opC 14) (.write 28)),
    ([0b001001001_00_000_101010101_000000011], .pand .always (.guard 21) (.opA 3)),
    ([0b001001010_01_000_110011100_010001010], .por .onTrue (.write 28) (.opB 10)),
    ([0b001001011_10_000_000000011_100010001], .pxor .onFalse (.opA 3) (.opC 17)),
    ([0b001001100_00_000_010001010_101011000], .pnot .always (.opB 10) (.guard 24)),
    ([0b001010000_01_001_100010001_110011111], .rfl .onTrue .b64 (.opC 17) (.write 31)),
    ([0b001010001_10_000_101011000_000000110], .rdln .onFalse .b32 (.guard 24) (.opA 6)),
    ([0b001010010_00_001_110011111_010001101], .wrln .always .b64 (.write 31) (.opB 13)),
    ([0b001010011_01_010_000000110_100010100], .lxch .onTrue .fwd (.opA 6) (.opC 20)),
    ([0b001010100_10_001_010001101_101011011], .vote .onFalse .all (.opB 13) (.guard 27)),
    ([0b001010101_00_000_100010100_110000010], .matchKeys .always .b32 (.opC 20) (.write 2)),
    ([0b001010110_01_111_101011011_000001001], .redux .onTrue .xor (.guard 27) (.opA 9))] = true := by decide +kernel

/-- Compare and lane instructions, words written bit by bit from the fields of R39 and the codes of R41 to R45. -/
theorem test_decode_compare_and_lane_2 : decodesTo [
    ([0b001010111_10_010_110000010_010010000], .scan .onFalse .maxI32 (.write 2) (.opB 16)),
    ([0b001011000_00_001_000001001_100010111], .lmask .always .below (.opA 9) (.opC 23)),
    ([0b001011001_01_000_010010000_101011110], .bcast .onTrue .b32 (.opB 16) (.guard 30)),
    ([0b001011010_10_000_100010111_110000101], .mskz .onFalse (.opC 23) (.write 5)),
    ([0b001100000_00_000000000011_111000000], .exit .always 3),
    ([0b001100001_01_000_111000000_111111111], .exitv .onTrue)] = true := by decide +kernel

/-- Single instructions, words written bit by bit from the fields of R39 and the codes of R41 to R45. -/
theorem test_decode_single : decodesTo [
    ([0b010000000_10_000_000001100_100011010], .fadd .onFalse .rne (.opA 12) (.opC 26)),
    ([0b010000001_00_011_010010011_101000001], .fsub .always .rd (.opB 19) (.guard 1)),
    ([0b010000010_01_010_100011010_110001000], .fmul .onTrue .ru (.opC 26) (.write 8)),
    ([0b010000011_10_001_101000001_000001111], .ffma .onFalse .rz (.guard 1) (.opA 15)),
    ([0b010000100_00_000_110001000_010010110], .fmin .always (.write 8) (.opB 22)),
    ([0b010000101_01_000_000001111_100011101], .fmax .onTrue (.opA 15) (.opC 29)),
    ([0b010000110_10_000_010010110_101000100], .fabs .onFalse (.opB 22) (.guard 4)),
    ([0b010000111_00_000_100011101_110001011], .fneg .always (.opC 29) (.write 11)),
    ([0b010001000_01_100_101000100_000010010], .fcmp .onTrue .gt (.guard 4) (.opA 18)),
    ([0b010001001_10_011_110001011_010011001], .fdiv .onFalse .rd (.write 11) (.opB 25)),
    ([0b010001010_00_010_000010010_100000000], .fsqrt .always .ru (.opA 18) (.opC 0)),
    ([0b010001011_01_000_010011001_101000111], .frcp .onTrue (.opB 25) (.guard 7)),
    ([0b010001100_10_000_100000000_110001110], .frsq .onFalse (.opC 0) (.write 14)),
    ([0b010001101_00_000_101000111_000010101], .fex2 .always (.guard 7) (.opA 21)),
    ([0b010001110_01_000_110001110_010011100], .flg2 .onTrue (.write 14) (.opB 28)),
    ([0b010001111_10_001_000010101_100000011], .fsin .onFalse .cos (.opA 21) (.opC 3)),
    ([0b010010000_00_000_010011100_101001010], .fclass .always (.opB 28) (.guard 10)),
    ([0b010010001_01_011_100000011_110010001], .frnd .onTrue .rd (.opC 3) (.write 17)),
    ([0b010010011_10_010_101001010_000011000], .fscale .onFalse .ru (.guard 10) (.opA 24))] = true := by decide +kernel

/-- Double and packed instructions, words written bit by bit from the fields of R39 and the codes of R41 to R45. -/
theorem test_decode_double_and_packed : decodesTo [
    ([0b010100000_00_001_110010001_010011111], .dadd .always .rz (.write 17) (.opB 31)),
    ([0b010100001_01_000_000011000_100000110], .dsub .onTrue .rne (.opA 24) (.opC 6)),
    ([0b010100010_10_011_010011111_101001101], .dmul .onFalse .rd (.opB 31) (.guard 13)),
    ([0b010100011_00_010_100000110_110010100], .dfma .always .ru (.opC 6) (.write 20)),
    ([0b010100100_01_000_101001101_000011011], .dmin .onTrue (.guard 13) (.opA 27)),
    ([0b010100101_10_000_110010100_010000010], .dmax .onFalse (.write 20) (.opB 2)),
    ([0b010100110_00_111_000011011_100001001], .dcmp .always .nan (.opA 27) (.opC 9)),
    ([0b010100111_01_010_010000010_101010000], .ddiv .onTrue .ru (.opB 2) (.guard 16)),
    ([0b010101000_10_001_100001001_110010111], .dsqrt .onFalse .rz (.opC 9) (.write 23)),
    ([0b010110000_00_110_101010000_000011110], .hadd2 .always ⟨.bf16, .ru⟩ (.guard 16) (.opA 30)),
    ([0b010110001_01_110_110010111_010000101], .hmul2 .onTrue ⟨.bf16, .ru⟩ (.write 23) (.opB 5)),
    ([0b010110010_10_110_000011110_100001100], .hfma2 .onFalse ⟨.bf16, .ru⟩ (.opA 30) (.opC 12)),
    ([0b010110011_00_100_010000101_101010011], .hmin2 .always .bf16 (.opB 5) (.guard 19)),
    ([0b010110100_01_100_100001100_110011010], .hmax2 .onTrue .bf16 (.opC 12) (.write 26)),
    ([0b010110101_10_111_101010011_000000001], .hcmp2 .onFalse ⟨.bf16, .le⟩ (.guard 19) (.opA 1))] = true := by decide +kernel

/-- Convert and matrix instructions, words written bit by bit from the fields of R39 and the codes of R41 to R45. -/
theorem test_decode_convert_and_matrix : decodesTo [
    ([0b011000000_00_000_110011010_010001000, 0b00101_01100_10_1_0000000000000000000], .cvt .always (.write 26) (.opB 8) .n16 .e4m3 .ru true),
    ([0b011000001_01_000_000000001_100001111], .pack .onTrue .f16 (.opA 1) (.opC 15)),
    ([0b011000010_10_011_010001000_101010110], .unpk .onFalse .e5m2 (.opB 8) (.guard 22)),
    ([0b011001000_00_011_100001111_110011101], .dot4I8 .always .uu (.opC 15) (.write 29)),
    ([0b011001001_01_010_101010110_000000100], .dot8I4 .onTrue .ui (.guard 22) (.opA 4)),
    ([0b011001010_10_001_110011101_010001011], .dot4F8 .onFalse .e4e5 (.write 29) (.opB 11)),
    ([0b011001011_00_000_000000100_100010010], .dot8F4 .always (.opA 4) (.opC 18)),
    ([0b011001100_01_000_010001011_101011001], .dot2Bf .onTrue (.opB 11) (.guard 25)),
    ([0b110000000_01_011_111111111_111111111], .mma .onTrue .f16m32),
    ([0b110000001_10_110_111111111_111111111], .mmaChk .onFalse .e2m1m32),
    ([0b110000010_00_001_110010101_010000011], .mmaGrp .always .bf16m32 (.write 21) (.opB 3)),
    ([0b110000011_01_100_111111111_111111111], .mmaSc .onTrue .e4m3m32),
    ([0b110000100_10_001_111111111_111111111], .ldm .onFalse .b16t),
    ([0b110000101_00_100_111111111_111111111], .stm .always .b4)] = true := by decide +kernel

/-- Memory instructions, words written bit by bit from the fields of R39 and the codes of R41 to R45. -/
theorem test_decode_memory : decodesTo [
    ([0b100000000_10_10011_1000011_100010010], .ldG .onFalse 19 0b1000011 (.opC 18)),
    ([0b100000001_00_10011_1000011_111111111], .stG .always 19 0b1000011),
    ([0b100000010_01_10011_1000011_110000000], .ldK .onTrue 19 0b1000011 (.write 0)),
    ([0b100000011_10_10011_1000011_000000111], .ldS .onFalse 19 0b1000011 (.opA 7)),
    ([0b100000100_00_10011_1000011_111111111], .stS .always 19 0b1000011),
    ([0b100000101_01_10011_1000011_111111111], .stStep .onTrue 19 0b1000011),
    ([0b100000110_10_10011_1000011_111111111], .stp .onFalse 19 0b1000011),
    ([0b100001000_00_000_110000011_010010001, 0b1001_11_100_00_10101_0000000000000000], .atom .always (.write 3) (.opB 17) .inc .acqRel .device 21),
    ([0b100001001_01_000_111111111_111111111, 0b1011_10_101_00_10101_0000000000000000], .red .onTrue .addF32 .release .system 21),
    ([0b100001010_10_000_010010001_101011111, 0b0000_01_011_00_01010_0000000000000000], .cas .onFalse (.opB 17) (.guard 31) .acquire .die 10),
    ([0b100001011_00_000_100011000_110000110, 0b1001_11_010_00_10101_0000000000000000], .atomS .always (.opC 24) (.write 6) .inc .acqRel .group 21),
    ([0b100010000_01_001_111111111_111111111], .prf .onTrue .l2),
    ([0b100010001_10_000_111111111_111111111], .cwb .onFalse),
    ([0b100010010_00_000_111111111_111111111], .cinv .always),
    ([0b100010011_01_000000010101_111111111], .pfence .onTrue 0x15),
    ([0b100010101_10_001_111111111_111111111], .waitc .onFalse .x)] = true := by decide +kernel

/-- Region, barrier and copy instructions, words written bit by bit from the fields of R39 and the codes of R41 to R45. -/
theorem test_decode_region_barrier_and_copy : decodesTo [
    ([0b101000000_00_000_111111111_111111111, 0b0011_01_110_00000000000000000000000], .rgnDef .always .addI32 .stepped 6),
    ([0b101000001_01_000_111111111_111111111], .rgnFree .onTrue),
    ([0b101000010_10_000_000010000_100011110], .rgnStat .onFalse (.opA 16) (.opC 30)),
    ([0b101000011_00_000_111111111_111111111], .step .always),
    ([0b101000100_01_000_100011110_110001100], .stepQ .onTrue (.opC 30) (.write 12)),
    ([0b101001000_10_000_111111111_111111111, 0b100_00000000000000000000000000000], .barInit .onFalse .device),
    ([0b101001001_00_000_111111111_111111111], .barArv .always),
    ([0b101001010_01_000_111111111_111111111], .barExp .onTrue),
    ([0b101001011_10_000_111111111_111111111], .barWait .onFalse),
    ([0b101001100_00_000_100000001_110001111], .barTest .always (.opC 1) (.write 15)),
    ([0b101001101_01_000_101001000_000010110], .barStat .onTrue (.guard 8) (.opA 22)),
    ([0b101001110_10_000_111111111_111111111], .barInv .onFalse),
    ([0b101010000_00_000_111111111_111111111], .cpG2s .always),
    ([0b101010001_01_000_111111111_111111111], .cpS2g .onTrue),
    ([0b101010010_10_000_111111111_111111111], .cpG2g .onFalse),
    ([0b101010011_00_000_111111111_111111111], .cpGth .always),
    ([0b101010100_01_000_111111111_111111111], .cpSct .onTrue),
    ([0b101010101_10_000_111111111_111111111], .cpWin .onFalse),
    ([0b101010111_00_100_111111111_111111111], .cpRed .always .maxI32)] = true := by decide +kernel

/-- Graph, system and move instructions, words written bit by bit from the fields of R39 and the codes of R41 to R45. -/
theorem test_decode_graph_system_and_move_1 : decodesTo [
    ([0b110010000_01_000_111111111_111111111], .gload .onTrue),
    ([0b110010001_10_000_111111111_111111111], .grun .onFalse),
    ([0b110010010_00_000_111111111_111111111], .garg .always),
    ([0b110010011_01_000_111111111_111111111], .gdrain .onTrue),
    ([0b110010100_10_000_111111111_111111111], .grel .onFalse),
    ([0b110010101_00_000_101010100_000000010], .gstat .always (.guard 20) (.opA 2)),
    ([0b110010110_01_000_111111111_111111111], .galloc .onTrue),
    ([0b110010111_10_000_111111111_111111111], .gfree .onFalse),
    ([0b110100000_00_001_010001001_101010111, 0b00000000000000_100010000_000000101], .mov4 .always .b64 (.opB 9) (.guard 23) (.opC 16) (.opA 5)),
    ([0b111000000_01_000_111111111_111111111], .launch .onTrue),
    ([0b111000001_10_000_111111111_111111111], .qsig .onFalse),
    ([0b111000010_00_010011010010_111111111], .svc .always 0x4D2),
    ([0b111000011_01_010011010010_111111111], .brk .onTrue 0x4D2),
    ([0b111000100_10_000000001000_010001100], .rdsr .onFalse 0x8 (.opB 12)),
    ([0b111000101_00_000000000111_111111111], .wrsr .always 0x7),
    ([0b111000110_01_000_111111111_111111111], .yield .onTrue),
    ([0b111000111_10_000_111111111_111111111], .gstop .onFalse),
    ([0b111001001_00_000_111111111_111111111], .spush .always),
    ([0b111001010_01_000_010001111_101011101], .spop .onTrue (.opB 15) (.guard 29)),
    ([0b111001011_10_000_100010110_110000100], .clk .onFalse (.opC 22) (.write 4))] = true := by decide +kernel

/-- Graph, system and move instructions, words written bit by bit from the fields of R39 and the codes of R41 to R45. -/
theorem test_decode_graph_system_and_move_2 : decodesTo [
    ([0b111001100_00_000_111111111_111111111], .trapret .always),
    ([0b111001110_01_000_111111111_111111111], .gbar .onTrue),
    ([0b111001111_10_000_111111111_111111111], .nop .onFalse),
    ([0b1111110_1011111011101111_010010010], .genk 0xBEEF (.opB 18)),
    ([0b1111111_1011111011101111_100011001], .appk 0xBEEF (.opC 25))] = true := by decide +kernel

/-- The argument words a0 to a13 of a ring entry, each with its number. -/
def argWords : List Word := (List.range 14).map fun k => BitVec.ofNat 32 (0xA0 + k)
/-- The 64-bit argument of words ak and ak+1, low word first (14 R325). -/
def argPair (k : Nat) : DWord := BitVec.ofNat 64 ((0xA1 + k) * 2 ^ 32 + 0xA0 + k)

def commandIs (l : List (Nat × Instr)) : Bool := l.all fun e => decide (decodeCommand e.1 3 9 argWords = some e.2)

/-- The command codes and arguments of 14 R328. -/
theorem test_decode_context_commands : commandIs [
    (0x0001, .create 9 3 (argPair 0)), (0x0002, .commit 9 3), (0x0003, .suspend 9 3), (0x0004, .resume 9 3), (0x0005, .destroy 9 3),
    (0x0006, .fpnset 9 3 0xA0), (0x0007, .segset 9 3 0xA0), (0x0008, .kill 9 3 0xA0), (0x0009, .ctxacct 9 3 (argPair 0)),
    (0x0010, .tlbinv 9 3 (argPair 0) (argPair 2) 0xA4), (0x0011, .fltdone 9 3 0xA0 0xA1)] = true := by decide +kernel
theorem test_decode_module_commands : commandIs [
    (0x0012, .memwb 9 3 (argPair 0) (argPair 2)), (0x0013, .memsplit 9 3 0xA0), (0x0020, .linkstat 9 3 0xA0),
    (0x0021, .peerset 9 3 0xA0 0xA1 (argPair 2) (argPair 4)), (0x0040, .smpset 9 3 (argPair 0) 0xA2 0xA3 0xA4 0xA5 0xA6 0xA7),
    (0x0041, .ewset 9 3 (argPair 0)), (0x0042, .ewget 9 3 (argPair 0)), (0x0050, .pwrlim 9 3 0xA0),
    (0x0051, .pwrstat 9 3 (argPair 0))] = true := by decide +kernel
theorem test_decode_debug_commands : commandIs [
    (0x0030, .dbgset 9 3 0xA0), (0x0031, .dbgbp 9 3 0xA0 0xA1), (0x0032, .dbgstop 9 3 0xA0 0xA1 0xA2),
    (0x0033, .dbgresume 9 3 0xA0 0xA1 0xA2 0xA3), (0x0034, .dbgwarp 9 3 0xA0 0xA1 0xA2 (argPair 3) 0xA5),
    (0x0035, .dbgkill 9 3 0xA0 0xA1 0xA2 0xA3), (0x0036, .dbgtok 9 3 0xA0 0xA1 0xA2 0xA3 (argPair 4)),
    (0x0037, .dbgnode 9 3 0xA0 0xA1 0xA2 (argPair 3))] = true := by decide +kernel

/-- Reserved opcodes, sub values, guard modes and targets are refused by name, and so is an unassigned command code (R39, R44, R45, R50). -/
theorem test_decode_refusals : refuses [
    -- opcode 0x01C, and 0x02B between the immediates and the compares; guard mode 0b11
    ([0b000011100_00_000_111111111_111111111], .opcode), ([0b000101011_00_000_111111111_111111111], .opcode),
    ([0b000000000_11_000_111111111_111111111], .opcode),
    -- sub 0b100 of class A; a nonzero sub of class Z
    ([0b000000000_00_100_111111111_111111111], .sub), ([0b000011101_00_001_111111111_111111111], .sub),
    -- target 0b110100000
    ([0b000000000_00_000_110100000_111111111], .target),
    -- the reserved operation 0b1100 of an atomic, and op 0b0001 of cas
    ([0b100001000_00_000_111111111_111111111, 0b1100_00_100_00_00000_0000000000000000], .sub),
    ([0b100001010_00_000_111111111_111111111, 0b0001_00_100_00_00000_0000000000000000], .sub)] = true ∧
    decodeCommand 0x000A 3 9 argWords = none := by decide +kernel

/-! ### A small machine

Context 0 with kernel 1, group 2 on core 0, and warp 3 with a block in its frame. The context's tables map a virtual address v below 2^28 to
v (class U), from 2^28 to 2^30 + v (class C), from 2 × 2^28 to 2^31 + v (class S), each readable and writable, and from 3 × 2^28 to
3 × 2^30 + v (class C), readable and executable (12 R254, R255). -/

def le8 (a v : Nat) : List Host.Cell := ((List.range 8).map fun k => (a + k, BitVec.ofNat 8 (v / 2 ^ (8 * k)))).filter fun c => c.2 ≠ 0

/-- Valid, readable, writable, leaf, size code 2 (1 GiB) are bits 0, 1, 2, 11 and 10:9; the class is bits 5:4. -/
def tables : List Host.Cell :=
  le8 0x100000 0x110001 ++ le8 0x110000 0x0C27 ++ le8 0x110008 (0x40000000 + 0x0C07) ++ le8 0x110010 (0x80000000 + 0x0C17) ++
  le8 0x110018 (0xC0000000 + 0x0C0B)

def desc : CtxDesc :=
  { ptroot := 0x100000, segtab := 0x120000, linktab := 0, faultq := 0x130000, savebase := 0x1000000, savesize := 0x1000000,
    dumpbase := 0x3000000, corebud := 144, bwbud := 0, pwrbud := 0, fpn := 0x100000, pairlim := 64, flags := 1 }

def ctx : Context :=
  { state := .resident, descAddr := 0x140000, desc := desc, leaving := none, waiting := none, endTag := none, fpn := 0x100000, dbgctl := 0,
    bps := List.replicate 8 0xFFFFFFFF, segs := [⟨true, 0x30000000, 0x100000⟩, ⟨true, 0x30100000, 0x1000⟩], fqWr := 0, openRecs := [],
    queues := [], acct := ⟨0, 0, 0, 0, 0, 0⟩, bwAvg := 0, pwrAvg := 0, bwNow := [], pwrNow := [], bwAcc := 0, pwrAcc := 0, swapped := [],
    dumping := none, gstatus := [0, 0, 0, 0] }

def launch : Launch :=
  { ctl := 1, entry := 0, groups := 4, shape := 0x20002, args := 0, framebase := 0, framestride := 0, tag := 0, complrec := 0, donebar := 0,
    waitlist := 0 }

def kernel : Kernel :=
  { ctx := 0, queue := 0, launch := launch, state := .running, entryHeld := true, qdep := false, code := 0, failGroup := 0, detail := 0,
    retired := 0, tstart := 0, tend := 0, nextRank := 1, killed := false, since := 0, aged := 0 }

def region : Region :=
  { state := .free, kind := .plain, rule := .fault, base := 0, size := 0, parts := 0, arrivals := 0, k := 0, coll := 0, ccur := 0, sel := [],
    written := [], hits := [], writers := [], gen := 0, lastWarp := 0, lastAt := 0 }

def group : Group :=
  { kid := 1, ctx := 0, rank := 0, state := .resident, cores := [0], C := 1, W := 1, S := 65536, gran := 4, spad := [], spois := [],
    regions := List.replicate 8 region, arrived := 0, stopped := false, since := 0, aged := 0, lastCommit := 0, dump := none, fatal := none,
    collision := none, lost := false, copyCells := [], born := 0, savedAt := none }

def frame : Frame :=
  { handle := 0, words := [], entry := 0xFFFFFFFF, laneless := false, toks := [], wtoks := [], fired := [], votes := [], whole := none,
    slots := [], infl := [], cmds := [], flags := 0, causes := [], irrev := false, stage := 0, fpn := 0, dbgctl := 0, mapped := 0 }

def warp : Warp :=
  { gid := 2, kid := 1, ctx := 0, rank := 0, core := 0, slot := 0, gran := 4, kclass := 1, cls := 1, state := .mapped, handle := 0,
    mask := 0xFFFFFFFF, v := [], s := [], p := [], vpois := [], spois := [], ssp := 0, splb := 0, deadm := 0, fpfl := 0, trapinf := 0,
    fij := 0, cntD := [], cntX := [], cntK := [], wait := .none, frame := some frame, image := none, prefetched := none, oddPend := [], redo := none,
    trap := none, clipDue := [], svcDue := [], stopDue := none, mode := .run, matched := false, since := 0, acqDue := 0, acqHeld := 0, barq := [],
    killDue := 0, haltDue := false, fijTaken := false }

def base : State :=
  { State.reset with
    start := ⟨0, .ready, 0, false, false, 0xFFFF⟩
    mem := ⟨tables, 0⟩
    links := List.replicate 4 ⟨.up, 8, [], 0, 0, false⟩
    host := ⟨.up, 16, 64, 0, 0⟩
    ctxs := [(0, ctx)], kernels := [(1, kernel)], groups := [(2, group)], warps := [(3, warp)], nextKid := 2, uid := 9, cur := (3, 1) }

/-- The memory of the small machine has its canonical form, and its tables translate as its comment says. -/
theorem test_base : base.mem.wf = true ∧ hubXlate base 0 0x5000 accAtomic = .ok 0x5000 .U 0xC27 1 ∧
    hubXlate base 0 0x10000040 accWrite = .ok 0x50000040 .C 0x40000C07 1 ∧ hubXlate base 0 0x20000080 accRead = .ok 0xA0000080 .S 0x80000C17 1 ∧
    hubXlate base 0 0x300000C0 accFetch = .ok 0xF00000C0 .C 0xC0000C0B 1 := by decide +kernel

/-! ### Firing one instruction -/

/-- Warp 3 with a frame changed by f, and the machine with it. -/
def withFrame (f : Frame → Frame) : State := { base with warps := [(3, { warp with frame := some (f frame) })] }

/-- Instruction 1 of the block in the frame has these operands. -/
def operands (a b c : Option Token) : Smap Token :=
  (match a with | some t => [(4, t)] | none => []) ++ (match b with | some t => [(5, t)] | none => []) ++
    (match c with | some t => [(6, t)] | none => [])

def firing (a b c : Option Token) : State := withFrame fun f => { f with toks := operands a b c }

def frameAfter (o : Out) : Option Frame :=
  match o with
  | .next t => (getWarp t 3).bind fun w => w.frame
  | _ => none

/-- A scalar and a vector operand, of the width given or of both. -/
def sc (v : DWord) : Option Token := some (Token.scal true true v)
def ve (f : Nat → DWord) : Option Token := some (Token.vect true ones32 f)

/-- What instruction 1 delivers to operand a of instruction 9 in a lane, and the flags it raises. -/
def delivers (i : Instr) (a b c : Option Token) (l : Nat) : Option (DWord × Word) :=
  (frameAfter (exec i (firing a b c))).bind fun f => (tget f.toks 36).map fun t => (t.at l, f.flags)

def scalarIs (i : Instr) (a b c : Option Token) (v : DWord) (fl : Word := 0) : Bool := decide (delivers i a b c 0 = some (v, fl))
def laneIs (i : Instr) (a b c : Option Token) (l : Nat) (v : DWord) : Bool := decide ((delivers i a b c l).map (·.1) = some v)

/-- R339: abs of the most negative number wraps; with .sat it clamps and sets SAT (bit 5); sums and products wrap or clamp. -/
theorem test_class_a :
    scalarIs (.abs .always .i32 (.opA 9) .none) (sc 0x80000000) none none 0x80000000 ∧
    scalarIs (.abs .always .i32sat (.opA 9) .none) (sc 0x80000000) none none 0x7FFFFFFF 32 ∧
    scalarIs (.neg .always .i64 (.opA 9) .none) (sc 1) none none 0xFFFFFFFFFFFFFFFF ∧
    scalarIs (.add .always .i32 (.opA 9) .none) (sc 0x7FFFFFFF) (sc 1) none 0x80000000 ∧
    scalarIs (.add .always .i32sat (.opA 9) .none) (sc 0x7FFFFFFF) (sc 1) none 0x7FFFFFFF 32 ∧
    scalarIs (.sub .always .n32sat (.opA 9) .none) (sc 3) (sc 5) none 0 32 ∧
    scalarIs (.sub .always .i64 (.opA 9) .none) (sc 3) (sc 5) none 0xFFFFFFFFFFFFFFFE ∧
    scalarIs (.mul .always .i32 (.opA 9) .none) (sc 0x10000) (sc 0x10001) none 0x10000 ∧
    scalarIs (.mul .always .n32sat (.opA 9) .none) (sc 0x10000) (sc 0x10001) none 0xFFFFFFFF 32 ∧
    scalarIs (.mad .always .i32 (.opA 9) .none) (sc 7) (sc 0xFFFFFFFF) (sc 5) 0xFFFFFFFE := by decide +kernel

/-- R340, R341: the upper half of a product, minimum and maximum by signedness, and the unit's quotients (zero divisor: all ones). -/
theorem test_class_s :
    scalarIs (.mulhi .always .i32 (.opA 9) .none) (sc 0xFFFFFFFF) (sc 0xFFFFFFFF) none 0 ∧
    scalarIs (.mulhi .always .n32 (.opA 9) .none) (sc 0xFFFFFFFF) (sc 0xFFFFFFFF) none 0xFFFFFFFE ∧
    scalarIs (.mulhi .always .n64 (.opA 9) .none) (sc 0xFFFFFFFFFFFFFFFF) (sc 0xFFFFFFFFFFFFFFFF) none 0xFFFFFFFFFFFFFFFE ∧
    scalarIs (.min .always .i32 (.opA 9) .none) (sc 0xFFFFFFFF) (sc 1) none 0xFFFFFFFF ∧
    scalarIs (.max .always .n32 (.opA 9) .none) (sc 0xFFFFFFFF) (sc 1) none 0xFFFFFFFF ∧
    scalarIs (.max .always .i64 (.opA 9) .none) (sc 0xFFFFFFFFFFFFFFFF) (sc 1) none 1 := by decide +kernel

/-- Results of instruction 1 that a unit delivers (07 R136). -/
def unitGives (i e : Instr) (a b : Option Token) (v : DWord) : Bool :=
  match exec i (firing a b none) with
  | .next t => decide ((frameAfter (exec e t)).bind (fun f => (tget f.toks 36).map fun t => t.at 0) = some v) &&
      decide ((frameAfter (.next t)).map (fun f => tget f.toks 36) = some none)
  | _ => false

/-- Signed division truncates, the remainder takes the dividend's sign; x / 0 is all ones and x rem 0 is x; the most negative number over
−1 wraps (R341). -/
theorem test_division :
    unitGives (.div .always .i32 (.opA 9) .none) (.divisionComplete 3 1) (sc 0xFFFFFFF9) (sc 2) 0xFFFFFFFD ∧
    unitGives (.rem .always .i32 (.opA 9) .none) (.divisionComplete 3 1) (sc 0xFFFFFFF9) (sc 2) 0xFFFFFFFF ∧
    unitGives (.div .always .n32 (.opA 9) .none) (.divisionComplete 3 1) (sc 7) (sc 0) 0xFFFFFFFF ∧
    unitGives (.rem .always .n64 (.opA 9) .none) (.divisionComplete 3 1) (sc 7) (sc 0) 7 ∧
    unitGives (.div .always .i32 (.opA 9) .none) (.divisionComplete 3 1) (sc 0x80000000) (sc 0xFFFFFFFF) 0x80000000 := by decide +kernel

/-- R342: the 12-bit immediate is sign-extended, also for the logic operations and compares. -/
theorem test_immediates :
    scalarIs (.addi .always 0xFFF (.opA 9)) (sc 1) none none 0 ∧ scalarIs (.andi .always 0x800 (.opA 9)) (sc 0xFFFFFFFF) none none 0xFFFFF800 ∧
    scalarIs (.ori .always 0x800 (.opA 9)) (sc 1) none none 0xFFFFF801 ∧ scalarIs (.xori .always 0xFFF (.opA 9)) (sc 0xF0) none none 0xFFFFFF0F ∧
    scalarIs (.shli .always 31 (.opA 9)) (sc 3) none none 0x80000000 ∧ scalarIs (.shri .always 31 (.opA 9)) (sc 0x80000000) none none 1 ∧
    scalarIs (.sari .always 31 (.opA 9)) (sc 0x80000000) none none 0xFFFFFFFF ∧ scalarIs (.muli .always 0xFFE (.opA 9)) (sc 5) none none 0xFFFFFFF6 ∧
    scalarIs (.cmpiEq .always 0xFFF (.opA 9)) (sc 0xFFFFFFFF) none none 1 ∧ scalarIs (.cmpiNe .always 0xFFF (.opA 9)) (sc 0xFFFFFFFF) none none 0 ∧
    scalarIs (.cmpiLt .always 0 (.opA 9)) (sc 0x80000000) none none 1 ∧ scalarIs (.cmpiLe .always 0 (.opA 9)) (sc 0) none none 1 ∧
    scalarIs (.cmpiGt .always 0 (.opA 9)) (sc 0x80000000) none none 0 ∧ scalarIs (.cmpiGe .always 0 (.opA 9)) (sc 0) none none 1 := by
  decide +kernel

/-- R343 to R345, with the examples of R344: sar.b32 of 0xFFFFFF80 by 40, and rotl.b64 by 68 as by 4. -/
theorem test_logic_shift :
    scalarIs (.andn .always .b32 (.opA 9) .none) (sc 0xFF) (sc 0x0F) none 0xF0 ∧ scalarIs (.not .always .b64 (.opA 9) .none) (sc 0) none none 0xFFFFFFFFFFFFFFFF ∧
    scalarIs (.and .always .b32 (.opA 9) .none) (sc 0xFF00FF0F) (sc 0xF) none 0xF ∧ scalarIs (.or .always .b32 (.opA 9) .none) (sc 0xF0) (sc 0xF) none 0xFF ∧
    scalarIs (.xor .always .b64 (.opA 9) .none) (sc 0xFF00000000) (sc 0x1) none 0xFF00000001 ∧
    scalarIs (.sar .always .b32 (.opA 9) .none) (sc 0xFFFFFF80) (sc 40) none 0xFFFFFFFF ∧
    scalarIs (.shl .always .b32 (.opA 9) .none) (sc 1) (sc 32) none 0 ∧ scalarIs (.shr .always .b64 (.opA 9) .none) (sc 0x8000000000000000) (sc 63) none 1 ∧
    scalarIs (.rotl .always .b64 (.opA 9) .none) (sc 0x123456789ABCDEF0) (sc 68) none 0x23456789ABCDEF01 ∧
    scalarIs (.clz .always .b32 (.opA 9) .none) (sc 0) none none 32 ∧ scalarIs (.clz .always .b64 (.opA 9) .none) (sc 1) none none 63 ∧
    scalarIs (.popc .always .b32 (.opA 9) .none) (sc 0xFF000000F) none none 8 ∧
    scalarIs (.brev .always .b32 (.opA 9) .none) (sc 0x1) none none 0x80000000 := by decide +kernel

/-- The examples of R346 and R348, and a bfi that goes past the top (R347). -/
theorem test_bit_fields :
    scalarIs (.bfe .always .i32 (.opA 9) .none) (sc 0x0000F0A0) (sc 4) (sc 4) 0xFFFFFFFA ∧
    scalarIs (.bfe .always .n32 (.opA 9) .none) (sc 0x0000F0A0) (sc 4) (sc 4) 0x0000000A ∧
    scalarIs (.bfi .always .b32 (.opA 9) .none) (sc 0xFF) (sc 0) (sc 0x081C) 0xF0000000 ∧
    scalarIs (.bsel .always (.opA 9) .none) (sc 0x11223344) (sc 0x55667788) (sc 0x00010203) 0x44332211 ∧
    scalarIs (.bsel .always (.opA 9) .none) (sc 0x00000080) (sc 0) (sc 0x10101000) 0xFFFFFF80 ∧
    scalarIs (.bsel .always (.opA 9) .none) (sc 0) (sc 0x80) (sc 0x08080804) 0x00000080 ∧
    scalarIs (.bsel .always (.opA 9) .none) (sc 0x123) (sc 0x456) (sc 0x2F2F2F2F) 0xFFFFFFFF ∧
    scalarIs (.bsel .always (.opA 9) .none) (sc 0x12345678) (sc 0) (sc 0x23222120) 0xEDCBA987 := by decide +kernel

/-- The examples of R349 and of genk with appk (R355), and the widenings of R350, R351. -/
theorem test_addresses_moves :
    scalarIs (.lea .always .s3 (.opA 9) .none) (sc 0x0000700000001000) (sc 0xFFFFFFFE) none 0x0000700000000FF0 ∧
    scalarIs (.addw .always .i32 (.opA 9) .none) (sc 0x100) (sc 0xFFFFFFFF) none 0xFF ∧
    scalarIs (.addw .always .n32 (.opA 9) .none) (sc 0x100) (sc 0xFFFFFFFF) none 0x1000000FF ∧
    scalarIs (.sext .always .i8 (.opA 9) .none) (sc 0x180) none none 0xFFFFFF80 ∧ scalarIs (.sext .always .i32 (.opA 9) .none) (sc 0x80000000) none none 0xFFFFFFFF80000000 ∧
    scalarIs (.sext .always .n32 (.opA 9) .none) (sc 0x180000000) none none 0x80000000 ∧
    scalarIs (.genk 0x1234 (.opA 9)) none none none 0x1234 ∧ scalarIs (.appk 0xABCD (.opA 9)) (sc 0x1234) none none 0x1234ABCD ∧
    scalarIs (.mov .always .b32 (.opA 9) .none) (sc 0x1122334455667788) none none 0x55667788 ∧
    scalarIs (.mov4 .always .b64 .none .none .none (.opA 9)) (sc 0x1122334455667788) none none 0x1122334455667788 ∧
    ((frameAfter (exec (.null .always (.opA 9) .none) (firing none none none))).bind fun f => tget f.toks 36).any (fun t => t.null) := by
  decide +kernel

/-- Compares read both operands signed but for ltn and len (R356); predicates take bit 0 (R358); sel takes b where bit 0 of a is 1 (R359). -/
theorem test_compares :
    scalarIs (.cmp .always .lt (.opA 9) .none) (sc 0x80000000) (sc 1) none 1 ∧ scalarIs (.cmp .always .ltn (.opA 9) .none) (sc 0x80000000) (sc 1) none 0 ∧
    scalarIs (.cmp64 .always .ge (.opA 9) .none) (sc 0x8000000000000000) (sc 1) none 0 ∧ scalarIs (.cmp64 .always .len (.opA 9) .none) (sc 5) (sc 5) none 1 ∧
    scalarIs (.pand .always (.opA 9) .none) (sc 3) (sc 2) none 0 ∧ scalarIs (.por .always (.opA 9) .none) (sc 3) (sc 2) none 1 ∧
    scalarIs (.pxor .always (.opA 9) .none) (sc 3) (sc 5) none 0 ∧ scalarIs (.pnot .always (.opA 9) .none) (sc 2) none none 1 ∧
    scalarIs (.sel .always .b32 (.opA 9) .none) (sc 1) (sc 7) (sc 8) 7 ∧ scalarIs (.sel .always .b32 (.opA 9) .none) (sc 2) (sc 7) (sc 8) 8 := by
  decide +kernel

/-- Lanes hold 10 times their number. -/
def ramp : Option Token := ve fun l => BitVec.ofNat 64 (10 * l)

/-- The lane instructions on a full vector: R361 to R370 and match (06 R124). -/
theorem test_lanes :
    scalarIs (.rfl .always .b32 (.opA 9) .none) ramp none none 0 ∧ scalarIs (.rdln .always .b32 (.opA 9) .none) ramp (sc 37) none 50 ∧
    laneIs (.wrln .always .b32 (.opA 9) .none) ramp (sc 4) (sc 99) 4 99 ∧ laneIs (.wrln .always .b32 (.opA 9) .none) ramp (sc 4) (sc 99) 5 50 ∧
    laneIs (.lxch .always .back (.opA 9) .none) ramp (sc 1) none 4 30 ∧ laneIs (.lxch .always .back (.opA 9) .none) ramp (sc 1) none 0 0 ∧
    laneIs (.lxch .always .fwd (.opA 9) .none) ramp (sc 1) none 31 310 ∧ laneIs (.lxch .always .flip (.opA 9) .none) ramp (sc 3) none 1 20 ∧
    laneIs (.lxch .always .from (.opA 9) .none) ramp (sc 6) none 2 60 ∧ laneIs (.lxch .always .back (.opA 9) .none) ramp (sc 1) (sc 0x15) 4 20 ∧
    scalarIs (.vote .always .ballot (.opA 9) .none) (ve fun l => BitVec.ofNat 64 l) none none 0xAAAAAAAA ∧
    scalarIs (.vote .always .count (.opA 9) .none) (ve fun l => BitVec.ofNat 64 l) none none 16 ∧
    laneIs (.matchKeys .always .b32 (.opA 9) .none) (ve fun l => BitVec.ofNat 64 (l % 2)) none none 4 0x55555555 ∧
    scalarIs (.redux .always .addI32 (.opA 9) .none) ramp none none 4960 ∧ laneIs (.scan .always .addI32 (.opA 9) .none) ramp none none 3 60 ∧
    laneIs (.lmask .always .below (.opA 9) .none) none (ve fun _ => 0) none 3 7 ∧ laneIs (.bcast .always .b32 (.opA 9) .none) (sc 5) none none 31 5 := by
  decide +kernel

/-! ### Floating-point values (08, 16) -/

/-- A single-precision result of instruction 1 in a lane of scalars, and the flags of 08 R175: NV 1, DZ 2, OF 4, UF 8, NX 16, SAT 32. -/
theorem test_single :
    scalarIs (.fadd .always .rne (.opA 9) .none) (sc 0x3F800000) (sc 0x40000000) none 0x40400000 ∧
    scalarIs (.fadd .always .rne (.opA 9) .none) (sc 0x4B800000) (sc 0x3F800000) none 0x4B800000 16 ∧
    scalarIs (.fadd .always .ru (.opA 9) .none) (sc 0x4B800000) (sc 0x3F800000) none 0x4B800001 16 ∧
    scalarIs (.fsub .always .rd (.opA 9) .none) (sc 0x3F800000) (sc 0x3F800000) none 0x80000000 ∧
    scalarIs (.fmul .always .rne (.opA 9) .none) (sc 0x7F7FFFFF) (sc 0x40000000) none 0x7F800000 20 ∧
    scalarIs (.ffma .always .rne (.opA 9) .none) (sc 0x40400000) (sc 0x40A00000) (sc 0x40E00000) 0x41B00000 ∧
    scalarIs (.fmin .always (.opA 9) .none) (sc 0) (sc 0x80000000) none 0x80000000 ∧
    scalarIs (.fmax .always (.opA 9) .none) (sc 0x7FC00001) (sc 0x3F800000) none 0x3F800000 ∧
    scalarIs (.fabs .always (.opA 9) .none) (sc 0xBF800000) none none 0x3F800000 ∧
    scalarIs (.fneg .always (.opA 9) .none) (sc 0x7FC00000) none none 0xFFC00000 ∧
    scalarIs (.fcmp .always .lt (.opA 9) .none) (sc 0x7FC00000) (sc 0) none 0 1 ∧
    scalarIs (.fcmp .always .nan (.opA 9) .none) (sc 0x7FC00000) (sc 0) none 1 := by decide +kernel
theorem test_single_more :
    scalarIs (.frcp .always (.opA 9) .none) (sc 0x40800000) none none 0x3E800000 ∧
    scalarIs (.frcp .always (.opA 9) .none) (sc 0x80000000) none none 0xFF800000 2 ∧
    scalarIs (.frsq .always (.opA 9) .none) (sc 0x40800000) none none 0x3F000000 ∧
    scalarIs (.fex2 .always (.opA 9) .none) (sc 0x40400000) none none 0x41000000 ∧
    scalarIs (.flg2 .always (.opA 9) .none) (sc 0x41000000) none none 0x40400000 ∧
    scalarIs (.flg2 .always (.opA 9) .none) (sc 0) none none 0xFF800000 2 ∧
    scalarIs (.fsin .always .sin (.opA 9) .none) (sc 0x80000000) none none 0x80000000 ∧
    scalarIs (.fsin .always .cos (.opA 9) .none) (sc 0) none none 0x3F800000 ∧
    scalarIs (.fclass .always (.opA 9) .none) (some (Token.scal false true 0x80000000)) none none 0x20 ∧
    scalarIs (.fclass .always (.opA 9) .none) (sc 0x7FF0000000000000) none none 0x200 ∧
    scalarIs (.frnd .always .rne (.opA 9) .none) (sc 0xBE99999A) none none 0x80000000 16 ∧
    scalarIs (.fscale .always .rne (.opA 9) .none) (sc 0x3F800000) (sc 3) none 0x41000000 ∧
    unitGives (.fdiv .always .rne (.opA 9) .none) (.floatDivideComplete 3 1) (sc 0x3F800000) (sc 0x40400000) 0x3EAAAAAB ∧
    unitGives (.fsqrt .always .rne (.opA 9) .none) (.floatDivideComplete 3 1) (sc 0x40800000) none 0x40000000 := by decide +kernel

theorem test_double :
    scalarIs (.dadd .always .rne (.opA 9) .none) (sc 0x3FF0000000000000) (sc 0x4000000000000000) none 0x4008000000000000 ∧
    scalarIs (.dsub .always .rne (.opA 9) .none) (sc 0x3FF0000000000000) (sc 0x4000000000000000) none 0xBFF0000000000000 ∧
    scalarIs (.dmul .always .rne (.opA 9) .none) (sc 0x4008000000000000) (sc 0x4000000000000000) none 0x4018000000000000 ∧
    scalarIs (.dfma .always .rne (.opA 9) .none) (sc 0x4008000000000000) (sc 0x4000000000000000) (sc 0x3FF0000000000000) 0x401C000000000000 ∧
    scalarIs (.dmin .always (.opA 9) .none) (sc 0x4008000000000000) (sc 0x4000000000000000) none 0x4000000000000000 ∧
    scalarIs (.dmax .always (.opA 9) .none) (sc 0x4008000000000000) (sc 0x4000000000000000) none 0x4008000000000000 ∧
    scalarIs (.dcmp .always .gt (.opA 9) .none) (sc 0x4008000000000000) (sc 0x4000000000000000) none 1 ∧
    unitGives (.ddiv .always .rne (.opA 9) .none) (.floatDivideComplete 3 1) (sc 0x3FF0000000000000) (sc 0x4000000000000000) 0x3FE0000000000000 ∧
    unitGives (.dsqrt .always .rne (.opA 9) .none) (.floatDivideComplete 3 1) (sc 0x4022000000000000) none 0x4008000000000000 := by decide +kernel

/-- Halves of .f16: 1.0 is 0x3C00, 2.0 0x4000, 3.0 0x4200; of .bf16: 1.0 is 0x3F80, 2.0 0x4000. -/
theorem test_packed_halves :
    scalarIs (.hadd2 .always ⟨.f16, .rne⟩ (.opA 9) .none) (sc 0x3C003C00) (sc 0x3C004000) none 0x40004200 ∧
    scalarIs (.hmul2 .always ⟨.bf16, .rne⟩ (.opA 9) .none) (sc 0x3F804000) (sc 0x40003F80) none 0x40004000 ∧
    scalarIs (.hfma2 .always ⟨.f16, .rne⟩ (.opA 9) .none) (sc 0x3C003C00) (sc 0x3C004000) (sc 0x3C003C00) 0x40004200 ∧
    scalarIs (.hmin2 .always .f16 (.opA 9) .none) (sc 0x3C004000) (sc 0x40003C00) none 0x3C003C00 ∧
    scalarIs (.hmax2 .always .f16 (.opA 9) .none) (sc 0x3C004000) (sc 0x40003C00) none 0x40004000 ∧
    scalarIs (.hcmp2 .always ⟨.f16, .lt⟩ (.opA 9) .none) (sc 0x3C003C00) (sc 0x3C004000) none 0x0000FFFF := by decide +kernel

/-- The examples of R395 (500.0 to .e4m3 with and without .sat) and of 08 R171 (the elements of 0x7F01E2A3), and small products: 1.0 is 0x38 in
.e4m3, 0b0010 in .e2m1. -/
theorem test_conversions_dots :
    scalarIs (.cvt .always (.opA 9) .none .f32 .e4m3 .rne true) (sc 0x43FA0000) none none 0x7E 20 ∧
    decide ((delivers (.cvt .always (.opA 9) .none .f32 .e4m3 .rne false) (sc 0x43FA0000) none none 0).map (·.1) = some 0x7F) ∧
    scalarIs (.cvt .always (.opA 9) .none .i32 .i8 .rne true) (sc 0x80) none none 0x7F 32 ∧
    scalarIs (.unpk .always .i8 (.opA 9) .none) (sc 0x7F01E2A3) (sc 1) none 0xFFFFFFE2 ∧
    scalarIs (.pack .always .i8 (.opA 9) .none) (sc 200) (sc 0) (sc 5) 0x7F00 32 ∧
    scalarIs (.dot4I8 .always .ii (.opA 9) .none) (sc 0x7F01E2A3) (sc 0x01010101) (sc 10) 15 ∧
    scalarIs (.dot4I8 .always .uu (.opA 9) .none) (sc 0x7F01E2A3) (sc 0x01010101) (sc 0) 517 ∧
    scalarIs (.dot8I4 .always .ii (.opA 9) .none) (sc 0x0000000F) (sc 0x00000007) (sc 0) 0xFFFFFFF9 ∧
    scalarIs (.dot4F8 .always .e4e4 (.opA 9) .none) (sc 0x38383838) (sc 0x38383838) (sc 0x3F800000) 0x40A00000 ∧
    scalarIs (.dot8F4 .always (.opA 9) .none) (sc 0x22222222) (sc 0x22222222) (sc 0) 0x41000000 ∧
    scalarIs (.dot2Bf .always (.opA 9) .none) (sc 0x3F803F80) (sc 0x3F803F80) (sc 0) 0x40000000 := by decide +kernel

/-! ### Witnesses: the firing of instructions

Each theorem is named after the statement whose hypotheses it meets. -/

def null : Option Token := some (Token.scal true false 0)

/-- An instruction of this shape is ready, with a lane that fires; and is ready with none. -/
def fires (need passes : List Nat) : Bool := (ready (firing (sc 5) (sc 3) (sc 1)) .always need passes).any Fire.any
def idle (need passes : List Nat) : Bool := (ready (firing null null null) .always need passes).any fun x => !x.any
def both (need passes : List Nat) : Bool := fires need passes && idle need passes

/-- A guarded instruction that fires in the even lanes, where a is valid in the lower half. -/
theorem witness_ReadyExactlyWhenOperandsArrived :
    (ready (withFrame fun f => { f with toks := [(4, Token.vect false 0xFFFF fun _ => 1), (7, Token.vect false ones32 fun l => BitVec.ofNat 64 l)] })
      .onFalse [0] []).any (fun x => x.lanes = 0x5555 ∧ x.vec) = true ∧
    ready (firing none none none) .always [0] [] = none ∧ ready (withFrame fun f => { f with fired := [1] }) .always [] [] = none := by
  decide +kernel
theorem witness_IntegerArithmeticResults : both [0, 1] [] ∧ both [0, 1, 2] [] ∧ both [0] [] := by decide +kernel
theorem witness_DivisionResultsInFlight : fires [0, 1] [] ∧ idle [0, 1] [] := by decide +kernel
theorem witness_ImmediateResults : both [0] [] := by decide +kernel
theorem witness_LogicAndShiftResults : both [0, 1] [] ∧ both [0] [] := by decide +kernel
theorem witness_BitFieldResults : both [0, 1, 2] [] := by decide +kernel
theorem witness_AddressAndMoveResults : both [0, 1] [] ∧ both [0] [] ∧ both [0] [0] ∧ fires [] [] := by decide +kernel
theorem witness_CompareAndPredicateResults : both [0, 1] [] ∧ both [0] [] ∧ both [0, 1, 2] [1, 2] := by decide +kernel
theorem witness_LaneReadAndWriteResults : both [0] [0] ∧ both [0, 1] [0] ∧ both [0, 1, 2] [] := by decide +kernel
theorem witness_LaneExchangeSources : both [0, 1] [0] := by decide +kernel
theorem witness_VoteMatchReduceScanResults : both [0] [] ∧
    (ready (firing (sc 5) none none) .always [0] []).any (fun x => x.c.isNone) ∧ (ready (firing ramp none (sc 3)) .always [0] []).any (fun x => x.c.isSome) := by
  decide +kernel
theorem witness_LaneMaskAndBroadcastResults : fires [] [] ∧ both [0] [] := by decide +kernel
theorem witness_SinglePrecisionResults : both [0, 1] [] ∧ both [0, 1, 2] [] ∧ both [0] [] := by decide +kernel
theorem witness_DoublePrecisionResults : both [0, 1] [] ∧ both [0, 1, 2] [] ∧ both [0] [] := by decide +kernel
theorem witness_PackedHalvesResults : both [0, 1] [] ∧ both [0, 1, 2] [] := by decide +kernel
theorem witness_ConversionAndDotResults : both [0] [] ∧ both [0, 1] [] ∧ both [0, 1, 2] [] := by decide +kernel

/-- A result of each unit is in flight. -/
theorem witness_LateResultsDelivered :
    (([(Instr.div .always .i32 (.opA 9) (.write 0), Late.div), (.fsqrt .always .rne (.opA 9) .none, .fdiv)] : List (Instr × Late)).all fun e =>
      match frameAfter (exec e.1 (firing (sc 0x40800000) (sc 2) none)) with
      | some f => (f.infl.find? fun x => decide (x.1 = 1) && decide (x.2.1 = e.2)).isSome
      | none => false) = true := by decide +kernel

/-- Word 0 of a header with two exits (02 R24). -/
def twoExits (f : Frame) : Frame := { f with words := [0x400] }

/-- The last exit of the block, the first beyond it; a lane-less block; lanes that have voted. -/
theorem witness_ExitVotes :
    Img.nexits [0x400#32] = 2 ∧ (ready (withFrame twoExits) .always [] []).any (fun x => x.any ∧ x.f.laneless = false ∧ x.f.votes = []) ∧
    (ready (withFrame fun f => { twoExits f with laneless := true }) .always [] []).any (fun x => x.any ∧ x.f.laneless ∧ x.f.whole = none) ∧
    (ready (withFrame fun f => { twoExits f with toks := operands (sc 1) none none }) .always [0] []).any
      (fun x => x.list.all fun l => decide ((x.aw l).toNat < 2)) ∧
    (ready (withFrame fun f => { twoExits f with toks := operands (sc 1) none none, votes := [(31, 0)] }) .always [0] []).any
      (fun x => x.f.laneless = false ∧ x.has 31 ∧ (x.aw 31).toNat = 1) := by decide +kernel

/-- A signalling NaN before and after a number, two NaNs, in each of the formats. -/
theorem witness_NanAndCompareRules : ([(fF64, 0x7FF0000000000001), (fF32, 0xFF800001), (fF16, 0x7C01), (fBF16, 0x7F81), (fE5M2, 0x7D)] : List (Fmt × Nat)).all
    (fun p => p.1.isNaN p.2 && p.1.isSNaN p.2 && decide (p.2 < 2 ^ p.1.width) && !p.1.isNaN 0 && decide (0 < 2 ^ p.1.width)) = true := by decide +kernel

/-- The smallest and the largest value of a format, and a value that lies between two of single precision. -/
theorem witness_RoundingRules : fF32.isNaN 1 = false ∧ fF32.isNaN 0x7F7FFFFF = false ∧ fE4M3.isNaN 0x7E = false ∧ fE2M1.isNaN 7 = false ∧
    (fF32.roundFin .rz false false 0x1000001 0).1 = 0x4B800000 ∧ 0x4B800000 < fF32.maxBits := by decide +kernel

/-! ### Witnesses: memory instructions -/

/-- Two slots, of 4 bytes each (02 R24, R33, R35). -/
def slotWords (code : Nat) : List Word := BitVec.ofNat 32 (2 * 4096) :: List.replicate 6 0 ++ [0xFFFF] ++ List.replicate 8 0 ++ [BitVec.ofNat 32 (code * 17)]

def slotReady (o : SlotOp) (need passes : List Nat) (a : Option Token) (size : Nat := 2) : Bool :=
  let st := withFrame fun f => { f with words := slotWords size, toks := operands a (sc 7) (sc 9) }
  (ready st .always need passes).any fun x => x.any && (if o.single x then [x.low] else x.list).all fun l =>
    let n := Img.bytes x.f.words o.slot
    let c := checkAcc st x o.kind n o.scope (o.ea x n l) (o.acc x n l)
    c.bad.isNone && c.xf.isNone

/-- The block's atomic gives the data of the store at index 2 (slot 1, of 4 bytes), whose address has come (07 R142, R143). -/
def addressCame (st : Instr) (fire : State → Option Fire) : Bool :=
  let ws : List Word := BitVec.ofNat 32 (2 * 2 ^ 20 + 2 ^ 18 + 2 * 4096) :: List.replicate 15 0 ++ [0x22] ++ List.replicate 15 0 ++
    encode (.atom .always (.opB 2) .none .add .relaxed .device 0) ++ encode st
  let s := { withFrame (fun f => { f with words := ws, toks := [(8, Token.scal true true 0x10000000), (10, Token.scal true true 7)] }) with cur := (3, 2) }
  (fire s).isSome

/-- A store whose slot is held, its addresses checked before its data came. -/
def heldSlot (o : SlotOp) : SlotEntry :=
  { idx := 1, kind := o.kind, size := 4, sx := false, scalar := true, accs := [], op := o.op, ord := o.ord, scope := o.scope, tgts := [], fired := 1
    gens := [], issued := false, done := false, held := true, result := [], saw := [] }

def takesData (o : SlotOp) (need passes : List Nat) : Bool :=
  (ready (withFrame fun f => { f with words := slotWords 2, toks := operands (sc 0x10000000) (sc 7) (sc 9), slots := [(o.slot, heldSlot o)] })
    .always need passes).any fun x => x.any && (tget x.f.slots o.slot).any fun h => h.held

/-- Vector addresses 4 bytes apart. -/
def column (a : Nat) : Option Token := ve fun l => BitVec.ofNat 64 (a + 4 * l)

theorem witness_SlotInstructionsFillTheirSlots :
    slotReady ⟨.ldG, 0, -1, .add, .relaxed, .warp, [.opA 9]⟩ [0] [] (column 0x5004) ∧
    slotReady ⟨.ldK, 1, 0, .add, .relaxed, .warp, [.opA 9]⟩ [0] [] (sc 0x0FFFFFFC) ∧
    slotReady ⟨.ldS, 0, 63, .add, .relaxed, .warp, [.opA 9]⟩ [0] [] (sc 0xFF00) ∧
    slotReady ⟨.stG, 0, 0, .add, .relaxed, .warp, []⟩ [0, 1] [1, 2] (sc 0x10000000) ∧
    slotReady ⟨.stS, 0, 0, .add, .relaxed, .warp, []⟩ [0, 1] [1, 2] (sc 0xFFFC) ∧
    slotReady ⟨.red, 0, 0, .add, .release, .device, []⟩ [0, 1] [1] (column 0x10000000) ∧
    slotReady ⟨.atom, 0, 0, .add, .relaxed, .device, [.opA 9, .none]⟩ [0, 1] [] (column 0x10000000) ∧
    slotReady ⟨.atomS, 0, 0, .add, .relaxed, .group, [.opA 9, .none]⟩ [0, 1] [] (sc 0) ∧
    slotReady ⟨.cas, 0, 0, .exch, .relaxed, .device, [.opA 9, .none]⟩ [0, 1, 2] [] (sc 0x10000000) ∧
    idle [0] [] ∧ idle [0, 1] [1, 2] ∧ idle [0, 1] [1] ∧ idle [0, 1, 2] [1] ∧ idle [0, 1] [] ∧ idle [0, 1, 2] [] := by decide +kernel

/-- Stores whose addresses are checked first, and stores that then take their data. -/
theorem witness_StoresFedByAtomics :
    ([(Instr.stG .always 1 0, SlotOp.mk .stG 1 0 .add .relaxed .warp [], [0, 1], [1, 2]), (.stS .always 1 0, ⟨.stS, 1, 0, .add, .relaxed, .warp, []⟩, [0, 1], [1, 2]),
      (.stStep .always 1 0, ⟨.stStep, 1, 0, .add, .relaxed, .warp, []⟩, [0, 1], [1]), (.stp .always 1 0, ⟨.stp, 1, 0, .add, .relaxed, .warp, []⟩, [0, 1, 2], [1]),
      (.red .always .add .relaxed .device 1, ⟨.red, 1, 0, .add, .relaxed, .device, []⟩, [0, 1], [1])] : List (Instr × SlotOp × List Nat × List Nat)).all
      (fun e => addressCame e.1 (fun s => if (ready s .always e.2.2.1 e.2.2.2).isSome then none else addrReady s .always e.2.1) &&
        takesData e.2.1 e.2.2.1 e.2.2.2) = true := by decide +kernel

/-- Group 2 with an active region 7 of 8 words at 0x400 (10 R205), and the machine with the frame's block reading and writing every region. -/
def regionState (kind : RKind) (f : Frame → Frame) : State :=
  let r := { region with
    state := .defined, kind := kind, rule := if kind = .prio then .prioHigh else .addI32, base := 0x400, size := 8, parts := 1, gen := 3 }
  let s := withFrame fun x => f { x with words := slotWords 2 }
  { s with groups := [(2, { group with regions := setAt group.regions 7 r })] }

theorem witness_SteppedSlots :
    ([(SlotOp.mk .stStep 0 0 .add .relaxed .warp [], [0, 1], RKind.stepped), (⟨.stp, 0, 0, .add, .relaxed, .warp, []⟩, [0, 1, 2], .prio)].all fun e =>
      let st := regionState e.2.2 fun f => { f with toks := operands (sc 0x41C) (sc 7) (sc 9) }
      (ready st .always e.2.1 [1]).any fun x =>
        let c := checkAcc st x e.1.kind 4 .warp (e.1.ea x 4 0) (e.1.acc x 4 0)
        x.any && c.bad.isNone && c.xf.isNone) = true := by decide +kernel

/-- The first address past 52 bits, and the last inside it, which no multiple of 4 is. -/
theorem witness_AddressFormAndAlignmentFaults :
    ([0x10000000000000, 0x0FFFFFFFFFFFFF] : List Nat).map (fun a =>
      (ready (withFrame fun f => { f with words := slotWords 2, toks := operands (sc (BitVec.ofNat 64 a)) (sc 7) none }) .always [0] []).map fun x =>
        (x.any, (SlotOp.mk .ldG 0 0 .add .relaxed .warp [.opA 9]).single x, (SlotOp.mk .ldG 0 0 .add .relaxed .warp [.opA 9]).ea x 4 x.low,
          (SlotOp.mk .stG 0 0 .add .relaxed .warp []).single x)) =
      [some (true, true, 2 ^ 52, true), some (true, true, 2 ^ 52 - 1, true)] ∧
    (ready (withFrame fun f => { f with words := slotWords 2, toks := operands (sc 0) (sc 7) none }) .always [0] []).any
      (fun x => (SlotOp.mk .ldG 0 (-1) .add .relaxed .warp [.opA 9]).ea x 4 x.low = -4) ∧ both [0, 1] [1, 2] := by decide +kernel

/-- An S-class range, and an empty one at the end of the address space. -/
theorem witness_CacheControlCommands : both [0] [] ∧ fires [] [] ∧
    (let st := firing (sc 0x20000040) (sc 0xFF00) none
     (ready st .always [0, 1] []).any fun x => x.any &&
       (match (maintSegs st x 2 0x20000040 0x2000FF40).1 with
        | ⟨segs, [], false, none⟩ => decide (segs = [(0xA0000040, 0xFF00)])
        | _ => false)) ∧
    (let st := firing (sc 0xFFFFFFFFFFFFF) (sc 0) none
     (ready st .always [0, 1] []).any fun x => x.any &&
       (match (maintSegs st x 2 (2 ^ 52 - 1) (2 ^ 52 - 1)).1 with | ⟨[], [], false, none⟩ => true | _ => false)) := by decide +kernel

/-! ### Witnesses: regions, barriers, copies, graph, system, matrix -/

theorem witness_RegionInstructions :
    -- a region at the end of the share, with the most parts; the last region number, defined and stepped
    (ready (firing (sc 0xFF80) (sc 32) (sc 0)) .always [0, 1, 2] []).any
      (fun x => x.any ∧ rgnDefBad (x.group base) 7 .plain (x.aw x.low) (x.bw x.low) (x.cw x.low) = none) ∧
    (ready (firing (sc 0) (sc 32) (sc 1023)) .always [0, 1, 2] []).any
      (fun x => rgnDefBad (x.group base) 0 .stepped (x.aw x.low) (x.bw x.low) (x.cw x.low) = none) ∧
    (let st := regionState .stepped fun f => { f with toks := operands (sc 7) none none }
     (ready st .always [0] []).any fun x =>
       let r := getRegion (x.group st) 7
       x.any ∧ (x.aw x.low).toNat = 7 ∧ r.active ∧ r.stepped ∧ Nat.testBit (Img.rgnw x.f.words) 7 ∧ Nat.testBit (Img.rgnr x.f.words) 7) := by
  decide +kernel

/-- A cell in the group's scratchpad, and one in a C-class page. -/
def spadCell : DWord := 0x8000000000000040
def globCell : DWord := 0x10000040

def cellFound (st : State) (x : Fire) (c : DWord) (a : Acc) : Bool :=
  match checkCell st x c a with
  | ⟨some _, [], u⟩ => decide (u = st)
  | _ => false

theorem witness_BarrierInstructions :
    ([(spadCell, (0xFFFFFF : DWord)), (spadCell, 1), (globCell, 0)].all fun e =>
      let st := firing (sc e.1) (sc e.2) none
      (ready st .always [0, 1] []).any fun x =>
        x.any && cellFound st x (x.av x.low) accAtomic && cellFound st x (x.av x.low) accRead && decide ((x.bw x.low).toNat ≤ 0xFFFFFF)) = true ∧
    scopeFits spadCell .group ∧ scopeFits globCell .system ∧ cellCut base (.glob 0x50000040) = false ∧ cellPoisoned base (.glob 0x50000040) = false ∧
    cellPoisoned base (.spad 2 0x40) = false := by decide +kernel

/-- The 128 bytes of a descriptor (11 R232) at 0x150000: control word, outer stride, source, destination, auxiliary, one level. -/
def copyDesc (dims : Nat) (xs : Word) (src dst aux : DWord) (levels : List Word) : List Word :=
  let ws := [BitVec.ofNat 32 (2 * 2 ^ 24 + (dims - 1) * 2 ^ 16), xs, lo32 src, hi32 src, lo32 dst, hi32 dst, lo32 aux, hi32 aux] ++ levels
  ws ++ List.replicate (32 - ws.length) 0

def withCells (s : State) (l : List Host.Cell) : State := { s with mem := ⟨tables ++ l, 0⟩ }
def wordCells (a : Nat) (ws : List Word) : List Host.Cell :=
  (((List.range (4 * ws.length)).zip (bytesOfWords ws)).map fun p => (a + p.1, p.2)).filter fun c => c.2 ≠ 0

def copyStarts (k : CopyKind) (ws : List Word) : Bool :=
  -- the descriptor lies in an S-class page
  let st := withCells (firing (sc 0x20150000) (sc globCell) none) (wordCells 0xA0150000 ws)
  (ready st .always [0, 1] []).any fun x => !descWaits st x.w.core x.w.ctx (x.av x.low) && !cellWaits st x (x.bv x.low) &&
    match fetchDesc st x.w (x.av x.low) with
    | (.ok r false, u) => x.any && decide (r = ws) && descOk k ws &&
      -- checkCell gives the state it was given where it finds the cell
      (match checkCell u x (x.bv x.low) accAtomic with | ⟨some at_, [], _⟩ => !scopeBad u (x.bv x.low) at_ | _ => false)
    | _ => false

theorem witness_CopyInstructions :
    copyStarts .g2s (copyDesc 1 0 0x5000 0x8000000000000400 0 [16, 4, 4]) ∧ copyStarts .s2g (copyDesc 1 0 0x8000000000000400 0x5000 0 [16, 4, 4]) ∧
    copyStarts .g2g (copyDesc 1 0 0x5000 0x6000 0 [16, 4, 4]) ∧ copyStarts .gth (copyDesc 2 64 0x5000 0x6000 0x7000 [16, 4, 4, 2, 0, 64]) ∧
    copyStarts .sct (copyDesc 2 64 0x5000 0x6000 0x7000 [16, 4, 4, 2, 64, 0]) ∧
    copyStarts .win (copyDesc 1 16 0x5000 0x8000000000000400 0x010102 [4, 4, 4]) ∧
    copyStarts (.red .addI32) (copyDesc 1 0 0x5000 0x6000 0 [16, 4, 4]) ∧ idle [0, 1] [] := by decide +kernel

/-- The last partition number, granted by word 7 of the header (02 R26). -/
theorem witness_GraphInstructions :
    (let st := withFrame fun f => { f with words := List.replicate 7 0 ++ [0x80000], toks := operands (sc 3) (sc 15) (sc globCell) }
     (ready st .always [0, 1, 2] []).any fun x => x.any && decide ((x.aw x.low).toNat = 3) && Nat.testBit (Img.gparts x.f.words) 3 &&
       cellFound st x (x.cv x.low) accAtomic) ∧
    shapeBad 0 = false ∧ both [0, 1, 2] [] ∧ both [0, 1] [] ∧ both [0] [] := by decide +kernel

/-- A warp whose split stack holds an entry (07 R151). -/
theorem witness_SystemInstructions : both [0] [] ∧ both [0, 1] [] ∧ both [0, 1, 2] [] ∧ fires [] [] ∧
    (let w := { warp with ssp := 1, s := [(352, 0x40), (353, 0xFF)] }
     let st := { base with warps := [(3, w)] }
     (ready st .always [] []).any fun x => x.any ∧ x.w.top.isSome ∧ x.w.count ≤ 16 ∧ x.w.spois = []) := by decide +kernel

/-- Windows of m16n16k16 (8 registers of C and D, 4 of A and B): D v0, C v8, B v24, A v16; for mma.grp one group of 16 rows, and 17 rows,
of which one is clipped; and an 8 by 8 tile of 32 bits, at v4. -/
theorem witness_MatrixInstructionsInFlight :
    (let st := firing (sc 0x00081810) none none
     (ready st .always [0] []).any fun x => x.any ∧ (plainOperands st x (mshape .bf16m16) (mshape .bf16m16).nCD (bAddr x.b) false).1 = []) ∧
    (let st := firing (sc 0x00081810) none (sc 0x1D1C)
     (ready st .always [0, 2] []).any fun x => x.any ∧ windowFits x.w (wbits (x.cw x.low) 7 0) 1 ∧ windowFits x.w (wbits (x.cw x.low) 15 8) 1 ∧
       wbits (x.cw x.low) 31 16 = 0 ∧ x.w.vpois = [] ∧ (plainOperands st x (mshape .bf16m16) (mshape .bf16m16).nCD (bAddr x.b) false).1 = []) ∧
    (let st := firing (sc 0x000A1814) none (sc globCell)
     (ready st .always [0, 2] []).any fun x => x.any ∧ (plainOperands st x (mshape .bf16m16) ((mshape .bf16m16).nCD + 2) (bAddr x.b) false).1 = [] ∧
       cellFound st x (x.cv x.low) accAtomic) ∧
    ([(16 : DWord), 0x80000011].all fun b => (ready (firing (sc 0x00081810) (sc b) none) .always [0, 1] []).any fun x =>
       x.any && x.c.isNone && decide (wbits (x.bw x.low) 30 24 = 0) && decide (overlapCause x [(0, 8)] = []) && windowFits x.w 0 8 &&
         ((liveGroups (mshape .bf16m16) (x.bw x.low)).all fun e => windowFits x.w (24 + e.1 * 4) 4)) ∧
    (let st := firing (sc 0x00070704) (sc 0x100) (sc 32)
     (ready st .always [0, 1, 2] []).any fun x =>
       let t := tileOf .b32 (x.aw x.low)
       x.any ∧ (x.group st).spois = [] ∧ tileCauses st x t (x.aw x.low) 0x100 32 .matrix = [] ∧ tileCauses st x t (x.aw x.low) 0x100 32 .other = [] ∧
         overlapCause x [(t.reg, t.regs)] = []) := by decide +kernel

/-- One element of an .i8 product: 32 products of −1 and 2, from 100 (08 R179). -/
theorem test_integer_element :
    accOf (mshape .i8m32) (List.replicate 32 0xFF) (List.replicate 32 2) 100 = 36 ∧ (List.replicate 32 (0xFF : BitVec 8)).length = 32 := by decide +kernel

/-! ### Witnesses: the management function -/

/-- A next state is answered, and it has a property. -/
def holdsAfter (o : Out) (p : State → Bool) : Bool := match o with | .next t => p t | _ => false
def nexts (o : Out) : Bool := match o with | .next _ => true | _ => false

/-- The base machine with its management registers, context or descriptor changed. -/
def withMgmt (f : Mgmt → Mgmt) : State := { base with mgmt := f base.mgmt }
def withCtx (f : Context → Context) : State := { base with ctxs := [(0, f ctx)] }

/-- The module ready and failed, the command ring disabled and enabled, a ring full to its last entry and one beyond. -/
theorem witness_ManagementRegisterWrites :
    base.start.state = .ready ∧ { base.start with state := .failed }.state = StartState.failed ∧ base.start.state ≠ .failed ∧ base.mgmt.cmdctl = false ∧ base.mgmt.evctl = false ∧
    (let s := withMgmt fun m => { m with cmdctl := true, cmdsize := 4, cmdrd := 0xFFFFFFFF }
     s.mgmt.cmdctl = true ∧ (0xF - s.mgmt.cmdrd).toNat = 2 ^ 4 ∧
     (holdsAfter (exec (.cmdwrWrite 0xF) s) fun t => decide (t.mgmt.cmdwr = 0xF)) ∧
     (holdsAfter (exec (.cmdwrWrite 0x10) s) fun t => decide (t.mgmt.cmdwr = 0 ∧ t.mgmt.merr = 1))) := by decide +kernel

/-- A ring with one entry (code 0x0006 fpnset, context 0, tag 7: 14 R325), and completions owed with and without room. -/
theorem witness_CommandAndCompletionRings :
    (let s := { withMgmt fun m => { m with cmdctl := true, cmdbase := 0x150000, cmdwr := 1 } with
       mem := ⟨tables ++ wordCells 0x150000 [0x00000006, 7, 0x200], 0⟩ }
     (takeCommand s).map (fun r => (r.1.mgmt.cmdrd, r.2)) = some (1, some (.fpnset 7 0 0x200))) ∧
    (let s := withMgmt fun m => { m with cpl := [(7, 6, 0, 0)], cplbase := 0x160000 }
     s.mem.wf ∧ (s.mgmt.cplwr - s.mgmt.cplrd).toNat = 0 ∧ hubCan s 0x160000 16 ∧ nexts (exec .commandCompletion s)) ∧
    (let s := withMgmt fun m => { m with cpl := [(7, 6, 0, 0)], cplwr := 1 }
     (s.mgmt.cplwr - s.mgmt.cplrd).toNat = 1 ∧ s.mgmt.merr.getLsbD 1 = false ∧ nexts (exec .commandCompletion s)) := by decide +kernel

theorem witness_CommandsRefusedByState :
    getCtx base 5 = none ∧ getCtx base 0 = some ctx ∧ ctx.leaving = none ∧ ctx.state ≠ .building ∧ ctx.state ≠ .suspended ∧ ctx.state ≠ .free ∧
    (withCtx fun c => { c with state := .ready }).ctxs = [(0, { ctx with state := .ready })] ∧ ctx.desc.debug = false ∧
    ([some .suspend, some .destroy] : List (Option Leaving)).all (fun l =>
      ((getCtx (withCtx fun c => { c with leaving := l }) 0).any fun c => c.leaving.isSome ∧ c.waiting = none) &&
      ((getCtx (withCtx fun c => { c with leaving := l, waiting := some (.resume 1 0) }) 0).any fun c => c.waiting.isSome)) = true := by
  decide +kernel

/-- A descriptor that passes R57, at 0x140000, with its words from offset 0: ptroot, segtab, linktab, faultq, savebase, savesize, dumpbase,
then corebud, bwbud, pwrbud, fpn, pairlim and flags. -/
def goodDescriptor : List Word :=
  [0x100000, 0, 0x120000, 0, 0, 0, 0x180000, 0, 0x1000000, 0, 0x600000, 0, 0, 0, 1, 0, 0, 0, 0, 0x80] ++ List.replicate 12 0

theorem witness_ContextLifeCommands :
    getCtx base 5 = none ∧ (0x2000080 : DWord).toNat % 128 = 0 ∧ (0x2000040 : DWord).toNat % 128 ≠ 0 ∧
    (let s := withCells (withCtx fun c => { c with state := .building }) (wordCells 0x140000 goodDescriptor)
     let bs := s.mem.bytes 0x140000 128
     hubCan s 0x140000 128 ∧ poisonedAt s 0x140000 128 = false ∧ descriptorOk s bs ∧ (descOf bs).debug ∧ nexts (exec (.commit 7 0) s)) ∧
    descriptorOk base (base.mem.bytes 0x140000 128) = false ∧
    ([.building, .ready, .resident, .suspended, .faulted] : List CtxState).all (fun st =>
      nexts (exec (.destroy 7 0) (withCtx fun c => { c with state := st }))) = true ∧
    nexts (exec (.suspend 7 0) base) ∧ nexts (exec (.resume 7 0) (withCtx fun c => { c with state := .suspended })) := by decide +kernel

/-- A record that its answer closes, and a valid segment entry at 0x120000 + 16 × 31. -/
theorem witness_ContextWorkCommands :
    (withCtx fun c => { c with openRecs := [⟨4, 0, 0x20, 1, 0x5000, 1, []⟩] }).ctxs ≠ [] ∧
    ctx.state ∈ [CtxState.ready, .resident, .suspended, .faulted] ∧
    (let s := withCells base (wordCells 0x1201F0 [0x30000000, 0, 0x1000, 1])
     let bs := s.mem.bytes (0x120000 + 16 * 31) 16
     hubCan s 0x1201F0 16 ∧ poisonedAt s 0x1201F0 16 = false ∧ segOk bs ∧ nexts (exec (.segset 7 0 31) s) ∧ segOk [2, 2, 2, 2, 2, 2, 2, 2, 2, 2, 2, 2, 2, 2, 2, 2] = false) ∧
    (getKernel base 1).any (fun k => k.ctx = 0 ∧ k.state.final = false) ∧ getKernel base 2 = none ∧
    bufferOk base 0x2000040 48 ∧ hubCan base 0x2000040 48 ∧ nexts (exec (.ctxacct 7 0 0x2000040) base) ∧
    (0xFFFFFFFFF0000 : DWord).toNat + (0x10000 : DWord).toNat = 2 ^ 52 ∧ nexts (exec (.tlbinv 7 0 0xFFFFFFFFF0000 0x10000 0) base) ∧
    base.warps.all (fun e => decide (e.2.killDue = 0) && e.2.frame.all fun f => decide (f.xfaults = []) && !f.stays) ∧ base.jobs = [] ∧
    anyHeld base = false ∧ group.haltable ∧
    (holdsAfter (exec (.kill 7 0 1) base) fun t => (getGroup t 2).any fun g => decide (g.state = .halting)) ∧
    (let s := withCtx fun c => { c with openRecs := [⟨4, 0, 0x20, 1, 0x5000, 1, []⟩] }
     (getCtx s 0).any (fun c => (c.openRecs.find? fun o => decide (o.index = 4)).any fun o => o.waiters = []) ∧
     nexts (exec (.fltdone 7 0 4 1) s) ∧ (getCtx s 0).any fun c => (c.openRecs.find? fun o => decide (o.index = 5)).isNone) := by decide +kernel

def noAcc : LaneAcc := { lane := 0, addr := 0, pa := none, cls := .C, data := 0, data2 := 0, key := 0, pois := false, pois2 := false, route := none, gone := 0 }

def slotEntry (kind : SlotKind) (tgts : List Target) (op : AtomOp) : SlotEntry :=
  { idx := 0, kind := kind, size := 4, sx := false, scalar := true, op := op, ord := .relaxed, scope := .device, tgts := tgts, fired := ones32,
    gens := [], issued := false, done := false, held := false, result := [], saw := [],
    accs := [{ lane := 0, addr := 0x160000, pa := some 0x160000, cls := .U, data := 0xAABBCCDD, data2 := 0, key := 0, pois := false, pois2 := false, route := none, gone := 0 }] }

/-- A tlbinv of a page that a block past its irrevocable point loads from stays under way, and completes once the block has ended. -/
theorem witness_TlbinvUnderWay :
    (let e : SlotEntry := { slotEntry .ldG [] .add with accs := [{ noAcc with addr := 0x2FFFF, pa := some 0x2FFFF }] }
     let s := { withFrame (fun f => { f with irrev := true, slots := [(0, e)] }) with tlb := ⟨[⟨0, 0, 0, pageBytes 2, 0xC27⟩], [], [], []⟩ }
     (getWarp s 3).any (fun w => decide (w.killDue = 0 ∧ w.core < 256) && w.frame.any fun f => f.stays && decide (f.xfaults = [])) ∧
     anyHeld s = false ∧ linkDown s 0 = false ∧ SlotKind.ldG.isGlobal ∧ inRange 0x20000 0x10000 (0x2FFFF / 65536 * 65536) 65536 ∧
     (holdsAfter (exec (.tlbinv 7 0 0x20000 0x10000 0) s) fun t => decide (t.mgmt.cpl = [] ∧ t.tlb.core = []) &&
       t.mgmt.shoots.any fun p => decide (p.tag = 7 ∧ p.users = [(3, 0)]) && p.dies.isEmpty && !p.over t && p.over (withFrame id)) ∧
     (holdsAfter (exec .commandCompletion (withMgmt fun m => { m with shoots := [⟨7, 0, 0x20000, 0x10000, [], [(3, 0)], [], []⟩] })) fun t =>
       decide (t.mgmt.shoots = [] ∧ t.mgmt.cpl = [(7, 0x10, 0, 0)]))) := by decide +kernel

theorem witness_ModuleCommands :
    (let s := { base with ctxs := [] }
     nexts (exec (.memsplit 7 0 64) s) ∧ nexts (exec (.memsplit 7 0 65) s)) ∧ base.ctxs ≠ [] ∧ nexts (exec (.memwb 7 0 0x5000 0x80) base) ∧
    wbits (7 : Word) 30 3 = 0 ∧ (7 : Word).getLsbD 31 = false ∧ (0xFFFFFC0000000 : DWord).toNat % 2 ^ 30 = 0 ∧
    (0xFFFFFC0000000 : DWord).toNat + (0x40000000 : DWord).toNat = 2 ^ 52 ∧ nexts (exec (.peerset 7 0 7 7 0xFFFFFC0000000 0x40000000) base) ∧
    entriesOk 32 ∧ (2048 : Word).toNat % 2048 = 0 ∧ scopeOk 0 ∧ (eventList 0xFFFFFFFF 0xFFFFFFFF 0xFFFFFFFF).all eventOk ∧
    inOneWindow base 0x2000000 (128 * 32) ∧ nexts (exec (.smpset 7 0 0x2000000 32 2048 0 0xFFFFFFFF 0xFFFFFFFF 0xFFFFFFFF) base) ∧
    bufferOk base 0x2000040 64 ∧ hubCan base 0x2000040 64 ∧ poisonedAt base 0x2000040 64 = false ∧ base.weights.length = 16 ∧
    nexts (exec (.ewset 7 0 0x2000040) base) ∧ nexts (exec (.ewget 7 0 0x2000040) base) ∧ nexts (exec (.pwrlim 7 0 600) base) ∧
    nexts (exec (.pwrlim 7 0 2600) base) ∧ nexts (exec (.pwrstat 7 0 0x2000040) base) ∧ nexts (exec (.linkstat 7 0 0x300) base) := by decide +kernel

/-- Context 0 with debug enable set (flags [7]) and warp 3 stopped, running, or in a serial step with a token produced by instruction 1. -/
def debugged (f : Warp → Warp) : State := { withCtx fun c => { c with desc := { desc with flags := 0x81 } } with warps := [(3, f warp)] }

/-- A header of two instructions without declarations, and the instructions of the worked example of ch. 02: muli and add, to write slot 0. -/
def twoInstrs : List Word := [0x100000] ++ List.replicate 15 0 ++ [0x13800601, 0x000301FF]

theorem witness_DebugCommands :
    (debugged id).start.state = .ready ∧ desc.debug = false ∧ ((getCtx (debugged id) 0).any fun c => c.desc.debug ∧ c.leaving = none) ∧
    wbits (0x1B : Word) 31 5 = 0 ∧ wbits (0x1B : Word) 3 2 = 2 ∧ wbits (0xC : Word) 3 2 = 3 ∧ nexts (exec (.dbgset 7 0 0x1B) (debugged id)) ∧
    nexts (exec (.dbgbp 7 0 7 0xFFFFFFFF) (debugged id)) ∧ nexts (exec (.dbgstop 7 0 1 0 1) (debugged id)) ∧
    (let s := debugged fun w => { w with state := .stopped, frame := none }
     (findWarp s 0 1 0 0).any (fun e => e.1 = 3 ∧ e.2.state = .stopped) ∧ nexts (exec (.dbgresume 7 0 1 0 0 0) s) ∧
     bufferOk s 0x2000040 warp.recordLen ∧ hubCan s 0x2000040 warp.recordLen ∧ savedWarp s 3 warp = none ∧ nexts (exec (.dbgwarp 7 0 1 0 0 0x2000040 0) s) ∧
     nexts (exec (.dbgwarp 7 0 1 0 0 0x2000040 1) s)) ∧
    nexts (exec (.dbgkill 7 0 1 0 0 0x80000000) (debugged id)) ∧
    (let f := { frame with words := twoInstrs, fired := [1, 0], wtoks := [(0, 1, Token.scal false true 5)] }
     let s := debugged fun w => { w with mode := .serial, frame := some f }
     (producedToken f 1).isSome ∧ (findWarp s 0 1 0 0).any (fun e => e.2.mode = .serial) ∧ bufferOk s 0x2000040 320 ∧
     nexts (exec (.dbgtok 7 0 1 0 0 1 0x2000040) s)) ∧
    (let s := { debugged id with parts := [(partKey 0 3, Partition.empty 0 3 0 0 0 2 2)] }
     (getPart s (partKey 0 3)).any (fun p => wbits (0x11707 : Word) 19 16 < p.h ∧ wbits (0x11707 : Word) 15 12 < p.w) ∧ nodePosOk 0x11707 ∧
     nexts (exec (.dbgnode 7 0 3 0x11707 31 0x2000040) s)) := by decide +kernel

/-- Warps at a boundary and past the irrevocable point, for each way dbgstop names them; the answers to what is not found; lanes killed of a
warp that waits, and of one that fires. -/
theorem witness_DebugStopsAndAnswers :
    ([(fun w => { w with state := .ready, frame := none }, 0), (fun w => { w with state := .waiting, frame := none, wait := .gbar }, 2)] :
        List ((Warp → Warp) × Word)).all (fun e =>
      let s := debugged e.1
      ((getWarp s 3).any fun w => !stopHeld s w && decide (w.stopDue = none ∧ w.haltDue = false ∧ w.killDue = 0)) && (findGroup s 0 1 0).isSome &&
      (getKernel s 1).any (fun k => decide (k.ctx = 0)) && decide ((s.warps.map Prod.fst).Nodup) &&
      holdsAfter (exec (.dbgstop 7 0 1 0 e.2) s) fun t => (getWarp t 3).any fun w => decide (w.state = .stopped)) = true ∧
    (let s := debugged fun w => { w with frame := some { frame with irrev := true } }
     (getWarp s 3).any (fun w => w.frame.any fun f => f.stays) ∧
     (holdsAfter (exec (.dbgstop 7 0 0 0 1) s) fun t => (getWarp t 3).any fun w => decide (w.state = .mapped ∧ w.stopDue = some (.dstop, 0)))) ∧
    findWarp (debugged id) 0 1 0 1 = none ∧ getPart (debugged id) (partKey 0 3) = none ∧ wbits (4 : Word) 31 2 = 1 ∧
    (let s := debugged fun w => { w with state := .waiting, frame := none, wait := .yield 9 }
     (findWarp s 0 1 0 0).any (fun e => warpSaved s e.2 = false ∧ e.2.mask &&& ~~~(e.2.deadm ||| 0x80000000) ≠ 0) ∧ group.arrived = 0 ∧
     (holdsAfter (exec (.dbgkill 7 0 1 0 0 0x80000000) s) fun t => (getWarp t 3).any fun w => decide (w.mask = 0x7FFFFFFF ∧ w.state = .waiting))) ∧
    (holdsAfter (exec (.dbgkill 7 0 1 0 0 1) (debugged id)) fun t => (getWarp t 3).any fun w => decide (w.killDue = 1 ∧ w.mask = 0xFFFFFFFF)) := by
  decide +kernel


/-! ### Witnesses: encoding, steps, frames and commits -/

theorem witness_EncodeRoundTrip :
    (Instr.shli .onFalse 31 (.write 31)).isIsa ∧ (Instr.shli .onFalse 31 (.write 31)).wellFormed ∧
    (Instr.cas .always .none (.guard 63) .acqRel .system 31).isIsa ∧ (Instr.cas .always .none (.guard 63) .acqRel .system 31).wellFormed ∧
    (encodeCommand (.smpset 9 3 (argPair 0) 2 3 4 5 6 7)).isSome := by decide +kernel

/-- The block of the worked example of ch. 02 (v9 := v0 × 3 + s8), its three chunks. -/
def exampleBlock : List Word :=
  [0xB4240000, 0, 0x80000000, 0, 0, 0, 0x42, 0, 0x1FF0, 0x42103FF0, 0, 0, 0, 0, 0, 0] ++ [0x9] ++ List.replicate 15 0 ++
    [0x13800601, 0x000301FF, 0x300001C0] ++ List.replicate 13 0

def withWarp (f : Warp → Warp) : State := { base with warps := [(3, f warp)] }
def exampleFrame (f : Frame → Frame) (w : Warp → Warp) : State := withWarp fun x => w { x with frame := some (f { frame with words := exampleBlock }) }

theorem witness_StepRunsWhatIsDecoded :
    (let s := { exampleFrame id id with agenda := [.fire 3 1, .take] }
     (getWarp s 3).any (fun w => w.frame.any fun f => Img.instr f.words 1 = some (.add .always .i32 (.write 0) .none))) ∧
    (let s := { withMgmt fun m => { m with cmdctl := true, cmdbase := 0x150000, cmdwr := 1 } with
       mem := ⟨tables ++ wordCells 0x150000 [0x00000006, 7, 0x200], 0⟩, agenda := [.take] }
     ((takeCommand (pass { s with agenda := [] })).any fun r => r.2.isSome) ∧ nexts (perform .take (pass { s with agenda := [] })) ∧
       (moves (pass { s with agenda := [] })).head? = some .take) ∧
    ({ base with agenda := [.event .powerOn] }).agenda = [.event .powerOn] ∧ base.agenda = [] := by decide +kernel

def sample : Sensors := ⟨0, [0, 0, 0, 0, 0], 0, 0, 0, 0, false⟩

/-- A register with a listed value and a step from a state whose registers are tidy. -/
theorem witness_StepKeepsRegisterForm :
    (let s := { withWarp fun w => { w with v := [(288, 5)], s := [(8, 6)], p := [(1, 7)] } with agenda := [.event (.telemetrySample sample)] }
     s.warps.all (fun e => swf 0 e.2.v && swf 0 e.2.s && swf 0 e.2.p && decide (preg e.2 0 = ones32) && decide (sget 0 e.2.p 0 = 0)) ∧ nexts (step s)) := by
  decide +kernel
theorem witness_StepKeepsMemoryForm : base.mem.wf = true ∧ nexts (step { base with agenda := [.event (.telemetrySample sample)] }) := by decide +kernel

theorem witness_ResetAndColdStartValues :
    ({ base with start := ⟨0, .clearing, 0, false, false, 0xFFFF⟩ }).start.warm = false ∧
    nexts (exec (.clearingDone true) { base with start := ⟨0, .clearing, 0, false, false, 0xFFFF⟩ }) ∧ (2 : Nat) ^ 51 - 1 < 2 ^ 51 := by decide +kernel

/-- A firing that answers a next state, with the tables behind links that are up. -/
theorem witness_FiringFrame :
    (Instr.add .always .i32 (.opA 9) .none).isIsa ∧ nexts (exec (.add .always .i32 (.opA 9) .none) (firing (sc 1) (sc 2) none)) ∧
    (getWarp (firing (sc 1) (sc 2) none) (firing (sc 1) (sc 2) none).cur.1).isSome ∧
    base.links.all (fun l => decide (l.state = .up)) = true := by decide +kernel

/-- The worked example at its end: t1 has delivered v0 × 3 + s8, and every lane has voted for exit 0 (a return to the end handle in s6). -/
def exampleDone : State :=
  exampleFrame (fun f => { f with
    fired := [2, 1, 0], votes := lanes32.map (fun l => (l, 0)), wtoks := [(0, 1, Token.vect false 0x0000FFFF fun l => BitVec.ofNat 64 (3 * l + 7))] })
    fun w => { w with s := [(6, 0x7FFFFFFF)] }

def commitsB (s : State) (wid : Nat) : Bool :=
  (getWarp s wid).any fun w => w.frame.any fun f => decide (w.state = .mapped ∧ f.xfaults = [] ∧ quietCause s w f = none ∧ f.stage = 0) && f.quiet &&
    earlierDone s wid s.uid (Img.rel f.words) && !storesHeld s w f

/-- The same, with no red that combines its lanes one by one (17 R428). -/
def plainB (s : State) (wid : Nat) : Bool :=
  commitsB s wid && (getWarp s wid).any fun w => w.frame.any fun f => decide ((redsLeft f false).length ≤ 1) && decide (redsLeft f true = [])

/-- Lane 15 has its one producer and lane 16 none. -/
theorem witness_CommitLandsWriteSlots :
    plainB exampleDone 3 ∧
    (getWarp exampleDone 3).any (fun w => w.frame.any fun f => f.cmds = [] ∧ swf 0 w.s ∧ Img.nwrites f.words = 1 ∧
      gathered f (imageSent f.words) 0 ∧ Img.writeId f.words 0 = 9) ∧
    (holdsAfter (exec (.blockCommit 3) exampleDone) fun t => (getWarp t 3).any fun w => decide (vreg w 9 15 = 52 ∧ vreg w 9 16 = 0)) := by decide +kernel

/-- A block of one memory instruction, of 4 bytes in slot 0, and exit 0. -/
def slotBlock (ws : List Word) : List Word :=
  [BitVec.ofNat 32 (0xB4000000 + ws.length * 2 ^ 20 + 2 ^ 18 + 2 ^ 12), 0, 0x80000000] ++ List.replicate 13 0 ++ [0x2] ++ List.replicate 15 0 ++
    ws ++ [0x300001C0]

/-- The block with its slot filled, its exit voted for. -/
def slotState (ws : List Word) (e : SlotEntry) (done : List Nat) : State :=
  withCells (withWarp fun w => { w with s := [(6, 0x7FFFFFFF)], frame := some { frame with
    words := slotBlock ws, fired := done, votes := lanes32.map (fun l => (l, 0)), slots := [(0, e)] } }) (wordCells 0x160000 [100])

/-- st.g (0x101) with an address and data. -/
theorem witness_CommitStoresOnlyItsBytes :
    (let s := slotState [0x808001FF] (slotEntry .stG [] .add) [1, 0]
     plainB s 3 ∧ s.mem.wf ∧ effClass s 0x160000 .U ≠ .S ∧ Img.trap (slotBlock [0x808001FF]) = false ∧
     ((slotEntry .stG [] .add).bytes ((slotEntry .stG [] .add).accs.headD noAcc)).length = 4 ∧
     (holdsAfter (exec (.blockCommit 3) s) fun t => decide (t.mem.bytes 0x15FFFC 12 = [0, 0, 0, 0, 0xDD, 0xCC, 0xBB, 0xAA, 0, 0, 0, 0])) ∧
     ((getCtx s 0).map fun c => c.desc.debug) = some false ∧ (getWarp s 3).any (fun w => w.mode = .run ∧ w.stopDue = none) ∧
     lostAcc s 0 true ((slotEntry .stG [] .add).accs.headD noAcc) = false) := by
  decide +kernel

/-- red (0x109), with two lanes to combine. -/
theorem witness_RedsCombineLaneByLane :
    (let e := slotEntry .red [] .add
     let s := slotState (encode (.red .always .add .relaxed .device 0)) { e with scalar := false, accs := e.accs ++ e.accs.map fun a => { a with lane := 1 } } [2, 0]
     commitsB s 3 ∧ (getWarp s 3).any (fun w => w.frame.any fun f => decide ((redsLeft f false).length = 2))) := by decide +kernel

/-- ld.g (0x100) to operand a of instruction 1, and atom (0x108), which adds, before and after its irrevocable point. -/
theorem witness_LoadAndAtomicReturns :
    (let e := slotEntry .ldG [.opA 9] .add
     let s := slotState [0x80000009] e [1, 0]
     e.translated ∧ (([(0, e)] : Table SlotEntry).find? fun q => decide (q.2.idx = e.idx) && q.2.kind.isLoad && !q.2.done) = some (0, e) ∧
     (getWarp s 3).any (fun w => w.fij = 0 ∧ w.frame.any fun f => decide (storesReady f 0 = true ∧ loadBefore f 0 e = false)) ∧
     heldAcc s 0 .ldG (e.accs.headD noAcc) = false ∧
     lostAcc s 0 false (e.accs.headD noAcc) = false ∧ hubMark s (0x160000 / 32) = false ∧ s.ctxs.all (fun c => decide (c.2.desc.policy = .kill)) ∧
     (holdsAfter (exec (.loadReturn 3 0) s) fun t => decide ((frameAfter (.next t)).bind (fun f => (tget f.toks 36).map fun t => t.at 0) = some 100))) ∧
    (let e := slotEntry .atom [.opA 9, .none] .add
     let s := slotState [0x840013FF, 0x02000000] e [2, 0]
     (getWarp s 3).any (fun w => w.haltDue = false ∧ w.frame.any fun f => othersReady f 0 ∧ f.causes = [] ∧ lostCauses s w f = [] ∧
       earlierDone s 3 s.uid (releaseScope f 0 e)) ∧ heldAcc s 0 .atom (e.accs.headD noAcc) = false ∧ e.lanesLeft.length = 1 ∧
     (holdsAfter (exec (.atomicIssue 3) s) fun t => decide (leNat (t.mem.bytes 0x160000 4) = (100 + 0xAABBCCDD) % 2 ^ 32) &&
          (holdsAfter (exec (.atomicReturn 3) t) fun u => decide ((frameAfter (.next u)).bind (fun f => (tget f.toks 36).map fun t => t.at 0) = some 100)))) := by decide +kernel

/-! ### Witnesses: traps and faults -/

theorem witness_TrapsTakenAndLeft :
    (warp.takeTrap 31 .clipped 4095 0x80000123 0xFF true).handle = 0x7C000000 ∧
    -- a block whose one instruction is spop (0x1CA), with its window empty and entries spilled
    (let ws : List Word := [0xB4100000, 0, 0x80000000] ++ List.replicate 13 0 ++ [0xE503FFFF, 0x300001C0] ++ List.replicate 14 0
     let s := withWarp fun w => { w with state := .ready, frame := none, image := some ws, ssp := 0x10000 }
     (getWarp s 3).any (fun w => mayMap s w ∧ firstToMap s 3 w ∧ framesUsed s w.core < 16 ∧ partsHere s 0 ws ∧ matchEntry ctx w = none ∧
       imageFailure w ctx ws = none ∧ spopAt ws = some 0 ∧ w.count = 0 ∧ 0 < w.spilled ∧ w.trap = none) ∧
     (holdsAfter (exec (.blockMap 3) s) fun t => (getWarp t 3).any fun w => decide (w.trapinf.toNat / 2 ^ 56 = 0x75 ∧ w.handle = 0x04000000 ∧ w.state = .ready))) := by decide +kernel

/-- A block with a cause of flush, of kernel 1 and group 2 under KILL. -/
theorem witness_FatalFaultsUnderKill :
    (let c : Cause := ⟨3, 1, 0x81, 0x5001, none⟩
     let s := exampleFrame (fun f => { f with fired := [2, 1, 0], causes := [c] }) id
     (getWarp s 3).any (fun w => w.state = .mapped ∧ w.frame.any fun f => f.xfaults = [] ∧ f.quiet ∧ f.irrev = false ∧ quietCause s w f = some c) ∧
     group.state = .resident ∧ group.stopped = false ∧ desc.policy = .kill ∧ kernel.state = .running ∧ group.kid = warp.kid ∧
     (holdsAfter (exec (.blockCommit 3) s) fun t => (getKernel t 1).any fun k => decide (k.state = .draining ∧ k.code = 0x81 ∧ k.detail = 0x5001))) := by decide +kernel

/-! ### Witnesses: queues, kernels, mapping -/

/-- Context 0 with queue 63 in a state: 16 entries at virtual address 0x170000. -/
def queue : Queue :=
  { Queue.zero with base := 0x170000, size := 4, rd := 0xFFFFFFFF, wr := 0xFFFFFFFF, res := 0xFFFFFFFF, state := .idle }
def withQueue (f : Queue → Queue) : State := withCtx fun c => { c with queues := [(63, f queue)] }
def queueAfter (o : Out) (p : Queue → Bool) : Bool := holdsAfter o fun t => (getCtx t 0).any fun c => p (getQ c 63)

/-- A ring filled to its last entry and written one beyond, and each event of R83 in a state that allows it and in one that does not. -/
theorem witness_QueueRegisterEvents :
    queueAfter (exec (.doorbell 0 63 0xF) (withQueue id)) (fun q => decide (q.wr = 0xF ∧ q.state = .active)) ∧
    ([.active, .suspended, .error] : List QState).all (fun st =>
      queueAfter (exec (.doorbell 0 63 0xF) (withQueue fun q => { q with state := st })) fun q => decide (q.wr = 0xF ∧ q.state = st)) = true ∧
    queueAfter (exec (.doorbell 0 63 1) (withQueue fun q => { q with state := .blocked, rd := 0, wr := 0 })) (fun q => decide (q.wr = 1)) ∧
    queueAfter (exec (.doorbell 0 63 0x10) (withQueue id)) (fun q => decide (q.wr = 0xFFFFFFFF ∧ q.dberr = true)) ∧
    queueAfter (exec (.doorbell 0 63 0) (withQueue fun q => { q with state := .disabled })) (fun q => q.dberr) ∧
    queueAfter (exec (.queueEnable 0 63 3) (withQueue fun q => { q with state := .disabled })) (fun q => decide (q.state = .idle ∧ q.devfed = true)) ∧
    queueAfter (exec (.queueDisable 0 63 0) (withQueue id)) (fun q => decide (q.state = .disabled)) ∧
    (launchCopies (withQueue id) 0 63 = [] ∧ queue.written = []) ∧
    ([.idle, .active, .blocked] : List QState).all (fun st =>
      queueAfter (exec (.queueSuspend 0 63) (withQueue fun q => { q with state := st })) fun q => decide (q.state = .suspended)) = true ∧
    queueAfter (exec (.queueResume 0 63) (withQueue fun q => { q with state := .suspended })) (fun q => decide (q.state = .idle)) ∧
    queueAfter (exec (.queueReset 0 63) (withQueue fun q => { q with state := .error, errIdx := 5, wr := 6, dberr := true })) (fun q => decide (q.rd = 6 ∧ q.state = .idle ∧ q.dberr = false)) ∧
    queueAfter (exec (.queueRetry 0 63) (withQueue fun q => { q with state := .error, errIdx := 5, wr := 6, dberr := true })) (fun q => decide (q.rd = 5 ∧ q.state = .active ∧ q.dberr = false)) ∧
    queueAfter (exec (.queueRetry 0 63) (withQueue id)) (fun q => q.dberr) ∧ queueAfter (exec (.qcmdIgnored 0 63 5) (withQueue id)) (fun q => q.dberr) ∧
    queueAfter (exec (.qdropClear 0 63) (withQueue fun q => { q with drop := 5 })) (fun q => decide (q.drop = 0)) ∧
    queueAfter (exec (.queueEnable 0 63 1) { withQueue (fun q => { q with state := .disabled }) with
      ctxs := [(0, { ctx with state := .building })] }) (fun q => q.dberr) := by decide +kernel

def readIs (r : HubRead) (p : List Byte → Bool) : Bool := match r with | .ok _ bs false => p bs | _ => false
def xlateIs (x : Xlate) (p : Nat → Bool) : Bool := match x with | .ok pa _ _ _ => p pa | _ => false
def imageIs (x : Fetched) (p : List Word → State → Bool) : Bool := match x with | .image ws u => p ws u | _ => false

/-- A record whose first word has a kind, in slot 15 of the ring; an active queue with that head. -/
def headState (w0 : Word) (st : QState) : State :=
  { withQueue (fun q => { q with wr := 0, state := st }) with clk := 0x10000, mem := ⟨tables ++ wordCells 0x1703C0 [w0, 0, 1, 0], 0⟩ }

theorem witness_HeadsAndLaunches :
    ([.active, .blocked] : List QState).all (fun st =>
      let s := headState 0x01000000 st
      (getCtx s 0).any (fun c => queuesRun s c && decide ((getQ c 63).rd ≠ (getQ c 63).wr ∧ oneUs ≤ (s.clk - (getQ c 63).tested).toNat)) &&
      !hubHeld s 0 (queue.slotVa 0xFFFFFFFF) &&
      readIs (hubRead s 0 0x1703C0 64).1 (fun bs => decide ((launchOf (wordsOf bs)).kind = 1 ∧ (launchOf (wordsOf bs)).nwait = 0) &&
          !kernelMalformed (launchOf (wordsOf bs))) &&
      holdsAfter (exec (if st = .active then .headTest 0 63 else .blockedRetest 0 63) s) fun t =>
        (getKernel t 2).any fun k => decide (k.state = .queued ∧ k.queue = 63)) = true ∧
    queueAfter (exec (.headTest 0 63) (headState 0 .active)) (fun q => decide (q.rd = 0 ∧ q.state = .idle)) ∧
    queueAfter (exec (.headTest 0 63) (headState 0x03000000 .active)) (fun q => decide (q.errCode = 0x42 ∧ q.state = .error)) ∧
    (let s := { withQueue (fun q => { q with devfed := true, wr := 3, res := 3, state := .active }) with
       jobs := [(5, ⟨3, 2, 0, 1, .launch 63 0x180040 0 none⟩)] }
     (let u := (hubRead s 0 0x180040 64).2
      xlateIs (hubXlate u 0 (queue.slotVa 3) accWrite) (fun pa => hubCan u pa 64)) ∧
     owes s (.warp 3) = false ∧ warpHeld s 3 = false ∧ hubHeld s 0 (queue.slotVa 3) = false ∧
     readIs (hubRead s 0 0x180040 64).1 (fun bs => decide (bs.length = 64)) ∧
     queueAfter (exec (.launchCommand 5) s) fun q => decide (q.res = 4 ∧ q.wr = 3)) ∧
    (let s := { withQueue (fun q => { q with devfed := true, wr := 3, res := 4, state := .active }) with
       jobs := [(5, ⟨3, 2, 0, 1, .launch 63 0x180040 0 (some 3)⟩)] }
     queueAfter (exec (.launchCopyDone 5) s) fun q => decide (q.wr = 4 ∧ q.res = 4)) := by decide +kernel

def withKernel (f : Kernel → Kernel) : State := { base with kernels := [(1, f kernel)], groups := [], warps := [] }

theorem witness_KernelsEnterRunAndEnd :
    (let s := withKernel fun k => { k with state := .queued, entryHeld := false }
     ctx.segs[wbits launch.entry 30 26]? = some ⟨true, 0x30000000, 0x100000⟩ ∧ (s.kernels.filter fun e => e.2.entryHeld).length < 4096 ∧
     holdsAfter (exec (.entryCheck 1) s) fun t => (getKernel t 1).any fun k => decide (k.state = .waiting ∧ k.entryHeld = true)) ∧
    (let s := { withKernel (fun k => { k with state := .queued, entryHeld := false }) with ctxs := [(0, { ctx with segs := [⟨false, 0, 0⟩] })] }
     holdsAfter (exec (.entryCheck 1) s) fun t => (getKernel t 1).any fun k => decide (k.state = .failed ∧ k.code = 0x50)) ∧
    (let s := withKernel fun k => { k with state := .waiting, nextRank := 3, launch := { launch with shape := 0 } }
     (pick s (candidates s)).any (fun p => p.1.gid = none ∧ p.1.kid = 1) ∧
     holdsAfter (exec .placement s) fun t => (getGroup t 9).any (fun g => decide (g.state = .resident ∧ g.rank = 3)) &&
       (getWarp t 10).any fun w => decide (w.state = .ready ∧ sreg w 2 = 3 ∧ sreg w 6 = 0x7FFFFFFF)) ∧
    (let s := { withKernel (fun k => { k with state := .waiting }) with clk := 0x400000 }
     holdsAfter (exec (.priorityAging 1) s) fun t => (getKernel t 1).any fun k => decide (k.aged = 1)) ∧
    (let s := withKernel fun k => { k with state := .draining, retired := 4 }
     holdsAfter (exec (.kernelCompletion 1) s) fun t => (getKernel t 1).any fun k => decide (k.state = .complete ∧ k.entryHeld = false)) := by
  decide +kernel

/-- The worked example placed at the start of segment 0, which the tables map to 0xF0000000. -/
def codeState (f : Warp → Warp) : State :=
  { withWarp (fun w => f { w with state := .ready, frame := none }) with mem := ⟨tables ++ wordCells 0xF0000000 exampleBlock, 0⟩ }

theorem witness_FetchMapAndWalk :
    -- a chunk that no header begins is a whole image; its map refuses it
    (let s := codeState fun w => { w with handle := 1023 }
     (getWarp s 3).any (fun w => mayMap s w ∧ w.image = none ∧ imageIs (fetchImage s w ctx)
       (fun ws u => decide (ws = List.replicate 16 0 ∧ getWarp u 3 = some w))) ∧
     holdsAfter (exec (.blockFetch 3) s) fun t => (getWarp t 3).any fun w => decide (w.image = some (List.replicate 16 0))) ∧
    (let s := { codeState (fun w => { w with handle := 1 }) with ctxs := [(0, { ctx with segs := [⟨true, 0x30000000, 1⟩, ⟨false, 0, 0⟩] })] }
     (getWarp s 3).any (fun w => mayMap s w ∧ w.image = none) ∧ nexts (exec (.blockFetch 3) s)) ∧
    (let s := { codeState (fun w => { w with handle := 0x04000000 }) with ctxs := [(0, { ctx with segs := [⟨true, 0x30000000, 1⟩, ⟨false, 0, 0⟩] })] }
     (getWarp s 3).any (fun w => mayMap s w) ∧ nexts (exec (.blockFetch 3) s)) ∧
    (let s := codeState fun w => { w with image := some exampleBlock, mask := 0xFFFF, deadm := 0xFF }
     (getWarp s 3).any (fun w => firstToMap s 3 w ∧ framesUsed s 0 < 16 ∧ partsHere s 0 exampleBlock ∧ matchEntry ctx w = none ∧
       imageFailure w ctx exampleBlock = none ∧ spopAt exampleBlock = none ∧ Img.acq exampleBlock < 2 ∧ w.acqDue < 2 ∧ w.acqHeld < 2 ∧ Img.pfen exampleBlock = false) ∧
     holdsAfter (exec (.blockMap 3) s) fun t => (frameAfter (.next t)).any fun f => decide (f.entry = 0xFF00 ∧ f.fired = [])) ∧
    -- the same with t1's unused target made a second target, t0.b, beside w0: ILLEGAL, reason TARGET, word 33
    (let ws := setAt exampleBlock 33 0x00030080
     let s := codeState fun w => { w with image := some ws }
     imageFailure warp ctx ws = some (33, .target) ∧ nexts (exec (.blockMap 3) s)) ∧
    (let w := { warp with v := [(5 * 32 + 31, 0x11), (6 * 32 + 31, 0x22)], s := [(4, 0x33)] }
     (readToken base w ones32 5 true).at 31 = 0x2200000011 ∧ (readToken base w ones32 0x104 false).at 0 = 0x33) ∧
    (let s := { withWarp (fun w => { w with frame := none }) with tlb := ⟨[], [], [], [⟨0, 5, [0], []⟩]⟩ }
     s.ctxs.all (fun c => decide (c.2.desc = ctx.desc)) ∧ walk s 0 ctx 0x50000 = .leaf 0xC27 1 ∧ walkHeld s 0 0x50000 = false ∧ linkHeld s 0 = false ∧
     (s.tlb.walks.take hubWalks).head? = some ⟨0, 5, [0], []⟩ ∧ nexts (exec (.walkComplete 0 5) s)) := by
  decide +kernel

/-! ### Witnesses: arrivals, leaving the cores, asynchronous operations -/

def withJob (s : State) (j : Job) : State := { s with jobs := [(5, ⟨3, 2, 0, 1, j⟩)] }
def warpAfter (o : Out) (p : Warp → Bool) : Bool := holdsAfter o fun t => (getWarp t 3).any p
def groupAfter (o : Out) (p : Group → Bool) : Bool := holdsAfter o fun t => (getGroup t 2).any p

/-- The group with region 7 stepped at scratchpad address 0x100, 64 words, of two participants. -/
def steppedRegion : Region := { region with state := .defined, kind := .stepped, rule := .addI32, base := 0x100, size := 64, parts := 2, gen := 6 }
def steppedGroup (f : Region → Region) : State :=
  { withWarp (fun w => { w with state := .waiting, frame := none, wait := .step 7 6 0 }) with
    groups := [(2, { group with regions := List.replicate 7 region ++ [f steppedRegion] })] }
def steppedStore : LaneAcc :=
  { lane := 31, addr := 0x1FC, pa := none, cls := .U, data := 0x55, data2 := 0, key := 0, pois := false, pois2 := false, route := none, gone := 0 }

/-- The barrier of a group of two with one still to come, and with the last; a step of two participants with one and both arrived. -/
theorem witness_ArrivalsAndSteps :
    (let s := { withJob (withWarp fun w => { w with state := .waiting, frame := none, wait := .gbar }) .gbarArrive with groups := [(2, { group with W := 2 })] }
     storesBefore s 3 1 none = false ∧ groupAfter (exec (.gbarArrival 5) s) (fun g => decide (g.arrived = 1)) ∧
     warpAfter (exec (.gbarArrival 5) s) (fun w => w.wait = .gbar)) ∧
    (let s := withJob (withWarp fun w => { w with state := .waiting, frame := none, wait := .gbar }) .gbarArrive
     groupAfter (exec (.gbarArrival 5) s) (fun g => decide (g.arrived = 0)) ∧
     warpAfter (exec (.gbarArrival 5) s) (fun w => decide (w.wait = .none ∧ w.state = .ready))) ∧
    (let o : BarOp := ⟨globCell, 4, .barArv globCell 3, 0, 0⟩
     let c : BCell := BCell.init (BCell.ofWords [0, 0, 0, 0, 0, 0, 0, 0]) 4 1
     let s := withCells (withWarp fun w => { w with barq := [o] }) (wordCells 0x50000040 c.toWords)
     maintBefore s 3 4 = false ∧ storesBefore s 3 4 none = false ∧ (match findCell s 0 (some 2) o.cell accAtomic with | .ok a => decide (a = .glob 0x50000040) | .error _ => false) = true ∧
     (holdsAfter (exec (.barArrival 3) s) fun t => decide ((readCell t (.glob 0x50000040)).pend = 1))) ∧
    (let s := withJob (steppedGroup id) (.stepArrive 7 6 0)
     storesBefore s 3 1 (some 7) = false ∧
     groupAfter (exec (.stepArrival 5) s) (fun g => decide ((getRegion g 7).arrivals = 1 ∧ (getRegion g 7).state = .stepping))) ∧
    (let s := withJob (steppedGroup id) (.store steppedStore .stStep (7 * 2 ^ 32 + 6))
     groupAfter (exec (.steppedStoreApply 5) s) (fun g => decide ((getRegion g 7).written = [63] ∧ (getRegion g 7).k = 0) &&
       decide (spadWord g ((getRegion g 7).nextAddr 63) = 0x55))) ∧
    (let s := steppedGroup fun r => { r with arrivals := 2, ccur := 3 }
     groupAfter (exec (.regionStepComplete 2 7) s) (fun g => decide ((getRegion g 7).k = 1 ∧ (getRegion g 7).arrivals = 0 ∧ (getRegion g 7).coll = 3)) ∧
     warpAfter (exec (.regionStepComplete 2 7) s) (fun w => decide (w.wait = .none ∧ w.state = .ready))) ∧
    (let s := { withWarp (fun w => { w with state := .waiting, frame := none, wait := .yield 100 }) with clk := 100 }
     warpAfter (exec (.yieldExpiry 3) s) (fun w => decide (w.wait = .none ∧ w.state = .ready))) := by decide +kernel

/-- The group of warp 3 with a state, its warp at a boundary. -/
def groupIs (f : Group → Group) : State :=
  { withWarp (fun w => { w with state := .ready, frame := none }) with groups := [(2, f { group with S := 64 })] }

def dumpJob : DumpJob := { code := 0x11, detail := 0, clk := 0, where_ := 0, handle := 0, lost := 0 }

theorem witness_SwapSaveTeardownAndHalt :
    (let s := { withWarp (fun w => { w with state := .waiting, frame := none, wait := .gbar }) with
       clk := 0x200000, groups := [(2, { group with S := 64 })], ctxs := [(0, { ctx with desc := { desc with corebud := 1 } })]
       kernels := [(1, kernel), (2, { kernel with state := .waiting, nextRank := 0 })] }
     (swapChoice s 0).any (fun e => decide (e.1 = 2)) ∧ (let u := { s with progress := sput 0 s.progress 0 s.clk.toNat }
      let n := swapBytes u 2 { group with S := 64 }
      ((getCtx s 0).any fun c => (reserveFit u c n).isSome && (reserveFit u { c with desc := { c.desc with savesize := 0 } } n).isNone) = true) ∧
     groupAfter (exec (.forwardProgressSwap 0) s) (fun g => decide (g.state = .swapping))) ∧
    (let s := { withWarp (fun w => { w with state := .waiting, frame := none, wait := .gbar }) with
       ctxs := [(0, { ctx with swapped := [(2, 0x400000, 4096)] })], groups := [(2, { group with state := .swapping, S := 64 })] }
     drained s 2 ∧ s.jobs = [] ∧ anyHeld s = false ∧ s.warps.all (fun e => decide (e.2.killDue = 0)) ∧
     group.stepDue = false ∧ s.jobs.all (fun e => decide (e.2.gid ≠ 2)) ∧ (getGroup s 2).any (fun g => !g.cut s) ∧
     (putRecords { writeBackGroup s group with links := [⟨.down, 0, [], 0, 0, false⟩] } 0 0x41400000 (groupRecords s 2 group)).2 = false ∧
     (putRecords (writeBackGroup s group) 0 (0x1000000 + 0x400000) (groupRecords s 2 { group with state := .swapping, S := 64 })).2 ∧
     -- the same on a cut die
     (let t := { s with links := List.replicate 4 ⟨.down, 0, [], 0, 0, false⟩ }
      anyHeld t = false ∧ (getGroup t 2).any (fun g => g.cut t) ∧ groupAfter (exec (.swapComplete 2) t) (fun g => decide (g.state = .halted ∧ g.cores = []))) ∧
     groupAfter (exec (.swapComplete 2) s) (fun g => decide (g.state = .waiting ∧ g.cores = []))) := by decide +kernel

/-- The rest of the same statement's clauses. -/
theorem witness_SaveTeardownAndHalt :
    ([.suspend, .fault] : List Leaving).all (fun l =>
      let s := { withCtx (fun c => { c with leaving := some l, endTag := some (7, 3) }) with groups := [(2, { group with S := 64 })], warps := [(3, { warp with state := .ready, frame := none })] }
      groupsSettled s 0 && partsQuiet s 0 && quiet s 0 true && !anyHeld s && hubCan s 0x1000000 4096 && holdsAfter (exec (.saveComplete 0) s) fun t => (getCtx t 0).any fun c =>
        decide (c.state = (if l = .suspend then .suspended else .faulted) ∧ c.leaving = none) && t.mgmt.cpl.any fun e => decide (e.1 = 7)) = true ∧
    (let s := { withCtx (fun c => { c with leaving := some .destroy, endTag := some (7, 5), state := .tornDown }) with
       warps := [(3, { warp with state := .ready, frame := none })], kernels := [(1, { kernel with killed := true, state := .draining })] }
     groupsSettled s 0 ∧ partsQuiet s 0 ∧ quiet s 0 false ∧ anyHeld s = false ∧ (s.ctxs.map Prod.fst).Pairwise (· < ·) ∧
     (holdsAfter (exec (.teardownComplete 0) s) fun t => decide (getCtx t 0 = none ∧ t.warps = [] ∧ t.mgmt.cpl = [(7, 5, 0, 0)]))) ∧
    (let s := groupIs fun g => { g with state := .halting }
     drained s 2 ∧ groupAfter (exec (.groupHaltComplete 2) s) (fun g => decide (g.state = .halted ∧ g.cores = []))) ∧
    (let s := groupIs fun g => { g with state := .retiring }
     drained s 2 ∧ retireLost s { group with state := .retiring } = false ∧ owes s (.group 2) = false ∧ linkHeld s 0 = false ∧ groupAfter (exec (.groupRetirement 2) s) (fun g => decide (g.state = .retired)) ∧
     (holdsAfter (exec (.groupRetirement 2) s) fun t => (getKernel t 1).any fun k => decide (k.retired = 1 ∧ k.state = .running))) ∧
    -- the same group with a line lost behind a down link, and with a completion record of class C at 0x10000400
    (let s := groupIs fun g => { g with state := .retiring, lost := true }
     (getGroup s 2).any (retireLost s) ∧ groupAfter (exec (.groupRetirement 2) s) (fun g => decide (g.state = .halted))) ∧
    (let s := { groupIs (fun g => { g with state := .retiring }) with kernels := [(1, { kernel with launch := { launch with complrec := 0x10000400 } })] }
     hubHeld s 0 0x10000440 = false ∧ xlateIs (hubXlate s 0 0x10000440 accHub) (fun pa => decide (pa = 0x50000440) && hubCan s pa 1) ∧
     (holdsAfter (exec (.groupRetirement 2) s) fun t => decide (t.mem.byte 0x50000440 = 1))) ∧
    (let s := { groupIs (fun g => { g with state := .halting, dump := some dumpJob }) with ctxs := [(0, { ctx with dumping := some 2 })] }
     drained s 2 ∧ anyHeld s = false ∧ hubCan s 0x3000000 4 ∧ groupAfter (exec (.dumpWrite 2) s) (fun g => decide (g.dump = none)) ∧
     (holdsAfter (exec (.dumpWrite 2) s) fun t => (getKernel t 1).any fun k => decide (k.state = .draining ∧ k.code = 0x11))) := by decide +kernel

def sLineOf (b : Byte) (dirty : BitVec 128) (die line : Nat) : SLine := ⟨die, line, List.replicate 128 b, dirty, [], 0, []⟩

/-- A copy of one element of 4 bytes from 0x160000 to scratchpad 0x400: one sector. -/
def copyOne : Copy :=
  { warp := 3, gid := 2, ctx := 0, kind := .g2s, desc := 0x150000, snap := copyDesc 1 0 0x160000 0x8000000000000400 0 [1, 4, 4], bar := globCell
    rgnr := 0, seq := 4, sectors := 1, done := [], low := 0, pauseVa := 0, issued := true, checked := true, paused := none, todo := [], index := [], ended := none }

def copying : State := { withCells base (wordCells 0x160000 (List.replicate 8 0x99)) with copies := [(4, copyOne)] }

theorem copyOne_next (s : State) : inProgress s copyOne = [0] := by
  have h : ((List.range copyOne.sectors).filter fun j => !copyOne.done.contains j && !(copyOne.todo.map (sectorOf copyOne)).contains j) = [0] := by decide
  have e : sectorElems copyOne 0 = [0] := by decide
  have n : nextSector s copyOne = some 0 := by simp only [nextSector, h, List.length_singleton, Nat.mod_one]; rfl
  simp only [inProgress, n, e]
  rfl

def moving : State × RunEnd := moveAll 4 copyOne (dieOf 0) copying [] [0]

/-- The one sector left is the one in progress (copyOne_next), and its element moves; and a sector moved that the cell is to be lowered by. -/
theorem witness_AsyncCopy :
    copyRuns copying copyOne = true ∧ moving.2 = .all ∧
    ((getGroup moving.1 2).any fun g => decide (spadWord g 0x400 = 0x99 ∧ spadWord g 0x404 = 0)) = true ∧
    copyOne.lowered ≤ copyOne.low ∧ copyOwes copying 4 copyOne = false ∧ { copyOne with sectors := 2, done := [0] }.low < { copyOne with sectors := 2, done := [0] }.lowered := by decide +kernel

theorem witness_AsyncOperationsComplete :
    (let s := { withJob base (.pfence 0x1F []) with cache := ⟨[⟨0, 0, 7, [], []⟩], [], [], [⟨0, 0, 7, [], []⟩], [⟨0, 0, 7, [], []⟩], [], []⟩ }
     pfenceBefore s 3 1 (fun _ => true) = false ∧ maintBefore s 3 1 = false ∧ storesBefore s 3 1 none = false ∧ owes s (.warp 3) = false ∧ warpHeld s 3 = false ∧ s.warps.all (fun e => e.2.stopDue.isNone) ∧
     (holdsAfter (exec (.pfenceComplete 5) s) fun t => decide (t.cache.l1 = [] ∧ t.cache.kc = [] ∧ t.cache.ic = [] ∧ t.jobs = []))) ∧
    ([true, false] : List Bool).all (fun inv =>
      let s := { withJob base (.maint inv [0x5000]) with cache := { base.cache with l2 := [sLineOf 0x77 1 0 0x5000, sLineOf 0x66 1 1 0x5000] } }
      holdsAfter (exec (.cacheMaintComplete 5) s) fun t => decide (t.jobs = [] ∧ t.mem.byte 0x280000 = 0x77) &&
        decide ((t.cache.l2.map fun x => (x.die, x.dirty)) = if inv then [(1, 1)] else [(0, 0), (1, 1)])) = true ∧
    -- a line dirty on die 0, whose link is down
    (let s := { withJob base (.maint true [0x5000]) with
       links := List.replicate 4 ⟨.down, 0, [], 0, 0, false⟩, cache := { base.cache with l2 := [sLineOf 0x77 1 0 0x5000] } }
     linkHeld s 0 = false ∧ crossesHeld s (some 0) (0x5000 * 128) = false ∧ lostLine s 0 [0x5000] = some 0x5000 ∧
     groupAfter (exec (.cacheMaintComplete 5) s) (fun g => g.lost)) ∧
    (let s := { base with cache := { base.cache with l2 := [sLineOf 0x77 (2 ^ 127) 3 0x5000] } }
     (sLine s 3 0x5000).isSome ∧ s.mem.wf ∧ linkDown s 3 = false ∧ reaches s (some 3) (0x5000 * 128) ∧
     (holdsAfter (exec (.evictionWriteback 3 0x5000) s) fun t => decide (sLine t 3 0x5000 = none ∧ t.mem.byte 0x28007E = 0 ∧ t.mem.byte 0x28007F = 0x77))) ∧
    nexts (exec (.copyCompletion 4) { base with copies := [(4, { copyOne with done := [0] })] }) ∧
    nexts (exec (.copyCompletion 4) { base with copies := [(4, { copyOne with ended := some (5, 0, 0) })] }) := by decide +kernel

/-! ### Witnesses: the fabric -/

/-- Partition 3 of context 0: 2 by 2 pairs. -/
def partition : Partition := Partition.empty 0 3 0 0 0 2 2
def withPart (f : Partition → Partition) : State := { base with parts := [(partKey 0 3, f partition)] }
def graphJob (c : GCmd) (s : State) : State := withJob s (.graph 3 c 0)
def partAfter (o : Out) (p : Partition → Bool) : Bool := holdsAfter o fun t => (getPart t (partKey 0 3)).any p

/-- An image at 0x150000 with one phase of one region, without elements: its slot table gives 32 slots of one beat to schedule 0. The header
(13 R288), the phase entry at 0x40, the phase record at 0x80 with its region record at 0x40 of it. -/
def smallImage : List Word :=
  [0x6A7F0E01, 0, 0, 0, 256] ++ List.replicate 11 0 ++ [128, 0, 128, 0] ++ List.replicate 12 0 ++
    [1, 64] ++ List.replicate 10 0 ++ [1, 0, 0, 0] ++ [0, 1] ++ List.replicate 14 0

def smallRegion : RegionRec := ⟨0, 0, 0, 1, List.replicate 32 0⟩
def runningPart (beat : Nat) (p : Partition) : Partition :=
  { p with state := .streaming, phases := 1, mile := 2, cur := ⟨[smallRegion], [], [], [], [], []⟩
           regions := [{ FRegion.fresh smallRegion with beat := beat, tick := beat }] }

/-! A load of the small image reads seven sectors of one page. Whether the die's TLB still holds the page's entry at each of them, and the hub
cache a line it has filled, is free (12 R259, log 89); either way the bytes come, so these states are told apart only by what the reads charge,
cache and count. -/

/-- What the reads change: the accounts of context 0, the counts, and the lines of the hub cache. -/
structure Charged where
  acct   : Acct
  bw     : Nat
  pw     : Nat
  counts : Smap Nat
  hub    : List HubLine

/-- The state z without poison, with one context and with these values, and this die TLB. -/
def loadingS (z : State) (c : Charged) (ds : List TlbEntry) : State :=
  { z with
    ctxs := [(0, { ctx with acct := c.acct, bwAcc := c.bw, pwrAcc := c.pw })]
    counts := c.counts
    poison := []
    cache := ⟨[], [], [], [], [], c.hub, []⟩
    tlb := ⟨[], ds, [], []⟩ }

def charged (s : State) : Charged :=
  let c := (getCtx s 0).getD ctx
  ⟨c.acct, c.bwAcc, c.pwrAcc, s.counts, s.cache.hub⟩

def Loads (z s : State) (ds : List TlbEntry) : Prop := ∃ c : Charged, (∀ h ∈ c.hub, h.pois = []) ∧ s = loadingS z c ds

def leafEntry : TlbEntry := ⟨0, 0, 0, pageBytes 2, 0xC27⟩

theorem foldl_nins_nil (l : List HubLine) (h : ∀ x ∈ l, x.pois = []) :
    l.foldl (fun p h => h.pois.foldl nins (p.filter fun k => k / 4 ≠ h.line)) [] = [] := by
  induction l with
  | nil => rfl
  | cons x r ih =>
    rw [List.foldl_cons, h x (by simp)]
    exact ih fun y hy => h y (by simp [hy])

theorem hubOut_sub (s : State) (line : Nat) (h : HubLine) (hh : h ∈ hubOut s line) : h ∈ s.cache.hub := by
  unfold hubOut at hh
  split at hh
  · next e =>
    split at hh
    · cases hh
    · cases List.mem_singleton.mp hh; exact List.mem_of_find?_eq_some e
  · split at hh
    · cases hh
    · exact List.mem_of_getLast? (by simpa using hh)

section
variable {z s : State} {ds : List TlbEntry}

theorem Loads.charge (c : Nat) (h : Loads z s ds) : Loads z (chargeBytes s 0 c) ds := by
  obtain ⟨a, h, rfl⟩ := h; exact ⟨charged (chargeBytes (loadingS z a ds) 0 c), h, rfl⟩
theorem Loads.link (n : Nat) (h : Loads z s ds) : Loads z (linkBytes s 0 0 n) ds := by
  obtain ⟨a, h, rfl⟩ := h; exact ⟨charged (linkBytes (loadingS z a ds) 0 0 n), h, rfl⟩
theorem Loads.touch (l : Nat) (h : Loads z s ds) : Loads z (hubTouch s 0 l) ds := by
  obtain ⟨a, h, rfl⟩ := h
  have e : ((hubOut (loadingS z a ds) l).filter (·.dirty)).foldl (fun p h => h.pois.foldl nins (p.filter fun k => k / 4 ≠ h.line)) [] = [] :=
    foldl_nins_nil _ fun x hx => h x (hubOut_sub _ _ _ (List.mem_filter.mp hx).1)
  have p : (loadingS z a ds).poison = [] := rfl
  have q : (hubTouch (loadingS z a ds) 0 l).poison = [] := by simp only [hubTouch, p]; exact e
  refine ⟨charged (hubTouch (loadingS z a ds) 0 l), fun y hy => ?_, ?_⟩
  · simp only [charged, hubTouch, p, e] at hy
    split at hy
    · rcases List.mem_cons.mp hy with rfl | hy
      · rfl
      · exact h y (List.mem_filter.mp hy).1
    · exact h y hy
  · calc hubTouch (loadingS z a ds) 0 l = { hubTouch (loadingS z a ds) 0 l with poison := (hubTouch (loadingS z a ds) 0 l).poison } := rfl
      _ = { hubTouch (loadingS z a ds) 0 l with poison := [] } := by rw [q]
      _ = loadingS z (charged (hubTouch (loadingS z a ds) 0 l)) ds := rfl
theorem Loads.fold {f : State → Nat → State} (hf : ∀ s l, Loads z s ds → Loads z (f s l) ds) (ls : List Nat) :
    ∀ s, Loads z s ds → Loads z (ls.foldl f s) ds := by
  induction ls with
  | nil => exact fun _ h => h
  | cons l ls ih => exact fun s h => ih _ (hf s l h)
theorem Loads.move (die : Option Nat) (hd : die = none ∨ die = some 0) (cls : PageClass) (pa m : Nat) (h : Loads z s ds) :
    Loads z (hubMove s die 0 cls pa m) ds := by
  have body (s : State) (h : Loads z s ds) : Loads z (if cls = .U ∧ windowOf s pa = some .host then s
      else chargeBytes ((linesOf pa m).foldl (fun s l => hubTouch s 0 l) s) 0 m) ds := by
    split
    · exact h
    · exact (Loads.fold (fun _ l h => h.touch l) _ _ h).charge m
  rcases hd with rfl | rfl
  · exact body s h
  · exact body _ (h.link m)
theorem Loads.walked (va : Nat) (h : Loads z s ds) : Loads z (chargeWalk s 0 va) ds :=
  Loads.fold (fun _ l h => h.move none (.inl rfl) .C l 8) _ _ h

/-- The state to which the others are compared. -/
def atRest (z : State) : State := loadingS z ⟨⟨0, 0, 0, 0, 0, 0⟩, 0, 0, [], []⟩ []

theorem poisonedAt_loadingS (c : Charged) (h : ∀ x ∈ c.hub, x.pois = []) (ds va m) : poisonedAt (loadingS z c ds) va m = false := by
  refine List.any_eq_false.mpr fun k _ => ?_
  have e : hubMark (loadingS z c ds) k = false := by
    unfold hubMark
    split
    · next x hx => rw [h x (List.mem_of_find?_eq_some hx)]; rfl
    · rfl
  exact Bool.eq_false_iff.mp e

theorem loadingS_reach (c ds d va) : reaches (loadingS z c ds) d va = reaches z d va := rfl
theorem loadingS_dword (c ds va) : hubDWord (loadingS z c ds) va = hubDWord z va := rfl
theorem loadingS_cached (c ds va l) : walkCached (loadingS z c ds) 0 va l = none := rfl
theorem loadingS_ctx (c : Charged) (ds) : getCtx (loadingS z c ds) 0 = some { ctx with acct := c.acct, bwAcc := c.bw, pwrAcc := c.pw } := rfl
theorem loadingS_pte (c ds l e) : pteFault (loadingS z c ds) l e = pteFault z l e := rfl
theorem loadingS_walk (c : Charged) (ds va) (hc : ∀ h ∈ c.hub, h.pois = []) (f : Nat) :
    ∀ l t, walkFrom (loadingS z c ds) 0 va f l t = walkFrom (atRest z) 0 va f l t := by
  induction f with
  | zero => exact fun _ _ => rfl
  | succ f ih =>
    intro l t
    simp only [walkFrom, atRest, loadingS_cached, loadingS_reach, poisonedAt_loadingS c hc, poisonedAt_loadingS ⟨⟨0, 0, 0, 0, 0, 0⟩, 0, 0, [], []⟩ (by simp),
      loadingS_dword, loadingS_pte]
    simp only [atRest] at ih
    simp only [ih]
theorem loadingS_reads (c : Charged) (ds va) (f : Nat) :
    ∀ l t, walkReadsFrom (loadingS z c ds) 0 va f l t = walkReadsFrom (atRest z) 0 va f l t := by
  induction f with
  | zero => exact fun _ _ => rfl
  | succ f ih =>
    intro l t
    by_cases h : pteFault z l (hubDWord z (t + 8 * vaIndex va l)) = none ∧ (!pteLeaf (hubDWord z (t + 8 * vaIndex va l))) = true <;>
      simp only [walkReadsFrom, atRest, loadingS_cached, loadingS_dword, loadingS_pte, h, if_false] <;> simp only [ih, atRest]
theorem loadingS_xlate (c : Charged) (hc : ∀ h ∈ c.hub, h.pois = []) (ds va) :
    hubXlate (loadingS z c ds) 0 va accRead = hubXlate (atRest z) 0 va accRead := by
  have e : getCtx (atRest z) 0 = some { ctx with acct := ⟨0, 0, 0, 0, 0, 0⟩, bwAcc := 0, pwrAcc := 0 } := rfl
  simp only [hubXlate, walk, e, loadingS_ctx]
  rw [loadingS_walk c ds va hc]
theorem loadingS_held (c : Charged) (ds va) : walkHeld (loadingS z c ds) 0 va = walkHeld (atRest z) 0 va := by
  have h (c ds) : crossesHeld (loadingS z c ds) none = crossesHeld z none := rfl
  have h2 : crossesHeld (atRest z) none = crossesHeld z none := rfl
  have e : getCtx (atRest z) 0 = some { ctx with acct := ⟨0, 0, 0, 0, 0, 0⟩, bwAcc := 0, pwrAcc := 0 } := rfl
  simp only [walkHeld, walkReads, e, loadingS_ctx, h, h2]
  rw [loadingS_reads]
theorem loadingS_reaches (c ds va) : reaches (loadingS z c ds) (some 0) va = reaches z (some 0) va := rfl
theorem loadingS_crosses (c ds va) : crossesHeld (loadingS z c ds) (some 0) va = crossesHeld z (some 0) va := rfl
theorem loadingS_down (c ds) : linkDown (loadingS z c ds) 0 = linkDown z 0 := rfl
theorem loadingS_retrains (c ds) : linkHeld (loadingS z c ds) 0 = linkHeld z 0 := rfl
theorem loadingS_class (c ds va) : effClass (loadingS z c ds) va .U = effClass z va .U := rfl

/-- A sector whose address is its own, in the page that the entry covers, and in reach. -/
def goodSector (z : State) (va : Nat) : Bool :=
  decide (hubXlate (atRest z) 0 va accRead = .ok va .U 0xC27 1) && !walkHeld (atRest z) 0 va && reaches z (some 0) va &&
    !crossesHeld z (some 0) va && !linkDown z 0 && !linkHeld z 0 && decide (effClass z va .U = .U) &&
    decide (va < 2 ^ 28) && decide (va / pageBytes 2 * pageBytes 2 = 0) && decide (leafPa 0xC27 va = va)

theorem Loads.read (hs : Loads z s ds) (hd : ds = [] ∨ ds = [leafEntry]) (va : Nat) (h : goodSector z va = true) :
    ∃ t, gRead s 0 0 va 32 = (.ok (z.mem.bytes va 32), t) ∧ Loads z t [leafEntry] := by
  simp only [goodSector, Bool.and_eq_true, decide_eq_true_eq, Bool.not_eq_true'] at h
  obtain ⟨⟨⟨⟨⟨⟨⟨⟨⟨hx, hw⟩, hr⟩, hc⟩, h1⟩, h2⟩, h3⟩, hlt⟩, hb⟩, hl⟩ := h
  have key : ∃ t, agentXlate s none 0 0 va accRead = (.ok va .U 0xC27, t) ∧ Loads z t [leafEntry] := by
    have fill : Loads z (dieInsert (chargeWalk s 0 va) 0 0 va 0xC27) [leafEntry] := by
      obtain ⟨a, c, e⟩ := hs.walked va
      have he : tlbFill ds ⟨0, 0, va / pageBytes 2 * pageBytes 2, pageBytes 2, 0xC27⟩ 8192 = [leafEntry] := by
        rw [hb]; rcases hd with rfl | rfl <;> rfl
      refine ⟨a, c, ?_⟩
      rw [e, ← he]
      rfl
    obtain ⟨c, hq, rfl⟩ := hs
    have miss : dieLeaf (loadingS z c ds) 0 0 va = none → agentXlate (loadingS z c ds) none 0 0 va accRead =
        (.ok va .U 0xC27, dieInsert (chargeWalk (loadingS z c ds) 0 va) 0 0 va 0xC27) := by
      intro h
      have h4 : walkOut (loadingS z c ds) 0 va = false := rfl
      simp [agentXlate, h, loadingS_down, loadingS_retrains, h1, h2, h4, loadingS_held, loadingS_xlate c hq, hw, hx]
    cases hh : dieLeaf (loadingS z c ds) 0 0 va with
    | none => exact ⟨_, miss hh, fill⟩
    | some e =>
      rcases hd with rfl | rfl
      · exact absurd hh (by simp [dieLeaf, loadingS])
      · have he : e = 0xC27 := by
          simp only [dieLeaf, loadingS, List.find?_cons, Option.map_eq_some_iff] at hh
          obtain ⟨t, ht, rfl⟩ := hh
          split at ht
          · cases ht; rfl
          · cases ht
        subst he
        have h0 : rightsFault 0xC27 accRead = none := by decide
        have hp : pteClass 0xC27 = .U := by decide
        exact ⟨_, by simp only [agentXlate, hh, h0, hl, hp], c, hq, rfl⟩
  obtain ⟨t, ht, c, hq, rfl⟩ := key
  have hs1 : linkDown s 0 = false := by obtain ⟨_, _, rfl⟩ := hs; exact h1
  have hx' : gXlate s 0 0 va accRead = (.ok (va, .U), loadingS z c [leafEntry]) := by
    have h5 : ¬ ((va : Int) < 0 ∨ 2 ^ 52 ≤ (va : Int)) := by omega
    simp only [gXlate, if_neg h5, hs1, Int.toNat_natCast, ht, loadingS_reaches, loadingS_crosses, loadingS_retrains, loadingS_class, h2, h3, hr, hc,
      Bool.or_self, Bool.not_true, Bool.false_eq_true, if_false]
  refine ⟨(xRead (loadingS z c [leafEntry]) 0 0 .U va 32).2, ?_, Loads.move (some 0) (.inr rfl) .U va 32 ⟨c, hq, rfl⟩⟩
  have hb2 : (xRead (loadingS z c [leafEntry]) 0 0 .U va 32).1 = (z.mem.bytes va 32, false) := by
    simp only [xRead, l2Serves, poisonedAt_loadingS c hq, Bool.false_eq_true, if_false]
    rfl
  simp only [gRead, hx', hb2, Bool.false_eq_true, if_false]

/-- The bytes of k sectors. -/
def sectorBytes (z : State) : Nat → Nat → List Byte
  | _, 0 => []
  | va, k + 1 => z.mem.bytes va 32 ++ sectorBytes z (va + 32) k

theorem Loads.reads (k : Nat) : ∀ (s : State) (ds : List TlbEntry) (va : Nat), Loads z s ds → (ds = [] ∨ ds = [leafEntry]) →
    (∀ j < k, goodSector z (va + 32 * j) = true) →
    ∃ t es, gReads 0 0 s va k = (.ok (sectorBytes z va k), t) ∧ Loads z t es ∧ (es = [] ∨ es = [leafEntry]) := by
  induction k with
  | zero => exact fun s ds va h hd _ => ⟨s, ds, rfl, h, hd⟩
  | succ k ih =>
    intro s ds va h hd hg
    obtain ⟨t, ht, hs⟩ := h.read hd va (hg 0 (by omega))
    obtain ⟨u, es, hu, hL, he⟩ := ih t _ (va + 32) hs (.inr rfl) fun j hj => by
      have := hg (j + 1) (by omega); rwa [show va + 32 * (j + 1) = va + 32 + 32 * j by omega] at this
    exact ⟨u, es, by simp only [gReads, ht, hu, sectorBytes], hL, he⟩

/-- What a read of n bytes from an address gives. -/
def imageBytes (z : State) (va n : Nat) : List Byte := ((sectorBytes z (va / 32 * 32) ((va + n + 31) / 32 - va / 32)).drop (va % 32)).take n

theorem Loads.bytes (va n : Nat) (h : Loads z s ds) (hd : ds = [] ∨ ds = [leafEntry])
    (hg : ∀ j < (va + n + 31) / 32 - va / 32, goodSector z (va / 32 * 32 + 32 * j) = true) :
    ∃ t es, gBytes s 0 0 va n = (.ok (imageBytes z va n), t) ∧ Loads z t es ∧ (es = [] ∨ es = [leafEntry]) := by
  obtain ⟨t, es, ht, hL, he⟩ := Loads.reads _ s ds (va / 32 * 32) h hd hg
  exact ⟨t, es, by simp only [gBytes, ht, imageBytes], hL, he⟩
end

def loadPart : Partition := { partition with loading := some 5, image := 0x150000 }
def loading0 : State := withCells (graphJob (.gload 0x150000) (withPart fun _ => loadPart)) (wordCells 0x150000 smallImage)

theorem imageBytes_header : headerOk (imageBytes loading0 0x150000 64) = true ∧ headerOf (imageBytes loading0 0x150000 64) = ⟨false, 1, 1, 1, 0, 256⟩ := by
  decide +kernel
theorem imageBytes_entry : dwordAt (imageBytes loading0 0x150040 16) 0 = 128 ∧ wordAt (imageBytes loading0 0x150040 16) 8 = 128 ∧
    zeros ((imageBytes loading0 0x150040 16).drop 12) = true := by decide +kernel
theorem imageBytes_phase : PhaseIn.headOk ⟨0x150080, imageBytes loading0 0x150080 128⟩ = true ∧
    (phaseFault ⟨0, 0, 2, 2, 1, 1, false⟩ ⟨0x150080, imageBytes loading0 0x150080 128⟩ (PhaseIn.phase ⟨0x150080, imageBytes loading0 0x150080 128⟩)).isNone = true := by
  decide +kernel

/-- The image of the load is read and checked. -/
theorem witness_GraphImageRead : loadPart.state = .empty ∧ getPart loading0 (partKey 0 3) = some loadPart ∧
    ∃ h phs t, checkImage loading0 loadPart = (.ok (h, phs), t) ∧ h.phases = 1 ∧ phs.length = 1 := by
  obtain ⟨t1, d1, r1, l1, e1⟩ := Loads.bytes 0x150000 64 (z := loading0) (s := loading0) (ds := []) ⟨⟨ctx.acct, 0, 0, [], []⟩, by simp, rfl⟩ (.inl rfl) (by decide +kernel)
  obtain ⟨t2, d2, r2, l2, e2⟩ := l1.bytes 0x150040 16 e1 (by decide +kernel)
  obtain ⟨t3, d3, r3, l3, e3⟩ := l2.bytes 0x150080 128 e2 (by decide +kernel)
  obtain ⟨p1, p2⟩ := imageBytes_phase
  refine ⟨rfl, rfl, ⟨false, 1, 1, 1, 0, 256⟩, [PhaseIn.phase ⟨0x150080, imageBytes loading0 0x150080 128⟩], t3, ?_, rfl, rfl⟩
  have hp : readPhase t1 0 0 0x150000 ⟨0, 0, 2, 2, 1, 1, false⟩ ⟨false, 1, 1, 1, 0, 256⟩ 0 =
      (.ok (PhaseIn.phase ⟨0x150080, imageBytes loading0 0x150080 128⟩), t3) := by
    have p3 := Option.isNone_iff_eq_none.mp p2
    simp only [readPhase, Nat.reduceAdd, Nat.reduceMul, r2, imageBytes_entry, r3, p1, Bool.false_eq_true, false_and, if_false, p3]
    simp
  have c1 : loadPart.ctx = 0 ∧ loadPart.die = 0 ∧ loadPart.image = 0x150000 ∧ loadPart.j0 = 0 ∧ loadPart.y0 = 0 ∧ loadPart.w = 2 ∧ loadPart.h = 2 :=
    by decide
  simp only [checkImage, readHeader, c1, r1, imageBytes_header, if_true, readPhases, hp]

theorem witness_GraphEvents :
    (let s := graphJob (.galloc 0x41000) base
     graphHeld s 5 3 1 0 3 (.galloc 0x41000) = false ∧ getPart s (partKey 0 3) = none ∧ ctxPairs s 0 + 2 ≤ 64 ∧ findPairs s (shapeOf 0x41000) = some (0, 0, 0) ∧
     partAfter (exec (.graphCommandApply 5) s) (fun p => decide (p = Partition.empty 0 3 0 0 0 1 2))) ∧
    nexts (exec (.graphCommandApply 5) (graphJob .gdrain base)) ∧
    partAfter (exec (.graphCommandApply 5) (graphJob (.gload 0x150000) (withPart id))) (fun p => decide (p.loading = some 5)) ∧
    ([.armed, .drained] : List GObj).all (fun st =>
      partAfter (exec (.graphCommandApply 5) (graphJob (.garg 15 64) (withPart fun p => { p with state := st }))) fun p =>
        decide (sget 0 p.args 15 = 64 ∧ p.state = st)) = true ∧
    partAfter (exec (.graphCommandApply 5) (graphJob .grun (withPart fun p => { p with state := .armed }))) (fun p => decide (p.state = .streaming)) ∧
    partAfter (exec (.graphCommandApply 5) (graphJob .gdrain (withPart fun p => { p with state := .draining }))) (fun p => p.drainReq) ∧
    partAfter (exec (.graphCommandApply 5) (graphJob .grel (withPart fun p => { p with state := .faulted }))) (fun p => decide (p = partition)) ∧
    partAfter (exec (.graphCommandApply 5) (graphJob .grun (withPart id))) (fun p => decide (p = partition)) ∧
    ([0, 1] : List Word).all (fun m =>
      partAfter (exec (.gloadComplete (partKey 0 3)) (graphJob (.gload 0) (withPart fun p => { p with state := .validated, loading := some 5, argmask := m })))
        fun p => decide (p.state = (if m = 0 then .armed else .resident) ∧ p.loading = none)) = true ∧
    (let p := { runningPart 0 partition with state := .draining, regions := [{ FRegion.fresh smallRegion with done := true }] }
     let s := withPart fun _ => p
     ctxRuns s 0 ∧ outputsIdle s (partKey 0 3) p ∧ partAfter (exec (.phaseEnd (partKey 0 3)) s) (fun q => decide (q.state = .drained))) ∧
    (let s := withPart (runningPart 32)
     smallRegion.II 0 = 32 ∧ running (runningPart 32 partition) ∧ ctxLeaves s 0 = false ∧
     partAfter (exec (.fabricRoundBoundary (partKey 0 3) 0) s) (fun q => q.regions.any fun r => decide (r.beat = 0 ∧ r.rounds = 1))) ∧
    (let p := runningPart 31 partition
     let s := withPart fun _ => p
     ((moveRegion true 0 ⟨s, p, none⟩).s = s ∧ (moveRegion true 0 ⟨s, p, none⟩).p = p ∧ (moveRegion true 0 ⟨s, p, none⟩).stop.isNone) ∧ beatPoisoned p 0 = false ∧ (tryBeat p 0).isSome ∧
     partAfter (exec (.fabricBeat (partKey 0 3) 0) s) (fun q => q.regions.any fun r => decide (r.beat = 32))) := by decide +kernel

/-- An element passes on what its tile feeds it (source 21), and the tile is empty: the beat stalls. -/
theorem witness_GraphStall :
    (let t : TileRec := ⟨0, 0, 0, 0, 2, 1, 32, 0, 0, [⟨1, 0, [(8, 1)]⟩, ⟨2, 0, [(8, 1)]⟩]⟩
     let q := runningPart 0 partition
     let p := { q with cur := ⟨[smallRegion], [⟨0, 0, 0, 0, 0, 0, 0x160154⟩], [t], [], [], []⟩, tiles := [FTile.fresh t] }
     let s := withPart fun _ => p
     p.regions.all (fun r => !r.idle p && !r.noInput) ∧ (moveRegion true 0 ⟨s, p, none⟩).s = s ∧ (moveRegion true 0 ⟨s, p, none⟩).p = p ∧
     (moveRegion true 0 ⟨s, p, none⟩).stop.isNone ∧ beatPoisoned p 0 = false ∧ (tryBeat p 0).isNone ∧
     partAfter (exec (.fabricBeat (partKey 0 3) 0) s) (fun q => decide (q.stalls = 1))) := by decide +kernel

/-! ### Witnesses: links, starts and errors -/

def withLink (l : DieLink) : State := { base with links := List.replicate 3 ⟨.up, 8, [], 0, 0, false⟩ ++ [l] }
def linkAfter (o : Out) (p : DieLink → Bool) : Bool := holdsAfter o fun t => t.links[3]?.any p

theorem witness_LinkAndPortEvents :
    linkAfter (exec (.retrainingTrigger 3) (withLink ⟨.degraded, 4, [], 0, 0, false⟩)) (fun l => decide (l.state = .retraining ∧ l.lanes = 0)) ∧
    ([4, 7, 8] : List (BitVec 4)).all (fun n =>
      linkAfter (exec (.retrainingEnds 3 n) { withLink ⟨.retraining, 0, [0, 0, 0], 0, 0, false⟩ with clk := 90000 }) fun l =>
        decide (l.lanes = n.toNat ∧ l.state = if n = 8 then .up else .degraded)) = true ∧
    linkAfter (exec (.retrainingFails 3 3) (withLink ⟨.retraining, 0, [0], 0, 0, false⟩)) (fun l => decide (l.state = .down)) ∧
    linkAfter (exec (.retrainingFails 3 8) (withLink ⟨.retraining, 0, [0, 0, 0, 0], 0, 0, false⟩)) (fun l => decide (l.state = .down)) ∧
    (holdsAfter (exec .hostLinkLoss base) fun t => decide (t.host.state = .down)) ∧
    ([(16, 64), (16, 32), (4, 16)] : List (BitVec 8 × BitVec 8)).all (fun e =>
      holdsAfter (exec (.hostLinkTrained e.1 e.2) { base with host := ⟨.down, 0, 0, 0, 0⟩ }) fun t =>
        decide (t.host.state = (if e.1 = 16 ∧ e.2 = 64 then .up else .degraded) ∧ t.host.rate = e.2.toNat)) = true ∧
    (base.peers[7]?).isSome ∧ (holdsAfter (exec (.peerPortChange 7 .up) base) fun t => decide (t.peers[7]? = some .up)) ∧
    (let s := withCells base (wordCells 0x160000 [0xFFFFFFFF])
     hdmAddr s 0x160000 = some 0x160000 ∧ hubCan s 0x160000 4 ∧ spanHeld s 0x160000 4 = false ∧ s.mem.wf ∧
     (holdsAfter (exec (.hostAccess (.read 0x160000 4)) s) fun t => decide (t.hostRead = [0xFF, 0xFF, 0xFF, 0xFF])) ∧
     (holdsAfter (exec (.hostAccess (.write 0x160001 [1, 2])) s) fun t => decide (t.mem.bytes 0x160000 4 = [0xFF, 1, 2, 0xFF])) ∧
     (holdsAfter (exec (.peerAccess 7 (.atomic .add 0x160000 false 2)) { s with peers := setAt s.peers 7 .up }) fun t =>
       decide (t.mem.bytes 0x160000 4 = [1, 0, 0, 0] ∧ t.hostRead = [0xFF, 0xFF, 0xFF, 0xFF]))) ∧
    -- a write to stack memory of die 0 while its link retrains
    (let s := { base with links := List.replicate 4 ⟨.retraining, 0, [0], 0, 0, false⟩ }
     hdmAddr s 0x160000 = some 0x160000 ∧ hubCan s 0x160000 4 ∧ spanHeld s 0x160000 4 ∧
     (holdsAfter (exec (.hostAccess (.write 0x160000 [1, 2, 3, 4])) s) fun t => decide (t.held = [⟨0x160000, [1, 2, 3, 4], false⟩] ∧ t.mem = s.mem))) ∧
    (let s := { base with cache := { base.cache with dir := [⟨0, 2 ^ 44, false, []⟩] } }
     windowOf s (2 ^ 44 * 128) = some .host ∧ routeOf s (2 ^ 44 * 128) = none ∧ portUp s none ∧ (holdsAfter (exec (.hostSnoop ⟨2 ^ 44, 4, [7]⟩) s) fun t => decide (t.cache.dir = [] ∧ t.mem.byte (2 ^ 51 + 4) = 7))) := by decide +kernel

def startIs (st : StartState) : State := { base with start := { base.start with state := st } }
def startAfter (o : Out) (p : Start → Bool) : Bool := holdsAfter o fun t => p t.start

/-- Images without bytes of security versions 2 and 3: their digests are those of FIPS 180-4 over the version's four bytes, and the signatures were
made with a P-256 implementation apart from this model, by the key of the first image. -/
def imageV (v : Word) (e r x : BitVec 256) : FwImage := ⟨[], v, e, State.reset.fw.slotA.elim ⟨0, 0⟩ (·.key), ⟨r, x⟩⟩
def image2 : FwImage :=
  imageV 2 0x26b25d457597a7b0463f9620f666dd10aa2c4373a505967c7c8d70922a2d6ece
    0x1e0c75414382f74f76a869908b5e8c1cb365df3e18dba92c4919ac062f82e98b 0xf79a85c4699b2a768d3bf25184856da7d3e77dae5c54e1ab27d18632ffabebdb
def image3 : FwImage :=
  imageV 3 0x9d9f290527a6be626a8f5985b26e19b237b44872b03631811df4416fc1713178
    0x2392d94556b99edca455e5db3f6557ddac080794507ae1f6ba52abbe892a1189 0x1cc66f96d5f52aaa656a8333759f1cd357b5a060c652b2a07ebd5b7595e88767
/-- The fused minimum is 3. -/
def withImages (a b : Option FwImage) : State :=
  { startIs .verifying with ctxs := [], fw := { base.fw with slotA := a, slotB := b, activeB := false, minimum := 3 } }

/-- SHA-256 of the standard's one-block message "abc"; a signature verifies, and one with a bit changed does not. -/
theorem test_digests_and_signatures :
    sha256 [0x61, 0x62, 0x63] = 0xba7816bf8f01cfea414140de5dae2223b00361a396177a9cb410ff61f20015ad ∧
    ecdsaVerify image3.key image3.digest image3.sig = true ∧ ecdsaVerify image3.key image3.digest ⟨image3.sig.r, image3.sig.s ^^^ 1⟩ = false := by
  decide +kernel

theorem witness_FirmwareVerified :
    startAfter (exec .verificationDone (withImages none (some image3))) (fun x => decide (x.state = .training)) ∧
    startAfter (exec .verificationDone (withImages none (some image2))) (fun x => decide (x.state = .failed ∧ x.result = 1)) ∧
    (holdsAfter (exec (.firmwareUpdate image3) (withImages none none)) fun t => decide (t.fw.activeB = true ∧ t.fw.slotB = some image3)) := by
  decide +kernel
def sensors (h : Word) : Sensors := ⟨100, [1, 2, 3, 4, 5], h, 20, 30, 0, false⟩
def sampling (rd : Word) : State :=
  { base with clk := 2048, mgmt := { base.mgmt with smprd := rd }
              samp := ⟨true, 0x2000000, 16, 2048, 0, List.replicate 12 0xFF, 0, false⟩ }

theorem witness_StartPowerAndErrorEvents :
    ([.ready, .failed, .off] : List StartState).all (fun st => holdsAfter (exec (.startRequest false true) (startIs st)) fun t =>
      decide (t.start.state = .verifying ∧ t.start.clear = true) && ((getCtx t 0).any fun c => decide (c.state = .tornDown ∧ c.leaving = some .destroy)) &&
        t.kernels.all fun k => k.2.killed) = true ∧
    nexts (exec (.startRequest true false) (startIs .off)) ∧
    ([.verifying, .training, .clearing] : List StartState).all (fun st =>
      startAfter (exec (.startRequest true true) { startIs st with start := ⟨0, st, 255, false, false, 0⟩ }) fun x => decide (x.state = st ∧ x.ignored = 255)) = true ∧
    startAfter (exec .powerOn base) (fun x => decide (x.state = .off)) ∧
    (let s := { startIs .training with links := List.replicate 4 ⟨.retraining, 0, [], 0, 0, false⟩ }
     s.links.length = 4 ∧ s.links.all (fun l => !l.locked) ∧
     startAfter (exec (.trainingDone 0xFFFF 4 8 15 7 true) s) (fun x => decide (x.state = .clearing)) ∧
     startAfter (exec (.trainingDone 0xFFFF 4 8 3 7 true) s) (fun x => decide (x.state = .failed ∧ x.result = 2))) ∧
    startAfter (exec (.clearingDone false) (startIs .clearing)) (fun x => decide (x.state = .failed ∧ x.result = 3)) ∧
    (holdsAfter (exec (.spdmRequest .keyExchange) (startIs .verifying)) fun t => decide (t.spdm.last = some (.keyExchange, .busy))) ∧
    (holdsAfter (exec (.spdmRequest .getVersion) (startIs .training)) fun t => decide (t.spdm.last = some (.getVersion, .version 0x1200))) ∧
    (holdsAfter (exec (.spdmRequest .keyExchange) (startIs .ready)) fun t => t.spdm.linkKeys.isSome) ∧
    (holdsAfter (exec (.telemetrySample (sensors 1099)) base) fun t => decide (t.start = base.start ∧ t.telem.hottest = 1099)) ∧
    (holdsAfter (exec (.telemetrySample (sensors 1100)) base) fun t =>
      decide (t.start.result = 4) && (getCtx t 0).any fun c => decide (c.leaving = some .fault)) ∧
    (holdsAfter (exec .samplerInterval (sampling 0xFFFFFFF1)) fun t => decide (t.mgmt.smpwr = 1 ∧ t.mem.bytes 0x2000080 12 = [0, 8, 0, 0, 0, 0, 0, 0, 1, 0, 0, 0])) ∧
    (holdsAfter (exec .samplerInterval (sampling 0xFFFFFFF0)) fun t => decide (t.mgmt.smpwr = 0 ∧ t.samp.lost = true)) ∧
    (holdsAfter (exec .budgetWindowRefresh { withCtx (fun c => { c with bwAcc := 64, pwrAcc := 5 }) with clk := 2250 }) fun t =>
      (getCtx t 0).any fun c => decide (c.bwAcc = 0 ∧ c.pwrAcc = 0 ∧ c.bwAvg = 1)) ∧
    (holdsAfter (exec (.softError ⟨.dram 0x16001F, false⟩) base) fun t => decide (t.poison = [0xB000])) ∧
    (holdsAfter (exec (.softError ⟨.dram 0x160000, true⟩) base) fun t => decide (t.poison = [])) := by decide +kernel

/-! ### Witnesses: further clauses -/

/-- A vote past the last exit and a second vote, by lane 31; and in a lane-less block, without and with a vote. -/
theorem witness_ExitVotesRefused :
    (ready (withFrame fun f => { twoExits f with toks := operands (sc 2) none none }) .always [0] []).any
      (fun x => x.f.laneless = false ∧ x.has 31 ∧ 2 ≤ (x.aw 31).toNat) ∧
    (ready (withFrame fun f => { twoExits f with votes := [(31, 1)] }) .always [] []).any
      (fun x => x.f.laneless = false ∧ x.has 31 ∧ x.f.votes.any fun v => decide (v.1 = 31)) ∧
    (ready (withFrame fun f => { twoExits f with laneless := true, toks := operands (sc 2) none none }) .always [0] []).any
      (fun x => x.any ∧ x.f.laneless ∧ 2 ≤ (x.aw 0).toNat ∧ x.f.whole = none) ∧
    (ready (withFrame fun f => { twoExits f with laneless := true, whole := some 1 }) .always [] []).any (fun x => x.any ∧ x.f.laneless ∧ x.f.whole.isSome) := by
  decide +kernel

/-- A result in flight that has no target. -/
theorem witness_LateResultsWithoutTargets :
    (frameAfter (exec (.matrixComplete 3 1) (withFrame fun f =>
      { f with words := exampleBlock, fired := [1], infl := [(1, .matrix, { Effects.none with toks := [], flags := 1, cmds := [] })] }))).any
        (fun f => f.infl = [] ∧ f.toks = [] ∧ f.flags = 1) = true := by decide +kernel

/-- Scratchpad accesses of four lanes: all aligned, one not, and one past the share; a lane-wise global access outside 52 bits. -/
theorem witness_AddressFaultsOfEveryForm :
    ([(0xFF00, 32, none), (0xFFF0, 32, some 0), (0x101, 32, some 0)] : List (Nat × Nat × Option Nat)).all (fun e =>
      (ready (withFrame fun f => { f with words := slotWords 2, toks := operands (column e.1) (sc 7) none }) .always [0] []).any fun x =>
        let o := SlotOp.mk .ldS 0 0 .add .relaxed .warp [.opA 9]
        let n := Img.bytes x.f.words 0
        let bad := x.list.filter fun l => !(decide (0 ≤ o.ea x n l ∧ o.ea x n l % 4 = 0) && inShare (x.group base) (o.acc x n l).addr n)
        x.any && decide (x.list.length = e.2.1 ∧ n = 4) && decide (bad.isEmpty = e.2.2.isNone) && decide (tget x.f.slots 0 = none) &&
          x.list.all fun l => !steppedTouched (x.group base) (o.acc x n l).addr n) = true ∧
    (ready (withFrame fun f => { f with words := slotWords 2, toks := operands (column (2 ^ 52 - 4)) (sc 7) none }) .always [0] []).any (fun x =>
      let o := SlotOp.mk .ldG 0 0 .add .relaxed .warp [.opA 9]
      decide (o.ea x 4 0 = 2 ^ 52 - 4 ∧ o.ea x 4 1 = 2 ^ 52 ∧ o.single x = false ∧ x.list.length = 32)) = true := by decide +kernel

/-- Commands that read memory while a link retrains. -/
theorem witness_CommandsBehindRetraining :
    (let s := { base with links := List.replicate 4 ⟨.retraining, 0, [0], 0, 0, false⟩ }
     s.start.state = .ready ∧ anyHeld s ∧
     (holdsAfter (exec (.commit 7 0) s) fun t => decide (t.mgmt.pending = [(some 0, .commit 7 0)] ∧ t.mgmt.cpl = []))) := by decide +kernel

/-- Writes of CMDBASE with the ring disabled and enabled, of EVBASE, of CMDWR, and of START. -/
theorem witness_RegisterWritesOfTheHost :
    (withMgmt id).mgmt.cmdctl = false ∧ (withMgmt fun m => { m with cmdctl := true }).mgmt.cmdctl = true ∧ base.mgmt.evctl = false ∧
    (holdsAfter (exec (.registerWrite .bar0 0x1000 0x12345678) base) fun t => decide (t.mgmt.cmdbase = 0x12345000)) ∧
    (holdsAfter (exec (.registerWrite .bar0 0x100 5) base) fun t => decide (t.start.state = .verifying ∧ t.start.clear = true)) ∧
    (holdsAfter (exec (.registerWrite .bar0 0x100 4) base) fun t => decide (t = base)) := by decide +kernel

/-- A kernel whose failerr wait found a cell in error. -/
theorem witness_EntryCheckOfADependency :
    (let s := withKernel fun k => { k with state := .queued, entryHeld := false, qdep := true }
     (getKernel s 1).any (fun k => k.state = .queued ∧ k.qdep ∧ k.killed = false ∧ k.retired = 0 ∧ endHeld s 0 k.launch = false) ∧ entriesRun s ctx ∧
     (holdsAfter (exec (.entryCheck 1) s) fun t => (getKernel t 1).any fun k => decide (k.state = .failed ∧ k.code = 0x44))) := by decide +kernel

/-- The worked example with its write slot naming another register, the one token sent to it, and what its commit lands. -/
def landed (r : Nat) (t : Token) : Warp × Bool :=
  let f := { frame with words := setAt exampleBlock 16 (BitVec.ofNat 32 r), wtoks := [(0, 1, t)] }
  (landAll warp f, decide (Img.writeId f.words 0 = r) && gathered f (imageSent f.words) 0)

/-- A scalar register, a pair of them, a predicate register and a vector pair, at the ends of their ranges. -/
theorem witness_WriteSlotsOfEveryKind :
    (landed 0x108 (Token.scal false true 5)).2 ∧ sreg (landed 0x108 (Token.scal false true 5)).1 8 = 5 ∧
    sreg (landed 0x108 (Token.scal true true 0x700000005)).1 9 = 7 ∧
    (landed 0x281 (Token.vect false ones32 fun l => BitVec.ofNat 64 (l / 16))).2 ∧
    preg (landed 0x281 (Token.vect false ones32 fun l => BitVec.ofNat 64 (l / 16))).1 1 = 0xFFFF0000 ∧
    (landed 254 (Token.vect true 0x80000000 fun _ => 0x700000005)).2 ∧
    vreg (landed 254 (Token.vect true 0x80000000 fun _ => 0x700000005)).1 255 31 = 7 ∧
    vreg (landed 254 (Token.vect true 0x80000000 fun _ => 0x700000005)).1 255 30 = 0 := by decide +kernel

/-- Votes for one live exit and for two, with the window empty, with its last two places free, and with one. -/
def votesFor (a b : Mask) (n : Nat) : Warp × Redo :=
  ({ warp with ssp := BitVec.ofNat 32 n }, ⟨[a, b, 0, 0], [0x10, 0x20, 0, 0], [false, false, true, true], 0x30, none⟩)

theorem witness_SplitsAtCommit :
    (splitVotes (votesFor 0xFFFF 0 0).1 (votesFor 0xFFFF 0 0).2 = (0, [(0x10, 0xFFFF)]) ∧ warp.count = 0 ∧ warp.spilled = 0 ∧ warp.oddPend = []) ∧
    ([(0, false), (14, false), (15, true)] : List (Nat × Bool)).all (fun e =>
      let (w, r) := votesFor 0xFFFF 0xFFFF0000 e.1
      decide (splitVotes w r = (0, [(0x10, 0xFFFF), (0x20, 0xFFFF0000)]) ∧ w.count = e.1 ∧ w.spilled = 0) &&
        (match w.stepFive r with
         | .enter y h m => !e.2 && decide (h = 0x10 ∧ m = 0xFFFF ∧ y.count = e.1 + 2 ∧ y.winHandle e.1 = 0x80000030 ∧ y.winMask e.1 = ones32)
         | .trap c => e.2 && decide (c = .splitSpill)
         | .ended _ => false)) = true := by decide +kernel

/-- The worked example at its end, its lanes returning to a handle; and the choice of step 5. -/
def returning (s6 : Word) (ssp : Word) : State :=
  exampleFrame (fun f => { f with fired := [2, 1, 0], votes := lanes32.map (fun l => (l, 0)), wtoks := [(0, 1, Token.vect false ones32 fun _ => 1)] })
    fun w => { w with s := [(6, s6)], ssp := ssp }
def chosen (s : State) : Option Chosen :=
  (getWarp s 3).bind fun w => w.frame.map fun f => (landAll w f).stepFive (redoOf f (exitTargets f.handle (landAll w f) (landAll w f) f.words))

/-- A warp at rest whose block commits enters a block, ends, or takes the split trap of step 5 (here with entries spilled under an empty window). -/
theorem witness_CommitEntersItsChoice :
    ([(0x40, 0), (0x7FFFFFFF, 0), (0x7FFFFFFF, 0x10000)] : List (Word × Word)).all (fun e =>
      let s := returning e.1 e.2
      plainB s 3 && ((getCtx s 0).any fun c => !c.desc.debug) && (getWarp s 3).any fun w => w.frame.any fun f =>
        decide (w.mode = .run ∧ w.stopDue = none ∧ w.killDue = 0 ∧ w.haltDue = false ∧ w.trap = none ∧ w.redo = none ∧ w.clipDue = [] ∧ w.svcDue = [] ∧
          groupStopped s w.gid = false ∧ trapHeld s w = false ∧ Img.trap f.words = false ∧ callTaken f = false ∧ fijConsumed w f = false ∧
          f.cmds = [] ∧ w.mask &&& ~~~w.deadm ≠ 0)) = true ∧
    (match chosen (returning 0x40 0) with | some (.enter x h m) => decide (h = 0x40 ∧ m = ones32 ∧ x.deadm = 0) | _ => false) = true ∧
    (holdsAfter (exec (.blockCommit 3) (returning 0x40 0)) fun t => (getWarp t 3).any fun w => decide (w.handle = 0x40 ∧ w.mask = ones32 ∧ w.frame = none)) ∧
    (match chosen (returning 0x7FFFFFFF 0) with | some (.ended _) => true | _ => false) = true ∧
    (holdsAfter (exec (.blockCommit 3) (returning 0x7FFFFFFF 0)) fun t => (getWarp t 3).any fun w => decide (w.state = .ended)) ∧
    (match chosen (returning 0x7FFFFFFF 0x10000) with | some (.trap .splitFill) => true | _ => false) = true ∧
    (holdsAfter (exec (.blockCommit 3) (returning 0x7FFFFFFF 0x10000)) fun t => (getWarp t 3).any fun w =>
      decide (w.trapinf.toNat / 2 ^ 56 = 0x75 ∧ w.redo.isSome) && w.trap.any fun x => decide (x.code = .splitFill)) := by decide +kernel

/-- A call exit (05 R103): the block's exit kind 2. -/
theorem witness_CommitOfACall :
    (let f := { frame with words := setAt (setAt exampleBlock 2 0x40000000) 1 0x55, votes := [(0, 0)] }
     (exitKind (Img.exit f.words 0) = 2 ∨ exitKind (Img.exit f.words 0) = 3) ∧ callTaken f ∧ Img.word f.words 1 = 0x55) := by decide +kernel

/-- A copy that has ended early, and one with a sector moved and not yet counted, neither with bytes owed. -/
theorem witness_CopiesLowerAndComplete :
    (let s := { base with copies := [(4, { copyOne with ended := some (0x44, 0, 0) })] }
     copyOwes s 4 { copyOne with ended := some (0x44, 0, 0) } = false ∧ cellHeld s 0 copyOne.bar = false ∧
     (holdsAfter (exec (.copyCompletion 4) s) fun t => decide (t.copies = []))) ∧
    (let x := { copyOne with sectors := 2, done := [0], low := 0 }
     let s := { base with copies := [(4, x)] }
     x.low < x.lowered ∧ x.issued ∧ copyOwes s 4 x = false ∧ cellHeld s 0 x.bar = false ∧
     (holdsAfter (exec (.copySectorComplete 4) s) fun t => t.copies.any fun e => decide (e.2.low = 1))) := by decide +kernel

/-- A machine with a move to make, and one without. -/
theorem witness_StepWithoutAnAgenda :
    (let s := withMgmt fun m => { m with cpl := [(7, 6, 0, 0)], cplbase := 0x160000 }
     s.agenda = [] ∧ (moves (pass s)).any (fun a => nexts (perform a (pass s)))) ∧
    State.reset.agenda = [] ∧ ((moves (pass State.reset)).all fun a => !nexts (perform a (pass State.reset))) = true := by decide +kernel

end Sys2Proof.Tests
end

section
/-!
PROOFS. NaN operands (08 R167, R168), and compare, minimum and maximum (R170), in a format whose top exponent holds infinity and the NaNs.
-/
namespace Sys2Proof.Machine
open Sys2Proof.Spec

/-! ### IEEE-like formats (R161) -/

/-- The rules below rest on no more of a format than this: its top exponent holds infinity and the NaNs, and neither field is empty. -/
structure Fmt.IeeeLike (F : Fmt) : Prop where
  kind : F.kind = .ieee
  fraction : 0 < F.m
  exponent : 0 < F.ew

theorem ieeeLike_of_ieee {F : Fmt} (h : ieee F) : F.IeeeLike := by
  rcases h with rfl | rfl | rfl | rfl | rfl <;> exact ⟨rfl, by decide, by decide⟩

variable {F : Fmt} {a b c x : Nat}

/-! ### A NaN made quiet (R167, R168) -/

theorem Fmt.signBit_eq (F : Fmt) : F.signBit = 2 ^ F.m * 2 ^ F.ew := by rw [Fmt.signBit, Nat.add_comm, Nat.pow_add]

theorem Fmt.IeeeLike.two_pow_m (h : F.IeeeLike) : 2 ^ F.m = 2 * 2 ^ (F.m - 1) := by
  rw [← Nat.pow_succ', Nat.succ_eq_add_one, Nat.sub_add_cancel h.fraction]

theorem Fmt.IeeeLike.isNaN_iff (h : F.IeeeLike) : F.isNaN x = true ↔ F.infBits < F.mag x := by
  simp only [Fmt.isNaN, h.kind, decide_eq_true_eq]

theorem Fmt.IeeeLike.isSNaN_iff (h : F.IeeeLike) :
    F.isSNaN x = true ↔ F.isNaN x = true ∧ F.mag x % 2 ^ F.m < 2 ^ (F.m - 1) := by
  simp [Fmt.isSNaN, h.kind]

theorem Fmt.isSNaN_of_number (hx : F.isNaN x = false) : F.isSNaN x = false := by simp [Fmt.isSNaN, hx]

/-- Half a modulus added to a remainder in its lower half. -/
theorem add_half_mod {n k : Nat} (hn : n % (2 * k) < k) : (n + k) % (2 * k) = n % (2 * k) + k := by
  rw [Nat.add_mod, Nat.mod_eq_of_lt (a := k) (by omega), Nat.mod_eq_of_lt (by omega)]

/-- Setting the fraction's top bit, where it is 0, carries into no other field. -/
theorem Fmt.IeeeLike.mag_setTop (h : F.IeeeLike) (hx : F.mag x % 2 ^ F.m < 2 ^ (F.m - 1)) :
    F.mag (x + 2 ^ (F.m - 1)) = F.mag x + 2 ^ (F.m - 1) := by
  have hlt : F.mag x + 2 ^ (F.m - 1) < F.signBit := by
    have hmag : F.mag x / 2 ^ F.m < 2 ^ F.ew :=
      Nat.div_lt_of_lt_mul (F.signBit_eq ▸ Nat.mod_lt x (Nat.two_pow_pos _))
    calc F.mag x + 2 ^ (F.m - 1)
        = 2 ^ F.m * (F.mag x / 2 ^ F.m) + (F.mag x % 2 ^ F.m + 2 ^ (F.m - 1)) := by rw [← Nat.add_assoc, Nat.div_add_mod]
      _ < 2 ^ F.m * (F.mag x / 2 ^ F.m + 1) := by have := h.two_pow_m; rw [Nat.mul_succ]; omega
      _ ≤ F.signBit := F.signBit_eq ▸ Nat.mul_le_mul_left _ hmag
  unfold Fmt.mag at hlt ⊢
  rw [← Nat.mod_add_mod, Nat.mod_eq_of_lt hlt]

theorem Fmt.IeeeLike.isNaN_quiet (h : F.IeeeLike) (hx : F.isNaN x = true) : F.isNaN (F.quiet x) = true := by
  unfold Fmt.quiet
  split
  next hs =>
    rw [h.isNaN_iff, h.mag_setTop (h.isSNaN_iff.mp hs).2]
    exact Nat.lt_add_right _ (h.isNaN_iff.mp hx)
  next => exact hx

theorem Fmt.IeeeLike.isSNaN_quiet (h : F.IeeeLike) : F.isSNaN (F.quiet x) = false := by
  unfold Fmt.quiet
  split
  next hs =>
    have hlow := (h.isSNaN_iff.mp hs).2
    have htop : F.mag (x + 2 ^ (F.m - 1)) % 2 ^ F.m = F.mag x % 2 ^ F.m + 2 ^ (F.m - 1) := by
      rw [h.mag_setTop hlow]; rw [h.two_pow_m] at hlow ⊢; exact add_half_mod hlow
    rw [Bool.eq_false_iff, Ne, h.isSNaN_iff]; omega
  next hs => exact Bool.eq_false_iff.mpr hs

/-! ### Operations with a NaN operand (R168) -/

theorem Fmt.nanOf_cons_of_nan (xs : List Nat) (hx : F.isNaN x = true) :
    F.nanOf (x :: xs) = some (F.quiet x, flagIf ((x :: xs).any F.isSNaN) flNV) := by
  simp [Fmt.nanOf, hx]

/-- An operand that is a number neither gives the result nor sets NV. -/
theorem Fmt.nanOf_cons_of_number (xs : List Nat) (hx : F.isNaN x = false) : F.nanOf (x :: xs) = F.nanOf xs := by
  simp [Fmt.nanOf, hx, Fmt.isSNaN_of_number hx]

theorem Fmt.arith_of_nanOf {p : Nat × Word} (r : Round) (h : F.nanOf [a, b] = some p) :
    F.add r a b = p ∧ F.sub r a b = p ∧ F.mul r a b = p ∧ F.div r a b = p := by
  simp only [Fmt.add, Fmt.sub, Fmt.mul, Fmt.div, h, and_self]

theorem Fmt.sqrt_of_nanOf {p : Nat × Word} (r : Round) (h : F.nanOf [a] = some p) : F.sqrt r a = p := by
  simp only [Fmt.sqrt, h]

/-- With a NaN factor, the product is no 0 times infinity that would set NV by itself. -/
theorem Fmt.fma_of_nanOf {p : Nat × Word} (r : Round) (h : F.nanOf [a, b, c] = some p)
    (hab : F.isNaN a = true ∨ F.isNaN b = true) : F.fma r a b c = p := by
  obtain ⟨y, fl⟩ := p
  have hfactors : (!F.isNaN a && !F.isNaN b) = false := by rcases hab with ha | hb <;> simp [*]
  simp [Fmt.fma, h, hfactors, flagIf]

/-! ### Compare, minimum and maximum (R170) -/

/-- Under unordered, the four relations are false and set NV. -/
theorem Fmt.cmp_relation_of_unordered (h : F.isNaN a = true ∨ F.isNaN b = true) :
    ∀ k ∈ [ClsFc.lt, .le, .gt, .ge], F.cmp k a b = (false, flNV) := by
  rw [← Bool.or_eq_true] at h
  simp [Fmt.cmp, h, flagIf]

/-- Under unordered, of the other compares .ne and .nan hold, and only a signalling NaN sets NV. -/
theorem Fmt.cmp_other_of_unordered (h : F.isNaN a = true ∨ F.isNaN b = true) :
    ∀ k ∈ [ClsFc.eq, .ne, .num, .nan],
      F.cmp k a b = (decide (k = .ne ∨ k = .nan), if F.isSNaN a ∨ F.isSNaN b then flNV else 0) := by
  rw [← Bool.or_eq_true] at h
  simp [Fmt.cmp, h, flagIf]

theorem Fmt.minmax_flags (m : Bool) : (F.minmax m a b).2 = if F.isSNaN a ∨ F.isSNaN b then flNV else 0 := by
  simp [Fmt.minmax, flagIf]

theorem Fmt.minmax_of_nans (m : Bool) (ha : F.isNaN a = true) (hb : F.isNaN b = true) : (F.minmax m a b).1 = F.canon := by
  simp [Fmt.minmax, ha, hb]

theorem Fmt.minmax_of_one_nan (m : Bool) (ha : F.isNaN a = true) (hb : F.isNaN b = false) :
    (F.minmax m a b).1 = b ∧ (F.minmax m b a).1 = b := by
  simp [Fmt.minmax, ha, hb]

/-! ### Signed zeros (R170) -/

theorem Fmt.IeeeLike.isNaN_of_mag_zero (h : F.IeeeLike) (hx : F.mag x = 0) : F.isNaN x = false := by
  simp [Fmt.isNaN, h.kind, hx]

theorem Fmt.IeeeLike.infBits_pos (h : F.IeeeLike) : 0 < F.infBits :=
  Nat.mul_pos (Nat.sub_pos_of_lt (Nat.one_lt_two_pow (Nat.ne_of_gt h.exponent))) (Nat.two_pow_pos _)

theorem Fmt.IeeeLike.num_of_mag_zero (h : F.IeeeLike) (hx : F.mag x = 0) :
    F.num x = .fin (F.neg x) 0 (1 - F.bias - F.m) := by
  have hinf : F.isInf x = false := by simp [Fmt.isInf, hx, Nat.ne_of_lt h.infBits_pos]
  simp [Fmt.num, h.isNaN_of_mag_zero hx, hinf, hx]

theorem Fmt.IeeeLike.numCmp_of_zeros (h : F.IeeeLike) (ha : F.mag a = 0) (hb : F.mag b = 0) :
    (F.num a).cmp (F.num b) = .eq := by
  simp [h.num_of_mag_zero ha, h.num_of_mag_zero hb, Num.cmp, Num.mant]

theorem Fmt.IeeeLike.cmp_of_zeros (h : F.IeeeLike) (ha : F.mag a = 0) (hb : F.mag b = 0) :
    (F.cmp .eq a b).1 = true ∧ (F.cmp .lt a b).1 = false := by
  simp [Fmt.cmp, h.isNaN_of_mag_zero ha, h.isNaN_of_mag_zero hb, h.numCmp_of_zeros ha hb]

/-- Of two zeros only −0 before +0 counts as less. -/
theorem Fmt.IeeeLike.minmax_of_zeros (h : F.IeeeLike) (m : Bool) (ha : F.mag a = 0) (hb : F.mag b = 0) :
    (F.minmax m a b).1 =
      if m then (if F.neg a && !F.neg b then b else a) else (if F.neg b && !F.neg a then b else a) := by
  simp only [Fmt.minmax, Fmt.less, h.isNaN_of_mag_zero ha, h.isNaN_of_mag_zero hb, h.numCmp_of_zeros ha hb,
    h.numCmp_of_zeros hb ha, Bool.false_eq_true, if_false]

@[simp] theorem Fmt.mag_zero (F : Fmt) : F.mag 0 = 0 := Nat.zero_mod _
@[simp] theorem Fmt.mag_signBit (F : Fmt) : F.mag F.signBit = 0 := Nat.mod_self _
@[simp] theorem Fmt.neg_zero (F : Fmt) : F.neg 0 = false := by simp [Fmt.neg]
@[simp] theorem Fmt.neg_signBit (F : Fmt) : F.neg F.signBit = true := by
  simp [Fmt.neg, Nat.div_self (show 0 < F.signBit from Nat.two_pow_pos _)]

/-! ### The rules, by operand -/

theorem Fmt.results_of_first_nan (r : Round) (b c : Nat) (ha : F.isNaN a = true) :
    let nv (ys : List Nat) : Word := flagIf (ys.any F.isSNaN) flNV
    F.add r a b = (F.quiet a, nv [a, b]) ∧ F.sub r a b = (F.quiet a, nv [a, b]) ∧ F.mul r a b = (F.quiet a, nv [a, b]) ∧
      F.div r a b = (F.quiet a, nv [a, b]) ∧ F.fma r a b c = (F.quiet a, nv [a, b, c]) ∧ F.sqrt r a = (F.quiet a, nv [a]) := by
  obtain ⟨hadd, hsub, hmul, hdiv⟩ := Fmt.arith_of_nanOf r (Fmt.nanOf_cons_of_nan [b] ha)
  exact ⟨hadd, hsub, hmul, hdiv, Fmt.fma_of_nanOf r (Fmt.nanOf_cons_of_nan [b, c] ha) (.inl ha),
    Fmt.sqrt_of_nanOf r (Fmt.nanOf_cons_of_nan [] ha)⟩

theorem Fmt.results_of_second_nan (r : Round) (c : Nat) (ha : F.isNaN a = false) (hb : F.isNaN b = true) :
    let nv (ys : List Nat) : Word := flagIf (ys.any F.isSNaN) flNV
    F.add r a b = (F.quiet b, nv [b]) ∧ F.sub r a b = (F.quiet b, nv [b]) ∧ F.mul r a b = (F.quiet b, nv [b]) ∧
      F.div r a b = (F.quiet b, nv [b]) ∧ F.fma r a b c = (F.quiet b, nv [b, c]) := by
  have hnan (ys : List Nat) := (Fmt.nanOf_cons_of_number (b :: ys) ha).trans (Fmt.nanOf_cons_of_nan ys hb)
  obtain ⟨hadd, hsub, hmul, hdiv⟩ := Fmt.arith_of_nanOf r (hnan [])
  exact ⟨hadd, hsub, hmul, hdiv, Fmt.fma_of_nanOf r (hnan [c]) (.inr hb)⟩

theorem Fmt.unordered_results (h : F.isNaN a = true ∨ F.isNaN b = true) :
    (F.cmp .eq a b).1 = false ∧ F.cmp .lt a b = (false, flNV) ∧ F.cmp .le a b = (false, flNV) ∧ F.cmp .gt a b = (false, flNV) ∧
      F.cmp .ge a b = (false, flNV) ∧ (F.cmp .num a b).1 = false ∧ (F.cmp .ne a b).1 = true ∧ (F.cmp .nan a b).1 = true := by
  have hrel := Fmt.cmp_relation_of_unordered h
  have hother := Fmt.cmp_other_of_unordered h
  simp only [List.forall_mem_cons] at hrel hother
  obtain ⟨hlt, hle, hgt, hge, -⟩ := hrel
  obtain ⟨heq, hne, hnum, hnan, -⟩ := hother
  exact ⟨by rw [heq]; rfl, hlt, hle, hgt, hge, by rw [hnum]; rfl, by rw [hne]; rfl, by rw [hnan]; rfl⟩

/-- Settles O19: the first NaN operand is found by `nanOf` before any arithmetic, a quiet NaN keeps its exponent, and two zeros
compare equal with only their signs left to order them. -/
theorem nanAndCompareRules : Obligations.NanAndCompareRules := by
  refine ⟨fun F r a b c hF _ _ _ => ⟨Fmt.results_of_first_nan r b c, Fmt.results_of_second_nan r c, fun x hx => ?_⟩,
    fun F a b hF _ _ => ⟨fun hun => ?unordered, fun ha hb m => Fmt.minmax_of_nans m ha hb,
      fun ha hb m => Fmt.minmax_of_one_nan m ha hb, ?zeros⟩⟩
  · have h := ieeeLike_of_ieee hF
    exact ⟨h.isNaN_quiet hx, h.isSNaN_quiet⟩
  case unordered =>
    obtain ⟨heq, hlt, hle, hgt, hge, hnum, hne, hnan⟩ := Fmt.unordered_results hun
    exact ⟨heq, hlt, hle, hgt, hge, hnum, hne, hnan,
      fun k hk => congrArg Prod.snd (Fmt.cmp_other_of_unordered hun k hk), fun m => Fmt.minmax_flags m⟩
  case zeros =>
    have h := ieeeLike_of_ieee hF
    refine ⟨(h.cmp_of_zeros F.mag_zero F.mag_signBit).1, (h.cmp_of_zeros F.mag_signBit F.mag_zero).2, ?_⟩
    simp [h.minmax_of_zeros]

end Sys2Proof.Machine
end

section
/-!
PROOFS. What an instruction that only computes leaves behind (07 R130, R135 to R137, R144): the token of its result at each of its targets, its
flags, and nothing else; said once for every instruction that fires through `fireLanes`, `firePure` or with one token.
-/
namespace Sys2Proof.Machine
open Sys2Proof.Spec

/-! ### One token delivered (R36) -/

theorem lands_iff {f : Frame} {i : Nat} {y : Target} {t : Token} :
    Spec.lands f i y t ↔ (∀ k, keyOf y = some k → tget f.toks k = some t) ∧ (∀ k, slotNamed y = some k → (k, i, t) ∈ f.wtoks) := by
  cases y <;> simp [Spec.lands, keyOf, slotNamed]

/-- The operands and guards after token t has gone to a target. -/
def putToken (toks : Table Token) (t : Token) (y : Target) : Table Token :=
  match keyOf y with
  | some k => tput toks k t
  | none => toks

theorem tget_putToken (toks : Table Token) (t : Token) (y : Target) (key : Nat) :
    tget (putToken toks t y) key = if keyOf y = some key then some t else tget toks key := by
  unfold putToken
  cases keyOf y with
  | none => simp
  | some k =>
    by_cases h : k = key
    · simp [h, tget_tput_same]
    · simp [h, tget_tput_other _ _ _ _ (Ne.symm h)]

/-- The tokens of write slots that token t of instruction i adds. -/
def slotTokens (i : Nat) (t : Token) (ts : List Target) : List (Nat × Nat × Token) := (ts.filterMap slotNamed).map fun k => (k, i, t)

/-- The cause of a WRITE_CONFLICT that instruction i of a frame raises (R137). -/
def conflictCause (f : Frame) (i : Nat) : Cause := ⟨4, i, Code.writeConflict, blockDetail f i, none⟩

/-- Causes that are WRITE_CONFLICTs of instruction i, none where no target is a write slot. -/
def OnlyConflicts (f : Frame) (i : Nat) (ts : List Target) (cs : List Cause) : Prop :=
  ∀ c ∈ cs, c = conflictCause f i ∧ (ts.any fun y => (slotNamed y).isSome) = true

theorem deliver_eq (i : Nat) (f : Frame) (y : Target) (t : Token) :
    ∃ cs, deliver i f (y, t) =
        { f with toks := putToken f.toks t y, wtoks := f.wtoks ++ slotTokens i t [y], causes := f.causes ++ cs } ∧
      OnlyConflicts f i [y] cs := by
  cases y with
  | write k =>
    simp only [deliver, gather]
    split
    · exact ⟨[conflictCause f i], rfl, fun c hc => ⟨List.mem_singleton.mp hc, rfl⟩⟩
    · exact ⟨[], by simp [putToken, keyOf, slotTokens, slotNamed], by simp [OnlyConflicts]⟩
  | opA | opB | opC | guard | none =>
    exact ⟨[], by simp [deliver, putToken, keyOf, slotTokens, slotNamed, List.filterMap_cons], by simp [OnlyConflicts]⟩

/-! ### One token at several targets -/

/-- The frame after token t of instruction i has gone to each of its targets. -/
def sendAll (i : Nat) (t : Token) (ts : List Target) (f : Frame) : Frame := (ts.map fun y => (y, t)).foldl (deliver i) f

/-- What sending a token can do: it is at every operand and guard named and in every write slot named, and where it is in none, no cause has
been found. -/
theorem sendAll_eq (i : Nat) (t : Token) (ts : List Target) (f : Frame) :
    ∃ toks cs, sendAll i t ts f = { f with toks := toks, wtoks := f.wtoks ++ slotTokens i t ts, causes := f.causes ++ cs } ∧
      (∀ key, tget toks key = if some key ∈ ts.map keyOf then some t else tget f.toks key) ∧ OnlyConflicts f i ts cs := by
  induction ts generalizing f with
  | nil => exact ⟨f.toks, [], by simp [sendAll, slotTokens], by simp, by simp [OnlyConflicts]⟩
  | cons y ts ih =>
    obtain ⟨cs, hy, hcs⟩ := deliver_eq i f y t
    obtain ⟨toks, ds, hts, htoks, hds⟩ := ih (deliver i f (y, t))
    rw [hy] at hts htoks hds
    refine ⟨toks, cs ++ ds, ?_, fun key => ?_, fun c hc => ?_⟩
    · have hslots : slotTokens i t [y] ++ slotTokens i t ts = slotTokens i t (y :: ts) := by
        rw [slotTokens, slotTokens, ← List.map_append, ← List.filterMap_append]; rfl
      rw [← hslots, ← List.append_assoc, ← List.append_assoc, ← hts, ← hy]; rfl
    · rw [htoks, tget_putToken]
      by_cases h : some key ∈ ts.map keyOf
      · rw [if_pos h, if_pos (List.map_cons ▸ List.mem_cons_of_mem _ h)]
      · simp [h, eq_comm]
    · rcases List.mem_append.mp hc with hc | hc
      · obtain ⟨hcause, hslot⟩ := hcs c hc
        rw [List.any_cons, List.any_nil, Bool.or_false] at hslot
        exact ⟨hcause, by rw [List.any_cons, hslot, Bool.true_or]⟩
      · obtain ⟨hcause, hslot⟩ := hds c hc
        exact ⟨hcause, by simp [hslot]⟩

theorem filter_slotTokens {i k : Nat} {t : Token} {ts : List Target} (h : ∀ y ∈ ts, slotNamed y ≠ some k) :
    ((slotTokens i t ts).filter fun e => e.1 = k) = [] := by
  rw [List.filter_eq_nil_iff]
  intro e he hk
  obtain ⟨k', hk', rfl⟩ := List.mem_map.mp he
  obtain ⟨y, hy, hs⟩ := List.mem_filterMap.mp hk'
  exact h y hy (by simpa [← of_decide_eq_true hk] using hs)

/-! ### The frame of an instruction that sends one token -/

/-- What an instruction does that sends token t to its targets ts, raises flags fl and finds causes cs. -/
def Effects.sends (ts : List Target) (t : Token) (fl : Word) (cs : List Cause) : Effects :=
  { Effects.none with toks := ts.map fun y => (y, t), flags := fl, causes := cs }

/-- The frame of an instruction that fires, before its effects: it has fired, and the poison it consumed is a cause. -/
def Fire.marked (x : Fire) : Frame := { x.f with fired := x.i :: x.f.fired, causes := x.f.causes ++ poisonCause x }

theorem settle_sends {x : Fire} {st : State} {ts : List Target} {t : Token} {fl : Word} {cs : List Cause} (h : x.f.irrev = true → cs = []) :
    ∃ toks ds, x.settle (Fired.now st (Effects.sends ts t fl cs)) =
        { x.f with
          fired := x.i :: x.f.fired, toks := toks, wtoks := x.f.wtoks ++ slotTokens x.i t ts, flags := x.f.flags ||| fl
          causes := x.f.causes ++ (poisonCause x ++ (ds ++ cs)) } ∧
      (∀ key, tget toks key = if some key ∈ ts.map keyOf then some t else tget x.f.toks key) ∧ OnlyConflicts x.f x.i ts ds := by
  obtain ⟨toks, ds, hts, htoks, hds⟩ := sendAll_eq x.i t ts x.marked
  have happly : applyEffects x.marked x.i (Effects.sends ts t fl cs) = { sendAll x.i t ts x.marked with
      flags := (sendAll x.i t ts x.marked).flags ||| fl, causes := (sendAll x.i t ts x.marked).causes ++ cs } := by
    unfold applyEffects
    rw [if_neg (fun hc => hc.2 (h hc.1))]
    rfl
  refine ⟨toks, ds, happly.trans ?_, htoks, hds⟩
  rw [hts, ← List.append_assoc (poisonCause x), ← List.append_assoc x.f.causes, ← List.append_assoc x.f.causes]
  rfl

/-- A cause POISON of a firing before the irrevocable point with a poisoned operand or guard (07 R133, R144). -/
def Fire.Poisons (x : Fire) (c : Cause) : Prop :=
  c.idx = x.i ∧ c.xlat = none ∧ c.detail = atIndex x.f x.i ∧ c.code = 0x02 ∧ x.f.irrev = false ∧
    (poisOf x.a ||| poisOf x.b ||| poisOf x.c ||| poisOf x.guard) ≠ 0

/-- An operand's poison is consumed only where some operand carries it. -/
theorem ready_poisoned {s : State} {g : Guard} {need passes : List Nat} {x : Fire} (h : ready s g need passes = some x)
    (hc : x.consumed = true) : (poisOf x.a ||| poisOf x.b ||| poisOf x.c ||| poisOf x.guard) ≠ 0 := by
  unfold ready at h
  split at h
  split at h
  · contradiction
  · split at h
    · contradiction
    · simp only at h
      split at h
      · rw [Option.some.injEq] at h
        subst h
        intro hz
        simp only [BitVec.ofNat_eq_ofNat, BitVec.or_eq_zero_iff] at hz
        obtain ⟨⟨⟨ha, hb⟩, hcc⟩, hg⟩ := hz
        simp [ha, hb, hcc, hg] at hc
      · contradiction

theorem poisons_of_mem_poisonCause {s : State} {g : Guard} {need passes : List Nat} {x : Fire} (h : ready s g need passes = some x)
    {c : Cause} (hc : c ∈ poisonCause x) : x.Poisons c := by
  unfold poisonCause at hc
  split at hc
  next hp =>
    rw [List.mem_singleton.mp hc]
    exact ⟨rfl, rfl, rfl, rfl, by simpa using hp.2, ready_poisoned h hp.1⟩
  next => contradiction

theorem poisons_of_mem_usedPoison {x : Fire} {used : Mask} {c : Cause} (hc : c ∈ x.usedPoison used) : x.Poisons c := by
  unfold Fire.usedPoison at hc
  split at hc
  next hp =>
    obtain ⟨-, hirrev, hused⟩ := hp
    rw [List.mem_singleton.mp hc]
    refine ⟨rfl, rfl, rfl, rfl, by simpa using hirrev, fun hz => hused ?_⟩
    simp only [BitVec.ofNat_eq_ofNat, BitVec.or_eq_zero_iff] at hz
    rw [hz.1.1.1, BitVec.zero_and]; rfl
  next => contradiction

/-- The causes of a frame in which poison was consumed or used, and write slots may clash: none is a translation fault, and each is one that
the firing may leave. -/
theorem keepsCauses_of_append {x : Fire} {f : Frame} {codes : List Nat} {cs : List Cause}
    (hf : f.causes = x.f.causes ++ (poisonCause x ++ cs)) (hp : ∀ c ∈ poisonCause x, x.Poisons c)
    (hcs : ∀ c ∈ cs, x.Poisons c ∨ c = conflictCause x.f x.i ∧ 0x73 ∈ codes) :
    f.xfaults = x.f.xfaults ∧ keepsCauses x codes f := by
  have hkind : ∀ c ∈ poisonCause x ++ cs, c.idx = x.i ∧ c.xlat = none ∧ c.detail = atIndex x.f x.i ∧
      ((c.code = 0x02 ∧ x.f.irrev = false ∧ (poisOf x.a ||| poisOf x.b ||| poisOf x.c ||| poisOf x.guard) ≠ 0) ∨ c.code ∈ codes) := by
    intro c hc
    rcases (List.mem_append.mp hc).elim (fun h => .inl (hp c h)) (hcs c) with ⟨hi, hx, hd, hpois⟩ | ⟨rfl, hcode⟩
    · exact ⟨hi, hx, hd, .inl hpois⟩
    · exact ⟨rfl, rfl, rfl, .inr hcode⟩
  refine ⟨?_, ⟨_, hf, hkind⟩, fun hcons hirrev => ?_⟩
  · have hnone : (poisonCause x ++ cs).filterMap (fun c => c.xlat.map fun e => (c.idx, e)) = [] :=
      List.filterMap_eq_nil_iff.mpr fun c hc => by rw [(hkind c hc).2.1]; rfl
    rw [Frame.xfaults, hf, List.filterMap_append, hnone, List.append_nil]
    rfl
  · refine ⟨⟨2, x.i, Code.poison, blockDetail x.f x.i, none⟩, ?_, rfl, rfl, rfl⟩
    simp [hf, poisonCause, hcons, hirrev]

/-- A ready instruction whose body sends one token to its targets has completed with that token, and has left everything else alone. -/
theorem gives_of_sends {m : String} {st : State} {g : Guard} {need passes : List Nat} {x : Fire} {body : Fire → Fired}
    {ts : List Target} {t : Token} {fl : Word} {cs : List Cause} (hr : ready st g need passes = some x)
    (hb : body x = Fired.now st (Effects.sends ts t fl cs)) (hcs : ∀ c ∈ cs, x.Poisons c) :
    gives (fire m st g need passes body) st x ts t fl := by
  have hirrev : x.f.irrev = true → cs = [] := fun h => List.eq_nil_iff_forall_not_mem.mpr fun c hc => by
    obtain ⟨-, -, -, -, hnot, -⟩ := hcs c hc
    simp [h] at hnot
  obtain ⟨toks, ds, hset, htoks, hds⟩ := settle_sends (st := st) (ts := ts) (t := t) (fl := fl) hirrev
  rw [← hb] at hset
  refine ⟨x.settle (body x), ?_, ?_⟩
  · rw [fire_now body hr (by rw [hb]; rfl)]; rfl
  rw [hset]
  obtain ⟨hxf, hcauses⟩ := keepsCauses_of_append
    (codes := if ts.any fun y => (slotNamed y).isSome then [0x73] else [])
    (f := { x.f with causes := x.f.causes ++ (poisonCause x ++ (ds ++ cs)) }) rfl
    (fun c hc => poisons_of_mem_poisonCause hr hc) fun c hc => (List.mem_append.mp hc).elim
      (fun hc => .inr ⟨(hds c hc).1, by simp [(hds c hc).2]⟩) (fun hc => .inl (hcs c hc))
  refine ⟨rfl, fun y hy => lands_iff.mpr ⟨fun k hk => ?operand, fun k hk => ?slot⟩, rfl, rfl, rfl, rfl, rfl, rfl, rfl,
    rfl, rfl, rfl, rfl, rfl, rfl, rfl, rfl, rfl, hxf, hcauses, fun key hkey => ?otherOperand, fun k hk => ?otherSlot⟩
  case operand => exact (htoks k).trans (if_pos (hk ▸ List.mem_map_of_mem hy))
  case slot => exact List.mem_append_right _ (List.mem_map_of_mem (List.mem_filterMap.mpr ⟨y, hy, hk⟩))
  case otherOperand => exact (htoks key).trans (if_neg (by simpa using hkey))
  case otherSlot => exact (List.filter_append ..).trans (by rw [filter_slotTokens hk, List.append_nil])

/-- The same where the body finds no cause. -/
theorem gives_of_token {m : String} {st : State} {g : Guard} {need passes : List Nat} {x : Fire} {body : Fire → Fired}
    {ts : List Target} {t : Token} {fl : Word} (hr : ready st g need passes = some x)
    (hb : body x = Fired.now st (Effects.sends ts t fl [])) : gives (fire m st g need passes body) st x ts t fl :=
  gives_of_sends hr hb fun _ hc => absurd hc List.not_mem_nil

section
variable {m : String} {st : State} {g : Guard} {need passes : List Nat} {x : Fire} {ts : List Target} {wide : Bool}

theorem fireLanes_computesFl {v : Fire → Nat → DWord × Word} {u : Nat → DWord × Word} (hr : ready st g need passes = some x)
    (h : ∀ l, v x l = u l) : computesFl (fireLanes m st g need ts wide v passes) st x ts wide u := by
  obtain rfl : v x = u := funext h
  exact gives_of_token hr rfl

theorem firePure_computes {v : Fire → Nat → DWord} {u : Nat → DWord} (hr : ready st g need passes = some x) (h : ∀ l, v x l = u l) :
    computes (firePure m st g need ts wide v passes) st x ts wide u := by
  obtain rfl : v x = u := funext h
  exact gives_of_token hr rfl

end

end Sys2Proof.Machine
end

section
/-!
PROOFS. Numbers, masks and bit vectors given bit by bit: what the model's sums of powers of two and the statements' `build` hold in each
bit, and the signed reading of a number of n bits.
-/
namespace Sys2Proof.Machine
open Sys2Proof.Spec

/-! ### Signed readings -/

/-- The signed reading of a number of n bits. -/
theorem sextN_toNat {n : Nat} (a : BitVec n) : sextN a.toNat n = a.toInt := by
  have hbit : a.toNat / 2 ^ (n - 1) % 2 ^ 1 = a.msb.toNat := by
    rw [BitVec.msb_eq_getLsbD_last, BitVec.getLsbD, Nat.toNat_testBit, Nat.pow_one]
  rw [sextN, bitsOf, Nat.add_sub_cancel_left, hbit, Nat.mod_eq_of_lt a.isLt, BitVec.toInt_eq_msb_cond]
  cases a.msb <;> simp

/-- A signed reading of n bits looks at no bit above them. -/
theorem sextN_mod {n : Nat} (hn : 0 < n) (x : Nat) : sextN (x % 2 ^ n) n = sextN x n := by
  have hbit : x % 2 ^ n / 2 ^ (n - 1) % 2 = x / 2 ^ (n - 1) % 2 := by
    rw [← Nat.toNat_testBit, ← Nat.toNat_testBit, Nat.testBit_mod_two_pow, decide_eq_true (by omega), Bool.true_and]
  simp only [sextN, bitsOf, Nat.add_sub_cancel_left, Nat.pow_one, hbit, Nat.mod_mod]

/-! ### Built bit by bit -/

theorem ofNat_two_pow (n k : Nat) : BitVec.ofNat n (2 ^ k) = BitVec.twoPow n k :=
  BitVec.eq_of_toNat_eq ((BitVec.toNat_ofNat ..).trans (BitVec.toNat_twoPow ..).symm)

/-- The number whose bit l, below n, is f l. -/
def bitSum (f : Nat → Bool) (n : Nat) : Nat := (List.range n).foldl (fun v l => v + (f l).toNat * 2 ^ l) 0

theorem bitSum_succ (f : Nat → Bool) (n : Nat) : bitSum f (n + 1) = 2 ^ n * (f n).toNat + bitSum f n := by
  rw [bitSum, List.range_succ, List.foldl_append, Nat.add_comm, Nat.mul_comm]
  rfl

theorem bitSum_lt (f : Nat → Bool) (n : Nat) : bitSum f n < 2 ^ n := by
  induction n with
  | zero => exact Nat.one_pos
  | succ n ih =>
    have hbit : 2 ^ n * (f n).toNat ≤ 2 ^ n * 1 := Nat.mul_le_mul_left _ (Bool.toNat_le _)
    rw [bitSum_succ, Nat.pow_succ]
    omega

theorem testBit_bitSum (f : Nat → Bool) (n i : Nat) : (bitSum f n).testBit i = (decide (i < n) && f i) := by
  induction n with
  | zero => simp [bitSum]
  | succ n ih =>
    rw [bitSum_succ, Nat.testBit_two_pow_mul_add _ (bitSum_lt f n), ih]
    rcases Nat.lt_trichotomy i n with h | rfl | h
    · simp [h, Nat.lt_succ_of_lt h]
    · cases f i <;> simp
    · have hout : (f n).toNat.testBit (i - n) = false :=
        Nat.testBit_lt_two_pow (Nat.lt_of_lt_of_le (Bool.toNat_lt _) (Nat.le_self_pow (by omega) 2))
      rw [if_neg (by omega), hout, decide_eq_false (by omega), Bool.false_and]

theorem maskOf_eq (p : Nat → Bool) : maskOf p = BitVec.ofNat 32 (bitSum p 32) := by
  have hstep : (fun n l => if p l then n + 2 ^ l else n) = fun n l => n + (p l).toNat * 2 ^ l := by
    funext n l
    cases p l <;> simp
  rw [maskOf, bitSum, hstep, lanes32]

theorem getLsbD_maskOf (p : Nat → Bool) (l : Nat) : (maskOf p).getLsbD l = (decide (l < 32) && p l) := by
  rw [maskOf_eq, BitVec.getLsbD_ofNat, testBit_bitSum, ← Bool.and_assoc, Bool.and_self]

theorem getLsbD_build (n : Nat) (p : Nat → Bool) (j : Nat) : (build n p).getLsbD j = (decide (j < n) && p j) := by
  have hfold : ∀ m, ((List.range m).foldl (fun v j => if p j then v ||| BitVec.twoPow n j else v) 0#n).getLsbD j =
      (decide (j < n) && (decide (j < m) && p j)) := by
    intro m
    induction m with
    | zero => simp
    | succ m ih =>
      rw [List.range_succ, List.foldl_append, List.foldl_cons, List.foldl_nil]
      by_cases hne : j = m
      · subst hne
        rw [decide_eq_false (Nat.lt_irrefl j)] at ih
        cases p j <;> simp [ih, BitVec.getLsbD_twoPow]
      · have hlt : j < m + 1 ↔ j < m := by omega
        cases p m <;> simp [ih, BitVec.getLsbD_twoPow, hlt, Ne.symm hne]
  refine (hfold n).trans ?_
  rw [← Bool.and_assoc, Bool.and_self]

end Sys2Proof.Machine
end

section
/-!
PROOFS. Integer arithmetic (15 R339, R340): the model computes on exact integers and wraps or clamps once; the statements say what that is on
bit vectors. Each operation needs one fact, for every width.
-/
namespace Sys2Proof.Machine
open Sys2Proof.Spec

/-! ### Class A (R339, 08 R159) -/

theorem clsA_read (s : ClsA) (d : DWord) : s.read d = num s d := by cases s <;> rfl

/-- A clamp to a range: its bounds below and above it, and the value itself inside. -/
theorem clampTo_eq {lo hi : Int} (h : lo ≤ hi) (y : Int) : clampTo lo hi y = if y < lo then lo else if hi < y then hi else y := by
  unfold clampTo
  split
  · omega
  · split <;> omega

/-- A clamped value, with SAT exactly where the clamp changed it. -/
theorem clampTo_flagged {lo hi : Int} (h : lo ≤ hi) (y : Int) :
    (BitVec.ofInt 32 (clampTo lo hi y), flagIf (decide (clampTo lo hi y ≠ y)) flSAT) =
      if y < lo then (BitVec.ofInt 32 lo, 32) else if hi < y then (BitVec.ofInt 32 hi, 32) else (BitVec.ofInt 32 y, 0) := by
  rw [clampTo_eq h]
  split
  next hlow => simp [flagIf, Int.ne_of_lt hlow |>.symm, flSAT]
  next =>
    split
    next hhigh => simp [flagIf, Int.ne_of_lt hhigh, flSAT]
    next => simp [flagIf]

theorem satI32_eq (y : Int) : satI32 y =
    if y < -2147483648 then (0x80000000, 32) else if 2147483647 < y then (0x7FFFFFFF, 32) else (BitVec.ofInt 32 y, 0) :=
  clampTo_flagged (by decide) y

theorem satN32_eq (y : Int) : satN32 y =
    if y < 0 then (0, 32) else if 4294967295 < y then (0xFFFFFFFF, 32) else (BitVec.ofInt 32 y, 0) :=
  clampTo_flagged (by decide) y

/-- A number of 32 bits, zero-extended, is the number itself. -/
theorem z32_ofInt {y : Int} (h0 : 0 ≤ y) (h1 : y ≤ 4294967295) : z32 (BitVec.ofInt 32 y) = BitVec.ofInt 64 y := by
  apply BitVec.eq_of_toNat_eq
  simp only [z32, BitVec.toNat_setWidth, BitVec.toNat_ofInt]
  omega

/-- A class A result: y wrapped to either width, or clamped. -/
theorem clsA_write {s : ClsA} {y : Int} {r32 : Word} {r64 : DWord} (h32 : s = .i32 → BitVec.ofInt 32 y = r32)
    (h64 : s = .i64 → BitVec.ofInt 64 y = r64) : s.write y = result s r32 r64 y := by
  cases s with
  | i32 => rw [← h32 rfl]; rfl
  | i64 => rw [← h64 rfl]; rfl
  | i32sat =>
    simp only [ClsA.write, result, satI32_eq]
    split
    · rfl
    · split <;> rfl
  | n32sat =>
    simp only [ClsA.write, result, satN32_eq]
    split
    · rfl
    · split
      · rfl
      · rw [z32_ofInt (by omega) (by omega)]

/-- A lane of class A, from what the operation is on the integers and, at every width, on bit vectors. -/
theorem laneA_eq_result {f : Int → Int → Int → Int} (r : (n : Nat) → BitVec n → BitVec n → BitVec n → BitVec n)
    (hf : ∀ (n : Nat) (a b c : BitVec n), BitVec.ofInt n (f a.toInt b.toInt c.toInt) = r n a b c) (s : ClsA) (x : Fire) (l : Nat) :
    laneA s f x l = result s (r 32 (x.aw l) (x.bw l) (x.cw l)) (r 64 (x.av l) (x.bv l) (x.cv l))
      (f (num s (x.av l)) (num s (x.bv l)) (num s (x.cv l))) := by
  rw [laneA, clsA_read, clsA_read, clsA_read]
  exact clsA_write (fun h => by rw [h]; exact hf 32 _ _ _) (fun h => by rw [h]; exact hf 64 _ _ _)

section
variable {n : Nat}

theorem ofInt_toInt_add (a b : BitVec n) : BitVec.ofInt n (a.toInt + b.toInt) = a + b := by
  rw [BitVec.ofInt_add, BitVec.ofInt_toInt, BitVec.ofInt_toInt]

theorem ofInt_toInt_mul (a b : BitVec n) : BitVec.ofInt n (a.toInt * b.toInt) = a * b := by
  rw [BitVec.ofInt_mul, BitVec.ofInt_toInt, BitVec.ofInt_toInt]

theorem ofInt_toInt_neg (a : BitVec n) : BitVec.ofInt n (-a.toInt) = -a := by rw [BitVec.ofInt_neg, BitVec.ofInt_toInt]

theorem ofInt_toInt_sub (a b : BitVec n) : BitVec.ofInt n (a.toInt - b.toInt) = a - b := by
  rw [Int.sub_eq_add_neg, BitVec.ofInt_add, ofInt_toInt_neg, BitVec.ofInt_toInt, BitVec.sub_eq_add_neg]

theorem ofInt_toInt_natAbs (a : BitVec n) : BitVec.ofInt n (a.toInt.natAbs : Int) = if a.msb then -a else a := by
  rw [BitVec.msb_eq_toInt]
  by_cases h : a.toInt < 0
  · rw [if_pos (decide_eq_true h), Int.ofNat_natAbs_of_nonpos (Int.le_of_lt h), ofInt_toInt_neg]
  · rw [if_neg (by simpa using h), Int.natAbs_of_nonneg (Int.not_lt.mp h), BitVec.ofInt_toInt]

/-! ### Class S (R340) -/

/-- A lane of class S, from what the operation is, at every width, on signed and on unsigned readings. -/
theorem laneS_eq_byS {f : Nat → Int → Int → Int} (i u : (n : Nat) → BitVec n → BitVec n → BitVec n)
    (hi : ∀ (n : Nat) (a b : BitVec n), BitVec.ofInt n (f n a.toInt b.toInt) = i n a b)
    (hu : ∀ (n : Nat) (a b : BitVec n), BitVec.ofInt n (f n a.toNat b.toNat) = u n a b) (s : ClsS) (x : Fire) (l : Nat) :
    laneS s (f s.bits) x l = byS s (i 32) (u 32) (i 64) (u 64) (x.av l) (x.bv l) := by
  cases s with
  | i32 => exact congrArg w64 (hi 32 _ _)
  | n32 => exact congrArg w64 (hu 32 _ _)
  | i64 => exact hi 64 _ _
  | n64 => exact hu 64 _ _

theorem emod_sq_ediv {p : Int} (hp : 0 < p) (y : Int) : y % (p * p) / p = y / p % p := by
  rw [Int.emod_def, Int.emod_def, ← Int.ediv_ediv_of_nonneg (Int.le_of_lt hp), Int.mul_assoc,
    Int.sub_mul_ediv_left _ _ (Int.ne_of_gt hp)]

/-- The upper half of a product that was formed at twice the width. -/
theorem setWidth_ofInt_shiftRight (y : Int) : ((BitVec.ofInt (2 * n) y) >>> n).setWidth n = BitVec.ofInt n (y / (2 ^ n : Nat)) := by
  apply BitVec.eq_of_toNat_eq
  have hp : (0 : Int) < (2 ^ n : Nat) := Int.natCast_pos.mpr (Nat.two_pow_pos n)
  rw [BitVec.toNat_setWidth, BitVec.toNat_ushiftRight, BitVec.toNat_ofInt, BitVec.toNat_ofInt, Nat.shiftRight_eq_div_pow,
    Nat.two_mul, Nat.pow_add, ← Int.natCast_inj, Int.natCast_emod, Int.natCast_ediv, Int.natCast_mul,
    Int.toNat_of_nonneg (Int.emod_nonneg _ (Int.ne_of_gt (Int.mul_pos hp hp))), Int.toNat_of_nonneg (Int.emod_nonneg _ (Int.ne_of_gt hp)),
    emod_sq_ediv hp, Int.emod_emod]

theorem setWidth_eq_ofInt (m : Nat) (a : BitVec n) : a.setWidth m = BitVec.ofInt m (a.toNat : Int) := by
  rw [BitVec.ofInt_natCast, BitVec.ofNat_toNat]

theorem upper_signed (a b : BitVec n) : BitVec.ofInt n (a.toInt * b.toInt / (2 ^ n : Nat)) =
    ((a.signExtend (2 * n) * b.signExtend (2 * n) : BitVec (2 * n)) >>> n).setWidth n := by
  rw [← setWidth_ofInt_shiftRight, BitVec.ofInt_mul]; rfl

theorem upper_unsigned (a b : BitVec n) : BitVec.ofInt n (a.toNat * b.toNat / (2 ^ n : Nat)) =
    ((a.setWidth (2 * n) * b.setWidth (2 * n) : BitVec (2 * n)) >>> n).setWidth n := by
  rw [← setWidth_ofInt_shiftRight, BitVec.ofInt_mul, setWidth_eq_ofInt (2 * n) a, setWidth_eq_ofInt (2 * n) b]

theorem min_signed (a b : BitVec n) : BitVec.ofInt n (min a.toInt b.toInt) = if a.sle b then a else b := by
  rw [Int.min_def, apply_ite (BitVec.ofInt n)]
  simp [BitVec.sle_iff_toInt_le]

theorem max_signed (a b : BitVec n) : BitVec.ofInt n (max a.toInt b.toInt) = if a.sle b then b else a := by
  rw [Int.max_def, apply_ite (BitVec.ofInt n)]
  simp [BitVec.sle_iff_toInt_le]

theorem min_unsigned (a b : BitVec n) : BitVec.ofInt n (min (a.toNat : Int) b.toNat) = if a ≤ b then a else b := by
  rw [Int.min_def, apply_ite (BitVec.ofInt n)]
  simp [BitVec.le_def]

theorem max_unsigned (a b : BitVec n) : BitVec.ofInt n (max (a.toNat : Int) b.toNat) = if a ≤ b then b else a := by
  rw [Int.max_def, apply_ite (BitVec.ofInt n)]
  simp [BitVec.le_def]

end

/-- Settles O2: each class A operation is one on integers that every width wraps to its own, and each class S operation likewise on both
readings. -/
theorem integerArithmeticResults : Obligations.IntegerArithmeticResults := by
  refine ⟨fun g s ta tb st x => ⟨fun hr => ⟨?add, ?sub, ?mul⟩, fun hr => ?mad, fun hr => ⟨?neg, ?abs⟩⟩,
    fun g s ta tb st x hr => ⟨?mulhi, ?min, ?max⟩⟩
  case add => exact fireLanes_computesFl hr (laneA_eq_result (fun _ a b _ => a + b) (fun _ a b _ => ofInt_toInt_add a b) s x)
  case sub => exact fireLanes_computesFl hr (laneA_eq_result (fun _ a b _ => a - b) (fun _ a b _ => ofInt_toInt_sub a b) s x)
  case mul => exact fireLanes_computesFl hr (laneA_eq_result (fun _ a b _ => a * b) (fun _ a b _ => ofInt_toInt_mul a b) s x)
  case mad =>
    exact fireLanes_computesFl hr (laneA_eq_result (fun _ a b c => a * b + c)
      (fun _ a b c => by rw [BitVec.ofInt_add, ofInt_toInt_mul, BitVec.ofInt_toInt]) s x)
  case neg => exact fireLanes_computesFl hr (laneA_eq_result (fun _ a _ _ => -a) (fun _ a _ _ => ofInt_toInt_neg a) s x)
  case abs =>
    exact fireLanes_computesFl hr
      (laneA_eq_result (fun _ a _ _ => if a.msb then -a else a) (fun _ a _ _ => ofInt_toInt_natAbs a) s x)
  case mulhi =>
    exact firePure_computes hr (laneS_eq_byS (f := fun n a b => a * b / (2 ^ n : Nat)) _ _ (fun _ => upper_signed) (fun _ => upper_unsigned) s x)
  case min => exact firePure_computes hr (laneS_eq_byS (f := fun _ => min) _ _ (fun _ => min_signed) (fun _ => min_unsigned) s x)
  case max => exact firePure_computes hr (laneS_eq_byS (f := fun _ => max) _ _ (fun _ => max_signed) (fun _ => max_unsigned) s x)

end Sys2Proof.Machine
end

section
/-!
PROOFS. Logic, shifts, counts and reversal (15 R343 to R345): the model's numbers below 2^W are the bit vectors of the statements, at any
width.
-/
namespace Sys2Proof.Machine
open Sys2Proof.Spec

/-! ### Class B -/

/-- A class B operand is the low bits of its lane. -/
theorem ofN_clsB_read (s : ClsB) (v : DWord) : ofN (s.read v) = byB s (fun a _ => a) (fun a _ => a) v 0 := by
  cases s with
  | b32 => exact BitVec.ofNat_toNat _ _
  | b64 => exact (BitVec.ofNat_toNat _ _).trans (BitVec.setWidth_eq v)

/-- A bitwise lane (R343), from the operation at 64 bits and how it reads at 32. -/
theorem laneB_eq_byB {f64 : DWord → DWord → DWord} {f32 : Word → Word → Word}
    (h : ∀ a b : DWord, (f64 a b).setWidth 32 = f32 (a.setWidth 32) (b.setWidth 32)) (s : ClsB) (x : Fire) (l : Nat) :
    laneB s f64 x l = byB s f32 f64 (x.av l) (x.bv l) := by
  rw [laneB, ofN_clsB_read]
  cases s with
  | b32 => exact congrArg w64 (h _ _)
  | b64 => rfl

/-- A number of the width that is an operation's result there, at either width. -/
theorem ofN_eq_byB {f : Nat → Nat → Nat} (op : (n : Nat) → BitVec n → BitVec n)
    (h : ∀ (n : Nat) (a : BitVec n), 0 < n → f n a.toNat = (op n a).toNat) (s : ClsB) (v : DWord) :
    ofN (f s.bits (s.read v)) = byB s (fun a _ => op 32 a) (fun a _ => op 64 a) v 0 := by
  cases s with
  | b32 => exact (congrArg ofN (h 32 _ (by decide))).trans (BitVec.ofNat_toNat _ _)
  | b64 => exact (congrArg ofN (h 64 _ (by decide))).trans ((BitVec.ofNat_toNat _ _).trans (BitVec.setWidth_eq _))

/-- A number of the width, at either width, that is itself the result. -/
theorem ofN_eq_ofNat {f : Nat → Nat → Nat} (op : (n : Nat) → BitVec n → Nat)
    (h : ∀ (n : Nat) (a : BitVec n), f n a.toNat = op n a) (s : ClsB) (x : Fire) (l : Nat) :
    ofN (f s.bits (s.read (x.av l))) = BitVec.ofNat 64 (match s with | .b32 => op 32 (x.aw l) | .b64 => op 64 (x.av l)) := by
  cases s with
  | b32 => exact congrArg ofN (h 32 _)
  | b64 => exact congrArg ofN (h 64 _)

/-! ### Shifts and rotates (R344) -/

section
variable {n : Nat} (a : BitVec n) (k : Nat)

theorem shlW_eq : shlW n a.toNat k = (a <<< k).toNat := by
  rw [shlW, BitVec.toNat_shiftLeft, Nat.shiftLeft_eq]
  split
  next h => exact (Nat.mod_eq_zero_of_dvd (Nat.dvd_mul_left_of_dvd (Nat.pow_dvd_pow 2 h) _)).symm
  next => rfl

theorem shrW_eq : shrW n a.toNat k = (a >>> k).toNat := by
  rw [shrW, BitVec.toNat_ushiftRight, Nat.shiftRight_eq_div_pow]
  split
  next h => exact (Nat.div_eq_of_lt (Nat.lt_of_lt_of_le a.isLt (Nat.pow_le_pow_right (by decide) h))).symm
  next => rfl

/-- A value of n bits divided by 2 ^ k is its sign alone once k reaches n - 1. -/
theorem toInt_ediv_two_pow {k : Nat} (h : n - 1 ≤ k) : a.toInt / (2 ^ k : Nat) = if a.toInt < 0 then -1 else 0 := by
  have hlow := BitVec.le_toInt a
  have hhigh := a.toInt_lt
  have hpow : ((2 ^ (n - 1) : Nat) : Int) ≤ (2 ^ k : Nat) := Int.ofNat_le.mpr (Nat.pow_le_pow_right (by decide) h)
  have hcast : ((2 ^ (n - 1) : Nat) : Int) = 2 ^ (n - 1) := Int.natCast_pow 2 (n - 1)
  split
  next hneg => exact Int.ediv_eq_neg_one_of_neg_of_le hneg (by omega)
  next hpos => exact Int.ediv_eq_zero_of_lt (by omega) (by omega)

theorem sarW_eq : sarW n a.toNat k = (a.sshiftRight k).toInt := by
  rw [sarW, sextN_toNat, BitVec.toInt_sshiftRight, Int.shiftRight_eq_div_pow]
  rcases Nat.le_total k (n - 1) with h | h
  · rw [Nat.min_eq_left h]
  · rw [Nat.min_eq_right h, toInt_ediv_two_pow a (Nat.le_refl _), toInt_ediv_two_pow a h]

theorem rotlW_eq (hn : 0 < n) : rotlW n a.toNat k = (a.rotateLeft k).toNat := by
  have hr : k % n < n := Nat.mod_lt k hn
  have hsplit : 2 ^ n = 2 ^ (k % n) * 2 ^ (n - k % n) := by rw [← Nat.pow_add, Nat.add_sub_cancel' (Nat.le_of_lt hr)]
  have hhigh : a.toNat * 2 ^ (k % n) % 2 ^ n = 2 ^ (k % n) * (a.toNat % 2 ^ (n - k % n)) := by
    rw [Nat.mul_comm, hsplit, Nat.mul_mod_mul_left]
  have hlow : a.toNat / 2 ^ (n - k % n) < 2 ^ (k % n) :=
    Nat.div_lt_of_lt_mul (by rw [Nat.mul_comm, ← hsplit]; exact a.isLt)
  rw [rotlW, BitVec.toNat_rotateLeft, Nat.shiftLeft_eq, Nat.shiftRight_eq_div_pow, hhigh, Nat.two_pow_add_eq_or_of_lt hlow]

/-! ### Counts and reversal (R345) -/

/-- The longest initial run of a range on which a test holds. -/
theorem length_takeWhile_range {p : Nat → Bool} {k n : Nat} (hk : k ≤ n) (hp : ∀ i < k, p i = true) (hstop : k < n → p k = false) :
    ((List.range n).takeWhile p).length = k := by
  obtain ⟨m, rfl⟩ := Nat.exists_eq_add_of_le hk
  have hrest : (((List.range m).map (k + ·)).takeWhile p) = [] := by
    cases m with
    | zero => rfl
    | succ m =>
      rw [List.range_succ_eq_map, List.map_cons]
      exact List.takeWhile_cons_of_neg (by simp [hstop (by omega)])
  rw [List.range_add, List.takeWhile_append_of_pos (fun i hi => hp i (List.mem_range.mp hi)), hrest, List.append_nil, List.length_range]

theorem clzW_eq : clzW n a.toNat = leading a := by
  rw [clzW, leading]
  split
  next h => exact (length_takeWhile_range (Nat.le_refl n) (fun i _ => by simp [BitVec.getLsbD, h]) (fun hn => absurd hn (Nat.lt_irrefl n))).symm
  next h =>
    have htop : a.toNat.log2 < n := (Nat.log2_lt h).mpr a.isLt
    refine (length_takeWhile_range (by omega) (fun i hi => ?_) fun _ => ?_).symm
    · have habove : a.toNat < 2 ^ (n - 1 - i) :=
        Nat.lt_of_lt_of_le Nat.lt_log2_self (Nat.pow_le_pow_right (by decide) (by omega))
      rw [BitVec.getLsbD, Nat.testBit_lt_two_pow habove, Bool.not_false]
    · rw [show n - 1 - (n - 1 - a.toNat.log2) = a.toNat.log2 by omega, BitVec.getLsbD, Nat.testBit_log2 h, Bool.not_true]

theorem popW_eq : popW n a.toNat = Spec.ones a := by
  have hfold : ∀ (is : List Nat) (c : Nat),
      is.foldl (fun m i => m + a.toNat / 2 ^ i % 2) c = c + (is.filter fun i => a.getLsbD i).length := by
    intro is
    induction is with
    | nil => exact fun _ => rfl
    | cons i is ih =>
      intro c
      rw [List.foldl_cons, ih, ← Nat.toNat_testBit, List.filter_cons, BitVec.getLsbD]
      cases a.toNat.testBit i <;> simp [Nat.add_assoc, Nat.add_comm 1]
  exact (hfold _ _).trans (Nat.zero_add _)

theorem brevW_eq : brevW n a.toNat = a.reverse.toNat := by
  have hsum : brevW n a.toNat = bitSum (fun i => a.getLsbD (n - 1 - i)) n := by
    simp only [brevW, bitSum, ← Nat.toNat_testBit]
    rfl
  refine Nat.eq_of_testBit_eq fun i => ?_
  rw [hsum, testBit_bitSum]
  exact (BitVec.getLsbD_reverse (x := a)).symm

end

/-- Settles O6: the operations are bitwise, so that the low half of a result depends on the low halves alone; the shifts and counts are those
of bit vectors at any width. -/
theorem logicAndShiftResults : Obligations.LogicAndShiftResults := by
  refine fun g s ta tb st x => ⟨fun hr => ⟨?and, ?or, ?xor, ?andn, ?shl, ?shr, ?sar, ?rotl⟩, fun hr => ⟨?not, ?clz, ?popc, ?brev⟩⟩
  case and => exact firePure_computes hr (laneB_eq_byB (fun _ _ => BitVec.setWidth_and) s x)
  case or => exact firePure_computes hr (laneB_eq_byB (fun _ _ => BitVec.setWidth_or) s x)
  case xor => exact firePure_computes hr (laneB_eq_byB (fun _ _ => BitVec.setWidth_xor) s x)
  case andn => exact firePure_computes hr (laneB_eq_byB (fun a b => by rw [BitVec.setWidth_and, BitVec.setWidth_not (by decide)]) s x)
  case shl => exact firePure_computes hr fun l => ofN_eq_byB (f := fun w a => shlW w a (x.bw l).toNat) (fun _ a => a <<< (x.bw l).toNat) (fun _ a _ => shlW_eq a _) s _
  case shr => exact firePure_computes hr fun l => ofN_eq_byB (f := fun w a => shrW w a (x.bw l).toNat) (fun _ a => a >>> (x.bw l).toNat) (fun _ a _ => shrW_eq a _) s _
  case sar =>
    refine firePure_computes hr fun l => ?_
    cases s with
    | b32 => exact congrArg w64 ((congrArg _ (sarW_eq _ _)).trans BitVec.ofInt_toInt)
    | b64 => exact (congrArg _ (sarW_eq _ _)).trans BitVec.ofInt_toInt
  case rotl => exact firePure_computes hr fun l => ofN_eq_byB (f := fun w a => rotlW w a (x.bw l).toNat) (fun _ a => a.rotateLeft (x.bw l).toNat) (fun _ a hn => rotlW_eq a _ hn) s _
  case not =>
    refine firePure_computes hr fun l => (laneB_eq_byB (f32 := fun a _ => ~~~a) (fun a _ => BitVec.setWidth_not (by decide)) s x l).trans ?_
    cases s <;> rfl
  case clz => exact firePure_computes hr fun l => ofN_eq_ofNat (fun _ => leading) (fun _ => clzW_eq) s x l
  case popc => exact firePure_computes hr fun l => ofN_eq_ofNat (fun _ => Spec.ones) (fun _ => popW_eq) s x l
  case brev => exact firePure_computes hr fun l => ofN_eq_byB (fun _ => BitVec.reverse) (fun _ a _ => brevW_eq a) s _

end Sys2Proof.Machine
end

section
/-!
PROOFS. Bit-field extract and insert and byte select (15 R346 to R348): the model's arithmetic on numbers, read bit by bit.
-/
namespace Sys2Proof.Machine
open Sys2Proof.Spec

/-! ### Extract (R346) -/

section
variable {n : Nat} (a : BitVec n) (pos len : Nat)

theorem extract_of_len_zero (signed : Bool) (h : min len n = 0) : extract signed a pos len = 0 := by
  refine BitVec.eq_of_getLsbD_eq fun j _ => ?_
  simp [extract, getLsbD_build, h]

/-- A signed field: the bits of the shifted source, their top one copied above them. -/
theorem extract_signed (h : min len n ≠ 0) :
    BitVec.ofInt n (sextN (a.toInt / (2 ^ pos : Nat) % (2 ^ min len n : Nat)).toNat (min len n)) = extract true a pos len := by
  have hle : min len n ≤ n := Nat.min_le_right _ _
  generalize hm : min len n = m at h hle ⊢
  have hfield : (BitVec.setWidth m (a.sshiftRight pos)).toNat = (a.toInt / (2 ^ pos : Nat) % (2 ^ m : Nat)).toNat := by
    rw [← BitVec.signExtend_eq_setWidth_of_le _ hle, BitVec.signExtend, BitVec.toNat_ofInt, BitVec.toInt_sshiftRight,
      Int.shiftRight_eq_div_pow]
  rw [← hfield, sextN_toNat]
  refine BitVec.eq_of_getLsbD_eq fun j hj => ?_
  have hext := BitVec.getLsbD_signExtend (BitVec.setWidth m (a.sshiftRight pos)) (v := n) (i := j)
  rw [BitVec.msb_eq_getLsbD_last] at hext
  refine hext.trans ?_
  have hpos : 0 < m := by omega
  have htop : m - 1 < m ∧ ¬ n ≤ m - 1 := by omega
  by_cases hjm : j < m
  · simp [extract, getLsbD_build, hm, hjm, hj, BitVec.getLsbD_sshiftRight, -BitVec.getLsbD_eq_getElem]
  · simp [extract, getLsbD_build, hm, hjm, hj, BitVec.getLsbD_sshiftRight, htop, hpos, Nat.add_sub_assoc hpos, -BitVec.getLsbD_eq_getElem]

/-- An unsigned field: the bits of the shifted source, and 0 above them. -/
theorem extract_unsigned :
    BitVec.ofInt n (((a.toNat : Int) / (2 ^ pos : Nat) % (2 ^ min len n : Nat)).toNat : Int) = extract false a pos len := by
  generalize hm : min len n = m
  have hfield : (a.toNat : Int) / (2 ^ pos : Nat) % (2 ^ m : Nat) = ((a >>> pos).setWidth m).toNat := by
    rw [BitVec.toNat_setWidth, BitVec.toNat_ushiftRight, Nat.shiftRight_eq_div_pow]
    push_cast
    rfl
  rw [hfield, Int.toNat_natCast, BitVec.ofInt_natCast, BitVec.ofNat_toNat]
  refine BitVec.eq_of_getLsbD_eq fun j hj => ?_
  have hsrc : a.getLsbD (pos + j) = (decide (pos + j < n) && a.getLsbD (pos + j)) := by
    by_cases h : pos + j < n
    · simp [h, -BitVec.getLsbD_eq_getElem]
    · simp [h, BitVec.getLsbD_of_ge _ _ (Nat.le_of_not_lt h)]
  by_cases hjm : j < m <;> simp [extract, getLsbD_build, hm, hj, hjm, ← hsrc, -BitVec.getLsbD_eq_getElem]

theorem bfeW_eq (s : ClsS) (a : DWord) (b c : Word) :
    let pos := (b.setWidth 8).toNat
    let len := (c.setWidth 8).toNat
    bfeW s a b c = byS s (fun a _ => extract true a pos len) (fun a _ => extract false a pos len) (fun a _ => extract true a pos len)
      (fun a _ => extract false a pos len) a 0 := by
  intro pos len
  have hpos : b.toNat % 256 = pos := (BitVec.toNat_setWidth 8 b).symm
  have hlen : c.toNat % 256 = len := (BitVec.toNat_setWidth 8 c).symm
  simp only [bfeW, hpos, hlen]
  split
  next hz =>
    cases s with
    | i32 | n32 => exact (congrArg w64 (extract_of_len_zero (n := 32) _ _ _ _ hz)).symm
    | i64 | n64 => exact (extract_of_len_zero (n := 64) _ _ _ _ hz).symm
  next hz =>
    cases s with
    | i32 => exact congrArg w64 (extract_signed (n := 32) _ pos len hz)
    | i64 => exact extract_signed (n := 64) _ pos len hz
    | n32 => exact congrArg w64 (extract_unsigned (n := 32) _ pos len)
    | n64 => exact extract_unsigned (n := 64) _ pos len

end

/-! ### Insert (R347) -/

/-- A number with m bits from pos on replaced, by its three parts. -/
theorem replace_bits (a b pos m : Nat) :
    b - b / 2 ^ pos % 2 ^ m * 2 ^ pos + a % 2 ^ m * 2 ^ pos =
      2 ^ pos * (2 ^ m * (b / 2 ^ pos / 2 ^ m) + a % 2 ^ m) + b % 2 ^ pos := by
  have hb : b = 2 ^ pos * (b / 2 ^ pos) + b % 2 ^ pos := (Nat.div_add_mod b (2 ^ pos)).symm
  have hq : b / 2 ^ pos = 2 ^ m * (b / 2 ^ pos / 2 ^ m) + b / 2 ^ pos % 2 ^ m := (Nat.div_add_mod _ _).symm
  generalize b / 2 ^ pos / 2 ^ m = h at hq ⊢
  generalize b / 2 ^ pos % 2 ^ m = q at hq ⊢
  rw [hq, Nat.mul_add] at hb
  rw [Nat.mul_add, Nat.mul_comm q, Nat.mul_comm (a % 2 ^ m)]
  omega

theorem testBit_replace_bits (a b pos m i : Nat) :
    (b - b / 2 ^ pos % 2 ^ m * 2 ^ pos + a % 2 ^ m * 2 ^ pos).testBit i =
      if pos ≤ i ∧ i < pos + m then a.testBit (i - pos) else b.testBit i := by
  rw [replace_bits, Nat.testBit_two_pow_mul_add _ (Nat.mod_lt _ (Nat.two_pow_pos _)),
    Nat.testBit_two_pow_mul_add _ (Nat.mod_lt _ (Nat.two_pow_pos _))]
  by_cases hlow : i < pos
  · rw [if_pos hlow, if_neg (by omega), Nat.testBit_mod_two_pow, decide_eq_true hlow, Bool.true_and]
  · by_cases hin : i - pos < m
    · rw [if_neg hlow, if_pos hin, if_pos (by omega), Nat.testBit_mod_two_pow, decide_eq_true hin, Bool.true_and]
    · rw [if_neg hlow, if_neg hin, if_neg (by omega), Nat.testBit_div_two_pow, Nat.testBit_div_two_pow,
        show i - pos - m + m + pos = i by omega]

theorem bfiW_eq {n : Nat} (a b : BitVec n) (c : Word) :
    bfiW n a.toNat b.toNat c = (Spec.insert a b (c.setWidth 8).toNat (c.extractLsb' 8 8).toNat).toNat := by
  have hpos : c.toNat % 256 = (c.setWidth 8).toNat := (BitVec.toNat_setWidth 8 c).symm
  have hlen : c.toNat / 256 % 256 = (c.extractLsb' 8 8).toNat := by rw [BitVec.extractLsb'_toNat, Nat.shiftRight_eq_div_pow]
  simp only [bfiW, hpos, hlen]
  generalize (c.setWidth 8).toNat = pos
  generalize (c.extractLsb' 8 8).toNat = len
  refine Nat.eq_of_testBit_eq fun i => Eq.trans ?_ (getLsbD_build n _ i).symm
  have hout (v : BitVec n) (h : ¬ i < n) : v.toNat.testBit i = false := BitVec.getLsbD_of_ge v i (Nat.le_of_not_lt h)
  split
  next hnone =>
    by_cases hi : i < n
    · rw [if_neg (by omega), decide_eq_true hi]; rfl
    · rw [hout b hi, decide_eq_false hi]; rfl
  next hsome =>
    rw [testBit_replace_bits]
    by_cases hi : i < n
    · have hiff : (pos ≤ i ∧ i < pos + min len (n - pos)) ↔ (pos ≤ i ∧ i < pos + len) := by omega
      simp only [hiff, hi]; rfl
    · rw [if_neg (by omega), hout b hi, decide_eq_false hi]; rfl

/-! ### Byte select (R348) -/

theorem leBytes_getD (x : Nat) {n j : Nat} (h : j < n) : (leBytes x n).getD j 0 = BitVec.ofNat 8 (x / 256 ^ j) := by
  induction n generalizing x j with
  | zero => contradiction
  | succ n ih =>
    cases j with
    | zero => simp [leBytes]
    | succ j => rw [leBytes, List.getD_cons_succ, ih _ (by omega), Nat.div_div_eq_div_mul, Nat.pow_succ']

theorem leBytes_length (x n : Nat) : (leBytes x n).length = n := by
  induction n generalizing x with
  | zero => rfl
  | succ n ih => rw [leBytes, List.length_cons, ih]

theorem word_byte (w : Word) (k : Nat) : BitVec.ofNat 8 (w.toNat / 256 ^ k) = w.extractLsb' (8 * k) 8 := by
  rw [BitVec.extractLsb', Nat.shiftRight_eq_div_pow, Nat.pow_mul]

/-- The source byte that a control field names. -/
theorem source_byte (a b : Word) {j : Nat} (hj : j < 8) :
    (leBytes a.toNat 4 ++ leBytes b.toNat 4).getD j 0 =
      if j < 4 then a.extractLsb' (8 * j) 8 else b.extractLsb' (8 * (j - 4)) 8 := by
  rw [List.getD_eq_getElem?_getD]
  split
  next h => rw [List.getElem?_append_left (by rwa [leBytes_length]), ← List.getD_eq_getElem?_getD, leBytes_getD _ h, word_byte]
  next h =>
    rw [List.getElem?_append_right (by rw [leBytes_length]; omega), leBytes_length, ← List.getD_eq_getElem?_getD, leBytes_getD _ (by omega),
      word_byte]

theorem bselByte_eq (a b c : Word) (k : Nat) :
    bselByte (leBytes a.toNat 4 ++ leBytes b.toNat 4) (c.toNat / 256 ^ k % 256) = chosen a b c k := by
  have hfield : c.toNat / 256 ^ k % 256 = (c.extractLsb' (8 * k) 8).toNat := by
    rw [← word_byte, BitVec.toNat_ofNat]
  have hbit (f : Byte) (i : Nat) : (f.toNat / 2 ^ i % 2 = 1) = (f.getLsbD i = true) := by
    rw [BitVec.getLsbD, Nat.testBit_eq_decide_div_mod_eq, decide_eq_true_eq]
  rw [hfield, chosen]
  generalize c.extractLsb' (8 * k) 8 = f
  have hsrc : f.toNat % 8 = (f.extractLsb' 0 3).toNat := by rw [BitVec.extractLsb'_toNat]; rfl
  rw [bselByte, source_byte a b (Nat.mod_lt _ (by decide)), hsrc]
  simp only [← hbit] <;> rfl

theorem toNat_append_byte {m : Nat} (v : BitVec m) (y : Byte) : (v ++ y).toNat = y.toNat + 256 * v.toNat := by
  rw [BitVec.toNat_append, ← Nat.shiftLeft_add_eq_or_of_lt y.isLt, Nat.shiftLeft_eq, Nat.add_comm, Nat.mul_comm]

theorem word4_eq (y0 y1 y2 y3 : Byte) : word4 [y0, y1, y2, y3] = y3 ++ y2 ++ y1 ++ y0 := by
  apply BitVec.eq_of_toNat_eq
  have hlt := (y3 ++ y2 ++ y1 ++ y0).isLt
  simp only [toNat_append_byte] at hlt ⊢
  exact Nat.mod_eq_of_lt hlt

theorem bselW_eq (a b c : Word) : bselW a b c = chosen a b c 3 ++ chosen a b c 2 ++ chosen a b c 1 ++ chosen a b c 0 := by
  simp only [bselW, bselByte_eq]
  exact word4_eq _ _ _ _

/-- Settles O7: each field is found by shifting and masking numbers, whose bits are those of the rules. -/
theorem bitFieldResults : Obligations.BitFieldResults := by
  refine fun g ta tb st x hr => ⟨fun s => ?bfe, fun s => ?bfi, ?bsel⟩
  case bfe => exact firePure_computes hr fun l => bfeW_eq s _ _ _
  case bfi =>
    refine firePure_computes hr fun l => ?_
    cases s with
    | b32 => exact (congrArg ofN (bfiW_eq (x.aw l) (x.bw l) _)).trans (BitVec.ofNat_toNat _ _)
    | b64 => exact (congrArg ofN (bfiW_eq (x.av l) (x.bv l) _)).trans ((BitVec.ofNat_toNat _ _).trans (BitVec.setWidth_eq _))
  case bsel => exact firePure_computes hr fun l => congrArg w64 (bselW_eq _ _ _)

end Sys2Proof.Machine
end

section
/-!
PROOFS. Addresses, widening, moves and constants (15 R349 to R355).
-/
namespace Sys2Proof.Machine
open Sys2Proof.Spec

theorem ofI32_sextN {n : Nat} (hn : 0 < n) (a : Word) : ofI32 (sextN a.toNat n) = w64 ((a.setWidth n).signExtend 32) := by
  rw [← sextN_mod hn, ← BitVec.toNat_setWidth, sextN_toNat]
  rfl

theorem clsL_shift (s : ClsL) : s.toBits.toNat = s.shift := by cases s <;> rfl

theorem ofI64_scaled_sum (a : DWord) (b : Word) (k : Nat) :
    ofI64 (s64 a + s32 b * (2 ^ k : Nat)) = a + b.signExtend 64 <<< k := by
  rw [ofI64, BitVec.ofInt_add, BitVec.ofInt_mul, BitVec.ofInt_natCast, ofNat_two_pow, BitVec.shiftLeft_eq_mul_twoPow]
  exact congrArg (· + _) BitVec.ofInt_toInt

theorem shifted_or_constant (a : Word) (k : BitVec 16) : (a <<< 16) ||| k.setWidth 32 = a.setWidth 16 ++ k := by
  refine BitVec.eq_of_getLsbD_eq fun j hj => ?_
  rw [BitVec.getLsbD_append]
  by_cases h : j < 16
  · simp [h, hj, -BitVec.getLsbD_eq_getElem]
  · simp [h, hj, show j - 16 < 16 by omega, BitVec.getLsbD_of_ge k j (Nat.le_of_not_lt h), -BitVec.getLsbD_eq_getElem]

/-- Settles O8: a move delivers the low bits of its operand; the sums and widenings are those of bit vectors. -/
theorem addressAndMoveResults : Obligations.AddressAndMoveResults := by
  refine fun g ta tb tc td st x => ⟨fun hr => ⟨fun s => ?lea, ?addwSigned, ?addwUnsigned⟩, fun hr => ⟨?sext8, ?sext16, ?sext32, ?zext32⟩,
    fun hr s => ⟨?mov, ?mov4⟩, fun hr => ?null, fun k hr => ?genk, fun k hr => ?appk⟩
  case lea => exact firePure_computes hr fun l => (clsL_shift s).symm ▸ ofI64_scaled_sum _ _ _
  case addwSigned => exact firePure_computes hr fun _ => rfl
  case addwUnsigned => exact firePure_computes hr fun _ => rfl
  case sext8 => exact firePure_computes hr fun _ => ofI32_sextN (n := 8) (by decide) _
  case sext16 => exact firePure_computes hr fun _ => ofI32_sextN (n := 16) (by decide) _
  case sext32 => exact firePure_computes hr fun _ => rfl
  case zext32 => exact firePure_computes hr fun _ => rfl
  case mov => exact firePure_computes hr fun _ => ofN_clsB_read s _
  case mov4 => exact firePure_computes hr fun _ => ofN_clsB_read s _
  case null => exact ⟨_, rfl, rfl, rfl, gives_of_token hr rfl⟩
  case genk =>
    rw [← BitVec.ofNat_toNat]
    exact gives_of_token hr rfl
  case appk => exact firePure_computes hr fun _ => congrArg w64 (shifted_or_constant _ _)

end Sys2Proof.Machine
end

section
/-!
PROOFS. Compares, predicates and sel (15 R356, R358, R359, 18 R440).
-/
namespace Sys2Proof.Machine
open Sys2Proof.Spec

/-! ### Compares and predicates (R356, R358) -/

theorem clsCmp_holds {n : Nat} (c : ClsCmp) (a b : BitVec n) : c.holds n a.toNat b.toNat = compares c a b := by
  simp only [ClsCmp.holds, sextN_toNat]
  cases c with
  | eq => rw [Bool.eq_iff_iff, decide_eq_true_iff, BitVec.toNat_inj]; exact beq_iff_eq.symm
  | ne => rw [Bool.eq_iff_iff, decide_eq_true_iff, Ne, BitVec.toNat_inj]; exact bne_iff_ne.symm
  | lt | le | gt | ge | ltn | len => rfl

/-- The truth of a lane's bit 0. -/
theorem ofB_bit0 (v : DWord) : ofB (bit0 v) = v &&& 1 := by
  have h : v &&& BitVec.twoPow 64 0 = if v.getLsbD 0 then BitVec.twoPow 64 0 else 0#64 := BitVec.and_twoPow v 0
  exact h.symm

/-! ### Select (R359, 18 R440) -/

theorem aw_bit0 (x : Fire) (l : Nat) : (x.aw l).getLsbD 0 = bit0 (x.av l) := by simp [Fire.aw, bit0]

/-- The poison of sel's result: that of the condition, of the guard, and of the operand chosen. -/
def Fire.selPois (x : Fire) : Mask :=
  x.lanes &&& maskOf fun l => (poisOf (if bit0 (x.av l) then x.b else x.c)).getLsbD l || (poisOf x.a).getLsbD l || (poisOf x.guard).getLsbD l

theorem Fire.getLsbD_selPois (x : Fire) (l : Nat) : x.selPois.getLsbD l = (x.has l && ((poisOf x.a).getLsbD l ||
    (poisOf x.guard).getLsbD l || (if (x.aw l).getLsbD 0 then (poisOf x.b).getLsbD l else (poisOf x.c).getLsbD l))) := by
  have hlane : (x.lanes.getLsbD l && decide (l < 32)) = x.has l := by
    by_cases hl : l < 32
    · simp [hl, Fire.has]
    · rw [Fire.has, BitVec.getLsbD_of_ge _ _ (Nat.le_of_not_lt hl), Bool.false_and]
  rw [selPois, BitVec.getLsbD_and, getLsbD_maskOf, ← Bool.and_assoc, hlane, aw_bit0]
  cases bit0 (x.av l) <;> simp [Bool.or_assoc, Bool.or_comm, Bool.or_left_comm]

/-- Settles O9: compares read their operands' numbers at either width, predicates bit 0 alone, and sel carries the poison of what it used. -/
theorem compareAndPredicateResults : Obligations.CompareAndPredicateResults := by
  refine fun g ta tb st x => ⟨fun hr => ⟨fun c => ⟨?cmp, ?cmp64⟩, ?pand, ?por, ?pxor⟩, fun hr => ?pnot, fun hr s => ?sel⟩
  case cmp => exact firePure_computes hr fun _ => congrArg ofB (clsCmp_holds (n := 32) c _ _)
  case cmp64 => exact firePure_computes hr fun _ => congrArg ofB (clsCmp_holds (n := 64) c _ _)
  case pand => exact firePure_computes hr fun _ => by rw [← ofB_bit0, bit0, bit0, bit0, BitVec.getLsbD_and]
  case por => exact firePure_computes hr fun _ => by rw [← ofB_bit0, bit0, bit0, bit0, BitVec.getLsbD_or]
  case pxor => exact firePure_computes hr fun _ => by rw [← ofB_bit0, bit0, bit0, bit0, BitVec.getLsbD_xor]
  case pnot => exact firePure_computes hr fun _ => by rw [← ofB_bit0, bit0, bit0, BitVec.getLsbD_not]; rfl
  case sel =>
    have hgives : gives (exec (.sel g s ta tb) st) st x [ta, tb] ({ x with pois := x.selPois }.res s.wide fun l =>
        ofN (s.read (if bit0 (x.av l) then x.bv l else x.cv l))) 0 := gives_of_token hr rfl
    simp only [ofN_clsB_read, ← aw_bit0] at hgives
    exact ⟨x.selPois, x.getLsbD_selPois, hgives⟩

end Sys2Proof.Machine
end

section
/-!
PROOFS. Lane reads and writes (15 R361 to R363): of the lanes of their operand they use one, and poison counts there alone.
-/
namespace Sys2Proof.Machine
open Sys2Proof.Spec

/-- Poison in the one lane that is used, if any is. -/
theorem and_used_ne_zero (m : Mask) (used : Bool) (j : Nat) :
    decide (m &&& BitVec.ofNat 32 (if used then 2 ^ j else 0) ≠ 0) = (used && m.getLsbD j) := by
  cases used with
  | false => simp
  | true =>
    rw [if_pos rfl, ofNat_two_pow, BitVec.and_twoPow]
    cases hm : m.getLsbD j with
    | false => simp
    | true =>
      have hj : j < 32 := BitVec.lt_of_getLsbD hm
      have hne : BitVec.twoPow 32 j ≠ 0 := fun h0 => by simpa [BitVec.getLsbD_twoPow, hj] using congrArg (·.getLsbD j) h0
      rw [if_pos rfl, decide_eq_true hne, Bool.true_and]

/-- Settles O10: rfl and rdln test one lane of their operand's poison, wrln carries that of every fired lane; a cause they add is POISON. -/
theorem laneReadAndWriteResults : Obligations.LaneReadAndWriteResults := by
  refine fun g s ta tb st x => ⟨fun hr => ?rfl, fun hr => ?rdln, fun hr => ?wrln⟩
  case rfl =>
    rw [← ofN_clsB_read, ← and_used_ne_zero]
    exact gives_of_sends hr rfl fun _ => poisons_of_mem_usedPoison
  case rdln =>
    intro j ok
    have hpois : (ok && ((poisOf x.a).getLsbD j || decide (poisOf x.b ≠ 0) || decide (poisOf x.guard ≠ 0))) =
        (ok && (decide (poisOf x.a &&& BitVec.ofNat 32 (if ok then 2 ^ j else 0) ≠ 0) || decide (poisOf x.b ≠ 0) ||
          decide (poisOf x.guard ≠ 0))) := by
      rw [and_used_ne_zero]
      cases ok <;> rfl
    rw [← ofN_clsB_read, hpois]
    exact gives_of_sends hr rfl fun _ => poisons_of_mem_usedPoison
  case wrln =>
    simp only [← ofN_clsB_read]
    exact gives_of_token hr rfl

end Sys2Proof.Machine
end
